-- ==== Sys2Proof/Word.lean ====
section
/-! DEFINITION. The widths of ZF-CORE's values (spec/00_scope.md R11, R13): bytes of the sink stream, 16-bit CRC,
32-bit host words and registers, 64-bit values held in two registers. -/

namespace Sys2Proof

/-- One byte of the sink stream or of a plane. -/
abbrev Byte := BitVec 8

/-- The CRC-16 register's width. -/
abbrev Half := BitVec 16

/-- The host port's and every register's width (R14). -/
abbrev Word := BitVec 32

/-- A value held in two registers, low word in the lower-numbered one (R13). -/
abbrev DWord := BitVec 64

end Sys2Proof
end

