-- ==== Sys2Proof/Config.lean ====
section
/-! DEFINITION. What an implementation of ZF-CORE fixes (spec/00_scope.md R7, R9) and the free values: the source of
every value the spec calls unspecified (spec/93_implementation_defined.md, treatment `any value`). -/

namespace Sys2Proof

/-- The open parameter `P_SUM_START` (R9, R233): the first sample index over which the best-order selector sums.
It is held in `State` so that a claim about every state covers every value of it (log 4). -/
inductive SumStart where
  /-- a(p) = p, the spec's value -/
  | order
  /-- a(p) = 4 -/
  | four
  /-- a(p) = 0 -/
  | zero
  deriving DecidableEq, Repr

namespace Config

/-- The free values: draw number `n` of the run. It has no body, so nothing can be proved of any value of it (log 6). -/
opaque freeNat : Nat → Nat

/-- `ID`'s value (R2, R31). -/
def idValue : Word := 0x464C4143#32

/-- `VERSION`'s value (R2, R31). -/
def versionValue : Word := 0x00000007#32

/-- The largest sample count per channel of a frame (R7). -/
def maxSamples : Nat := 65535

/-- The poison sum 2^49 - 1 (R7, R234). -/
def poisonSum : Nat := 2 ^ 49 - 1

/-- The sample size from which the chooser checks the residual range (R7, R261). -/
def rangeCheckSize : Nat := 28

/-- The largest partition order (R7). -/
def maxPartitionOrder : Nat := 8

/-- A frame or sample number is below 2^36 (R113, R206). -/
def numberBound : Nat := 2 ^ 36

end Config

end Sys2Proof
end

