-- ==== Sys2Proof/Syntax.lean ====
section
/-! DEFINITION. The 24 commands of ZF-CORE with their command-word fields (spec/30_encoding.md R111, R112, R120;
spec/opcode_table.json). Operands in the argument registers are not fields (R113). -/

namespace Sys2Proof

/-- The eleven sample planes (spec/10_state.md R44). -/
inductive Plane where
  /-- input channel `c` -/
  | ch (c : Fin 8)
  | mid
  | side
  /-- the residual set; never selected by `PL` (R46) -/
  | resp
  deriving DecidableEq, Repr

/-- The stereo modes in the order of their numbers 0..3 (spec/46_stereo.md R320). -/
inductive StereoMode where
  | leftRight
  | leftSide
  | sideRight
  | midSide
  deriving DecidableEq, Repr

/-- One constructor per row of the opcode table (R120). Field names are R111's. -/
inductive Instr where
  | nop
  | bwCrcReset
  | bwWriteBits (n7 : BitVec 7)
  | bwWriteBitsWrapped (n7 : BitVec 7)
  | bwWriteUnary
  | bwFlush
  | bwWriteCrc8
  | bwWriteCrc16
  | bwWriteConstant (ss : BitVec 6)
  | bwWriteVerbatim (pl : Plane) (ss : BitVec 6)
  | bwWriteFixed (ord : BitVec 3) (ss : BitVec 6)
  | bwWriteFrameHeader (var : Bool) (ca : BitVec 4)
  | fpBestOrder (pl : Plane) (cr : Bool)
  | fpResiduals (pl : Plane) (ord : BitVec 3)
  | rcZigzag
  | rcWriteRice (k : BitVec 5)
  | rcOptimise (ord : BitVec 3) (umax : BitVec 4) (maxk : BitVec 5)
  | rcEstimate
  | rcWriteResiduals (ord : BitVec 3)
  | stChoose
  | stTransform (mode : StereoMode)
  | sfChoose (pl : Plane) (ss : BitVec 6)
  | sfEncode (pl : Plane) (ss : BitVec 6)
  | frameEncode (var : Bool)
  deriving DecidableEq, Repr

end Sys2Proof
end

