-- ==== Sys2Proof/WellFormed.lean ====
section
/-! DEFINITION. The legal values of the command-word fields (spec/30_encoding.md R111, R130 (c)). A command word with
a field outside them is illegal. -/

namespace Sys2Proof

/-- `PL` 0..9: every plane but RESP (R46). -/
def legalPlane (pl : Plane) : Bool := decide (pl ≠ .resp)

/-- `N7` 1..64. -/
def legalCount (n7 : BitVec 7) : Bool := decide (1 ≤ n7.toNat ∧ n7.toNat ≤ 64)

/-- `SS` 1..33. -/
def legalSampleSize (ss : BitVec 6) : Bool := decide (1 ≤ ss.toNat ∧ ss.toNat ≤ 33)

/-- `ORD` 0..4. -/
def legalOrder (ord : BitVec 3) : Bool := decide (ord.toNat ≤ 4)

/-- `UMAX` 0..8. -/
def legalUserMax (umax : BitVec 4) : Bool := decide (umax.toNat ≤ 8)

/-- `MAXK` 0..30. -/
def legalMaxParam (maxk : BitVec 5) : Bool := decide (maxk.toNat ≤ 30)

/-- `CA` 0..10. -/
def legalAssignment (ca : BitVec 4) : Bool := decide (ca.toNat ≤ 10)

/-- Every field holds a legal value (R111). `VAR`, `CR`, `MODE` and `K` admit every value of their bits. -/
def Instr.wellFormed : Instr → Bool
  | .nop => true
  | .bwCrcReset => true
  | .bwWriteBits n7 => legalCount n7
  | .bwWriteBitsWrapped n7 => legalCount n7
  | .bwWriteUnary => true
  | .bwFlush => true
  | .bwWriteCrc8 => true
  | .bwWriteCrc16 => true
  | .bwWriteConstant ss => legalSampleSize ss
  | .bwWriteVerbatim pl ss => legalPlane pl && legalSampleSize ss
  | .bwWriteFixed ord ss => legalOrder ord && legalSampleSize ss
  | .bwWriteFrameHeader _ ca => legalAssignment ca
  | .fpBestOrder pl _ => legalPlane pl
  | .fpResiduals pl ord => legalPlane pl && legalOrder ord
  | .rcZigzag => true
  | .rcWriteRice _ => true
  | .rcOptimise ord umax maxk => legalOrder ord && legalUserMax umax && legalMaxParam maxk
  | .rcEstimate => true
  | .rcWriteResiduals ord => legalOrder ord
  | .stChoose => true
  | .stTransform _ => true
  | .sfChoose pl ss => legalPlane pl && legalSampleSize ss
  | .sfEncode pl ss => legalPlane pl && legalSampleSize ss
  | .frameEncode _ => true

end Sys2Proof
end

