-- ==== Sys2Proof/Decode.lean ====
section
/-! DEFINITION. Command words (spec/30_encoding.md R110-R112, R120, R130): the decoder, total on 32-bit words and
rejecting every illegal word, and after it the encoder, written from the same formats. -/

namespace Sys2Proof

/-- `PL`'s codes: 0..7 CH0..CH7, 8 MID, 9 SIDE; 10..15 are reserved (R46). -/
def planeOfCode (c : BitVec 4) : Option Plane :=
  if h : c.toNat < 8 then some (.ch ⟨c.toNat, h⟩)
  else if c = 8 then some .mid
  else if c = 9 then some .side
  else none

/-- `MODE`'s codes (R111, R320). -/
def modeOfCode (c : BitVec 2) : StereoMode :=
  if c = 0 then .leftRight else if c = 1 then .leftSide else if c = 2 then .sideRight else .midSide

namespace Field

/-- `OPC`, bits 31:24. -/
def opc (w : Word) : BitVec 8 := w.extractLsb' 24 8
/-- `PL`, bits 23:20. -/
def pl (w : Word) : BitVec 4 := w.extractLsb' 20 4
/-- `ORD`, bits 18:16. -/
def ord (w : Word) : BitVec 3 := w.extractLsb' 16 3
/-- `MODE`, bits 17:16. -/
def mode (w : Word) : BitVec 2 := w.extractLsb' 16 2
/-- `VAR`, bit 12. -/
def var (w : Word) : Bool := w.getLsbD 12
/-- `CR`, bit 12. -/
def cr (w : Word) : Bool := w.getLsbD 12
/-- `UMAX`, bits 11:8. -/
def umax (w : Word) : BitVec 4 := w.extractLsb' 8 4
/-- `N7`, bits 6:0. -/
def n7 (w : Word) : BitVec 7 := w.extractLsb' 0 7
/-- `SS`, bits 5:0. -/
def ss (w : Word) : BitVec 6 := w.extractLsb' 0 6
/-- `K`, bits 4:0. -/
def k (w : Word) : BitVec 5 := w.extractLsb' 0 5
/-- `MAXK`, bits 4:0. -/
def maxk (w : Word) : BitVec 5 := w.extractLsb' 0 5
/-- `CA`, bits 3:0. -/
def ca (w : Word) : BitVec 4 := w.extractLsb' 0 4

end Field

/-- The bits of a command word its format leaves reserved (R112): the letters' complement within bits 23:0. -/
def reservedOf (fields : Word) : Word := 0x00FFFFFF#32 &&& ~~~fields

/-- The field bits of each format of R112, by opcode; `none` where R120 assigns no command. -/
def fieldMask (op : BitVec 8) : Option Word :=
  match op with
  | 0x00#8 | 0x10#8 | 0x13#8 | 0x14#8 | 0x15#8 | 0x16#8 | 0x30#8 | 0x33#8 | 0x40#8 => some 0x00000000#32
  | 0x11#8 | 0x12#8 => some 0x0000007F#32
  | 0x17#8 => some 0x0000003F#32
  | 0x18#8 | 0x50#8 | 0x51#8 => some 0x00F0003F#32
  | 0x19#8 => some 0x0007003F#32
  | 0x1A#8 => some 0x0000100F#32
  | 0x20#8 => some 0x00F01000#32
  | 0x21#8 => some 0x00F70000#32
  | 0x31#8 => some 0x0000001F#32
  | 0x32#8 => some 0x00070F1F#32
  | 0x34#8 => some 0x00070000#32
  | 0x41#8 => some 0x00030000#32
  | 0x60#8 => some 0x00001000#32
  | _ => none

/-- The command an opcode names, with its fields read from `w` (R111, R120), before the reserved bits and the legal
ranges are checked. -/
def fieldsOf (w : Word) : Option Instr :=
  match Field.opc w with
  | 0x00#8 => some .nop
  | 0x10#8 => some .bwCrcReset
  | 0x11#8 => some (.bwWriteBits (Field.n7 w))
  | 0x12#8 => some (.bwWriteBitsWrapped (Field.n7 w))
  | 0x13#8 => some .bwWriteUnary
  | 0x14#8 => some .bwFlush
  | 0x15#8 => some .bwWriteCrc8
  | 0x16#8 => some .bwWriteCrc16
  | 0x17#8 => some (.bwWriteConstant (Field.ss w))
  | 0x18#8 => (planeOfCode (Field.pl w)).map fun pl => .bwWriteVerbatim pl (Field.ss w)
  | 0x19#8 => some (.bwWriteFixed (Field.ord w) (Field.ss w))
  | 0x1A#8 => some (.bwWriteFrameHeader (Field.var w) (Field.ca w))
  | 0x20#8 => (planeOfCode (Field.pl w)).map fun pl => .fpBestOrder pl (Field.cr w)
  | 0x21#8 => (planeOfCode (Field.pl w)).map fun pl => .fpResiduals pl (Field.ord w)
  | 0x30#8 => some .rcZigzag
  | 0x31#8 => some (.rcWriteRice (Field.k w))
  | 0x32#8 => some (.rcOptimise (Field.ord w) (Field.umax w) (Field.maxk w))
  | 0x33#8 => some .rcEstimate
  | 0x34#8 => some (.rcWriteResiduals (Field.ord w))
  | 0x40#8 => some .stChoose
  | 0x41#8 => some (.stTransform (modeOfCode (Field.mode w)))
  | 0x50#8 => (planeOfCode (Field.pl w)).map fun pl => .sfChoose pl (Field.ss w)
  | 0x51#8 => (planeOfCode (Field.pl w)).map fun pl => .sfEncode pl (Field.ss w)
  | 0x60#8 => some (.frameEncode (Field.var w))
  | _ => none

/-- No reserved bit of the word's format is 1 (R130 (b)). -/
def reservedClear (w : Word) : Bool :=
  match fieldMask (Field.opc w) with
  | some m => w &&& reservedOf m == 0#32
  | none => false

/-- The command a word stands for; `none` exactly for the illegal words of R130. -/
def decode (w : Word) : Option Instr :=
  if reservedClear w then (fieldsOf w).filter Instr.wellFormed else none

/-- What the decoder reads from the `nbits`-bit table row `w` (every command word has 32 bits, R110). -/
def decodeTableWord (nbits w : Nat) : Option Instr := decode (BitVec.ofNat 32 (w % 2 ^ nbits))

/-- A plane's `PL` code (R46); RESP has none, and 10, a reserved code, stands for it. -/
def Plane.code : Plane → BitVec 4
  | .ch c => BitVec.ofNat 4 c.val
  | .mid => 8
  | .side => 9
  | .resp => 10

/-- A stereo mode's number (R320). -/
def StereoMode.code : StereoMode → BitVec 2
  | .leftRight => 0
  | .leftSide => 1
  | .sideRight => 2
  | .midSide => 3

/-- The opcode of each command (R120). -/
def Instr.opcode : Instr → BitVec 8
  | .nop => 0x00
  | .bwCrcReset => 0x10
  | .bwWriteBits _ => 0x11
  | .bwWriteBitsWrapped _ => 0x12
  | .bwWriteUnary => 0x13
  | .bwFlush => 0x14
  | .bwWriteCrc8 => 0x15
  | .bwWriteCrc16 => 0x16
  | .bwWriteConstant _ => 0x17
  | .bwWriteVerbatim _ _ => 0x18
  | .bwWriteFixed _ _ => 0x19
  | .bwWriteFrameHeader _ _ => 0x1A
  | .fpBestOrder _ _ => 0x20
  | .fpResiduals _ _ => 0x21
  | .rcZigzag => 0x30
  | .rcWriteRice _ => 0x31
  | .rcOptimise _ _ _ => 0x32
  | .rcEstimate => 0x33
  | .rcWriteResiduals _ => 0x34
  | .stChoose => 0x40
  | .stTransform _ => 0x41
  | .sfChoose _ _ => 0x50
  | .sfEncode _ _ => 0x51
  | .frameEncode _ => 0x60

/-- Bits 23:0 of a command word: the fields at the positions of R112's pattern, reserved bits 0. -/
def Instr.fieldBits : Instr → BitVec 24
  | .nop | .bwCrcReset | .bwWriteUnary | .bwFlush | .bwWriteCrc8 | .bwWriteCrc16
  | .rcZigzag | .rcEstimate | .stChoose => 0#24
  | .bwWriteBits n7 | .bwWriteBitsWrapped n7 => 0#17 ++ n7
  | .bwWriteConstant ss => 0#18 ++ ss
  | .bwWriteVerbatim pl ss | .sfChoose pl ss | .sfEncode pl ss => pl.code ++ 0#14 ++ ss
  | .bwWriteFixed ord ss => 0#5 ++ ord ++ 0#10 ++ ss
  | .bwWriteFrameHeader var ca => 0#11 ++ BitVec.ofBool var ++ 0#8 ++ ca
  | .fpBestOrder pl cr => pl.code ++ 0#7 ++ BitVec.ofBool cr ++ 0#12
  | .fpResiduals pl ord => pl.code ++ 0#1 ++ ord ++ 0#16
  | .rcWriteRice k => 0#19 ++ k
  | .rcOptimise ord umax maxk => 0#5 ++ ord ++ 0#4 ++ umax ++ 0#3 ++ maxk
  | .rcWriteResiduals ord => 0#5 ++ ord ++ 0#16
  | .stTransform mode => 0#6 ++ mode.code ++ 0#16
  | .frameEncode var => 0#11 ++ BitVec.ofBool var ++ 0#12

/-- The command word of a command (R110): the opcode in bits 31:24, the fields below. -/
def encode (i : Instr) : Word := i.opcode ++ i.fieldBits

/-- One row of spec/opcode_table.json: a word belongs to it when `w &&& mask = pattern`. -/
structure OpRow where
  mnemonic : String
  mask : Word
  pattern : Word
  deriving DecidableEq, Repr

/-- Each command's row of the opcode table. -/
def Instr.row : Instr → OpRow
  | .nop => ⟨"NOP", 0xFFFFFFFF, 0x00000000⟩
  | .bwCrcReset => ⟨"BW_CRC_RESET", 0xFFFFFFFF, 0x10000000⟩
  | .bwWriteBits _ => ⟨"BW_WRITE_BITS", 0xFFFFFF80, 0x11000000⟩
  | .bwWriteBitsWrapped _ => ⟨"BW_WRITE_BITS_WRAPPED", 0xFFFFFF80, 0x12000000⟩
  | .bwWriteUnary => ⟨"BW_WRITE_UNARY", 0xFFFFFFFF, 0x13000000⟩
  | .bwFlush => ⟨"BW_FLUSH", 0xFFFFFFFF, 0x14000000⟩
  | .bwWriteCrc8 => ⟨"BW_WRITE_CRC8", 0xFFFFFFFF, 0x15000000⟩
  | .bwWriteCrc16 => ⟨"BW_WRITE_CRC16", 0xFFFFFFFF, 0x16000000⟩
  | .bwWriteConstant _ => ⟨"BW_WRITE_CONSTANT", 0xFFFFFFC0, 0x17000000⟩
  | .bwWriteVerbatim _ _ => ⟨"BW_WRITE_VERBATIM", 0xFF0FFFC0, 0x18000000⟩
  | .bwWriteFixed _ _ => ⟨"BW_WRITE_FIXED", 0xFFF8FFC0, 0x19000000⟩
  | .bwWriteFrameHeader _ _ => ⟨"BW_WRITE_FRAME_HEADER", 0xFFFFEFF0, 0x1A000000⟩
  | .fpBestOrder _ _ => ⟨"FP_BEST_ORDER", 0xFF0FEFFF, 0x20000000⟩
  | .fpResiduals _ _ => ⟨"FP_RESIDUALS", 0xFF08FFFF, 0x21000000⟩
  | .rcZigzag => ⟨"RC_ZIGZAG", 0xFFFFFFFF, 0x30000000⟩
  | .rcWriteRice _ => ⟨"RC_WRITE_RICE", 0xFFFFFFE0, 0x31000000⟩
  | .rcOptimise _ _ _ => ⟨"RC_OPTIMISE", 0xFFF8F0E0, 0x32000000⟩
  | .rcEstimate => ⟨"RC_ESTIMATE", 0xFFFFFFFF, 0x33000000⟩
  | .rcWriteResiduals _ => ⟨"RC_WRITE_RESIDUALS", 0xFFF8FFFF, 0x34000000⟩
  | .stChoose => ⟨"ST_CHOOSE", 0xFFFFFFFF, 0x40000000⟩
  | .stTransform _ => ⟨"ST_TRANSFORM", 0xFFFCFFFF, 0x41000000⟩
  | .sfChoose _ _ => ⟨"SF_CHOOSE", 0xFF0FFFC0, 0x50000000⟩
  | .sfEncode _ _ => ⟨"SF_ENCODE", 0xFF0FFFC0, 0x51000000⟩
  | .frameEncode _ => ⟨"FRAME_ENCODE", 0xFFFFEFFF, 0x60000000⟩

end Sys2Proof
end

