-- ==== Sys2Proof/Machine/State.lean ====
section
/-! DEFINITION. The state of ZF-CORE (spec/10_state.md R51), the agents around it as plain data, the reasons a step can
stop, and the state after a hardware reset (spec/70_reset_and_hazards.md R401). -/

namespace Sys2Proof.Machine

/-- The planes' contents as bytes by host-window offset (spec/20_memory.md R81), in canonical form: offsets strictly
rising. An unlisted byte holds no value (spec/10_state.md R47; logs 7, 8). -/
abbrev Memory := List Host.Cell

/-- The error codes of `STATUS.ERR_CODE` that have a name (spec/60_exceptions.md R362). -/
inductive ErrorCode where
  | none
  | writeFailed
  /-- reserved, never raised (U6) -/
  | outOfMemory
  | unsupportedFormat
  /-- reserved, never raised (U6) -/
  | incompleteStream
  | illegalCommand
  | invalidOperand
  | hostAccess
  | bwUnaligned
  | paramEscape
  | residualRange
  deriving DecidableEq, Repr

/-- The Rice method, the width of the parameter field (spec/10_state.md R37). -/
inductive Method where
  | four
  | five
  deriving DecidableEq, Repr

/-- The engine (spec/10_state.md R49): idle, or busy with a command word in progress and the `CTRL.STEREO_EN` it was
accepted with (spec/20_memory.md R91 (2); log 13). -/
inductive EngineState where
  | idle
  | busy (word : Word) (stereo : Bool)
  deriving DecidableEq, Repr

/-- What the host and the platform do to the block. Offsets are relative to `P_BASE` (log 5); `width` is in bytes. -/
inductive HostEvent where
  | read (offset : BitVec 22) (width : Nat)
  | write (offset : BitVec 22) (width : Nat) (value : Word)
  /-- the platform asserts the reset input (spec/70_reset_and_hazards.md R400) -/
  | hardReset
  deriving DecidableEq, Repr

/-- Who moves while the engine is busy (spec/70_reset_and_hazards.md R420; log 2). -/
inductive Turn where
  /-- the host's next event -/
  | host
  /-- nobody: a sink delay or an engine step nobody sees -/
  | wait
  /-- the engine runs the command in progress to its end -/
  | engine
  deriving DecidableEq, Repr

/-- The sink's answer to one byte (spec/20_memory.md R97). -/
inductive SinkAnswer where
  | accept
  | fail
  deriving DecidableEq, Repr

/-- Why the model itself stops. -/
inductive Fault where
  /-- A command reads plane entry `pl[i]`, which nothing has written since the hardware reset: spec/10_state.md R47 and
  U1 make it a fault of the model. Raised by the engine's plane reads. Safe. -/
  | unwrittenEntry (pl : Plane) (i : Nat)
  deriving DecidableEq, Repr

/-- Why the model has no meaning for an instruction. -/
inductive Refusal where
  /-- Raised by an arm of `exec` whose instruction has no meaning yet; no arm does. Safe. -/
  | notModelled (mnemonic : String)
  deriving DecidableEq, Repr

/-- The machine (spec/10_state.md R51) and the agents around it. -/
structure State where
  /-- `CTRL.IRQ_EN` (R33) -/
  irqEn : Bool
  /-- `CTRL.STEREO_EN` (R33) -/
  stereoEn : Bool
  /-- `STATUS.DONE` (R34) -/
  done : Bool
  /-- `STATUS.ERR` (R34) -/
  err : Bool
  /-- `STATUS.ERR_CODE` (R34) -/
  errCode : ErrorCode
  /-- the engine; `STATUS.BUSY` is its view (R34, R49) -/
  engine : EngineState
  /-- `FMT.CHANNELS` (R36) -/
  channels : BitVec 4
  /-- `FMT.BITS` (R36) -/
  bits : BitVec 6
  /-- `FMT.RATE` (R36) -/
  rate : BitVec 20
  /-- `RICE_CFG.METHOD` (R37) -/
  method : Method
  /-- `RICE_CFG.PORDER` (R37) -/
  porder : BitVec 4
  /-- `PARAM0`-`PARAM255` (R43) -/
  param : Vector (BitVec 5) 256
  /-- `ARG0`-`ARG3` (R41) -/
  args : Vector Word 4
  /-- `RES0`-`RES15` (R42) -/
  res : Vector Word 16
  /-- the CRC-8 register (R39) -/
  crc8 : Byte
  /-- the CRC-16 register (R39) -/
  crc16 : Half
  /-- `BYTES_WRITTEN` (R39) -/
  bytesWritten : Word
  /-- the number of pending bits (R40) -/
  nb : BitVec 3
  /-- the pending bits, right-aligned (R38, R40) -/
  acc : BitVec 7
  /-- the eleven planes (R44) -/
  mem : Memory
  /-- the bytes the sink has accepted (R48) -/
  out : List Byte
  /-- host accesses and platform events still to come (log 1) -/
  host : List HostEvent
  /-- who moves while the engine is busy; exhausted, the engine does (log 2) -/
  turns : List Turn
  /-- the sink's answers to the coming bytes; exhausted, it accepts (log 3) -/
  sink : List SinkAnswer
  /-- what the last host read returned (log 14) -/
  readData : Word
  /-- free values drawn so far (log 6) -/
  draws : Nat
  /-- the configuration parameter `P_SUM_START` (00_scope.md R9; log 4) -/
  sumStart : SumStart
  deriving DecidableEq, Repr

/-- The machine after the hardware reset that starts it (R401), with nothing in any agent's list. -/
def State.reset : State where
  irqEn := false
  stereoEn := true
  done := false
  err := false
  errCode := .none
  engine := .idle
  channels := 0
  bits := 0
  rate := 0
  method := .four
  porder := 0
  param := Vector.replicate 256 0
  args := Vector.replicate 4 0
  res := Vector.replicate 16 0
  crc8 := 0
  crc16 := 0
  bytesWritten := 0
  nb := 0
  acc := 0
  mem := []
  out := []
  host := []
  turns := []
  sink := []
  readData := 0
  draws := 0
  sumStart := .order

end Sys2Proof.Machine
end

