-- ==== Sys2Proof/Machine/Ops.lean ====
section
/-! DEFINITION. The shared operations over planes, registers and the output: bit fields (spec/00_scope.md R10-R12),
memory and plane entries (spec/20_memory.md R81-R83, spec/10_state.md R45), how a command's pseudocode ends
(spec/00_scope.md R16), the CRCs and output primitives (spec/41_bitwriter.md R150-R156), completion, error entry and
the reset that leaves the error state (spec/60_exceptions.md R366-R369, spec/70_reset_and_hazards.md R401-R403). -/

namespace Sys2Proof.Machine

/-! ### Bit fields and ranges -/

/-- `low_n(v)`: the low `n` bits of a two's-complement value, as an unsigned integer (R11). -/
def lowBits (n : Nat) (v : Int) : Nat := (v % (2 ^ n : Int)).toNat

/-- `v ∈ i32` (R11). -/
def inI32 (v : Int) : Bool := decide (-(2 ^ 31) ≤ v ∧ v ≤ 2 ^ 31 - 1)

/-! ### Memory -/

/-- The canonical form: offsets strictly rising. -/
def Memory.wf (m : Memory) : Bool := decide ((m.map Prod.fst).Pairwise (· < ·))

/-- What byte `a` holds; `none` where nothing has been written since the hardware reset (R47). -/
def Memory.readByte (m : Memory) (a : Nat) : Option Byte := (m.find? fun c => c.1 == a).map Prod.snd

/-- `m` with byte `a` holding `b`. An unlisted byte holds no value, so a write never removes an entry. -/
def Memory.writeByte (m : Memory) (a : Nat) (b : Byte) : Memory :=
  match m with
  | [] => [(a, b)]
  | c :: cs => if a < c.1 then (a, b) :: c :: cs else if a = c.1 then (a, b) :: cs else c :: writeByte cs a b

/-- The 32-bit word at offset `a`. Which byte of a word lies lower is not observable (R83; log 7). -/
def Memory.readWord (m : Memory) (a : Nat) : Option Word :=
  match m.readByte a, m.readByte (a + 1), m.readByte (a + 2), m.readByte (a + 3) with
  | some b0, some b1, some b2, some b3 => some (b3 ++ b2 ++ b1 ++ b0)
  | _, _, _, _ => none

/-- `m` with the 32-bit word `v` at offset `a`. -/
def Memory.writeWord (m : Memory) (a : Nat) (v : Word) : Memory :=
  (((m.writeByte a (v.extractLsb' 0 8)).writeByte (a + 1) (v.extractLsb' 8 8)).writeByte
    (a + 2) (v.extractLsb' 16 8)).writeByte (a + 3) (v.extractLsb' 24 8)

/-! ### Planes -/

/-- The window offset of a plane's entry 0 (R81). -/
def planeBase : Plane → Nat
  | .ch c => 0x100000 + c.val * 0x40000
  | .mid => 0x300000
  | .resp => 0x340000
  | .side => 0x380000

/-- The bytes of one entry: 8 for SIDE, 4 for the others (R44, R81). -/
def entryBytes : Plane → Nat
  | .side => 8
  | _ => 4

/-- The window offset of entry `i` (R81). -/
def entryOffset (pl : Plane) (i : Nat) : Nat := planeBase pl + entryBytes pl * i

/-- `P[pl][i]` as a signed integer (R45); SIDE's low word lies first (R82). An entry of SIDE of which the host has written
one word only holds no value: R47 speaks of an entry that nothing has written, and this one is the model's choice
(DESIGN CHOICE, log 8). -/
def readEntry (pl : Plane) (i : Nat) (m : Memory) : Option Int :=
  match pl with
  | .side =>
    match m.readWord (entryOffset .side i), m.readWord (entryOffset .side i + 4) with
    | some lo, some hi => some (hi ++ lo : DWord).toInt
    | _, _ => none
  | _ => (m.readWord (entryOffset pl i)).map BitVec.toInt

/-- `P[pl][i] <- v`: 64 bits into SIDE, 32 into any other plane (R44). -/
def writeEntry (pl : Plane) (i : Nat) (v : Int) (m : Memory) : Memory :=
  match pl with
  | .side =>
    let d : DWord := BitVec.ofInt 64 v
    (m.writeWord (entryOffset .side i) (d.extractLsb' 0 32)).writeWord (entryOffset .side i + 4) (d.extractLsb' 32 32)
  | _ => m.writeWord (entryOffset pl i) (BitVec.ofInt 32 v)

/-- Entries `i .. i+n-1`, in order; the first one nothing has written is the fault (R47). -/
def readEntries (pl : Plane) (m : Memory) : (i n : Nat) → Except Fault (List Int)
  | _, 0 => .ok []
  | i, n + 1 =>
    match readEntry pl i m with
    | none => .error (.unwrittenEntry pl i)
    | some v =>
      match readEntries pl m (i + 1) n with
      | .error f => .error f
      | .ok vs => .ok (v :: vs)

/-- `P[pl][i], P[pl][i+1], … <- vs`, in order. -/
def writeEntries (pl : Plane) : (i : Nat) → List Int → Memory → Memory
  | _, [], m => m
  | i, v :: vs, m => writeEntries pl (i + 1) vs (writeEntry pl i v m)

/-! ### How pseudocode ends -/

/-- The end of a command's pseudocode: it finishes, it raises an error in some state (R16), or the model faults. -/
inductive Run where
  | ok (s : State)
  | error (c : ErrorCode) (s : State)
  | fault (f : Fault)
  deriving DecidableEq, Repr

/-- Pseudocode in sequence: an error ends the whole command, inner commands included (spec/60_exceptions.md R365). -/
def Run.andThen (r : Run) (f : State → Run) : Run :=
  match r with
  | .ok s => f s
  | .error c s => .error c s
  | .fault g => .fault g

/-- Pseudocode that goes on with entries read from a plane. -/
def withEntries (r : Except Fault (List Int)) (f : List Int → Run) : Run :=
  match r with
  | .ok vs => f vs
  | .error g => .fault g

/-! ### Result, parameter and argument registers -/

/-- `RES[i] <- v` (R13). -/
def setRes (i : Nat) (v : Word) (s : State) : State := { s with res := s.res.setIfInBounds i v }

/-- `RES64(i) <- v`: low word in `RES[i]`, high word in `RES[i+1]` (R13). -/
def setRes64 (i : Nat) (v : DWord) (s : State) : State :=
  setRes (i + 1) (v.extractLsb' 32 32) (setRes i (v.extractLsb' 0 32) s)

/-- `RES[i]`. -/
def getRes (i : Nat) (s : State) : Word := s.res.getD i 0

/-- `PARAM[j]` (R43). -/
def getParam (j : Nat) (s : State) : Nat := (s.param.getD j 0).toNat

/-- `PARAM[j], PARAM[j+1], … <- ks`. -/
def setParams : (j : Nat) → List Nat → State → State
  | _, [], s => s
  | j, k :: ks, s => setParams (j + 1) ks { s with param := s.param.setIfInBounds j (BitVec.ofNat 5 k) }

/-! ### CRCs -/

/-- One bit's step of the CRC-8 (R150). -/
def crc8Shift (c : Byte) : Byte := if c.msb then (c <<< 1) ^^^ 0x07#8 else c <<< 1

/-- `crc8_update(c, b)` (R150). -/
def crc8Update (c b : Byte) : Byte := Nat.repeat crc8Shift 8 (c ^^^ b)

/-- One bit's step of the CRC-16 (R151). -/
def crc16Shift (c : Half) : Half := if c.msb then (c <<< 1) ^^^ 0x8005#16 else c <<< 1

/-- `crc16_update(c, b)` (R151). -/
def crc16Update (c : Half) (b : Byte) : Half := Nat.repeat crc16Shift 8 (c ^^^ (b ++ 0#8))

/-! ### Output primitives -/

/-- The sink accepts `b`: it joins `OUT`, and both CRCs and the counter account for it (R152). -/
def acceptByte (b : Byte) (s : State) : State :=
  { s with
    out := s.out ++ [b]
    crc8 := crc8Update s.crc8 b
    crc16 := crc16Update s.crc16 b
    bytesWritten := s.bytesWritten + 1
    sink := s.sink.tail }

/-- `emit_byte(b)` (R152): the sink's next answer decides; an exhausted list of answers accepts (log 3). -/
def emitByte (b : Byte) (s : State) : Run :=
  match s.sink with
  | .fail :: rest => .error .writeFailed { s with sink := rest }
  | _ => .ok (acceptByte b s)

/-- `emit_bit(x)` (R153). -/
def emitBit (x : Bool) (s : State) : Run :=
  let a : BitVec 8 := s.acc ++ BitVec.ofBool x
  if s.nb = 7 then emitByte a { s with acc := 0, nb := 0 }
  else .ok { s with acc := a.setWidth 7, nb := s.nb + 1 }

/-- `emit_bits(n, v)` (R154). -/
def emitBits : (n v : Nat) → State → Run
  | 0, _, s => .ok s
  | n + 1, v, s => (emitBit (v.testBit n) s).andThen (emitBits n v)

/-- `repeat q times: emit_bit(0)`. -/
def emitZeros : (q : Nat) → State → Run
  | 0, s => .ok s
  | q + 1, s => (emitBit false s).andThen (emitZeros q)

/-- `emit_unary(q)` (R155). -/
def emitUnary (q : Nat) (s : State) : Run := (emitZeros q s).andThen (emitBit true)

/-- `emit_flush()` (R156). -/
def emitFlush (s : State) : Run := if s.nb = 0 then .ok s else emitBits (8 - s.nb.toNat) 0 s

/-- `emit(P[pl][i])` for `n` entries from `i`, each read when its turn comes. -/
def emitEntries (emit : Int → State → Run) (pl : Plane) : (i n : Nat) → State → Run
  | _, 0, s => .ok s
  | i, n + 1, s =>
    match readEntry pl i s.mem with
    | none => .fault (.unwrittenEntry pl i)
    | some v => (emit v s).andThen (emitEntries emit pl (i + 1) n)

/-- `crc8 <- 0 ; crc16 <- 0 ; BYTES_WRITTEN <- 0` (R160, R210). -/
def clearSpan (s : State) : State := { s with crc8 := 0, crc16 := 0, bytesWritten := 0 }

/-! ### Unspecified values -/

/-- Free value number `k` from here on (log 6). -/
def State.free (s : State) (k : Nat) : Nat := Config.freeNat (s.draws + k)

/-- The plane bytes a command's rule writes, as (offset, count) pairs. -/
abbrev Footprint := List (Nat × Nat)

/-- Free values into `n` bytes from offset `a`, drawn from number `k` on. -/
def scrambleBytes (s : State) : (k a n : Nat) → Memory → Memory
  | _, _, 0, m => m
  | k, a, n + 1, m => scrambleBytes s (k + 1) (a + 1) n (m.writeByte a (BitVec.ofNat 8 (s.free k)))

/-- Free values into every byte of a footprint, drawn from number `k` on. -/
def scrambleFootprint (s : State) : (k : Nat) → Footprint → Memory → Memory
  | _, [], m => m
  | k, (a, n) :: fs, m => scrambleFootprint s (k + n) fs (scrambleBytes s k a n m)

/-- The planes a command that was ended early writes hold unspecified values (R369 (c), R402, U2; log 10). -/
def scramblePlanes (f : Footprint) (s : State) : State :=
  { s with
    mem := scrambleFootprint s 0 f s.mem
    draws := s.draws + (f.map Prod.snd).sum }

/-- An unspecified number of pending bits, still 0..7 (R40). -/
def freeCount (s : State) : BitVec 3 := BitVec.ofNat 3 (s.free 0)

/-- `nb`, `acc`, the results, `RICE_CFG` and `PARAM` hold unspecified values within their widths (R369 (c), U3;
log 10). `acc` stays an `nb`-bit value (R40). -/
def scrambleRegisters (s : State) : State :=
  { s with
    nb := freeCount s
    acc := BitVec.ofNat 7 (s.free 1 % 2 ^ (freeCount s).toNat)
    method := if s.free 2 % 2 = 1 then .five else .four
    porder := BitVec.ofNat 4 (s.free 3)
    res := Vector.ofFn fun i => BitVec.ofNat 32 (s.free (4 + i.val))
    param := Vector.ofFn fun j => BitVec.ofNat 5 (s.free (20 + j.val))
    draws := s.draws + 276 }

/-! ### Completion, error entry and the way back -/

/-- A command finishes: `BUSY <- 0 ; DONE <- 1` (R366). -/
def complete (s : State) : State := { s with engine := .idle, done := true }

/-- Error entry with code `c` (R367): `BUSY` falls, the first code is kept, `ERR` is sticky, `DONE` is not changed. -/
def errorEntry (c : ErrorCode) (s : State) : State :=
  { s with
    engine := .idle
    errCode := if s.err then s.errCode else c
    err := true }

/-- The end of an issued command as a step's outcome (R366), with the planes its rule writes. What WRITE_FAILED leaves
unspecified is R369 (c); every other error leaves the state as its pseudocode left it (R369 (a), (b)). -/
def finish (f : Footprint) (r : Run) : Host.Outcome State Fault Refusal :=
  match r with
  | .ok s => .next (complete s)
  | .error .writeFailed s => .next (errorEntry .writeFailed (scrambleRegisters (scramblePlanes f s)))
  | .error c s => .next (errorEntry c s)
  | .fault g => .fault g

/-- Every register at its reset value, the engine idle (R401). Planes, `OUT` and the agents' lists are not registers. -/
def resetRegisters (s : State) : State :=
  { State.reset with
    mem := s.mem
    out := s.out
    host := s.host
    turns := s.turns
    sink := s.sink
    readData := s.readData
    draws := s.draws
    sumStart := s.sumStart }

/-- The planes are unspecified again (R400, R47). -/
def forgetPlanes (s : State) : State := { s with mem := [] }

end Sys2Proof.Machine
end

