-- ==== Sys2Proof/Machine/Operands.lean ====
section
/-! DEFINITION. The operand forms of spec/30_encoding.md R113: what a command assembles from the argument registers,
and the format fields the frame commands read (spec/10_state.md R36). -/

namespace Sys2Proof.Machine

/-- `ARG[i]` (R41). -/
def arg (i : Nat) (s : State) : Word := s.args.getD i 0

/-- `arg64(i) = ARG[i+1] ++ ARG[i]` (spec/00_scope.md R13). -/
def arg64 (i : Nat) (s : State) : DWord := arg (i + 1) s ++ arg i s

/-- `N = ARG0`, a sample count, and the block size `bs`. -/
def sampleCount (s : State) : Nat := (arg 0 s).toNat

/-- `1 ≤ N ≤ 65535`, the legal counts and frame sizes. -/
def legalSamples (n : Nat) : Bool := decide (1 ≤ n ∧ n ≤ Config.maxSamples)

/-- Entries 0..n-1 of a plane as a footprint; a command refuses an illegal count before it writes anything. -/
def entriesFootprint (pl : Plane) (n : Nat) : Footprint :=
  if legalSamples n then [(planeBase pl, entryBytes pl * n)] else []

/-- `u = arg64(0)`, an unsigned 64-bit value. -/
def operandU (s : State) : Nat := (arg64 0 s).toNat

/-- `sv = sext_64(arg64(0))`, a signed 64-bit value. -/
def operandSv (s : State) : Int := (arg64 0 s).toInt

/-- `v32 = sext_32(ARG0)`, a signed 32-bit value. -/
def operandV32 (s : State) : Int := (arg 0 s).toInt

/-- `num = arg64(1)`, the frame or sample number. -/
def operandNum (s : State) : Nat := (arg64 1 s).toNat

/-- `L = ARG2`, a frame size. -/
def operandL (s : State) : Nat := (arg 2 s).toNat

/-- `FMT.CHANNELS`. -/
def channelCount (s : State) : Nat := s.channels.toNat

/-- `FMT.BITS`. -/
def bitDepth (s : State) : Nat := s.bits.toNat

/-- `FMT.RATE`. -/
def sampleRate (s : State) : Nat := s.rate.toNat

/-- `1 ≤ c ≤ 8 and bd ∈ {8, 16, 24, 32}` (spec/42_frame_header.md R210). -/
def formatSupported (s : State) : Bool :=
  decide (1 ≤ channelCount s ∧ channelCount s ≤ 8) && [8, 16, 24, 32].contains (bitDepth s)

/-- `CTRL.STEREO_EN` as the command in progress reads it: as it was at acceptance (spec/20_memory.md R91 (2),
spec/70_reset_and_hazards.md R421; log 13). -/
def stereoOperand (s : State) : Bool :=
  match s.engine with
  | .busy _ stereo => stereo
  | .idle => s.stereoEn

end Sys2Proof.Machine
end

