-- ==== Sys2Proof/Machine/Flags.lean ====
section
/-! DEFINITION. The status flags and the words the registers read as (spec/10_state.md R31-R43, R50;
spec/60_exceptions.md R362, R380). -/

namespace Sys2Proof.Machine

/-- The numbers of the error codes (R362). -/
def ErrorCode.code : ErrorCode → BitVec 4
  | .none => 0
  | .writeFailed => 1
  | .outOfMemory => 2
  | .unsupportedFormat => 3
  | .incompleteStream => 4
  | .illegalCommand => 5
  | .invalidOperand => 6
  | .hostAccess => 7
  | .bwUnaligned => 8
  | .paramEscape => 9
  | .residualRange => 10

/-- A method's number, in `RICE_CFG` and on the wire (R37). -/
def Method.code : Method → BitVec 1
  | .four => 0
  | .five => 1

/-- The method a bit of `RICE_CFG` stands for (R37). -/
def Method.ofBit (b : Bool) : Method := if b then .five else .four

/-- `STATUS.BUSY` (R34, R49). -/
def busy (s : State) : Bool :=
  match s.engine with
  | .idle => false
  | .busy _ _ => true

/-- The level of the interrupt line (R50, R380, R381): it follows its terms at once. -/
def irqLine (s : State) : Bool := s.irqEn && (s.done || s.err)

/-- `CTRL` as it reads (R33). -/
def ctrlWord (s : State) : Word := 0#29 ++ BitVec.ofBool s.stereoEn ++ BitVec.ofBool s.irqEn ++ 0#1

/-- `STATUS` as it reads (R34), with `nbits` in `BW_NBITS`. -/
def statusWord (nbits : BitVec 3) (s : State) : Word :=
  0#13 ++ nbits ++ 0#4 ++ s.errCode.code ++ 0#4 ++ BitVec.ofBool (irqLine s) ++ BitVec.ofBool s.err ++
    BitVec.ofBool s.done ++ BitVec.ofBool (busy s)

/-- `FMT` as it reads (R36). -/
def fmtWord (s : State) : Word := s.rate ++ 0#2 ++ s.bits ++ s.channels

/-- `RICE_CFG` as it reads (R37). -/
def riceCfgWord (s : State) : Word := 0#24 ++ s.porder ++ 0#3 ++ s.method.code

/-- `FMT <- v` (R36): reserved bits are ignored. -/
def setFmt (v : Word) (s : State) : State :=
  { s with channels := v.extractLsb' 0 4, bits := v.extractLsb' 4 6, rate := v.extractLsb' 12 20 }

/-- `RICE_CFG <- v` (R37): reserved bits are ignored. -/
def setRiceCfg (v : Word) (s : State) : State :=
  { s with method := Method.ofBit (v.getLsbD 0), porder := v.extractLsb' 4 4 }

/-- `CTRL <- v` with `SOFT_RESET` 0 (R33): reserved bits are ignored. -/
def setCtrl (v : Word) (s : State) : State := { s with irqEn := v.getLsbD 1, stereoEn := v.getLsbD 2 }

/-- `STATUS <- v` (R34): 1 in bit 1 clears `DONE`; every other bit is ignored. -/
def setStatus (v : Word) (s : State) : State := { s with done := s.done && !v.getLsbD 1 }

end Sys2Proof.Machine
end

