-- ==== Sys2Proof/Machine/BitWriter.lean ====
section
/-! DEFINITION. The control and bit-writer commands (spec/41_bitwriter.md R158-R166) and the Constant and Verbatim
subframe writers (R168-R171). A command's pseudocode is `run…`, the issued command `exec…`. -/

namespace Sys2Proof.Machine

/-! ### NOP (R158) -/

def runNop (s : State) : Run := .ok s

def execNop (s : State) : Host.Outcome State Fault Refusal := finish [] (runNop s)

/-! ### BW_CRC_RESET (R160) -/

def runBwCrcReset (s : State) : Run :=
  if s.nb ≠ 0 then .error .bwUnaligned s else .ok (clearSpan s)

def execBwCrcReset (s : State) : Host.Outcome State Fault Refusal := finish [] (runBwCrcReset s)

/-! ### BW_WRITE_BITS (R161) -/

def runBwWriteBits (n : Nat) (s : State) : Run :=
  if ¬ operandU s < 2 ^ n then .error .invalidOperand s else emitBits n (operandU s) s

def execBwWriteBits (n7 : BitVec 7) (s : State) : Host.Outcome State Fault Refusal :=
  finish [] (runBwWriteBits n7.toNat s)

/-! ### BW_WRITE_BITS_WRAPPED (R162) -/

def runBwWriteBitsWrapped (n : Nat) (s : State) : Run := emitBits n (lowBits n (operandU s)) s

def execBwWriteBitsWrapped (n7 : BitVec 7) (s : State) : Host.Outcome State Fault Refusal :=
  finish [] (runBwWriteBitsWrapped n7.toNat s)

/-! ### BW_WRITE_UNARY (R163) -/

def runBwWriteUnary (s : State) : Run :=
  if arg 1 s ≠ 0 then .error .invalidOperand s else emitUnary (arg 0 s).toNat s

def execBwWriteUnary (s : State) : Host.Outcome State Fault Refusal := finish [] (runBwWriteUnary s)

/-! ### BW_FLUSH (R164) -/

def runBwFlush (s : State) : Run := emitFlush s

def execBwFlush (s : State) : Host.Outcome State Fault Refusal := finish [] (runBwFlush s)

/-! ### BW_WRITE_CRC8 (R165) -/

def runBwWriteCrc8 (s : State) : Run :=
  if s.nb ≠ 0 then .error .bwUnaligned s else emitByte s.crc8 s

def execBwWriteCrc8 (s : State) : Host.Outcome State Fault Refusal := finish [] (runBwWriteCrc8 s)

/-! ### BW_WRITE_CRC16 (R166) -/

/-- The two footer bytes carry the CRC-16 sampled after the padding byte. -/
def emitFooter (s : State) : Run :=
  (emitByte (s.crc16.extractLsb' 8 8) s).andThen (emitByte (s.crc16.extractLsb' 0 8))

def runBwWriteCrc16 (s : State) : Run := (emitFlush s).andThen emitFooter

def execBwWriteCrc16 (s : State) : Host.Outcome State Fault Refusal := finish [] (runBwWriteCrc16 s)

/-! ### Subframe bodies (R168) -/

/-- `emit_bits(ss, low_ss(v))`, one sample. -/
def emitSample (ss : Nat) (v : Int) (s : State) : Run := emitBits ss (lowBits ss v) s

/-- The subframe header byte of a Constant subframe. -/
def constantHeader : Nat := 0x00

/-- The subframe header byte of a Verbatim subframe. -/
def verbatimHeader : Nat := 0x02

/-- The subframe header byte of a Fixed subframe of order `p`. -/
def fixedHeader (p : Nat) : Nat := (8 ||| p) <<< 1

/-- The body of BW_WRITE_CONSTANT, shared with SF_ENCODE. -/
def emitConstant (ss : Nat) (v : Int) (s : State) : Run :=
  (emitBits 8 constantHeader s).andThen (emitSample ss v)

/-- The body of BW_WRITE_VERBATIM, shared with SF_ENCODE. -/
def emitVerbatim (pl : Plane) (ss n : Nat) (s : State) : Run :=
  (emitBits 8 verbatimHeader s).andThen (emitEntries (emitSample ss) pl 0 n)

/-! ### BW_WRITE_CONSTANT (R170) -/

def runBwWriteConstant (ss : Nat) (s : State) : Run := emitConstant ss (operandSv s) s

def execBwWriteConstant (ss : BitVec 6) (s : State) : Host.Outcome State Fault Refusal :=
  finish [] (runBwWriteConstant ss.toNat s)

/-! ### BW_WRITE_VERBATIM (R171) -/

def runBwWriteVerbatim (pl : Plane) (ss : Nat) (s : State) : Run :=
  if ¬ legalSamples (sampleCount s) then .error .invalidOperand s else emitVerbatim pl ss (sampleCount s) s

def execBwWriteVerbatim (pl : Plane) (ss : BitVec 6) (s : State) : Host.Outcome State Fault Refusal :=
  finish [] (runBwWriteVerbatim pl ss.toNat s)

end Sys2Proof.Machine
end

