-- ==== Sys2Proof/Machine/FrameHeader.lean ====
section
/-! DEFINITION. Frame header emission (spec/42_frame_header.md R200-R210). -/

namespace Sys2Proof.Machine

/-- A code of a header field with its trailer: a width in bits and a value, or none. -/
structure HeaderCode where
  code : Nat
  trailer : Option (Nat × Nat)
  deriving DecidableEq, Repr

/-- `bs_code(bs)` (R202). -/
def bsCode (bs : Nat) : HeaderCode :=
  if bs = 192 then ⟨1, none⟩
  else match [2, 3, 4, 5].find? fun k => bs == 144 * 2 ^ k with
  | some k => ⟨k, none⟩
  | none =>
    match [8, 9, 10, 11, 12, 13, 14, 15].find? fun k => bs == 2 ^ k with
    | some k => ⟨k, none⟩
    | none => if bs ≤ 256 then ⟨6, some (8, bs - 1)⟩ else ⟨7, some (16, bs - 1)⟩

/-- The table of sample rates, whose codes are 1..11 in order (R203). -/
def rateTable : List Nat := [88200, 176400, 192000, 8000, 16000, 22050, 24000, 32000, 44100, 48000, 96000]

/-- `sr_code(r)` (R203). -/
def srCode (r : Nat) : HeaderCode :=
  match rateTable.findIdx? fun x => x == r with
  | some j => ⟨j + 1, none⟩
  | none =>
    if r = 0 then ⟨0, none⟩
    else if r % 1000 = 0 ∧ r / 1000 ≤ 255 then ⟨12, some (8, r / 1000)⟩
    else if r ≤ 65535 then ⟨13, some (16, r)⟩
    else if r % 10 = 0 ∧ r / 10 ≤ 65535 then ⟨14, some (16, r / 10)⟩
    else ⟨0, none⟩

/-- `bd_code(bd)` (R205); depths the format check refuses have no code and read 0. -/
def bdCode (bd : Nat) : Nat :=
  if bd = 8 then 2 else if bd = 16 then 8 else if bd = 24 then 12 else if bd = 32 then 14 else 0

/-- The continuation bytes for the low `6 * j` bits of `x` (R206). -/
def utf8Tail (x : Nat) : (j : Nat) → List Nat
  | 0 => []
  | j + 1 => (0x80 ||| ((x >>> (6 * j)) &&& 0x3F)) :: utf8Tail x j

/-- `n` bytes for `x` with the lead byte's fixed bits (R206). -/
def utf8Bytes (lead n x : Nat) : List Nat := (lead ||| (x >>> (6 * (n - 1)))) :: utf8Tail x (n - 1)

/-- `utf8(x)` for x below 2^36 (R206). -/
def utf8 (x : Nat) : List Nat :=
  if x < 2 ^ 7 then [x]
  else if x < 2 ^ 11 then utf8Bytes 0xC0 2 x
  else if x < 2 ^ 16 then utf8Bytes 0xE0 3 x
  else if x < 2 ^ 21 then utf8Bytes 0xF0 4 x
  else if x < 2 ^ 26 then utf8Bytes 0xF8 5 x
  else if x < 2 ^ 31 then utf8Bytes 0xFC 6 x
  else utf8Bytes 0xFE 7 x

/-- A list of (width, value) fields in order, each with `emit_bits`. -/
def emitFields : List (Nat × Nat) → State → Run
  | [], s => .ok s
  | (n, v) :: fs, s => (emitBits n v s).andThen (emitFields fs)

/-- Fields 1 to 8 of the header in R200's order. -/
def headerFields (var : Bool) (ca bs num bd r : Nat) : List (Nat × Nat) :=
  [(16, 0xFFF8 ||| var.toNat), (4, (bsCode bs).code), (4, (srCode r).code), (4, ca), (4, bdCode bd)] ++
    ((utf8 num).map fun y => (8, y)) ++ (bsCode bs).trailer.toList ++ (srCode r).trailer.toList

/-- The CA field agrees with `FMT.CHANNELS` (R210). -/
def assignmentAgrees (ca c : Nat) : Bool := if 8 ≤ ca then c == 2 else ca + 1 == c

/-- BW_WRITE_FRAME_HEADER's pseudocode (R210). -/
def runBwWriteFrameHeader (var : Bool) (ca : Nat) (s : State) : Run :=
  if ¬ formatSupported s then .error .unsupportedFormat s
  else if s.nb ≠ 0 then .error .bwUnaligned s
  else if ¬ legalSamples (sampleCount s) then .error .invalidOperand s
  else if ¬ operandNum s < Config.numberBound then .error .invalidOperand s
  else if ¬ assignmentAgrees ca (channelCount s) then .error .invalidOperand s
  else
    ((emitFields (headerFields var ca (sampleCount s) (operandNum s) (bitDepth s) (sampleRate s))
      (clearSpan s)).andThen emitFlush).andThen fun t => emitByte t.crc8 t

def execBwWriteFrameHeader (var : Bool) (ca : BitVec 4) (s : State) : Host.Outcome State Fault Refusal :=
  finish [] (runBwWriteFrameHeader var ca.toNat s)

end Sys2Proof.Machine
end

