-- ==== Sys2Proof/Machine/FixedPredictor.lean ====
section
/-! DEFINITION. The fixed-order linear predictor (spec/43_fixed_predictor.md R230-R241), in exact integers (R231). -/

namespace Sys2Proof.Machine

/-- The coefficients c_p[1..p] of order p, those beyond being 0 (R230). -/
def coefficients : (p : Nat) → List Int
  | 1 => [1]
  | 2 => [2, -1]
  | 3 => [3, -3, 1]
  | 4 => [4, -6, 4, -1]
  | _ => []

/-- The prediction `Σ_j c_p[j] · s[i-j]` from the earlier samples, the latest first (R230). -/
def prediction (p : Nat) (history : List Int) : Int := (List.zipWith (· * ·) (coefficients p) history).sum

/-- The entries `e_p` from index `i` on, the earlier samples latest first: raw below p, residuals from p on (R232). -/
def residualsFrom (p : Nat) : (i : Nat) → (history : List Int) → List Int → List Int
  | _, _, [] => []
  | i, history, x :: xs =>
    (if i < p then x else x - prediction p history) :: residualsFrom p (i + 1) (x :: history) xs

/-- The residual set of order p, `e_p[0..N-1]` (R232). -/
def residualSet (p : Nat) (xs : List Int) : List Int := residualsFrom p 0 [] xs

/-- `a(p)`, the first summed index (R233). -/
def sumStartIndex (m : SumStart) (p : Nat) : Nat :=
  match m with
  | .order => p
  | .four => 4
  | .zero => 0

/-- `Σ_{i ≥ a(p)} abs(e_p[i])` before poisoning (R233). -/
def residualSum (m : SumStart) (p : Nat) (xs : List Int) : Nat :=
  (((residualSet p xs).drop (sumStartIndex m p)).map Int.natAbs).sum

/-- `poisoned_p` (R234). -/
def poisoned (checkRange : Bool) (p : Nat) (xs : List Int) : Bool :=
  checkRange && (residualSet p xs).any fun e => !inI32 e

/-- `sum_p` (R233, R234). -/
def orderSum (m : SumStart) (checkRange : Bool) (p : Nat) (xs : List Int) : Nat :=
  if poisoned checkRange p xs then Config.poisonSum else residualSum m p xs

/-- The first of 0..p with the least sum: ties keep the lower order (R235). -/
def leastOrder (sum : Nat → Nat) : (p : Nat) → Nat
  | 0 => 0
  | p + 1 => if sum (p + 1) < sum (leastOrder sum p) then p + 1 else leastOrder sum p

/-- `best` of R235, before the poison test. -/
def leastSumOrder (m : SumStart) (checkRange : Bool) (xs : List Int) : Nat :=
  leastOrder (fun p => orderSum m checkRange p xs) 4

/-- The selector's result (R235); `none` where the optimum is still poisoned. -/
def bestOrder (m : SumStart) (checkRange : Bool) (xs : List Int) : Option Nat :=
  if poisoned checkRange (leastSumOrder m checkRange xs) xs then none else some (leastSumOrder m checkRange xs)

/-! ### FP_BEST_ORDER (R240) -/

/-- The result registers of R240. A sum outside u64, which only SIDE entries outside the host's contract can give,
shows its low 64 bits (log 15). -/
def bestOrderResults (cr : Bool) (xs : List Int) (s : State) : State :=
  let sum := fun p => orderSum s.sumStart cr p xs
  let result := match bestOrder s.sumStart cr xs with
    | none => 0xFFFFFFFF#32
    | some p => BitVec.ofNat 32 p
  setRes64 12 (BitVec.ofNat 64 (sum 4)) <| setRes64 10 (BitVec.ofNat 64 (sum 3)) <|
    setRes64 8 (BitVec.ofNat 64 (sum 2)) <| setRes64 6 (BitVec.ofNat 64 (sum 1)) <|
    setRes64 4 (BitVec.ofNat 64 (sum 0)) <| setRes 2 result <|
    setRes64 0 (BitVec.ofNat 64 (sum (leastSumOrder s.sumStart cr xs))) s

def runFpBestOrder (pl : Plane) (cr : Bool) (s : State) : Run :=
  if ¬ (5 ≤ sampleCount s ∧ sampleCount s ≤ Config.maxSamples) then .error .invalidOperand s
  else withEntries (readEntries pl s.mem 0 (sampleCount s)) fun xs => .ok (bestOrderResults cr xs s)

def execFpBestOrder (pl : Plane) (cr : Bool) (s : State) : Host.Outcome State Fault Refusal :=
  finish [] (runFpBestOrder pl cr s)

/-! ### FP_RESIDUALS (R241) -/

def runFpResiduals (pl : Plane) (p : Nat) (s : State) : Run :=
  if ¬ legalSamples (sampleCount s) then .error .invalidOperand s
  else withEntries (readEntries pl s.mem 0 (sampleCount s)) fun xs =>
    if ¬ (residualSet p xs).all inI32 then .error .residualRange s
    else .ok { s with mem := writeEntries .resp 0 (residualSet p xs) s.mem }

/-- The plane entries FP_RESIDUALS writes (R241). -/
def footFpResiduals (s : State) : Footprint := entriesFootprint .resp (sampleCount s)

def execFpResiduals (pl : Plane) (ord : BitVec 3) (s : State) : Host.Outcome State Fault Refusal :=
  finish (footFpResiduals s) (runFpResiduals pl ord.toNat s)

end Sys2Proof.Machine
end

