-- ==== Sys2Proof/Machine/Rice.lean ====
section
/-! DEFINITION. The Rice coder and partition selector (spec/45_rice.md R280-R302) and the Fixed subframe writer, whose
body is the residual section (spec/41_bitwriter.md R172). Costs are u64 with wrap-around (spec/00_scope.md R19). -/

namespace Sys2Proof.Machine

/-! ### Zigzag and the Rice code -/

/-- `zz(v)` (R281), as a natural number; for v in i32 it is below 2^32. -/
def zigzag (v : Int) : Nat := if v < 0 then (-v * 2 - 1).toNat else (v * 2).toNat

/-- `emit_rice(k, v)` (R282). -/
def emitRice (k : Nat) (v : Int) (s : State) : Run :=
  (emitUnary (zigzag v >>> k) s).andThen (emitBits k (zigzag v % 2 ^ k))

/-! ### Cost estimates -/

/-- `bits(S, L, k)` in u64 (R284). -/
def cost (S : DWord) (L k : Nat) : DWord :=
  BitVec.ofNat 64 L * BitVec.ofNat 64 (k + 1) + ((S - BitVec.ofNat 64 (L / 2)) >>> k)

/-- `tz(x)` for 1 ≤ x < 2^64: the number of trailing zero bits (R12). -/
def trailingZeros (x : Nat) : Nat := ((List.range 64).takeWhile fun i => !x.testBit i).length

/-- The guard of R285: lowers `P` until partition 0 holds at least p entries (90_conflicts.md C4). -/
def guardOrder (n p : Nat) : (P : Nat) → Nat
  | 0 => 0
  | P + 1 => if n >>> (P + 1) < p then guardOrder n p P else P + 1

/-- The effective maximum partition order (R285). -/
def maxOrder (n p userMax : Nat) : Nat :=
  let P := min userMax (trailingZeros n)
  guardOrder n p (if 0 < p then min P (n.log2 - p.log2) else P)

/-- `count` consecutive pieces of `len` entries. -/
def pieces (len : Nat) : (count : Nat) → List Int → List (List Int)
  | 0, _ => []
  | count + 1, xs => xs.take len :: pieces len count (xs.drop len)

/-- The 2^o partitions of the residuals `RESP[p..N-1]`: the first excludes the warm-ups (R286). -/
def partitions (n p o : Nat) (tail : List Int) : List (List Int) :=
  let L0 := n >>> o
  tail.take (L0 - p) :: pieces L0 (2 ^ o - 1) (tail.drop (L0 - p))

/-- `S_j`, the zigzag sum of a partition in u64 (R286). -/
def zigzagSum (xs : List Int) : DWord := (xs.map fun v => BitVec.ofNat 64 (zigzag v)).sum

/-- A partition's parameter and its cost: the first k of 0..max with the least cost (R287). -/
def bestParam (S : DWord) (L : Nat) : (maxParam : Nat) → Nat × DWord
  | 0 => (0, cost S L 0)
  | k + 1 =>
    let b := bestParam S L k
    if cost S L (k + 1) < b.2 then (k + 1, cost S L (k + 1)) else b

/-- What the optimiser knows of one partition order: each partition's parameter and cost (R286, R287). -/
def orderParams (n p maxParam o : Nat) (tail : List Int) : List (Nat × DWord) :=
  (partitions n p o tail).map fun xs => bestParam (zigzagSum xs) xs.length maxParam

/-- `param_bits_o` of R288 as the method: FIVE if some parameter is above 14. -/
def methodOf (params : List (Nat × DWord)) : Method := if params.any fun b => 14 < b.1 then .five else .four

/-- The width of a method's parameter field (R37, R300). -/
def Method.paramBits : Method → Nat
  | .four => 4
  | .five => 5

/-- `total_o` of R288. -/
def orderTotal (o : Nat) (params : List (Nat × DWord)) : DWord :=
  (params.map Prod.snd).sum + 4 + BitVec.ofNat 64 ((methodOf params).paramBits * 2 ^ o)

/-- The order of 0..P with the least total, the last one on equal totals (R289). -/
def lastLeast (total : Nat → DWord) : (P : Nat) → Nat
  | 0 => 0
  | P + 1 => if total (P + 1) ≤ total (lastLeast total P) then P + 1 else lastLeast total P

/-- The optimiser's result (R293). -/
structure RiceChoice where
  /-- the effective maximum order P -/
  maxOrder : Nat
  /-- the chosen partition order -/
  order : Nat
  total : DWord
  method : Method
  params : List Nat
  deriving DecidableEq, Repr

/-- The Rice optimiser (R285-R289) over `N` entries whose residuals, the warm-ups left out, are `tail`. -/
def optimise (n p userMax maxParam : Nat) (tail : List Int) : RiceChoice :=
  let params := fun o => orderParams n p maxParam o tail
  let P := maxOrder n p userMax
  let best := lastLeast (fun o => orderTotal o (params o)) P
  ⟨P, best, orderTotal best (params best), methodOf (params best), (params best).map Prod.fst⟩

/-- The optimiser's writes to `RICE_CFG` and `PARAM[0..2^o-1]` (R293). -/
def setChoice (c : RiceChoice) (s : State) : State :=
  setParams 0 c.params { s with method := c.method, porder := BitVec.ofNat 4 c.order }

/-- `estimate(sum, L)` (R292): the parameter and the bits. -/
def estimate (sum : DWord) (L : Nat) : Nat × DWord :=
  if sum = 0 then (31, 5)
  else
    let k := sum.toNat.log2 - L.log2
    (k, cost sum L k)

/-! ### RC_ZIGZAG (R290) -/

def runRcZigzag (s : State) : Run := .ok (setRes64 0 (BitVec.ofNat 64 (zigzag (operandV32 s))) s)

def execRcZigzag (s : State) : Host.Outcome State Fault Refusal := finish [] (runRcZigzag s)

/-! ### RC_WRITE_RICE (R291) -/

def runRcWriteRice (k : Nat) (s : State) : Run :=
  if k = 31 then .error .paramEscape s else emitRice k (operandV32 s) s

def execRcWriteRice (k : BitVec 5) (s : State) : Host.Outcome State Fault Refusal :=
  finish [] (runRcWriteRice k.toNat s)

/-! ### RC_OPTIMISE (R293) -/

/-- The residuals `RESP[p..N-1]`, the entries the pseudocode reads (R286; log 16). -/
def readResiduals (p n : Nat) (s : State) : Except Fault (List Int) := readEntries .resp s.mem p (n - p)

def runRcOptimise (p userMax maxParam : Nat) (s : State) : Run :=
  if ¬ legalSamples (sampleCount s) then .error .invalidOperand s
  else if ¬ p < sampleCount s then .error .invalidOperand s
  else withEntries (readResiduals p (sampleCount s) s) fun tail =>
    let c := optimise (sampleCount s) p userMax maxParam tail
    .ok (setRes 2 (BitVec.ofNat 32 c.maxOrder) (setRes64 0 c.total (setChoice c s)))

def execRcOptimise (ord : BitVec 3) (umax : BitVec 4) (maxk : BitVec 5) (s : State) :
    Host.Outcome State Fault Refusal :=
  finish [] (runRcOptimise ord.toNat umax.toNat maxk.toNat s)

/-! ### RC_ESTIMATE (R294) -/

def runRcEstimate (s : State) : Run :=
  if ¬ legalSamples (operandL s) then .error .invalidOperand s
  else
    let e := estimate (arg64 0 s) (operandL s)
    .ok (setRes 2 (BitVec.ofNat 32 e.1) (setRes64 0 e.2 s))

def execRcEstimate (s : State) : Host.Outcome State Fault Refusal := finish [] (runRcEstimate s)

/-! ### The residual section -/

/-- What is wrong with one parameter under a method (R301). -/
def paramError (m : Method) (k : Nat) : Option ErrorCode :=
  match m with
  | .four => if k = 15 ∨ k = 31 then some .paramEscape else if 14 < k then some .invalidOperand else none
  | .five => if k = 31 then some .paramEscape else none

/-- The first failing check of R301; `none` where every check passes. -/
def residualSectionError (p n : Nat) (s : State) : Option ErrorCode :=
  let o := s.porder.toNat
  if ¬ o ≤ Config.maxPartitionOrder then some .invalidOperand
  else if n % 2 ^ o ≠ 0 then some .invalidOperand
  else if n >>> o < p then some .invalidOperand
  else if ¬ p < n then some .invalidOperand
  else (List.range (2 ^ o)).findSome? fun j => paramError s.method (getParam j s)

/-- Partition `j` of the section: its parameter, then its entries' Rice codes (R300). -/
def emitPartition (p n j : Nat) (s : State) : Run :=
  let L0 := n >>> s.porder.toNat
  let first := if j = 0 then p else j * L0
  (emitBits s.method.paramBits (getParam j s) s).andThen
    (emitEntries (emitRice (getParam j s)) .resp first ((j + 1) * L0 - first))

/-- `count` partitions from `j` on. -/
def emitPartitions (p n : Nat) : (j count : Nat) → State → Run
  | _, 0, s => .ok s
  | j, count + 1, s => (emitPartition p n j s).andThen (emitPartitions p n (j + 1) count)

/-- `emit_residual_section(p, N)` (R300). -/
def emitResidualSection (p n : Nat) (s : State) : Run :=
  ((emitBits 2 s.method.code.toNat s).andThen (emitBits 4 s.porder.toNat)).andThen
    (emitPartitions p n 0 (2 ^ s.porder.toNat))

/-! ### RC_WRITE_RESIDUALS (R302) -/

def runRcWriteResiduals (p : Nat) (s : State) : Run :=
  if ¬ legalSamples (sampleCount s) then .error .invalidOperand s
  else match residualSectionError p (sampleCount s) s with
  | some c => .error c s
  | none => emitResidualSection p (sampleCount s) s

def execRcWriteResiduals (ord : BitVec 3) (s : State) : Host.Outcome State Fault Refusal :=
  finish [] (runRcWriteResiduals ord.toNat s)

/-! ### BW_WRITE_FIXED (spec/41_bitwriter.md R172) -/

/-- The body of BW_WRITE_FIXED, shared with SF_ENCODE: header byte, warm-ups, residual section. -/
def emitFixed (ss p n : Nat) (s : State) : Run :=
  ((emitBits 8 (fixedHeader p) s).andThen (emitEntries (emitSample ss) .resp 0 p)).andThen (emitResidualSection p n)

def runBwWriteFixed (p ss : Nat) (s : State) : Run :=
  if ¬ legalSamples (sampleCount s) then .error .invalidOperand s
  else match residualSectionError p (sampleCount s) s with
  | some c => .error c s
  | none => emitFixed ss p (sampleCount s) s

def execBwWriteFixed (ord : BitVec 3) (ss : BitVec 6) (s : State) : Host.Outcome State Fault Refusal :=
  finish [] (runBwWriteFixed ord.toNat ss.toNat s)

end Sys2Proof.Machine
end

