-- ==== Sys2Proof/Machine/Stereo.lean ====
section
/-! DEFINITION. Stereo decorrelation (spec/46_stereo.md R320-R331). The left channel is CH0, the right CH1. -/

namespace Sys2Proof.Machine

/-- The second differences `x[i] - 2 x[i-1] + x[i-2]` for i ≥ 2 (R321). -/
def secondDifferences : List Int → List Int
  | a :: b :: c :: xs => (c - 2 * b + a) :: secondDifferences (b :: c :: xs)
  | _ => []

/-- A sum of magnitudes. -/
def absSum (xs : List Int) : Nat := (xs.map Int.natAbs).sum

/-- The four sums sL, sR, sM, sS of R321. -/
structure StereoSums where
  left : Nat
  right : Nat
  mid : Nat
  side : Nat
  deriving DecidableEq, Repr

/-- R321 over the two channels' second differences; `>>s 1` rounds toward minus infinity. -/
def stereoSums (l r : List Int) : StereoSums :=
  let dl := secondDifferences l
  let dr := secondDifferences r
  ⟨absSum dl, absSum dr, absSum (List.zipWith (fun a b : Int => (a + b) >>> (1 : Nat)) dl dr),
    absSum (List.zipWith (· - ·) dl dr)⟩

/-- A sum's cost `estimate(2·sum, N).bits` (R322). -/
def stereoCost (sum n : Nat) : DWord := (estimate (BitVec.ofNat 64 (2 * sum)) n).2

/-- `score[m]` from the costs bL, bR, bM, bS (R323). -/
def stereoScore (bL bR bM bS : DWord) : (m : Nat) → DWord
  | 0 => bL + bR
  | 1 => bL + bS
  | 2 => bS + bR
  | _ => bM + bS

/-- The first of 0..m with the least score (R324). -/
def firstLeast (score : Nat → DWord) : (m : Nat) → Nat
  | 0 => 0
  | m + 1 => if score (m + 1) < score (firstLeast score m) then m + 1 else firstLeast score m

/-- The result registers of R325. -/
def stereoResults (sums : StereoSums) (n : Nat) (s : State) : State :=
  let bL := stereoCost sums.left n
  let bR := stereoCost sums.right n
  let bM := stereoCost sums.mid n
  let bS := stereoCost sums.side n
  let mode := firstLeast (stereoScore bL bR bM bS) 3
  setRes64 10 bS <| setRes64 8 bM <| setRes64 6 bR <| setRes64 4 bL <| setRes 2 (BitVec.ofNat 32 mode) <|
    setRes64 0 (stereoScore bL bR bM bS mode) s

/-! ### ST_CHOOSE (R325) -/

/-- The entries the estimator reads: all N of a channel, or none where its loop is empty (R321, N < 3; log 16). -/
def stereoCount (n : Nat) : Nat := if n < 3 then 0 else n

def runStChoose (s : State) : Run :=
  if ¬ legalSamples (sampleCount s) then .error .invalidOperand s
  else withEntries (readEntries (.ch 0) s.mem 0 (stereoCount (sampleCount s))) fun l =>
    withEntries (readEntries (.ch 1) s.mem 0 (stereoCount (sampleCount s))) fun r =>
      .ok (stereoResults (stereoSums l r) (sampleCount s) s)

def execStChoose (s : State) : Host.Outcome State Fault Refusal := finish [] (runStChoose s)

/-! ### ST_TRANSFORM (R331) -/

/-- `side[i] = L[i] - R[i]` (R330). -/
def sideOf (l r : Int) : Int := l - r

/-- `mid[i] = (L[i] + R[i]) >>s 1` (R330). -/
def midOf (l r : Int) : Int := (l + r) >>> (1 : Nat)

/-- The planes a mode writes: SIDE for modes 1-3, MID too for mode 3 (R331). -/
def transformPlanes (mode : StereoMode) (l r : List Int) (m : Memory) : Memory :=
  let withSide := writeEntries .side 0 (List.zipWith sideOf l r) m
  match mode with
  | .leftRight => m
  | .leftSide => withSide
  | .sideRight => withSide
  | .midSide => writeEntries .mid 0 (List.zipWith midOf l r) withSide

/-- The entries a mode reads: none for mode 0 (R331). -/
def transformCount (mode : StereoMode) (n : Nat) : Nat := if mode = .leftRight then 0 else n

def runStTransform (mode : StereoMode) (s : State) : Run :=
  if ¬ legalSamples (sampleCount s) then .error .invalidOperand s
  else withEntries (readEntries (.ch 0) s.mem 0 (transformCount mode (sampleCount s))) fun l =>
    withEntries (readEntries (.ch 1) s.mem 0 (transformCount mode (sampleCount s))) fun r =>
      .ok { s with mem := transformPlanes mode l r s.mem }

/-- The plane entries ST_TRANSFORM writes (R331). -/
def footStTransform (mode : StereoMode) (s : State) : Footprint :=
  match mode with
  | .leftRight => []
  | .leftSide => entriesFootprint .side (sampleCount s)
  | .sideRight => entriesFootprint .side (sampleCount s)
  | .midSide => entriesFootprint .side (sampleCount s) ++ entriesFootprint .mid (sampleCount s)

def execStTransform (mode : StereoMode) (s : State) : Host.Outcome State Fault Refusal :=
  finish (footStTransform mode s) (runStTransform mode s)

end Sys2Proof.Machine
end

