-- ==== Sys2Proof/Machine/Subframe.lean ====
section
/-! DEFINITION. The subframe chooser (spec/44_subframe.md R260-R263). -/

namespace Sys2Proof.Machine

/-- `RES[0..5] <- 0`. -/
def clearResults (s : State) : State :=
  setRes 5 0 (setRes 4 0 (setRes 3 0 (setRes 2 0 (setRes 1 0 (setRes 0 0 s)))))

/-- The kinds' numbers in `RES2` (R260). -/
def kindConstant : Word := 0
def kindVerbatim : Word := 1
def kindFixed : Word := 2

/-- The chooser's parameter ceiling (R261 step 6). -/
def chooserMaxParam (ss : Nat) : Nat := if ss ≤ 16 then 14 else 30

/-- Steps 5 to 7 of R262 for a chosen order: the residual set, the optimiser, the comparison. -/
def chooseFixed (ss n p : Nat) (xs : List Int) (s : State) : Run :=
  if ¬ (residualSet p xs).all inI32 then .error .residualRange s
  else
    let t : State := { s with mem := writeEntries .resp 0 (residualSet p xs) s.mem }
    let c := optimise n p Config.maxPartitionOrder (chooserMaxParam ss) ((residualSet p xs).drop p)
    .ok (setRes 2 (if c.total.toNat < n * ss then kindFixed else kindVerbatim)
      (setRes64 0 c.total (setChoice c (setRes 3 (BitVec.ofNat 32 p) t))))

/-- R262 from step 1 on, over the samples `xs` of `N` entries, with `RES[0..5]` zeroed in `s`. -/
def chooseOver (ss n : Nat) (xs : List Int) (s : State) : Run :=
  let x0 := xs.headD 0
  if xs.all fun x => x == x0 then .ok (setRes64 4 (BitVec.ofInt 64 x0) (setRes 2 kindConstant s))
  else if n ≤ 4 then .ok (setRes 2 kindVerbatim s)
  else match bestOrder s.sumStart (decide (Config.rangeCheckSize ≤ ss)) xs with
  | none => .ok (setRes 2 kindVerbatim s)
  | some p => chooseFixed ss n p xs s

/-! ### SF_CHOOSE (R262) -/

def runSfChoose (pl : Plane) (ss : Nat) (s : State) : Run :=
  if ¬ legalSamples (sampleCount s) then .error .invalidOperand s
  else withEntries (readEntries pl s.mem 0 (sampleCount s)) fun xs =>
    chooseOver ss (sampleCount s) xs (clearResults s)

/-- The plane entries SF_CHOOSE and SF_ENCODE write (R262, R415). -/
def footSubframe (s : State) : Footprint := entriesFootprint .resp (sampleCount s)

def execSfChoose (pl : Plane) (ss : BitVec 6) (s : State) : Host.Outcome State Fault Refusal :=
  finish (footSubframe s) (runSfChoose pl ss.toNat s)

/-! ### SF_ENCODE (R263) -/

/-- The representation SF_CHOOSE decided on, `RES[2]`'s kind, of plane `pl`. -/
def emitChosen (pl : Plane) (ss n : Nat) (s : State) : Run :=
  if getRes 2 s = kindConstant then
    match readEntry pl 0 s.mem with
    | none => .fault (.unwrittenEntry pl 0)
    | some v => emitConstant ss v s
  else if getRes 2 s = kindVerbatim then emitVerbatim pl ss n s
  else
    match residualSectionError (getRes 3 s).toNat n s with
    | some c => .error c s
    | none => emitFixed ss (getRes 3 s).toNat n s

def runSfEncode (pl : Plane) (ss : Nat) (s : State) : Run :=
  (runSfChoose pl ss s).andThen (emitChosen pl ss (sampleCount s))

def execSfEncode (pl : Plane) (ss : BitVec 6) (s : State) : Host.Outcome State Fault Refusal :=
  finish (footSubframe s) (runSfEncode pl ss.toNat s)

end Sys2Proof.Machine
end

