-- ==== Sys2Proof/Machine/Frame.lean ====
section
/-! DEFINITION. The frame encoder (spec/47_frame.md R340, R341). -/

namespace Sys2Proof.Machine

/-- The stereo mode numbered in `RES2` (R320). -/
def modeOfResult (v : Word) : StereoMode := modeOfCode (v.extractLsb' 0 2)

/-- The stereo choice: only for two channels with stereo enabled, else LeftRight (R341). -/
def frameStereo (s : State) : Run :=
  if channelCount s = 2 ∧ stereoOperand s then runStChoose s else .ok s

/-- The mode FRAME_ENCODE goes on with, read after the stereo choice (R341). -/
def frameMode (s : State) : StereoMode :=
  if channelCount s = 2 ∧ stereoOperand s then modeOfResult (getRes 2 s) else .leftRight

/-- `if mode ≠ 0: perform ST_TRANSFORM(MODE=mode)` (R341). -/
def frameTransform (mode : StereoMode) (s : State) : Run :=
  if mode = .leftRight then .ok s else runStTransform mode s

/-- The channel-assignment code: `c - 1` for LeftRight, else `7 + mode` (R341, R204). -/
def frameAssignment (mode : StereoMode) (c : Nat) : Nat :=
  if mode = .leftRight then c - 1 else 7 + mode.code.toNat

/-- Channel plane `i`. -/
def channelPlane (i : Nat) : Plane := .ch (Fin.ofNat 8 i)

/-- The subframes of a mode with their sample sizes, in emission order (R341). -/
def frameSubframes (mode : StereoMode) (c bd : Nat) : List (Plane × Nat) :=
  match mode with
  | .leftRight => (List.range c).map fun i => (channelPlane i, bd)
  | .leftSide => [(channelPlane 0, bd), (.side, bd + 1)]
  | .sideRight => [(.side, bd + 1), (channelPlane 1, bd)]
  | .midSide => [(.mid, bd), (.side, bd + 1)]

/-- `perform SF_ENCODE(PL=pl, SS=ss)` for each subframe, in order. -/
def encodeSubframes : List (Plane × Nat) → State → Run
  | [], s => .ok s
  | (pl, ss) :: fs, s => (runSfEncode pl ss s).andThen (encodeSubframes fs)

/-- R341's results: `RES[0] <- BYTES_WRITTEN ; RES[1] <- 0 ; RES[2] <- mode ; RES[3] <- ca`. -/
def frameResults (mode : StereoMode) (s : State) : State :=
  setRes 3 (BitVec.ofNat 32 (frameAssignment mode (channelCount s)))
    (setRes 2 (mode.code.setWidth 32) (setRes 1 0 (setRes 0 s.bytesWritten s)))

/-- R341 from the chosen mode on. -/
def frameBody (var : Bool) (mode : StereoMode) (s : State) : Run :=
  (((((frameTransform mode s).andThen
    fun t => runBwWriteFrameHeader var (frameAssignment mode (channelCount t)) t).andThen
    fun t => encodeSubframes (frameSubframes mode (channelCount t) (bitDepth t)) t).andThen
    emitFlush).andThen
    runBwWriteCrc16).andThen
    fun t => .ok (frameResults mode t)

/-! ### FRAME_ENCODE (R341) -/

def runFrameEncode (var : Bool) (s : State) : Run :=
  if ¬ formatSupported s then .error .unsupportedFormat s
  else if s.nb ≠ 0 then .error .bwUnaligned s
  else if ¬ legalSamples (sampleCount s) then .error .invalidOperand s
  else if ¬ operandNum s < Config.numberBound then .error .invalidOperand s
  else (frameStereo s).andThen fun t => frameBody var (frameMode t) t

/-- The plane entries FRAME_ENCODE's performed commands may write (R341, R415). -/
def footFrame (s : State) : Footprint :=
  if channelCount s = 2 ∧ stereoOperand s then
    entriesFootprint .side (sampleCount s) ++ entriesFootprint .mid (sampleCount s) ++
      entriesFootprint .resp (sampleCount s)
  else entriesFootprint .resp (sampleCount s)

def execFrameEncode (var : Bool) (s : State) : Host.Outcome State Fault Refusal :=
  finish (footFrame s) (runFrameEncode var s)

end Sys2Proof.Machine
end

