-- ==== Sys2Proof/Machine/Dispatch.lean ====
section
/-! DEFINITION. One arm per command: the issued command's meaning. -/

namespace Sys2Proof.Machine

def exec (i : Instr) (s : State) : Host.Outcome State Fault Refusal :=
  match i with
  | .nop => Sys2Proof.Machine.execNop s
  | .bwCrcReset => Sys2Proof.Machine.execBwCrcReset s
  | .bwWriteBits n7 => Sys2Proof.Machine.execBwWriteBits n7 s
  | .bwWriteBitsWrapped n7 => Sys2Proof.Machine.execBwWriteBitsWrapped n7 s
  | .bwWriteUnary => Sys2Proof.Machine.execBwWriteUnary s
  | .bwFlush => Sys2Proof.Machine.execBwFlush s
  | .bwWriteCrc8 => Sys2Proof.Machine.execBwWriteCrc8 s
  | .bwWriteCrc16 => Sys2Proof.Machine.execBwWriteCrc16 s
  | .bwWriteConstant ss => Sys2Proof.Machine.execBwWriteConstant ss s
  | .bwWriteVerbatim pl ss => Sys2Proof.Machine.execBwWriteVerbatim pl ss s
  | .bwWriteFixed ord ss => Sys2Proof.Machine.execBwWriteFixed ord ss s
  | .bwWriteFrameHeader var ca => Sys2Proof.Machine.execBwWriteFrameHeader var ca s
  | .fpBestOrder pl cr => Sys2Proof.Machine.execFpBestOrder pl cr s
  | .fpResiduals pl ord => Sys2Proof.Machine.execFpResiduals pl ord s
  | .rcZigzag => Sys2Proof.Machine.execRcZigzag s
  | .rcWriteRice k => Sys2Proof.Machine.execRcWriteRice k s
  | .rcOptimise ord umax maxk => Sys2Proof.Machine.execRcOptimise ord umax maxk s
  | .rcEstimate => Sys2Proof.Machine.execRcEstimate s
  | .rcWriteResiduals ord => Sys2Proof.Machine.execRcWriteResiduals ord s
  | .stChoose => Sys2Proof.Machine.execStChoose s
  | .stTransform mode => Sys2Proof.Machine.execStTransform mode s
  | .sfChoose pl ss => Sys2Proof.Machine.execSfChoose pl ss s
  | .sfEncode pl ss => Sys2Proof.Machine.execSfEncode pl ss s
  | .frameEncode var => Sys2Proof.Machine.execFrameEncode var s

end Sys2Proof.Machine
end

