-- ==== Sys2Proof/Machine/Abort.lean ====
section
/-! DEFINITION. A command that is ended before it completes (spec/60_exceptions.md R368, R369 (c);
spec/70_reset_and_hazards.md R400, R402): how far it came is a free value, and what it leaves is what those rules say. -/

namespace Sys2Proof.Machine

/-- A command's pseudocode, without issue and completion (spec/00_scope.md R17). -/
def runInstr (i : Instr) (s : State) : Run :=
  match i with
  | .nop => runNop s
  | .bwCrcReset => runBwCrcReset s
  | .bwWriteBits n7 => runBwWriteBits n7.toNat s
  | .bwWriteBitsWrapped n7 => runBwWriteBitsWrapped n7.toNat s
  | .bwWriteUnary => runBwWriteUnary s
  | .bwFlush => runBwFlush s
  | .bwWriteCrc8 => runBwWriteCrc8 s
  | .bwWriteCrc16 => runBwWriteCrc16 s
  | .bwWriteConstant ss => runBwWriteConstant ss.toNat s
  | .bwWriteVerbatim pl ss => runBwWriteVerbatim pl ss.toNat s
  | .bwWriteFixed ord ss => runBwWriteFixed ord.toNat ss.toNat s
  | .bwWriteFrameHeader var ca => runBwWriteFrameHeader var ca.toNat s
  | .fpBestOrder pl cr => runFpBestOrder pl cr s
  | .fpResiduals pl ord => runFpResiduals pl ord.toNat s
  | .rcZigzag => runRcZigzag s
  | .rcWriteRice k => runRcWriteRice k.toNat s
  | .rcOptimise ord umax maxk => runRcOptimise ord.toNat umax.toNat maxk.toNat s
  | .rcEstimate => runRcEstimate s
  | .rcWriteResiduals ord => runRcWriteResiduals ord.toNat s
  | .stChoose => runStChoose s
  | .stTransform mode => runStTransform mode s
  | .sfChoose pl ss => runSfChoose pl ss.toNat s
  | .sfEncode pl ss => runSfEncode pl ss.toNat s
  | .frameEncode var => runFrameEncode var s

/-- The plane entries a command's rule writes. -/
def footprintOf (i : Instr) (s : State) : Footprint :=
  match i with
  | .nop => []
  | .bwCrcReset => []
  | .bwWriteBits _ => []
  | .bwWriteBitsWrapped _ => []
  | .bwWriteUnary => []
  | .bwFlush => []
  | .bwWriteCrc8 => []
  | .bwWriteCrc16 => []
  | .bwWriteConstant _ => []
  | .bwWriteVerbatim _ _ => []
  | .bwWriteFixed _ _ => []
  | .bwWriteFrameHeader _ _ => []
  | .fpBestOrder _ _ => []
  | .fpResiduals _ _ => footFpResiduals s
  | .rcZigzag => []
  | .rcWriteRice _ => []
  | .rcOptimise _ _ _ => []
  | .rcEstimate => []
  | .rcWriteResiduals _ => []
  | .stChoose => []
  | .stTransform mode => footStTransform mode s
  | .sfChoose _ _ => footSubframe s
  | .sfEncode _ _ => footSubframe s
  | .frameEncode _ => footFrame s

/-- The part of a command's pseudocode that may write through `emit_bit`, the one primitive that changes `nb`
(spec/41_bitwriter.md R153). The byte of BW_WRITE_CRC8 and the two of BW_WRITE_CRC16 go out by `emit_byte` (R165, R166). -/
def bitwisePart (i : Instr) (s : State) : Run :=
  match i with
  | .nop => .ok s
  | .bwCrcReset => .ok s
  | .bwWriteBits n7 => runBwWriteBits n7.toNat s
  | .bwWriteBitsWrapped n7 => runBwWriteBitsWrapped n7.toNat s
  | .bwWriteUnary => runBwWriteUnary s
  | .bwFlush => runBwFlush s
  | .bwWriteCrc8 => .ok s
  | .bwWriteCrc16 => emitFlush s
  | .bwWriteConstant ss => runBwWriteConstant ss.toNat s
  | .bwWriteVerbatim pl ss => runBwWriteVerbatim pl ss.toNat s
  | .bwWriteFixed ord ss => runBwWriteFixed ord.toNat ss.toNat s
  | .bwWriteFrameHeader var ca => runBwWriteFrameHeader var ca.toNat s
  | .fpBestOrder _ _ => .ok s
  | .fpResiduals _ _ => .ok s
  | .rcZigzag => .ok s
  | .rcWriteRice k => runRcWriteRice k.toNat s
  | .rcOptimise _ _ _ => .ok s
  | .rcEstimate => .ok s
  | .rcWriteResiduals ord => runRcWriteResiduals ord.toNat s
  | .stChoose => .ok s
  | .stTransform _ => .ok s
  | .sfChoose _ _ => .ok s
  | .sfEncode pl ss => runSfEncode pl ss.toNat s
  | .frameEncode var => runFrameEncode var s

/-- How many bits went through `emit_bit` on the way from `s` to the end `r`, counted by whole bytes and `nb`; a byte the
sink failed had been completed too. Where the model faults the count is not known: seven reach every value of `nb`. -/
def bitsWritten (s : State) (r : Run) : Nat :=
  match r with
  | .ok t => 8 * (t.out.length - s.out.length) + t.nb.toNat - s.nb.toNat
  | .error .writeFailed t => 8 * (t.out.length - s.out.length + 1) + t.nb.toNat - s.nb.toNat
  | .error _ t => 8 * (t.out.length - s.out.length) + t.nb.toNat - s.nb.toNat
  | .fault _ => 7

/-- The bits a command has still to write through `emit_bit` from the state it was accepted in; 0 where it writes none or
a check refuses it. -/
def bitsAhead (i : Instr) (s : State) : Nat := bitsWritten s (bitwisePart i s)

/-- The bytes the sink accepts before its first failure. -/
def acceptedAhead (s : State) : Nat := (s.sink.takeWhile fun a => a == .accept).length

/-- Sink answers under which a command comes as far as `k` accepted bytes and no further: the byte after them is not
accepted. A byte the sink really fails would have ended the command itself. -/
def cutSink (k : Nat) (s : State) : List SinkAnswer :=
  List.replicate (if s.sink.contains .fail then min k (acceptedAhead s) else k) .accept ++ [.fail]

/-- How far the command in progress had come when it was ended: free value 0 (log 9). Cut 0 is before its first
effect; cut k+1 is where byte k+1 is offered, or its end. -/
def stoppedAt (w : Word) (s : State) : Except Fault State :=
  match decode w with
  | none => .ok s
  | some i =>
    match s.free 0 with
    | 0 => .ok s
    | k + 1 =>
      match runInstr i { s with sink := cutSink k s } with
      | .ok t => .ok t
      | .error _ t => .ok t
      | .fault f => .error f

/-- `s` with the bytes the sink accepted up to `t`, and the CRCs and the counter that account for exactly those
(R369 (c)). -/
def keepOutput (s t : State) : State :=
  { s with
    out := t.out
    crc8 := t.crc8
    crc16 := t.crc16
    bytesWritten := t.bytesWritten
    sink := s.sink.drop (t.out.length - s.out.length)
    draws := s.draws + 1 }

/-- The footprint of a command word; an illegal word writes nothing. -/
def wordFootprint (w : Word) (s : State) : Footprint :=
  match decode w with
  | none => []
  | some i => footprintOf i s

/-- The command in progress, if any, ends at once: its accepted bytes stay, the plane entries its rule writes are
unspecified. -/
def interrupt (s : State) : Except Fault State :=
  match s.engine with
  | .idle => .ok s
  | .busy w _ =>
    match stoppedAt w s with
    | .error f => .error f
    | .ok t => .ok (scramblePlanes (wordFootprint w s) (keepOutput s t))

/-- A host access error (R368): error entry with HOST_ACCESS; a command in progress ends as R369 (c) says. -/
def hostAccessError (s : State) : Host.Outcome State Fault Refusal :=
  match interrupt s with
  | .error f => .fault f
  | .ok t => .next (errorEntry .hostAccess (if busy s then scrambleRegisters t else t))

/-- The soft reset (R402): planes and `OUT` stay. -/
def softReset (s : State) : Host.Outcome State Fault Refusal :=
  match interrupt s with
  | .error f => .fault f
  | .ok t => .next (resetRegisters t)

/-- The hardware reset (R400): as the soft reset, and every plane is unspecified. -/
def hardReset (s : State) : Host.Outcome State Fault Refusal :=
  match interrupt s with
  | .error f => .fault f
  | .ok t => .next (forgetPlanes (resetRegisters t))

end Sys2Proof.Machine
end

