-- ==== Sys2Proof/Machine/HostPort.lean ====
section
/-! DEFINITION. The host port: the register map (spec/10_state.md R32), the window map (spec/20_memory.md R81), reads and
writes with their side effects (R82, R86-R88), and the issue of a command (spec/60_exceptions.md R366). -/

namespace Sys2Proof.Machine

/-- The registers of the window (R32). -/
inductive Reg where
  | id
  | version
  | ctrl
  | status
  | cmd
  | fmt
  | riceCfg
  | bwAcc
  | crc8
  | crc16
  | bytesWritten
  | arg (i : Fin 4)
  | res (i : Fin 16)
  | param (j : Fin 256)
  deriving DecidableEq, Repr

/-- A register's offset (R32). -/
def Reg.offset : Reg → Nat
  | .id => 0x000
  | .version => 0x004
  | .ctrl => 0x008
  | .status => 0x00C
  | .cmd => 0x010
  | .fmt => 0x014
  | .riceCfg => 0x018
  | .bwAcc => 0x01C
  | .crc8 => 0x020
  | .crc16 => 0x024
  | .bytesWritten => 0x028
  | .arg i => 0x030 + 4 * i.val
  | .res i => 0x040 + 4 * i.val
  | .param j => 0x400 + 4 * j.val

/-- The register at word offset `4 * n` of the register window; 0x02C and 0x080-0x3FC are not mapped (R32). -/
def regAtWord (n : Nat) : Option Reg :=
  if n = 0 then some .id
  else if n = 1 then some .version
  else if n = 2 then some .ctrl
  else if n = 3 then some .status
  else if n = 4 then some .cmd
  else if n = 5 then some .fmt
  else if n = 6 then some .riceCfg
  else if n = 7 then some .bwAcc
  else if n = 8 then some .crc8
  else if n = 9 then some .crc16
  else if n = 10 then some .bytesWritten
  else if 12 ≤ n ∧ n < 16 then some (.arg (Fin.ofNat 4 (n - 12)))
  else if 16 ≤ n ∧ n < 32 then some (.res (Fin.ofNat 16 (n - 16)))
  else if 256 ≤ n ∧ n < 512 then some (.param (Fin.ofNat 256 (n - 256)))
  else none

/-- What a legal access reaches. -/
inductive Location where
  | reg (r : Reg)
  /-- a word of a plane, by window offset -/
  | plane (a : Nat)
  deriving DecidableEq, Repr

/-- A 32-bit access at a mapped multiple of 4 (R81, R86); every other access is a host access error. -/
def locate (offset : BitVec 22) (width : Nat) : Option Location :=
  let a := offset.toNat
  if width ≠ 4 ∨ a % 4 ≠ 0 then none
  else if a < 0x800 then (regAtWord (a / 4)).map .reg
  else if a < 0x100000 then none
  else some (.plane a)

/-! ### Reads -/

/-- The registers whose value a read returns while the engine is busy (R88); `CMD` reads 0 always (R35). -/
def steadyWhileBusy : Reg → Bool
  | .id => true
  | .version => true
  | .ctrl => true
  | .status => true
  | .cmd => true
  | .fmt => true
  | .riceCfg => false
  | .bwAcc => false
  | .crc8 => false
  | .crc16 => false
  | .bytesWritten => false
  | .arg _ => true
  | .res _ => false
  | .param _ => false

/-- The bits the command in progress, if any, writes through `emit_bit` before it ends. -/
def bitsInProgress (s : State) : Nat :=
  match s.engine with
  | .idle => 0
  | .busy w _ =>
    match decode w with
    | none => 0
    | some i => bitsAhead i s

/-- What `STATUS.BW_NBITS` reads as: `nb`, which is on its way while the command in progress writes bits. Each bit adds 1
modulo 8 (spec/41_bitwriter.md R153), and how many have been written when the read comes is a free value (log 11). -/
def nbitsSeen (s : State) : BitVec 3 :=
  if bitsInProgress s = 0 then s.nb else s.nb + BitVec.ofNat 3 (s.free 0 % (bitsInProgress s + 1))

/-- A register's value at the host port (R31-R43). -/
def regWord (r : Reg) (s : State) : Word :=
  match r with
  | .id => Config.idValue
  | .version => Config.versionValue
  | .ctrl => ctrlWord s
  | .status => statusWord (nbitsSeen s) s
  | .cmd => 0
  | .fmt => fmtWord s
  | .riceCfg => riceCfgWord s
  | .bwAcc => s.acc.setWidth 32
  | .crc8 => s.crc8.setWidth 32
  | .crc16 => s.crc16.setWidth 32
  | .bytesWritten => s.bytesWritten
  | .arg i => s.args[i]
  | .res i => s.res[i]
  | .param j => s.param[j].setWidth 32

/-- A read that returns `v`. No read has a side effect on the block (R87). -/
def returns (v : Word) (s : State) : State := { s with readData := v }

/-- A free value. -/
def freeWord (s : State) : Word := BitVec.ofNat 32 (s.free 0)

/-- One more free value has been drawn. -/
def drew (s : State) : State := { s with draws := s.draws + 1 }

/-- A read of a register (R88). -/
def readReg (r : Reg) (s : State) : State :=
  if busy s && !steadyWhileBusy r then drew (returns (freeWord s) s)
  else if r = .status ∧ bitsInProgress s ≠ 0 then drew (returns (regWord r s) s)
  else returns (regWord r s) s

/-- A read of a plane word (R82); one that nothing has written returns any value (U1). -/
def readPlane (a : Nat) (s : State) : State :=
  match s.mem.readWord a with
  | some v => returns v s
  | none => drew (returns (freeWord s) s)

/-- A host read (R86, R88): a refused one returns 0. -/
def hostRead (offset : BitVec 22) (width : Nat) (s : State) : Host.Outcome State Fault Refusal :=
  match locate offset width with
  | none => hostAccessError (returns 0 s)
  | some (.reg r) => .next (readReg r s)
  | some (.plane a) => if busy s then hostAccessError (returns 0 s) else .next (readPlane a s)

/-! ### Writes -/

/-- A command word is issued (R366) while the engine is idle: dropped while `ERR` = 1, accepted otherwise. -/
def issue (w : Word) (s : State) : State :=
  if s.err then s else { s with done := false, engine := .busy w s.stereoEn }

/-- A write to `CTRL` (R33): `SOFT_RESET` = 1 resets and ignores the write's other bits (R402). -/
def writeCtrl (v : Word) (s : State) : Host.Outcome State Fault Refusal :=
  if v.getLsbD 0 then softReset s else .next (setCtrl v s)

/-- A write to a register while the engine is idle; read-only registers ignore it (R87). -/
def writeReg (r : Reg) (v : Word) (s : State) : Host.Outcome State Fault Refusal :=
  match r with
  | .ctrl => writeCtrl v s
  | .status => .next (setStatus v s)
  | .cmd => .next (issue v s)
  | .fmt => .next (setFmt v s)
  | .riceCfg => .next (setRiceCfg v s)
  | .arg i => .next { s with args := s.args.set i v }
  | .param j => .next { s with param := s.param.set j (v.setWidth 5) }
  | .id => .next s
  | .version => .next s
  | .bwAcc => .next s
  | .crc8 => .next s
  | .crc16 => .next s
  | .bytesWritten => .next s
  | .res _ => .next s

/-- A write while the engine is busy: only `CTRL` and `STATUS` (R88; log 12). -/
def writeRegBusy (r : Reg) (v : Word) (s : State) : Host.Outcome State Fault Refusal :=
  match r with
  | .ctrl => writeCtrl v s
  | .status => .next (setStatus v s)
  | _ => hostAccessError s

/-- A host write (R86-R88). -/
def hostWrite (offset : BitVec 22) (width : Nat) (v : Word) (s : State) : Host.Outcome State Fault Refusal :=
  match locate offset width with
  | none => hostAccessError s
  | some (.reg r) => if busy s then writeRegBusy r v s else writeReg r v s
  | some (.plane a) => if busy s then hostAccessError s else .next { s with mem := s.mem.writeWord a v }

/-- One event of the host or the platform. -/
def hostEvent (e : HostEvent) (s : State) : Host.Outcome State Fault Refusal :=
  match e with
  | .read offset width => hostRead offset width s
  | .write offset width v => hostWrite offset width v s
  | .hardReset => hardReset s

/-- The host's next event; with none to come nothing happens (spec/60_exceptions.md R387). -/
def hostStep (s : State) : Host.Outcome State Fault Refusal :=
  match s.host with
  | [] => .next s
  | e :: es => hostEvent e { s with host := es }

end Sys2Proof.Machine
end

