-- ==== Sys2Proof/Machine/Engine.lean ====
section
/-! DEFINITION. The engine's move (spec/60_exceptions.md R366) and the order of moves while it is busy
(spec/70_reset_and_hazards.md R420; log 2). -/

namespace Sys2Proof.Machine

/-- The engine executes the rule of the word in progress (R366): an illegal word raises ILLEGAL_COMMAND before anything
else (spec/30_encoding.md R130). It runs from its first check to its completion or error as one transition. -/
def engineStep (w : Word) (s : State) : Host.Outcome State Fault Refusal :=
  match decode w with
  | none => .next (errorEntry .illegalCommand s)
  | some i => exec i s

/-- While a command is in progress the next turn says who moves; with none left the engine does. -/
def busyStep (w : Word) (s : State) : Host.Outcome State Fault Refusal :=
  match s.turns with
  | [] => engineStep w s
  | .engine :: ts => engineStep w { s with turns := ts }
  | .wait :: ts => .next { s with turns := ts }
  | .host :: ts => hostStep { s with turns := ts }

/-- `s` with command word `w` accepted (R366): what the host's write to `CMD` leaves, which needs `ERR` = 0, with no
turn before the engine's. -/
def acceptWord (w : Word) (s : State) : State :=
  { s with engine := .busy w s.stereoEn, done := false, err := false, errCode := .none, turns := [] }

end Sys2Proof.Machine
end

