-- ==== Sys2Proof/Machine/Step.lean ====
section
/-! DEFINITION. One step of the machine: idle, the host moves (spec/60_exceptions.md R387); busy, `busyStep` says who. -/

namespace Sys2Proof.Machine

def step (s : State) : Host.Outcome State Fault Refusal :=
  match s.engine with
  | .idle => hostStep s
  | .busy w _ => busyStep w s

/-- `s` with the `nbits`-bit command word `w` accepted, so that the next step runs it (log 1). -/
def State.withFetchWord (s : State) (nbits w : Nat) : State := acceptWord (BitVec.ofNat 32 (w % 2 ^ nbits)) s

end Sys2Proof.Machine
end

