-- ==== Sys2Proof/Machine/BitReader.lean ====
section
/-! DEFINITION. A reader of the bitstream, the decoder spec/45_rice.md R282 and spec/47_frame.md R342 speak of, for the
claims that nothing is lost. No step uses it. -/

namespace Sys2Proof.Machine

/-- An `n`-bit field, most significant bit first, on top of `v`. -/
def readFieldFrom : (n v : Nat) → List Bool → Option (Nat × List Bool)
  | 0, v, bits => some (v, bits)
  | n + 1, v, b :: bits => readFieldFrom n (2 * v + b.toNat) bits
  | _ + 1, _, [] => none

/-- An `n`-bit field as an unsigned number. -/
def readField (n : Nat) (bits : List Bool) : Option (Nat × List Bool) := readFieldFrom n 0 bits

/-- An `n`-bit field as a two's complement number. -/
def readSigned (n : Nat) (bits : List Bool) : Option (Int × List Bool) :=
  (readField n bits).map fun r => (if 2 * r.1 < 2 ^ n then (r.1 : Int) else r.1 - 2 ^ n, r.2)

/-- The zero bits before the next 1. -/
def readUnary : List Bool → Option (Nat × List Bool)
  | [] => none
  | true :: bits => some (0, bits)
  | false :: bits => (readUnary bits).map fun r => (r.1 + 1, r.2)

/-- The signed value of a zigzag number (R281, R282). -/
def unzigzag (u : Nat) : Int := if u % 2 = 0 then (u / 2 : Nat) else -((u + 1) / 2 : Nat)

/-- A Rice code with parameter `k` (R282). -/
def readRice (k : Nat) (bits : List Bool) : Option (Int × List Bool) :=
  match readUnary bits with
  | none => none
  | some (q, rest) => (readField k rest).map fun r => (unzigzag (q * 2 ^ k + r.1), r.2)

/-- `n` values in a row. -/
def readMany (read : List Bool → Option (Int × List Bool)) : (n : Nat) → List Bool → Option (List Int × List Bool)
  | 0, bits => some ([], bits)
  | n + 1, bits =>
    match read bits with
    | none => none
    | some (v, rest) => (readMany read n rest).map fun r => (v :: r.1, r.2)

/-- `count` partitions from `j` on: a `pb`-bit parameter, then its residuals (R300). -/
def readPartitions (p n o pb : Nat) : (j count : Nat) → List Bool → Option (List Int × List Bool)
  | _, 0, bits => some ([], bits)
  | j, count + 1, bits =>
    match readField pb bits with
    | none => none
    | some (k, rest) =>
      match readMany (readRice k) ((j + 1) * (n >>> o) - (if j = 0 then p else j * (n >>> o))) rest with
      | none => none
      | some (vs, rest) => (readPartitions p n o pb (j + 1) count rest).map fun r => (vs ++ r.1, r.2)

/-- The residuals of a residual section: the method's code, the partition order, the partitions (R300). -/
def readSection (p n : Nat) (bits : List Bool) : Option (List Int × List Bool) :=
  match readField 2 bits with
  | none => none
  | some (m, rest) =>
    match readField 4 rest with
    | none => none
    | some (o, rest) => readPartitions p n o (if m = 0 then 4 else 5) 0 (2 ^ o) rest

/-- The samples that follow `history`, latest first, from their residuals of order `p` (R230). -/
def restore (p : Nat) : (history residuals : List Int) → List Int
  | _, [] => []
  | history, r :: rs => (r + prediction p history) :: restore p ((r + prediction p history) :: history) rs

/-- A subframe of `n` samples of `ss` bits: its header byte, then its body (R168-R172). -/
def readSubframe (ss n : Nat) (bits : List Bool) : Option (List Int × List Bool) :=
  match readField 8 bits with
  | none => none
  | some (h, rest) =>
    if h = 0x00 then (readSigned ss rest).map fun r => (List.replicate n r.1, r.2)
    else if h = 0x02 then readMany (readSigned ss) n rest
    else if 0x10 ≤ h ∧ h ≤ 0x18 ∧ h % 2 = 0 then
      let p := (h - 0x10) / 2
      match readMany (readSigned ss) p rest with
      | none => none
      | some (warmups, rest) => (readSection p n rest).map fun r => (warmups ++ restore p warmups.reverse r.1, r.2)
    else none

/-- The subframes of a frame, in order. -/
def readSubframes (n : Nat) : List (Plane × Nat) → List Bool → Option (List (List Int) × List Bool)
  | [], bits => some ([], bits)
  | (_, ss) :: fs, bits =>
    match readSubframe ss n bits with
    | none => none
    | some (xs, rest) => (readSubframes n fs rest).map fun r => (xs :: r.1, r.2)

/-- The samples a frame of a stereo mode carries for its channels, in subframe order (spec/46_stereo.md R320, R330). -/
def stereoPlanes (mode : StereoMode) (channels : List (List Int)) : List (List Int) :=
  match mode, channels with
  | .leftSide, [l, r] => [l, List.zipWith sideOf l r]
  | .sideRight, [l, r] => [List.zipWith sideOf l r, r]
  | .midSide, [l, r] => [List.zipWith midOf l r, List.zipWith sideOf l r]
  | _, _ => channels

/-- The left sample from mid and side (spec/46_stereo.md R330). -/
def leftOf (mid side : Int) : Int := (2 * mid + side % 2 + side) >>> (1 : Nat)

/-- The channels from the samples a frame carries (spec/46_stereo.md R330). -/
def recoverChannels (mode : StereoMode) (planes : List (List Int)) : List (List Int) :=
  match mode, planes with
  | .leftSide, [l, s] => [l, List.zipWith (· - ·) l s]
  | .sideRight, [s, r] => [List.zipWith (· + ·) s r, r]
  | .midSide, [m, s] => [List.zipWith leftOf m s, List.zipWith (· - ·) (List.zipWith leftOf m s) s]
  | _, _ => planes

/-- The block size a header code with its trailer stands for (spec/42_frame_header.md R202). -/
def blockSizeOf (c : HeaderCode) : Option Nat :=
  match c.trailer with
  | some t => if (c.code, t.1) = (6, 8) ∨ (c.code, t.1) = (7, 16) then some (t.2 + 1) else none
  | none =>
    if c.code = 1 then some 192
    else if 2 ≤ c.code ∧ c.code ≤ 5 then some (144 * 2 ^ c.code)
    else if 8 ≤ c.code ∧ c.code ≤ 15 then some (2 ^ c.code)
    else none

/-- The sample rate a header code with its trailer stands for; `none` where the header does not say
(spec/42_frame_header.md R203). -/
def sampleRateOf (c : HeaderCode) : Option Nat :=
  match c.trailer with
  | some t =>
    if (c.code, t.1) = (12, 8) then some (1000 * t.2)
    else if (c.code, t.1) = (13, 16) then some t.2
    else if (c.code, t.1) = (14, 16) then some (10 * t.2)
    else none
  | none => if c.code = 0 then none else rateTable[c.code - 1]?

/-- The number of ones a byte begins with, at most 8. -/
def leadingOnes (b : Nat) : Nat := ((List.range 8).takeWhile fun i => b.testBit (7 - i)).length

/-- The number a list of variable-length bytes stands for (spec/42_frame_header.md R206): a lead byte below 0x80 alone,
or one with `n` leading ones before `n - 1` continuation bytes. -/
def utf8Value (bytes : List Nat) : Option Nat :=
  match bytes with
  | [] => none
  | b :: tail =>
    if b < 0x80 then (if tail = [] then some b else none)
    else if tail.length + 1 = leadingOnes b ∧ tail.all fun c => decide (0x80 ≤ c ∧ c < 0xC0) then
      some (tail.foldl (fun v c => 64 * v + c % 64) (b % 2 ^ (7 - leadingOnes b)))
    else none

end Sys2Proof.Machine
end

