-- ==== Sys2Proof/Machine/HostScript.lean ====
section
/-! DEFINITION. The host-script notation of spec/30_encoding.md R140 and R141 as lists of host events: the programs of
ZF-CORE are such lists (log 1). -/

namespace Sys2Proof.Machine.HostScript

/-- `wr REG, v`. -/
def wr (r : Reg) (v : Word) : List HostEvent := [.write (BitVec.ofNat 22 r.offset) 4 v]

/-- `rd REG`. -/
def rd (r : Reg) : List HostEvent := [.read (BitVec.ofNat 22 r.offset) 4]

/-- `wrp PLANE[i], v`; for SIDE the low then the high word. -/
def wrp (pl : Plane) (i : Nat) (v : Int) : List HostEvent :=
  let d : DWord := BitVec.ofInt 64 v
  match pl with
  | .side => [.write (BitVec.ofNat 22 (entryOffset .side i)) 4 (d.extractLsb' 0 32),
      .write (BitVec.ofNat 22 (entryOffset .side i + 4)) 4 (d.extractLsb' 32 32)]
  | _ => [.write (BitVec.ofNat 22 (entryOffset pl i)) 4 (BitVec.ofInt 32 v)]

/-- `cmd MNEMONIC field=value, …`. -/
def cmd (i : Instr) : List HostEvent := wr .cmd (encode i)

/-- `wait`: one read of `STATUS`, which an idle engine answers with `BUSY` = 0; a host whose read comes while the engine
is busy reads again. -/
def wait : List HostEvent := rd .status

/-- `run MNEMONIC fields`. -/
def run (i : Instr) : List HostEvent := cmd i ++ wait

/-- `wbits n, v`. -/
def wbits (n : BitVec 7) (v : DWord) : List HostEvent :=
  wr (.arg 0) (v.extractLsb' 0 32) ++ wr (.arg 1) (v.extractLsb' 32 32) ++ run (.bwWriteBits n)

/-- `wbitsw n, v`. -/
def wbitsw (n : BitVec 7) (v : DWord) : List HostEvent :=
  wr (.arg 0) (v.extractLsb' 0 32) ++ wr (.arg 1) (v.extractLsb' 32 32) ++ run (.bwWriteBitsWrapped n)

/-- `wunary q`. -/
def wunary (q : Word) : List HostEvent := wr (.arg 0) q ++ wr (.arg 1) 0 ++ run .bwWriteUnary

/-- `setn N`. -/
def setn (n : Word) : List HostEvent := wr (.arg 0) n

/-- `setnum x`. -/
def setnum (x : DWord) : List HostEvent := wr (.arg 1) (x.extractLsb' 0 32) ++ wr (.arg 2) (x.extractLsb' 32 32)

/-- `fmt ch, bits, rate`. -/
def fmt (ch : BitVec 4) (bits : BitVec 6) (rate : BitVec 20) : List HostEvent :=
  wr .fmt (rate ++ 0#2 ++ bits ++ ch)

end Sys2Proof.Machine.HostScript
end

