-- ==== Sys2Proof/Safety.lean ====
section
/-! DEFINITION. The terms claims are stated in: what the outside sees of the output, what it must provide for a command
to complete, and the invariants a run keeps. -/

namespace Sys2Proof.Machine

/-! ### The output as a stream of bits -/

/-- The `n` bits of `v`, most significant first (spec/41_bitwriter.md R154). -/
def fieldBits (n v : Nat) : List Bool := (List.range n).map fun i => v.testBit (n - 1 - i)

/-- The bits of a list of bytes in emission order (spec/20_memory.md R84). -/
def bytesBits (bs : List Byte) : List Bool := bs.flatMap fun b => fieldBits 8 b.toNat

/-- Every bit written so far: those in `OUT`, then the pending ones (spec/10_state.md R40). -/
def stream (s : State) : List Bool := bytesBits s.out ++ fieldBits s.nb.toNat s.acc.toNat

/-- From `s` to `t` exactly `bits` were written, and nothing else happened: the bytes they complete joined `OUT`, the
CRC registers and the counter account for those bytes, and each took one accepting answer of the sink (R152, R153). -/
structure Emitted (bits : List Bool) (s t : State) : Prop where
  stream : stream t = stream s ++ bits
  bytes : ∃ bs : List Byte, t.out = s.out ++ bs ∧ t.crc8 = bs.foldl crc8Update s.crc8 ∧
    t.crc16 = bs.foldl crc16Update s.crc16 ∧ t.bytesWritten = s.bytesWritten + BitVec.ofNat 32 bs.length ∧
    t.sink = s.sink.drop bs.length ∧ ∀ a ∈ s.sink.take bs.length, a = .accept
  rest : t = { s with
    out := t.out, crc8 := t.crc8, crc16 := t.crc16, bytesWritten := t.bytesWritten, sink := t.sink
    nb := t.nb, acc := t.acc }

/-- Entries `i .. i+n-1` of a plane, 0 standing for one that holds no value. -/
def entries (pl : Plane) (i n : Nat) (m : Memory) : List Int :=
  (List.range n).map fun j => (readEntry pl (i + j) m).getD 0

/-! ### The bits of the bitstream's pieces -/

/-- The unary code of `q` (spec/41_bitwriter.md R155). -/
def unaryBits (q : Nat) : List Bool := List.replicate q false ++ [true]

/-- One sample in `ss` bits. -/
def sampleBits (ss : Nat) (v : Int) : List Bool := fieldBits ss (lowBits ss v)

/-- The Rice code of `v` with parameter `k` (spec/45_rice.md R280): the quotient in unary, then `k` remainder bits. -/
def riceBits (k : Nat) (v : Int) : List Bool := unaryBits (zigzag v / 2 ^ k) ++ fieldBits k (zigzag v % 2 ^ k)

/-- A Constant subframe (spec/41_bitwriter.md R170). -/
def constantBits (ss : Nat) (v : Int) : List Bool := fieldBits 8 0x00 ++ sampleBits ss v

/-- A Verbatim subframe (spec/41_bitwriter.md R171). -/
def verbatimBits (ss : Nat) (xs : List Int) : List Bool := fieldBits 8 0x02 ++ xs.flatMap (sampleBits ss)

/-- Partition `j` of a residual section over `n` entries of `RESP` (spec/45_rice.md R300): its parameter in `pb` bits,
then its Rice codes; partition 0 starts at index `p`. -/
def partitionBits (p n o pb : Nat) (param : Nat → Nat) (m : Memory) (j : Nat) : List Bool :=
  let first := if j = 0 then p else j * (n >>> o)
  fieldBits pb (param j) ++ (entries .resp first ((j + 1) * (n >>> o) - first) m).flatMap (riceBits (param j))

/-- The residual section `emit_residual_section(p, N)` (spec/45_rice.md R300) of a state's RICE_CFG, PARAM and RESP. -/
def sectionBits (p n : Nat) (s : State) : List Bool :=
  fieldBits 2 s.method.code.toNat ++ fieldBits 4 s.porder.toNat ++
    (List.range (2 ^ s.porder.toNat)).flatMap
      (partitionBits p n s.porder.toNat s.method.paramBits (fun j => getParam j s) s.mem)

/-- A Fixed subframe of order `p` (spec/41_bitwriter.md R172). -/
def fixedBits (ss p n : Nat) (s : State) : List Bool :=
  fieldBits 8 (0x10 + 2 * p) ++ (entries .resp 0 p s.mem).flatMap (sampleBits ss) ++ sectionBits p n s

/-- A list of (width, value) fields. -/
def fieldsBits (fs : List (Nat × Nat)) : List Bool := fs.flatMap fun f => fieldBits f.1 f.2

/-! ### How a command ends -/

/-- `s` with the command in progress completed: `BUSY <- 0 ; DONE <- 1` (spec/60_exceptions.md R366). -/
def State.completed (s : State) : State := { s with engine := .idle, done := true }

/-- `s` after error entry with code `c` (spec/60_exceptions.md R367). -/
def State.failed (c : ErrorCode) (s : State) : State :=
  { s with engine := .idle, errCode := if s.err = true then s.errCode else c, err := true }

/-- `s` with every register at the reset value of spec/70_reset_and_hazards.md R401's table; planes, `OUT` and the
model's own fields as they are. -/
def State.registersReset (s : State) : State :=
  { s with
    irqEn := false, stereoEn := true, done := false, err := false, errCode := .none, engine := .idle
    channels := 0, bits := 0, rate := 0, method := .four, porder := 0
    param := Vector.replicate 256 0, args := Vector.replicate 4 0, res := Vector.replicate 16 0
    crc8 := 0, crc16 := 0, bytesWritten := 0, nb := 0, acc := 0 }

/-- The plane bytes the command in progress, if any, may be writing. -/
def inProgress (s : State) : Footprint :=
  match s.engine with
  | .idle => []
  | .busy w _ => wordFootprint w s

/-- The planes a command's rule writes (spec/70_reset_and_hazards.md R415). -/
def planesWritten (i : Instr) : List Plane :=
  match i with
  | .fpResiduals _ _ => [.resp]
  | .stTransform .leftRight => []
  | .stTransform .leftSide => [.side]
  | .stTransform .sideRight => [.side]
  | .stTransform .midSide => [.side, .mid]
  | .sfChoose _ _ => [.resp]
  | .sfEncode _ _ => [.resp]
  | .frameEncode _ => [.side, .mid, .resp]
  | _ => []

/-- A composite command or SF_CHOOSE, whose failing check may come after an effect (spec/60_exceptions.md R369). -/
def isComposite (i : Instr) : Bool :=
  match i with
  | .sfChoose _ _ => true
  | .sfEncode _ _ => true
  | .frameEncode _ => true
  | _ => false

/-- The commands FRAME_ENCODE performs for a mode, `c` channels and `bd` bits, from the transform to the last subframe
(spec/47_frame.md R341). -/
def frameCommands (var : Bool) (mode : StereoMode) (c bd : Nat) : List Instr :=
  let subframe (pl : Plane) (ss : Nat) : Instr := .sfEncode pl (BitVec.ofNat 6 ss)
  match mode with
  | .leftRight => .bwWriteFrameHeader var (BitVec.ofNat 4 (c - 1)) ::
      (List.range c).map fun i => subframe (.ch (Fin.ofNat 8 i)) bd
  | .leftSide => [.stTransform .leftSide, .bwWriteFrameHeader var 8, subframe (.ch 0) bd, subframe .side (bd + 1)]
  | .sideRight => [.stTransform .sideRight, .bwWriteFrameHeader var 9, subframe .side (bd + 1), subframe (.ch 1) bd]
  | .midSide => [.stTransform .midSide, .bwWriteFrameHeader var 10, subframe .mid bd, subframe .side (bd + 1)]

/-- From `s` to `t` a composite command has performed `is` in turn, each with the effect it has when issued but for
STATUS (spec/00_scope.md R17). -/
def Performs : List Instr → State → State → Prop
  | [], s, t => t = s
  | i :: is, s, t =>
    ∃ u : State, exec i s = .next u.completed ∧ u.engine = s.engine ∧ u.done = s.done ∧ Performs is u t

/-! ### Host accesses -/

/-- An offset of the window at which something is mapped (spec/10_state.md R32, spec/20_memory.md R81). -/
def mapped (offset : BitVec 22) : Prop :=
  offset.toNat < 0x02C ∨ (0x030 ≤ offset.toNat ∧ offset.toNat < 0x080) ∨
    (0x400 ≤ offset.toNat ∧ offset.toNat < 0x800) ∨ 0x100000 ≤ offset.toNat

/-- A 32-bit access at a multiple of 4 that is mapped (spec/20_memory.md R86). -/
def LegalAccess (offset : BitVec 22) (width : Nat) : Prop := width = 4 ∧ offset.toNat % 4 = 0 ∧ mapped offset

/-- The bits of a read/write register that keep what is written to them (spec/10_state.md R32-R43). -/
def writableBits (r : Reg) : Option Word :=
  match r with
  | .ctrl => some 0x00000006
  | .fmt => some 0xFFFFF3FF
  | .riceCfg => some 0x000000F1
  | .arg _ => some 0xFFFFFFFF
  | .param _ => some 0x0000001F
  | _ => none

/-! ### The encodings, as the tables of spec/30_encoding.md give them -/

/-- A field of a command word: its bit positions and its legal values (R111). -/
structure WordField where
  hi : Nat
  lo : Nat
  least : Nat
  greatest : Nat
  deriving DecidableEq, Repr

namespace WordField
def pl : WordField := ⟨23, 20, 0, 9⟩
def ord : WordField := ⟨18, 16, 0, 4⟩
def mode : WordField := ⟨17, 16, 0, 3⟩
def var : WordField := ⟨12, 12, 0, 1⟩
def cr : WordField := ⟨12, 12, 0, 1⟩
def umax : WordField := ⟨11, 8, 0, 8⟩
def n7 : WordField := ⟨6, 0, 1, 64⟩
def ss : WordField := ⟨5, 0, 1, 33⟩
def k : WordField := ⟨4, 0, 0, 31⟩
def maxk : WordField := ⟨4, 0, 0, 30⟩
def ca : WordField := ⟨3, 0, 0, 10⟩
end WordField

/-- The opcodes of R120 with the fields of their formats (R112). -/
def commandTable : List (Nat × List WordField) :=
  [(0x00, []), (0x10, []), (0x11, [.n7]), (0x12, [.n7]), (0x13, []), (0x14, []), (0x15, []), (0x16, []),
    (0x17, [.ss]), (0x18, [.pl, .ss]), (0x19, [.ord, .ss]), (0x1A, [.var, .ca]), (0x20, [.pl, .cr]),
    (0x21, [.pl, .ord]), (0x30, []), (0x31, [.k]), (0x32, [.ord, .umax, .maxk]), (0x33, []), (0x34, [.ord]),
    (0x40, []), (0x41, [.mode]), (0x50, [.pl, .ss]), (0x51, [.pl, .ss]), (0x60, [.var])]

/-- A command word is legal (R130): its opcode is in the table, no bit outside its fields is 1, and every field holds a
legal value. -/
def legalWord (w : Word) : Bool :=
  match commandTable.lookup (w.toNat / 2 ^ 24) with
  | none => false
  | some fs =>
    ((List.range 24).all fun b => !w.getLsbD b || fs.any fun f => decide (f.lo ≤ b ∧ b ≤ f.hi)) &&
      fs.all fun f =>
        let v := w.toNat / 2 ^ f.lo % 2 ^ (f.hi - f.lo + 1)
        decide (f.least ≤ v ∧ v ≤ f.greatest)

/-! ### The predictor, as the formulas of spec/43_fixed_predictor.md give it -/

/-- Entry `i` of a plane as a number, 0 standing for one that holds no value. -/
def sampleAt (pl : Plane) (m : Memory) (i : Nat) : Int := (readEntry pl i m).getD 0

/-- `e_p[i]`: the warm-up below `p`, the residual of R230's table from `p` on (R232). -/
def residualAt (p : Nat) (x : Nat → Int) (i : Nat) : Int :=
  if i < p then x i
  else match p with
  | 0 => x i
  | 1 => x i - x (i - 1)
  | 2 => x i - 2 * x (i - 1) + x (i - 2)
  | 3 => x i - 3 * x (i - 1) + 3 * x (i - 2) - x (i - 3)
  | _ => x i - 4 * x (i - 1) + 6 * x (i - 2) - 4 * x (i - 3) + x (i - 4)

/-- Every entry of the residual set of order `p` over `n` samples is in i32. -/
def ResidualsFit (p n : Nat) (x : Nat → Int) : Prop := ∀ i < n, -2 ^ 31 ≤ residualAt p x i ∧ residualAt p x i < 2 ^ 31

/-- `sum_p` before poisoning: `Σ abs(e_p[i])` over i from `a` to `n - 1` (R233). -/
def absResidualSum (a p n : Nat) (x : Nat → Int) : Nat :=
  ((List.range' a (n - a)).map fun i => (residualAt p x i).natAbs).sum

/-! ### The partition search, as the formulas of spec/45_rice.md give it -/

/-- The first index of partition `j` at order `o` (R286). -/
def partitionFirst (p n o j : Nat) : Nat := if j = 0 then p else j * (n >>> o)

/-- `L_j`, the number of residuals of partition `j` at order `o` (R286). -/
def partitionLength (p n o j : Nat) : Nat := (j + 1) * (n >>> o) - partitionFirst p n o j

/-- `S_j`, the zigzag sum of partition `j` at order `o` modulo 2^64 (R286). -/
def partitionSum (p n o j : Nat) (x : Nat → Int) : DWord :=
  BitVec.ofNat 64 ((List.range' (partitionFirst p n o j) (partitionLength p n o j)).map fun i => zigzag (x i)).sum

/-- `k` is the parameter R287 chooses: of 0..max the least cost, and of those the smallest. -/
def ChosenParam (S : DWord) (L max k : Nat) : Prop :=
  k ≤ max ∧ (∀ k' ≤ max, cost S L k ≤ cost S L k') ∧ ∀ k' < k, cost S L k < cost S L k'

/-- `P` is the effective maximum order of R285: the greatest order within the three bounds. -/
def EffectiveMaxOrder (n p userMax P : Nat) : Prop :=
  let allowed := fun q => q ≤ userMax ∧ 2 ^ q ∣ n ∧ (0 < p → q ≤ n.log2 - p.log2) ∧ p ≤ n >>> q
  allowed P ∧ ∀ q, allowed q → q ≤ P

/-- The width of the parameter field of an order: 5 if some of its parameters is above 14 (R288). -/
def orderParamBits (o : Nat) (ks : Nat → Nat) : Nat := if ∃ j < 2 ^ o, 14 < ks j then 5 else 4

/-- `total_o` of R288 for the parameters `ks` of order `o`. -/
def orderTotalOf (p n o : Nat) (ks : Nat → Nat) (x : Nat → Int) : DWord :=
  ((List.range (2 ^ o)).map fun j => cost (partitionSum p n o j x) (partitionLength p n o j) (ks j)).sum + 4 +
    BitVec.ofNat 64 (orderParamBits o ks * 2 ^ o)

/-! ### The stereo estimate, as the formulas of spec/46_stereo.md give it -/

/-- `x[i] - 2 x[i-1] + x[i-2]` (R321). -/
def secondDifference (x : Nat → Int) (i : Nat) : Int := x i - 2 * x (i - 1) + x (i - 2)

/-- A sum of magnitudes over i from 2 to `n - 1` (R321). -/
def estimateSum (n : Nat) (f : Nat → Int) : Nat := ((List.range' 2 (n - 2)).map fun i => (f i).natAbs).sum

/-- `estimate(sum, L).bits` of R292. -/
def estimateBits (sum : DWord) (L : Nat) : DWord :=
  if sum = 0 then 5 else cost sum L (sum.toNat.log2 - L.log2)

/-! ### What the outside provides -/

/-- The sink fails no byte (spec/20_memory.md R97). -/
def SinkAccepts (s : State) : Prop := ∀ a ∈ s.sink, a = .accept

/-- Entries `i .. i+n-1` of a plane hold values (spec/10_state.md R47). -/
def Written (pl : Plane) (i n : Nat) (m : Memory) : Prop := ∀ j, i ≤ j → j < i + n → (readEntry pl j m).isSome

/-- Every sample lies in the signed range of `ss` bits, the host's contract (spec/10_state.md R45). -/
def SamplesFit (ss : Nat) (xs : List Int) : Prop := ∀ x ∈ xs, -(2 ^ (ss - 1)) ≤ x ∧ x < 2 ^ (ss - 1)

/-- `s` with the CRC registers and the counter cleared, the start of a frame (spec/41_bitwriter.md R160). -/
def State.cleared (s : State) : State := { s with crc8 := 0, crc16 := 0, bytesWritten := 0 }

/-- The host's contract for a frame of `n` samples (spec/10_state.md R36, R45, R47): a supported format, a legal count and
number, the samples of every channel written and in range, and the bit writer aligned. -/
structure FrameReady (s : State) (n : Nat) : Prop where
  count : (s.args[0]).toNat = n
  channels : 1 ≤ s.channels.toNat ∧ s.channels.toNat ≤ 8
  bits : s.bits.toNat = 8 ∨ s.bits.toNat = 16 ∨ s.bits.toNat = 24 ∨ s.bits.toNat = 32
  aligned : s.nb = 0
  samples : 1 ≤ n ∧ n ≤ 65535
  number : (s.args[2] ++ s.args[1]).toNat < 2 ^ 36
  written : ∀ c : Fin 8, c.val < s.channels.toNat → Written (.ch c) 0 n s.mem
  fit : ∀ c : Fin 8, c.val < s.channels.toNat → SamplesFit s.bits.toNat (entries (.ch c) 0 n s.mem)

/-- What R301 requires of RICE_CFG and PARAM for `n` entries of order `p`. -/
structure SectionLegal (p n : Nat) (s : State) : Prop where
  order : s.porder.toNat ≤ 8
  divides : n % 2 ^ s.porder.toNat = 0
  first : p ≤ n >>> s.porder.toNat
  some : p < n
  params : ∀ j < 2 ^ s.porder.toNat, getParam j s ≤ (if s.method = .four then 14 else 30)

/-- A byte of a footprint. -/
def Footprint.Covers (f : Footprint) (a : Nat) : Prop := ∃ r ∈ f, r.1 ≤ a ∧ a < r.1 + r.2

/-! ### Invariants -/

/-- What holds of every state a run reaches: memory canonical and within the planes (spec/20_memory.md R81), the pending
bits an `nb`-bit value (spec/10_state.md R40), `ERR_CODE` 0 exactly while `ERR` = 0 and never a reserved code
(spec/10_state.md R34, spec/60_exceptions.md R362), and neither `DONE` nor `ERR` while a command is in progress
(spec/60_exceptions.md R366, R367). -/
structure State.Inv (s : State) : Prop where
  memWf : s.mem.wf = true
  memPlanes : ∀ c ∈ s.mem, 0x100000 ≤ c.1 ∧ c.1 < 0x400000
  pending : s.acc.toNat < 2 ^ s.nb.toNat
  codeNone : s.errCode = .none ↔ s.err = false
  codeRaised : s.errCode ≠ .outOfMemory ∧ s.errCode ≠ .incompleteStream
  busyClear : busy s = true → s.done = false ∧ s.err = false

/-- The CRC registers and the counter account for exactly the last bytes of `OUT`, those since they were last cleared
(spec/41_bitwriter.md R152, R157). -/
def State.SpanCovered (s : State) : Prop :=
  ∃ before span : List Byte, s.out = before ++ span ∧ s.crc8 = span.foldl crc8Update 0 ∧
    s.crc16 = span.foldl crc16Update 0 ∧ s.bytesWritten = BitVec.ofNat 32 span.length

end Sys2Proof.Machine
end

