-- ==== Sys2Proof/Certificates/Slice0/Obligations.lean ====
section
/-! DEFINITION. The statements for the provers. -/

section

open Sys2Proof Sys2Proof.Machine

/-! ### Command words -/

/-- Decoding the command word of a well-formed command gives it back, with every field at every legal value
(spec/30_encoding.md R110-R112, R120). -/
def Obligations.DecodeOfEncode : Prop := ∀ i : Instr, i.wellFormed = true → decode (encode i) = some i

/-- A word that decodes has legal fields and is the one command word of its command (spec/30_encoding.md R111, R112). -/
def Obligations.EncodeOfDecode : Prop :=
  ∀ (w : Word) (i : Instr), decode w = some i → i.wellFormed = true ∧ encode i = w

/-- The words that decode are exactly the words R130 does not call illegal: opcode in the table, no reserved bit 1,
every field in its legal range. -/
def Obligations.LegalWordsDecode : Prop := ∀ w : Word, (decode w).isSome = legalWord w

/-- An illegal word in progress, with no turn before the engine's (log 2), raises ILLEGAL_COMMAND and has no other effect
(spec/30_encoding.md R130). -/
def Obligations.IllegalWordOnlyRaises : Prop :=
  ∀ (s : State) (w : Word) (stereo : Bool), s.engine = .busy w stereo → s.turns = [] → legalWord w = false →
    step s = .next (s.failed .illegalCommand)

/-- Words written out from the formats of R112. -/
def Obligations.SpecWordsDecode : Prop :=
  decode 0x00000000#32 = some .nop ∧
  decode 0x11000020#32 = some (.bwWriteBits 32) ∧
  decode 0x18900011#32 = some (.bwWriteVerbatim .side 17) ∧
  decode 0x19020010#32 = some (.bwWriteFixed 2 16) ∧
  decode 0x1A00100A#32 = some (.bwWriteFrameHeader true 10) ∧
  decode 0x20301000#32 = some (.fpBestOrder (.ch 3) true) ∧
  decode 0x3202080E#32 = some (.rcOptimise 2 8 14) ∧
  decode 0x41030000#32 = some (.stTransform .midSide) ∧
  decode 0x51800010#32 = some (.sfEncode .mid 16) ∧
  decode 0x60000000#32 = some (.frameEncode false)

/-! ### Steps, issue and completion -/

/-- When no host event comes first, a step with a command in progress runs the command its word decodes to
(spec/60_exceptions.md R366, spec/70_reset_and_hazards.md R420). The list of turns is the model's choice (log 2). -/
def Obligations.StepRunsDecodedCommand : Prop :=
  ∀ (s : State) (w : Word) (stereo : Bool) (i : Instr), s.engine = .busy w stereo → decode w = some i →
    (s.turns = [] → step s = exec i s) ∧
    ∀ ts, s.turns = .engine :: ts → step s = exec i { s with turns := ts }

/-- A step takes the host's next event while the engine is idle, and while it is busy when the turn is the host's
(spec/20_memory.md R91, spec/70_reset_and_hazards.md R420). The lists of events and turns are the model's choice
(logs 1, 2). -/
def Obligations.StepTakesTheHostsEvent : Prop :=
  ∀ (s : State) (e : HostEvent) (es : List HostEvent), s.host = e :: es →
    (s.engine = .idle → step s = hostEvent e { s with host := es }) ∧
    ∀ w stereo ts, s.engine = .busy w stereo → s.turns = .host :: ts →
      step s = hostEvent e { s with host := es, turns := ts }

/-- A write of `w` to CMD: accepted while idle without an error, dropped while ERR = 1 (spec/60_exceptions.md R366). That
the accepted state holds the CTRL.STEREO_EN of that moment is the model's choice, deduced from spec/20_memory.md R91 (2)
(log 13). -/
def Obligations.CommandIssue : Prop :=
  ∀ (s : State) (w : Word), s.engine = .idle →
    (s.err = false →
      hostEvent (.write 0x010 4 w) s = .next { s with done := false, engine := .busy w s.stereoEn }) ∧
    (s.err = true → hostEvent (.write 0x010 4 w) s = .next s)

/-- Every command that ends leaves the engine idle, and either it completed (DONE set, the error state as it was) or it
raised one of the codes R362 lists for commands (DONE as it was, ERR set, the first code kept)
(spec/60_exceptions.md R366, R367). -/
def Obligations.EveryCommandEndsDoneOrInError : Prop :=
  ∀ (i : Instr) (s t : State), exec i s = .next t → t.engine = .idle ∧
    ((t.done = true ∧ t.err = s.err ∧ t.errCode = s.errCode) ∨
     (t.done = s.done ∧ t.err = true ∧ (s.err = true → t.errCode = s.errCode) ∧
      (s.err = false → t.errCode = .writeFailed ∨ t.errCode = .unsupportedFormat ∨ t.errCode = .invalidOperand ∨
        t.errCode = .bwUnaligned ∨ t.errCode = .paramEscape ∨ t.errCode = .residualRange)))

/-- Every well-formed command ends where the plane entries below N hold values: only an unwritten entry stops one
(spec/10_state.md R47; which entries a command reads: log 16). -/
def Obligations.OnlyUnwrittenEntriesStopACommand : Prop :=
  ∀ (i : Instr) (s : State), i.wellFormed = true →
    (∀ pl j, j < sampleCount s → (readEntry pl j s.mem).isSome = true) → ∃ t, exec i s = .next t

/-- Once ERR is set, a step keeps ERR and ERR_CODE, unless it is a hardware reset or a write of 1 to CTRL.SOFT_RESET
(spec/60_exceptions.md R367, spec/70_reset_and_hazards.md R403). -/
def Obligations.OnlyAResetLeavesTheErrorState : Prop :=
  ∀ (s t : State), step s = .next t → s.err = true →
    (t.err = true ∧ t.errCode = s.errCode) ∨
    (∃ es, s.host = .hardReset :: es) ∨
    ∃ v es, s.host = .write 0x008 4 v :: es ∧ v.getLsbD 0 = true

/-! ### Reset -/

/-- The state right after a hardware reset (spec/70_reset_and_hazards.md R401, spec/10_state.md R47). -/
def Obligations.ResetStateValues : Prop :=
  State.reset = State.reset.registersReset ∧ ∀ a, State.reset.mem.readByte a = none

/-- A hardware reset while idle gives R401's table and leaves no plane entry a value; a soft reset gives the same table
and leaves the planes, whatever the other bits of the write (spec/70_reset_and_hazards.md R400-R402). That the agents' lists,
readData, draws and sumStart go on as they were is the model's choice (log 20). -/
def Obligations.ResetWhileIdle : Prop :=
  ∀ s : State, s.engine = .idle →
    hostEvent .hardReset s = .next { s.registersReset with mem := [] } ∧
    ∀ v : Word, v.getLsbD 0 = true → hostEvent (.write 0x008 4 v) s = .next s.registersReset

/-- A reset at any moment ends the command in progress: the registers take R401's values, `OUT` keeps every byte
accepted, and a soft reset leaves every plane byte the command's rule does not write
(spec/70_reset_and_hazards.md R400, R402). How far the command came and what its planes then hold are free values; which
bytes a footprint covers, and that the agents' lists, readData and sumStart go on, is the model's choice (logs 9, 10, 20). -/
def Obligations.ResetAtAnyMoment : Prop :=
  ∀ s t : State,
    (hostEvent .hardReset s = .next t →
      (∃ bs, t.out = s.out ++ bs) ∧ (∀ a, t.mem.readByte a = none) ∧
      t = { s.registersReset with mem := [], out := t.out, sink := t.sink, draws := t.draws }) ∧
    (∀ v : Word, v.getLsbD 0 = true → hostEvent (.write 0x008 4 v) s = .next t →
      (∃ bs, t.out = s.out ++ bs) ∧ (∀ a, ¬ (inProgress s).Covers a → t.mem.readByte a = s.mem.readByte a) ∧
      t = { s.registersReset with mem := t.mem, out := t.out, sink := t.sink, draws := t.draws })

/-! ### The host port -/

/-- A read of a mapped register at any moment, or of a plane while idle, changes nothing of the block: only what the
read returned, and the model's count of free values. While idle ID, VERSION, RICE_CFG, BW_ACC, CRC8, CRC16, BYTES_WRITTEN,
RES and PARAM return what they hold (spec/20_memory.md R87, R88; spec/10_state.md R31, R37-R39, R42, R43; logs 6, 14). -/
def Obligations.ReadsHaveNoSideEffect : Prop :=
  ∀ s : State,
    (∀ offset, LegalAccess offset 4 → (offset.toNat < 0x800 ∨ s.engine = .idle) →
      ∃ v d, hostEvent (.read offset 4) s = .next { s with readData := v, draws := d }) ∧
    (s.engine = .idle →
      hostEvent (.read 0x000 4) s = .next { s with readData := 0x464C4143 } ∧
      hostEvent (.read 0x004 4) s = .next { s with readData := 0x00000007 } ∧
      hostEvent (.read 0x018 4) s =
        .next { s with readData := s.porder.setWidth 32 <<< 4 ||| (if s.method = .five then 1 else 0) } ∧
      hostEvent (.read 0x01C 4) s = .next { s with readData := s.acc.setWidth 32 } ∧
      hostEvent (.read 0x020 4) s = .next { s with readData := s.crc8.setWidth 32 } ∧
      hostEvent (.read 0x024 4) s = .next { s with readData := s.crc16.setWidth 32 } ∧
      hostEvent (.read 0x028 4) s = .next { s with readData := s.bytesWritten } ∧
      (∀ i : Fin 16, hostEvent (.read (BitVec.ofNat 22 (0x040 + 4 * i.val)) 4) s = .next { s with readData := s.res[i] }) ∧
      ∀ j : Fin 256, hostEvent (.read (BitVec.ofNat 22 (0x400 + 4 * j.val)) 4) s =
        .next { s with readData := s.param[j].setWidth 32 })

/-- While idle, an access of another width, misaligned or unmapped is refused: a read returns 0, a write changes
nothing, and error entry runs with HOST_ACCESS (spec/20_memory.md R86, spec/60_exceptions.md R368). -/
def Obligations.IllegalAccessIsRefused : Prop :=
  ∀ (s : State) (offset : BitVec 22) (width : Nat) (v : Word), s.engine = .idle → ¬ LegalAccess offset width →
    hostEvent (.read offset width) s = .next (State.failed .hostAccess { s with readData := 0 }) ∧
    hostEvent (.write offset width v) s = .next (s.failed .hostAccess)

/-- While busy, an access R88 does not permit ends the command with HOST_ACCESS: a plane access, an illegal access, or a
write to CMD, FMT, RICE_CFG, ARG or PARAM. `OUT` keeps what the sink accepted and its CRCs go on covering it; the planes
the command's rule does not write, the arguments, FMT and CTRL are unchanged; a refused read returns 0
(spec/20_memory.md R88, spec/60_exceptions.md R368, R369). How far the command came is a free value, which bytes a footprint
covers the model's choice (logs 9, 10). -/
def Obligations.BusyAccessEndsTheCommand : Prop :=
  ∀ (s t : State) (offset : BitVec 22) (width : Nat) (e : HostEvent), busy s = true →
    (e = .read offset width ∧ (¬ LegalAccess offset width ∨ 0x100000 ≤ offset.toNat) ∨
      (∃ v, e = .write offset width v) ∧
        (¬ LegalAccess offset width ∨ 0x100000 ≤ offset.toNat ∨ offset = 0x010 ∨ offset = 0x014 ∨ offset = 0x018 ∨
          (0x030 ≤ offset.toNat ∧ offset.toNat < 0x040) ∨ (0x400 ≤ offset.toNat ∧ offset.toNat < 0x800))) →
    hostEvent e s = .next t →
    t.engine = .idle ∧ t.done = s.done ∧ t.err = true ∧ t.errCode = (if s.err = true then s.errCode else .hostAccess) ∧
    (∃ bs, t.out = s.out ++ bs) ∧ (s.SpanCovered → t.SpanCovered) ∧
    (∀ a, ¬ (inProgress s).Covers a → t.mem.readByte a = s.mem.readByte a) ∧
    t.args = s.args ∧ fmtWord t = fmtWord s ∧ ctrlWord t = ctrlWord s ∧ t.host = s.host ∧ t.turns = s.turns ∧
    (e = .read offset width → t.readData = 0)

/-- At any moment, busy or idle, reads of ID, VERSION, CTRL, FMT and ARG return their values, and CMD reads 0
(spec/20_memory.md R87, R88, spec/10_state.md R31, R33, R35, R36, R41). -/
def Obligations.SteadyReadsWhileBusy : Prop :=
  ∀ s : State,
    hostEvent (.read 0x000 4) s = .next { s with readData := 0x464C4143 } ∧
    hostEvent (.read 0x004 4) s = .next { s with readData := 0x00000007 } ∧
    hostEvent (.read 0x008 4) s =
      .next { s with readData := (if s.irqEn = true then 2 else 0) ||| (if s.stereoEn = true then 4 else 0) } ∧
    hostEvent (.read 0x010 4) s = .next { s with readData := 0 } ∧
    hostEvent (.read 0x014 4) s =
      .next { s with readData :=
        s.rate.setWidth 32 <<< 12 ||| s.bits.setWidth 32 <<< 4 ||| s.channels.setWidth 32 } ∧
    ∀ i : Fin 4, hostEvent (.read (BitVec.ofNat 22 (0x030 + 4 * i.val)) 4) s = .next { s with readData := s.args[i] }

/-- While idle, a value written to CTRL (SOFT_RESET 0), FMT, RICE_CFG, ARG or PARAM is what a read returns, reserved bits
reading 0, and the write changes no other register, no plane and no output; of STATUS only IRQ can change, with CTRL.IRQ_EN
(spec/10_state.md R33, R34, R36, R37, R41, R43, R50). -/
def Obligations.RegisterReadBack : Prop :=
  ∀ (s : State) (r : Reg) (mask v : Word), s.engine = .idle → writableBits r = some mask →
    (r = .ctrl → v.getLsbD 0 = false) →
    ∃ u, hostEvent (.write (BitVec.ofNat 22 r.offset) 4 v) s = .next u ∧
      hostEvent (.read (BitVec.ofNat 22 r.offset) 4) u = .next { u with readData := v &&& mask } ∧
      (∀ r', r' ≠ r → r' ≠ .status → regWord r' u = regWord r' s) ∧
      (r ≠ .ctrl → regWord .status u = regWord .status s) ∧ u.done = s.done ∧ u.err = s.err ∧ u.errCode = s.errCode ∧
      u.nb = s.nb ∧ u.mem = s.mem ∧ u.out = s.out ∧ u.engine = .idle

/-- While idle, writes to the read-only registers are ignored without error (spec/20_memory.md R87). -/
def Obligations.ReadOnlyRegistersIgnoreWrites : Prop :=
  ∀ (s : State) (r : Reg) (v : Word), s.engine = .idle →
    (r = .id ∨ r = .version ∨ r = .bwAcc ∨ r = .crc8 ∨ r = .crc16 ∨ r = .bytesWritten ∨ ∃ i, r = .res i) →
    hostEvent (.write (BitVec.ofNat 22 r.offset) 4 v) s = .next s

/-- While idle, a word written to a plane is what a read of that offset returns, every other byte of the planes is as it
was, and nothing else changes (spec/20_memory.md R82; the places of a word's bytes are the model's choice, log 7). -/
def Obligations.PlaneWordReadBack : Prop :=
  ∀ (s : State) (offset : BitVec 22) (v : Word), s.engine = .idle → offset.toNat % 4 = 0 → 0x100000 ≤ offset.toNat →
    ∃ m, hostEvent (.write offset 4 v) s = .next { s with mem := m } ∧
      hostEvent (.read offset 4) { s with mem := m } = .next { s with mem := m, readData := v } ∧
      ∀ a, a < offset.toNat ∨ offset.toNat + 4 ≤ a → m.readByte a = s.mem.readByte a

/-- What the host writes to an entry is the signed value a command reads from it: 32 bits for CH, MID and RESP, the low
then the high word for SIDE (spec/20_memory.md R81, R82; spec/10_state.md R44, R45). -/
def Obligations.HostWrittenEntries : Prop :=
  ∀ (s : State) (i : Nat), s.engine = .idle → i < 65536 →
    (∀ (pl : Plane) (v : Word), pl ≠ .side →
      ∃ t, hostEvent (.write (BitVec.ofNat 22 (entryOffset pl i)) 4 v) s = .next t ∧
        readEntry pl i t.mem = some v.toInt ∧ ∀ pl' j, (pl', j) ≠ (pl, i) → j < 65536 →
          readEntry pl' j t.mem = readEntry pl' j s.mem) ∧
    (∀ v : DWord, ∃ t u,
      hostEvent (.write (BitVec.ofNat 22 (0x380000 + 8 * i)) 4 (v.extractLsb' 0 32)) s = .next t ∧
      hostEvent (.write (BitVec.ofNat 22 (0x380000 + 8 * i + 4)) 4 (v.extractLsb' 32 32)) t = .next u ∧
      readEntry .side i u.mem = some v.toInt)

/-- A read of STATUS at any moment: BUSY, DONE, ERR, the level `IRQ_EN ∧ (DONE ∨ ERR)` of the interrupt line, ERR_CODE,
reserved bits that read 0, and BW_NBITS, which is `nb` while idle, for an illegal word, and for a command that writes no bit
of its own: BW_WRITE_CRC8, and BW_FLUSH and BW_WRITE_CRC16 on an aligned writer. While a command writes bits it is `nb` after
some of them, how many being a free value of the model (log 11) (spec/10_state.md R34, R50; spec/20_memory.md R88). -/
def Obligations.StatusFields : Prop :=
  ∀ s : State, ∃ w d,
    hostEvent (.read 0x00C 4) s = .next { s with readData := w, draws := d } ∧
    w.getLsbD 0 = decide (s.engine ≠ .idle) ∧ w.getLsbD 1 = s.done ∧ w.getLsbD 2 = s.err ∧
    w.getLsbD 3 = (s.irqEn && (s.done || s.err)) ∧ w.extractLsb' 4 4 = 0 ∧ w.extractLsb' 8 4 = s.errCode.code ∧
    w.extractLsb' 12 4 = 0 ∧ w.extractLsb' 19 13 = 0 ∧
    (s.engine = .idle → d = s.draws ∧ w.extractLsb' 16 3 = s.nb) ∧
    ∀ word stereo, s.engine = .busy word stereo →
      (decode word = none → w.extractLsb' 16 3 = s.nb) ∧
      ∀ i, decode word = some i →
        (∃ b ≤ bitsAhead i s, w.extractLsb' 16 3 = s.nb + BitVec.ofNat 3 b) ∧
        (i = .bwWriteCrc8 ∨ s.nb = 0 ∧ (i = .bwFlush ∨ i = .bwWriteCrc16) → w.extractLsb' 16 3 = s.nb)

/-- A write of STATUS at any moment clears DONE if bit 1 is 1, and changes nothing else (spec/10_state.md R34,
spec/20_memory.md R88). -/
def Obligations.DoneIsWriteOneToClear : Prop :=
  ∀ (s : State) (v : Word), hostEvent (.write 0x00C 4 v) s = .next { s with done := s.done && !v.getLsbD 1 }

/-! ### Invariants of every step -/

/-- The invariants hold right after reset. -/
def Obligations.ResetMeetsTheInvariants : Prop := State.reset.Inv ∧ State.reset.SpanCovered

/-- Every step from a state that meets the invariant gives one that meets it: memory canonical and within the planes, the
pending bits an `nb`-bit value, ERR_CODE 0 exactly while ERR = 0 and never a reserved code, neither DONE nor ERR while
busy. The memory's form and the pending bits after an unspecified value are the model's choice (logs 7, 10). -/
def Obligations.StepKeepsInvariant : Prop := ∀ s t : State, step s = .next t → s.Inv → t.Inv

/-- Every step keeps the CRC registers and BYTES_WRITTEN those of the bytes since they were last cleared
(spec/41_bitwriter.md R152, R157). -/
def Obligations.StepKeepsSpanCovered : Prop := ∀ s t : State, step s = .next t → s.SpanCovered → t.SpanCovered

/-- No step removes a byte from OUT, a reset included (spec/10_state.md R48). -/
def Obligations.OutputOnlyGrows : Prop := ∀ s t : State, step s = .next t → ∃ bs, t.out = s.out ++ bs

/-- No command changes a byte of a plane its rule does not write, within that plane an entry from N on, any CH plane, an
argument, FMT, CTRL, or what belongs to the agents (spec/10_state.md R41, spec/70_reset_and_hazards.md R415; the agents'
lists are the model's, logs 1-3). -/
def Obligations.CommandsKeepTheirInputs : Prop :=
  ∀ (i : Instr) (s t : State), exec i s = .next t →
    (∀ a, (∀ pl ∈ planesWritten i, a < entryOffset pl 0 ∨ entryOffset pl (sampleCount s) ≤ a) →
      t.mem.readByte a = s.mem.readByte a) ∧
    (∀ c j, j < 65536 → readEntry (.ch c) j t.mem = readEntry (.ch c) j s.mem) ∧
    t.args = s.args ∧ t.channels = s.channels ∧ t.bits = s.bits ∧ t.rate = s.rate ∧ t.irqEn = s.irqEn ∧
    t.stereoEn = s.stereoEn ∧ t.host = s.host ∧ t.turns = s.turns ∧ t.readData = s.readData ∧
    t.sumStart = s.sumStart ∧ ∃ bs, t.out = s.out ++ bs

/-- An error raised by a check of a command that is not composite has changed nothing but STATUS; SF_CHOOSE has zeroed
RES0-RES5; SF_ENCODE ends in SF_CHOOSE's error and state; FRAME_ENCODE has changed nothing but STATUS, or it ends in the error
and state of an SF_CHOOSE after performing the commands before it (spec/60_exceptions.md R365, R369 (a), (b);
spec/44_subframe.md R263; spec/47_frame.md R341). That ST_CHOOSE is among these where there are two channels and stereo was
enabled when the command was accepted, whatever CTRL holds since, is the model's choice, deduced from spec/20_memory.md
R91 (2) (log 13). -/
def Obligations.CheckErrorsChangeOnlyStatus : Prop :=
  ∀ (i : Instr) (s t : State), exec i s = .next t → s.err = false → t.err = true → t.errCode ≠ .writeFailed →
    (isComposite i = false → t = s.failed t.errCode) ∧
    (∀ pl ss, i = .sfChoose pl ss → ∃ r : Vector Word 16,
      (∀ j : Fin 16, r[j] = if j.val < 6 then 0 else s.res[j]) ∧
      (t = s.failed .invalidOperand ∨ t = State.failed .residualRange { s with res := r })) ∧
    (∀ pl ss, i = .sfEncode pl ss → exec (.sfChoose pl ss) s = .next t) ∧
    ∀ var, i = .frameEncode var → t = s.failed t.errCode ∨
      t.errCode = .residualRange ∧ ∃ (mode : StereoMode) (c u : State) (pl : Plane) (ss : BitVec 6) (before after : List Instr),
        (s.channels = 2 ∧ stereoOperand s = true → Performs [.stChoose] s c ∧ c.res[2] = mode.code.setWidth 32) ∧
        (¬ (s.channels = 2 ∧ stereoOperand s = true) → c = s ∧ mode = .leftRight) ∧
        frameCommands var mode s.channels.toNat s.bits.toNat = before ++ .sfEncode pl ss :: after ∧
        Performs before c u ∧ exec (.sfChoose pl ss) u = .next t

/-- How a sink's failure shows: let a command end in `t` on a sink that always accepts, after `n` bytes. On a sink that
accepts `k` bytes and then fails one, it ends as on the accepting sink when `k ≥ n`, with the answers it took used up; when
`k < n` it raises WRITE_FAILED, and `OUT` holds the first `k` of those bytes (spec/20_memory.md R97,
spec/60_exceptions.md R369 (c), spec/70_reset_and_hazards.md R421). The list of answers is the model's choice (log 3). -/
def Obligations.SinkFailureCutsTheOutput : Prop :=
  ∀ (i : Instr) (s t : State) (k : Nat) (rest : List SinkAnswer),
    exec i { s with sink := [] } = .next t →
    let failing := List.replicate k SinkAnswer.accept ++ .fail :: rest
    (t.out.length ≤ s.out.length + k →
      exec i { s with sink := failing } = .next { t with sink := failing.drop (t.out.length - s.out.length) }) ∧
    (s.out.length + k < t.out.length →
      ∃ u, exec i { s with sink := failing } = .next u ∧ u.engine = .idle ∧ u.done = s.done ∧ u.err = true ∧
        (s.err = false → u.errCode = .writeFailed) ∧ u.out = t.out.take (s.out.length + k) ∧ u.sink = rest)

/-! ### Control and bit-writer commands -/

/-- NOP completes and changes nothing else. BW_CRC_RESET clears the CRC registers and the counter on an aligned bit
writer, and raises BW_UNALIGNED otherwise (spec/41_bitwriter.md R158, R160). -/
def Obligations.NopAndCrcReset : Prop :=
  ∀ s : State,
    exec .nop s = .next s.completed ∧
    (s.nb = 0 → exec .bwCrcReset s = .next s.cleared.completed) ∧
    (s.nb ≠ 0 → exec .bwCrcReset s = .next (s.failed .bwUnaligned))

/-- BW_WRITE_BITS writes the `n` bits of a value that fits and refuses one that does not; BW_WRITE_BITS_WRAPPED writes the
low `n` bits of any value (spec/41_bitwriter.md R161, R162). -/
def Obligations.WriteBitsEmits : Prop :=
  ∀ (s : State) (n7 : BitVec 7), 1 ≤ n7.toNat → n7.toNat ≤ 64 → SinkAccepts s →
    let u := (s.args[1] ++ s.args[0]).toNat
    (u < 2 ^ n7.toNat → ∃ t, exec (.bwWriteBits n7) s = .next t.completed ∧ Emitted (fieldBits n7.toNat u) s t) ∧
    (2 ^ n7.toNat ≤ u → exec (.bwWriteBits n7) s = .next (s.failed .invalidOperand)) ∧
    ∃ t, exec (.bwWriteBitsWrapped n7) s = .next t.completed ∧ Emitted (fieldBits n7.toNat (u % 2 ^ n7.toNat)) s t

/-- BW_WRITE_UNARY writes `q` zeros and a 1, and refuses a nonzero ARG1; RC_WRITE_RICE writes the Rice code of ARG0, and
traps the escape parameter 31 (spec/41_bitwriter.md R163, spec/45_rice.md R283, R291). -/
def Obligations.UnaryAndRiceEmit : Prop :=
  ∀ (s : State) (k : BitVec 5), SinkAccepts s →
    (s.args[1] = 0 → ∃ t, exec .bwWriteUnary s = .next t.completed ∧
      Emitted (List.replicate s.args[0].toNat false ++ [true]) s t) ∧
    (s.args[1] ≠ 0 → exec .bwWriteUnary s = .next (s.failed .invalidOperand)) ∧
    (k ≠ 31 → ∃ t, exec (.rcWriteRice k) s = .next t.completed ∧ Emitted (riceBits k.toNat s.args[0].toInt) s t) ∧
    (k = 31 → exec (.rcWriteRice k) s = .next (s.failed .paramEscape))

/-- BW_FLUSH pads with zeros to the byte boundary, and nothing on an aligned writer (spec/41_bitwriter.md R156, R164). -/
def Obligations.FlushAligns : Prop :=
  ∀ s : State, SinkAccepts s → ∃ t, exec .bwFlush s = .next t.completed ∧ t.nb = 0 ∧
    Emitted (List.replicate ((8 - s.nb.toNat) % 8) false) s t

/-- BW_WRITE_CRC8 emits the CRC-8 register on an aligned writer, after which it is 0, and raises BW_UNALIGNED otherwise;
BW_WRITE_CRC16 flushes and emits the CRC-16 then standing, high byte first, after which it is 0
(spec/41_bitwriter.md R157, R165, R166). -/
def Obligations.CrcFooters : Prop :=
  ∀ s : State, SinkAccepts s →
    (s.nb = 0 → ∃ t, exec .bwWriteCrc8 s = .next t.completed ∧ Emitted (fieldBits 8 s.crc8.toNat) s t ∧ t.crc8 = 0) ∧
    (s.nb ≠ 0 → exec .bwWriteCrc8 s = .next (s.failed .bwUnaligned)) ∧
    ∃ u t, Emitted (List.replicate ((8 - s.nb.toNat) % 8) false) s u ∧ u.nb = 0 ∧
      Emitted (fieldBits 16 u.crc16.toNat) u t ∧ t.crc16 = 0 ∧ exec .bwWriteCrc16 s = .next t.completed

/-- The check values of the two CRCs, of the nine bytes "123456789" (spec/41_bitwriter.md R150, R151). -/
def Obligations.CrcCheckValues : Prop :=
  let digits : List Byte := [0x31, 0x32, 0x33, 0x34, 0x35, 0x36, 0x37, 0x38, 0x39]
  digits.foldl crc8Update 0 = 0xF4 ∧ digits.foldl crc16Update 0 = 0xFEE8

/-- A message followed by its own CRC has CRC 0 (spec/41_bitwriter.md R157 (c)). -/
def Obligations.CrcOfItsOwnCrcIsZero : Prop :=
  ∀ (message : List Byte) (c8 : Byte) (c16 : Half),
    (message ++ [message.foldl crc8Update c8]).foldl crc8Update c8 = 0 ∧
    (message ++ [(message.foldl crc16Update c16).extractLsb' 8 8,
      (message.foldl crc16Update c16).extractLsb' 0 8]).foldl crc16Update c16 = 0

/-- BW_WRITE_CONSTANT writes 0x00 and the low `ss` bits of the operand; BW_WRITE_VERBATIM 0x02 and the low `ss` bits of
each of the N samples, and refuses a count outside 1..65535 (spec/41_bitwriter.md R168, R170, R171). -/
def Obligations.ConstantAndVerbatimEmit : Prop :=
  ∀ (s : State) (pl : Plane) (ss : BitVec 6), SinkAccepts s →
    (∃ t, exec (.bwWriteConstant ss) s = .next t.completed ∧
      Emitted (fieldBits 8 0x00 ++ fieldBits ss.toNat ((s.args[1] ++ s.args[0]).toInt % 2 ^ ss.toNat).toNat) s t) ∧
    (1 ≤ s.args[0].toNat → s.args[0].toNat ≤ 65535 → Written pl 0 s.args[0].toNat s.mem →
      ∃ t, exec (.bwWriteVerbatim pl ss) s = .next t.completed ∧
        Emitted (fieldBits 8 0x02 ++ (List.range s.args[0].toNat).flatMap fun i =>
          fieldBits ss.toNat (sampleAt pl s.mem i % 2 ^ ss.toNat).toNat) s t) ∧
    (s.args[0].toNat = 0 ∨ 65535 < s.args[0].toNat →
      exec (.bwWriteVerbatim pl ss) s = .next (s.failed .invalidOperand))

/-- On a legal configuration RC_WRITE_RESIDUALS writes the residual section, and BW_WRITE_FIXED the header byte
`0x10 + 2p`, the warm-ups and the section (spec/45_rice.md R300, R302; spec/41_bitwriter.md R172). -/
def Obligations.ResidualSectionEmits : Prop :=
  ∀ (s : State) (ord : BitVec 3) (ss : BitVec 6), ord.toNat ≤ 4 → 1 ≤ s.args[0].toNat → s.args[0].toNat ≤ 65535 →
    SectionLegal ord.toNat s.args[0].toNat s → Written .resp 0 s.args[0].toNat s.mem → SinkAccepts s →
    (∃ t, exec (.rcWriteResiduals ord) s = .next t.completed ∧
      Emitted (sectionBits ord.toNat s.args[0].toNat s) s t) ∧
    ∃ t, exec (.bwWriteFixed ord ss) s = .next t.completed ∧
      Emitted (fixedBits ss.toNat ord.toNat s.args[0].toNat s) s t

/-- The checks of R301, the first failing one decides: the count, the partition order, the partition shape, then the
parameters in order, the escape values raising PARAM_ESCAPE and a FOUR parameter of 16..30 INVALID_OPERAND. -/
def Obligations.ResidualSectionChecks : Prop :=
  ∀ (s : State) (ord : BitVec 3) (ss : BitVec 6) (c : ErrorCode),
    let n := s.args[0].toNat
    let o := s.porder.toNat
    let shape := 1 ≤ n ∧ n ≤ 65535 ∧ o ≤ 8 ∧ n % 2 ^ o = 0 ∧ ord.toNat ≤ n >>> o ∧ ord.toNat < n
    (¬ shape ∧ c = .invalidOperand ∨
      shape ∧ ∃ j < 2 ^ o, (∀ i < j, getParam i s ≤ if s.method = .four then 14 else 30) ∧
        (s.method = .four ∧ (getParam j s = 15 ∨ getParam j s = 31) ∧ c = .paramEscape ∨
          s.method = .four ∧ 16 ≤ getParam j s ∧ getParam j s ≤ 30 ∧ c = .invalidOperand ∨
          s.method = .five ∧ getParam j s = 31 ∧ c = .paramEscape)) →
    exec (.rcWriteResiduals ord) s = .next (s.failed c) ∧ exec (.bwWriteFixed ord ss) s = .next (s.failed c)

/-! ### The frame header -/

/-- BW_WRITE_FRAME_HEADER clears the CRC registers and the counter, writes the fields of R200 in order, ends aligned, and
appends the CRC-8 of exactly those bytes, after which the CRC-8 register is 0 (spec/42_frame_header.md R200-R210). -/
def Obligations.FrameHeaderEmits : Prop :=
  ∀ (s : State) (var : Bool) (ca : BitVec 4),
    let bs := s.args[0].toNat
    let num := (s.args[2] ++ s.args[1]).toNat
    let c := s.channels.toNat
    let bd := s.bits.toNat
    1 ≤ c → c ≤ 8 → (bd = 8 ∨ bd = 16 ∨ bd = 24 ∨ bd = 32) → s.nb = 0 → 1 ≤ bs → bs ≤ 65535 → num < 2 ^ 36 →
    (8 ≤ ca.toNat ∧ c = 2 ∨ ca.toNat < 8 ∧ ca.toNat + 1 = c) → SinkAccepts s →
    ∃ u t,
      Emitted
        (fieldBits 16 (if var = true then 0xFFF9 else 0xFFF8) ++ fieldBits 4 (bsCode bs).code ++
          fieldBits 4 (srCode s.rate.toNat).code ++ fieldBits 4 ca.toNat ++
          fieldBits 4 (if bd = 8 then 2 else if bd = 16 then 8 else if bd = 24 then 12 else 14) ++
          (utf8 num).flatMap (fieldBits 8) ++ fieldsBits (bsCode bs).trailer.toList ++
          fieldsBits (srCode s.rate.toNat).trailer.toList)
        s.cleared u ∧
      u.nb = 0 ∧ Emitted (fieldBits 8 u.crc8.toNat) u t ∧ t.crc8 = 0 ∧
      exec (.bwWriteFrameHeader var ca) s = .next t.completed

/-- The checks of BW_WRITE_FRAME_HEADER and FRAME_ENCODE in their order: the format, the alignment, the count, the number,
and for the header the agreement of CA with FMT (spec/42_frame_header.md R210, spec/47_frame.md R341,
spec/60_exceptions.md R370). -/
def Obligations.FrameChecks : Prop :=
  ∀ (s : State) (var : Bool) (ca : BitVec 4) (e : ErrorCode),
    let n := s.args[0].toNat
    let c := s.channels.toNat
    let bd := s.bits.toNat
    let format := (1 ≤ c ∧ c ≤ 8) ∧ (bd = 8 ∨ bd = 16 ∨ bd = 24 ∨ bd = 32)
    let operands := (1 ≤ n ∧ n ≤ 65535) ∧ (s.args[2] ++ s.args[1]).toNat < 2 ^ 36
    let agrees := 8 ≤ ca.toNat ∧ c = 2 ∨ ca.toNat < 8 ∧ ca.toNat + 1 = c
    (¬ format ∧ e = .unsupportedFormat ∨ format ∧ s.nb ≠ 0 ∧ e = .bwUnaligned ∨
        format ∧ s.nb = 0 ∧ ¬ operands ∧ e = .invalidOperand →
      exec (.bwWriteFrameHeader var ca) s = .next (s.failed e) ∧ exec (.frameEncode var) s = .next (s.failed e)) ∧
    (format → s.nb = 0 → operands → ¬ agrees →
      exec (.bwWriteFrameHeader var ca) s = .next (s.failed .invalidOperand))

/-- The block-size code by R202's cases and the sample-rate code by R203's, the table first, then 12 before 13 before 14;
the rate's code is 0 exactly for rate 0 and for a rate none of them holds; and a reader of the code with its trailer gets the
block size, and the rate wherever the code is not 0 (spec/42_frame_header.md R202, R203). -/
def Obligations.HeaderCodesCanBeRead : Prop :=
  let rates := [88200, 176400, 192000, 8000, 16000, 22050, 24000, 32000, 44100, 48000, 96000]
  (∀ bs, 1 ≤ bs → bs ≤ 65535 →
    (bs = 192 → bsCode bs = ⟨1, none⟩) ∧
    (∀ k, 2 ≤ k → k ≤ 5 → bs = 144 * 2 ^ k → bsCode bs = ⟨k, none⟩) ∧
    (∀ k, 8 ≤ k → k ≤ 15 → bs = 2 ^ k → bsCode bs = ⟨k, none⟩) ∧
    (bs ≠ 192 → (∀ k, 2 ≤ k → k ≤ 5 → bs ≠ 144 * 2 ^ k) → (∀ k, 8 ≤ k → k ≤ 15 → bs ≠ 2 ^ k) →
      bsCode bs = if bs ≤ 256 then ⟨6, some (8, bs - 1)⟩ else ⟨7, some (16, bs - 1)⟩) ∧
    blockSizeOf (bsCode bs) = some bs) ∧
  ∀ r, r < 2 ^ 20 →
    (∀ j < 11, rates[j]? = some r → srCode r = ⟨j + 1, none⟩) ∧
    (r ∉ rates → r ≠ 0 →
      (r % 1000 = 0 ∧ r / 1000 ≤ 255 → srCode r = ⟨12, some (8, r / 1000)⟩) ∧
      (¬ (r % 1000 = 0 ∧ r / 1000 ≤ 255) → r ≤ 65535 → srCode r = ⟨13, some (16, r)⟩) ∧
      (¬ (r % 1000 = 0 ∧ r / 1000 ≤ 255) → 65535 < r → r % 10 = 0 ∧ r / 10 ≤ 65535 →
        srCode r = ⟨14, some (16, r / 10)⟩)) ∧
    ((srCode r).code = 0 ↔ r = 0 ∨ r ∉ rates ∧ ¬ (r % 1000 = 0 ∧ r / 1000 ≤ 255) ∧ 65535 < r ∧
      ¬ (r % 10 = 0 ∧ r / 10 ≤ 65535)) ∧
    ((srCode r).code = 0 → (srCode r).trailer = none) ∧
    ((srCode r).code ≠ 0 → sampleRateOf (srCode r) = some r)

/-- The variable-length bytes of a number below 2^36 say that number, and are 1 to 7 bytes
(spec/42_frame_header.md R206). -/
def Obligations.FrameNumberCanBeRead : Prop :=
  ∀ x, x < 2 ^ 36 → utf8Value (utf8 x) = some x ∧ 1 ≤ (utf8 x).length ∧ (utf8 x).length ≤ 7 ∧ ∀ b ∈ utf8 x, b < 256

/-! ### The predictor -/

/-- The residual set has one entry per sample, the warm-ups and the residuals of R230's table
(spec/43_fixed_predictor.md R230, R232). -/
def Obligations.ResidualFormula : Prop :=
  ∀ (p : Nat) (xs : List Int), p ≤ 4 → (residualSet p xs).length = xs.length ∧
    ∀ i < xs.length, (residualSet p xs)[i]? = some (residualAt p (fun j => xs.getD j 0) i)

/-- FP_RESIDUALS writes `e_p[0..N-1]` into RESP and nothing else; it raises RESIDUAL_RANGE, leaving RESP, where an entry is
outside i32, and refuses a count outside 1..65535 (spec/43_fixed_predictor.md R232, R241). -/
def Obligations.ResidualsIntoResp : Prop :=
  ∀ (s : State) (pl : Plane) (ord : BitVec 3), ord.toNat ≤ 4 →
    let n := s.args[0].toNat
    let x := sampleAt pl s.mem
    (1 ≤ n → n ≤ 65535 → Written pl 0 n s.mem →
      (ResidualsFit ord.toNat n x → ∃ m, exec (.fpResiduals pl ord) s = .next { s with mem := m }.completed ∧
        (∀ i < n, readEntry .resp i m = some (residualAt ord.toNat x i)) ∧
        ∀ a, a < entryOffset .resp 0 ∨ entryOffset .resp n ≤ a → m.readByte a = s.mem.readByte a) ∧
      (¬ ResidualsFit ord.toNat n x → exec (.fpResiduals pl ord) s = .next (s.failed .residualRange))) ∧
    (n = 0 ∨ 65535 < n → exec (.fpResiduals pl ord) s = .next (s.failed .invalidOperand))

/-- FP_BEST_ORDER reports the five sums, a poisoned one being 2^49 - 1, and the lowest order of least sum, or none where
that order is poisoned; only RES0-RES2 and RES4-RES13 change (spec/43_fixed_predictor.md R233-R235, R240). For SIDE entries
beyond 33 bits, that sums compare exactly and RES64 shows their low 64 bits is the model's choice (log 15). -/
def Obligations.BestOrderIsLeast : Prop :=
  ∀ (s : State) (pl : Plane) (cr : Bool),
    let n := s.args[0].toNat
    let x := sampleAt pl s.mem
    let a := fun p => match s.sumStart with | .order => p | .four => 4 | .zero => 0
    let poisoned := fun p => cr = true ∧ ¬ ResidualsFit p n x
    (5 ≤ n → n ≤ 65535 → Written pl 0 n s.mem →
      ∃ (sum : Nat → Nat) (best : Nat) (r : Vector Word 16),
        (∀ p ≤ 4, (poisoned p → sum p = 2 ^ 49 - 1) ∧ (¬ poisoned p → sum p = absResidualSum (a p) p n x)) ∧
        best ≤ 4 ∧ (∀ q ≤ 4, sum best ≤ sum q) ∧ (∀ q < best, sum best < sum q) ∧
        exec (.fpBestOrder pl cr) s = .next { s with res := r }.completed ∧
        r[1] ++ r[0] = BitVec.ofNat 64 (sum best) ∧
        (poisoned best → r[2] = 0xFFFFFFFF) ∧ (¬ poisoned best → r[2] = BitVec.ofNat 32 best) ∧
        r[5] ++ r[4] = BitVec.ofNat 64 (sum 0) ∧ r[7] ++ r[6] = BitVec.ofNat 64 (sum 1) ∧
        r[9] ++ r[8] = BitVec.ofNat 64 (sum 2) ∧ r[11] ++ r[10] = BitVec.ofNat 64 (sum 3) ∧
        r[13] ++ r[12] = BitVec.ofNat 64 (sum 4) ∧ r[3] = s.res[3] ∧ r[14] = s.res[14] ∧ r[15] = s.res[15]) ∧
    (n < 5 ∨ 65535 < n → exec (.fpBestOrder pl cr) s = .next (s.failed .invalidOperand))

/-! ### The Rice coder -/

/-- Zigzag is `-2v - 1` below 0 and `2v` from 0 on; it is one to one with the naturals, grows with the magnitude, and is
below 2^32 on i32; RC_ZIGZAG answers it in RES64(0) and changes no other result (spec/45_rice.md R281, R290). -/
def Obligations.ZigzagIsABijection : Prop :=
  (∀ v : Int, (zigzag v : Int) = if v < 0 then -v * 2 - 1 else v * 2) ∧
  (∀ v : Int, unzigzag (zigzag v) = v) ∧ (∀ u : Nat, zigzag (unzigzag u) = u) ∧
  (∀ a b : Int, a.natAbs < b.natAbs → zigzag a < zigzag b) ∧
  (∀ v : Int, -2 ^ 31 ≤ v → v < 2 ^ 31 → zigzag v < 2 ^ 32) ∧
  ∀ s : State, ∃ r : Vector Word 16, exec .rcZigzag s = .next { s with res := r }.completed ∧
    r[1] ++ r[0] = BitVec.ofNat 64 (if s.args[0].toInt < 0 then -s.args[0].toInt * 2 - 1 else s.args[0].toInt * 2).toNat ∧
    ∀ j : Fin 16, 2 ≤ j.val → r[j] = s.res[j]

/-- A reader of a Rice code recovers the value and stops at its end (spec/45_rice.md R280, R282). -/
def Obligations.RiceCodeCanBeRead : Prop :=
  ∀ (k : Nat) (v : Int) (rest : List Bool), readRice k (riceBits k v ++ rest) = some (v, rest) ∧
    (riceBits k v).length = zigzag v / 2 ^ k + 1 + k

/-- RC_OPTIMISE: the effective maximum order is the greatest within R285's bounds; every partition of every order has the
least-cost parameter, ties to the smaller; the chosen order has the least total, ties to the later; RICE_CFG and
PARAM[0..2^o-1] hold the choice, RES64(0) its total and RES2 the maximum order, and nothing else changes
(spec/45_rice.md R285-R289, R293). That only RESP[p..N-1] need hold values is the model's choice (log 16). -/
def Obligations.OptimiserChoosesTheLeast : Prop :=
  ∀ (s : State) (ord : BitVec 3) (umax : BitVec 4) (maxk : BitVec 5), maxk.toNat ≤ 30 → umax.toNat ≤ 8 →
    let n := s.args[0].toNat
    let p := ord.toNat
    let x := sampleAt .resp s.mem
    (1 ≤ n → n ≤ 65535 → p < n → Written .resp p (n - p) s.mem →
      ∃ (P o : Nat) (ks : Nat → Nat → Nat) (pa : Vector (BitVec 5) 256) (r : Vector Word 16),
        EffectiveMaxOrder n p umax.toNat P ∧
        (∀ q ≤ P, ∀ j < 2 ^ q,
          ChosenParam (partitionSum p n q j x) (partitionLength p n q j) maxk.toNat (ks q j)) ∧
        o ≤ P ∧ (∀ q ≤ P, orderTotalOf p n o (ks o) x ≤ orderTotalOf p n q (ks q) x) ∧
        (∀ q ≤ P, o < q → orderTotalOf p n o (ks o) x < orderTotalOf p n q (ks q) x) ∧
        exec (.rcOptimise ord umax maxk) s = .next { s with
          method := if orderParamBits o (ks o) = 5 then .five else .four
          porder := BitVec.ofNat 4 o, param := pa, res := r }.completed ∧
        (∀ j : Fin 256, pa[j] = if j.val < 2 ^ o then BitVec.ofNat 5 (ks o j.val) else s.param[j]) ∧
        r[1] ++ r[0] = orderTotalOf p n o (ks o) x ∧ r[2] = BitVec.ofNat 32 P ∧
        ∀ j : Fin 16, 3 ≤ j.val → r[j] = s.res[j]) ∧
    (n = 0 ∨ 65535 < n ∨ n ≤ p → exec (.rcOptimise ord umax maxk) s = .next (s.failed .invalidOperand))

/-- RC_ESTIMATE: 31 and 5 bits for a zero sum, else the difference of the floor logarithms and the cost at it; a frame size
outside 1..65535 is refused (spec/45_rice.md R292, R294). -/
def Obligations.EstimateResult : Prop :=
  ∀ s : State,
    let sum := s.args[1] ++ s.args[0]
    let L := s.args[2].toNat
    (1 ≤ L → L ≤ 65535 → ∃ r : Vector Word 16, exec .rcEstimate s = .next { s with res := r }.completed ∧
      r[1] ++ r[0] = estimateBits sum L ∧
      r[2] = (if sum = 0 then 31 else BitVec.ofNat 32 (sum.toNat.log2 - L.log2)) ∧
      ∀ j : Fin 16, 3 ≤ j.val → r[j] = s.res[j]) ∧
    (L = 0 ∨ 65535 < L → exec .rcEstimate s = .next (s.failed .invalidOperand))

/-! ### Stereo -/

/-- ST_CHOOSE: the four estimates of R321 and R322, the scores of R323, and the first mode of least score, in the
registers R325 lists, the others unchanged; a count outside 1..65535 is refused. -/
def Obligations.StereoChoiceIsFirstLeast : Prop :=
  ∀ s : State,
    let n := s.args[0].toNat
    let dl := secondDifference (sampleAt (.ch 0) s.mem)
    let dr := secondDifference (sampleAt (.ch 1) s.mem)
    let bL := estimateBits (BitVec.ofNat 64 (2 * estimateSum n dl)) n
    let bR := estimateBits (BitVec.ofNat 64 (2 * estimateSum n dr)) n
    let bM := estimateBits (BitVec.ofNat 64 (2 * estimateSum n fun i => (dl i + dr i) / 2)) n
    let bS := estimateBits (BitVec.ofNat 64 (2 * estimateSum n fun i => dl i - dr i)) n
    let score := fun m => if m = 0 then bL + bR else if m = 1 then bL + bS else if m = 2 then bS + bR else bM + bS
    (1 ≤ n → n ≤ 65535 → Written (.ch 0) 0 n s.mem → Written (.ch 1) 0 n s.mem →
      ∃ (mode : Nat) (r : Vector Word 16),
        mode ≤ 3 ∧ (∀ m ≤ 3, score mode ≤ score m) ∧ (∀ m < mode, score mode < score m) ∧
        exec .stChoose s = .next { s with res := r }.completed ∧
        r[1] ++ r[0] = score mode ∧ r[2] = BitVec.ofNat 32 mode ∧ r[5] ++ r[4] = bL ∧ r[7] ++ r[6] = bR ∧
        r[9] ++ r[8] = bM ∧ r[11] ++ r[10] = bS ∧ r[3] = s.res[3] ∧ ∀ j : Fin 16, 12 ≤ j.val → r[j] = s.res[j]) ∧
    (n = 0 ∨ 65535 < n → exec .stChoose s = .next (s.failed .invalidOperand))

/-- ST_TRANSFORM: modes 1-3 write `L - R` into SIDE, mode 3 also `(L + R) >>s 1` into MID, mode 0 nothing; no other byte
and no register changes; a count outside 1..65535 is refused (spec/46_stereo.md R330, R331). -/
def Obligations.StereoTransformPlanes : Prop :=
  ∀ (s : State) (mode : StereoMode),
    let n := s.args[0].toNat
    let l := sampleAt (.ch 0) s.mem
    let r := sampleAt (.ch 1) s.mem
    (1 ≤ n → n ≤ 65535 → Written (.ch 0) 0 n s.mem → Written (.ch 1) 0 n s.mem →
      ∃ m, exec (.stTransform mode) s = .next { s with mem := m }.completed ∧
        (mode ≠ .leftRight → ∀ i < n, readEntry .side i m = some (l i - r i)) ∧
        (mode = .midSide → ∀ i < n, readEntry .mid i m = some ((l i + r i) / 2)) ∧
        ∀ a, (mode = .leftRight ∨ a < entryOffset .side 0 ∨ entryOffset .side n ≤ a) →
          (mode ≠ .midSide ∨ a < entryOffset .mid 0 ∨ entryOffset .mid n ≤ a) → m.readByte a = s.mem.readByte a) ∧
    (n = 0 ∨ 65535 < n → exec (.stTransform mode) s = .next (s.failed .invalidOperand))

/-- Mid and side recover left and right, and for i32 channels mid is in i32 and side has at most 33 significant bits
(spec/46_stereo.md R330). -/
def Obligations.MidSideRecovers : Prop :=
  ∀ l r : Int, (2 * midOf l r + sideOf l r % 2 + sideOf l r) / 2 = l ∧ l - sideOf l r = r ∧
    (-2 ^ 31 ≤ l → l < 2 ^ 31 → -2 ^ 31 ≤ r → r < 2 ^ 31 →
      (-2 ^ 31 ≤ midOf l r ∧ midOf l r < 2 ^ 31) ∧ -2 ^ 32 < sideOf l r ∧ sideOf l r < 2 ^ 32)

/-! ### Subframes and frames -/

/-- SF_CHOOSE without predictor work: Constant with the sample in RES64(4) when all samples are equal, else Verbatim for at
most four samples; RES0-RES5 are zeroed first and nothing else changes; a count outside 1..65535 is refused
(spec/44_subframe.md R261, R262). -/
def Obligations.SubframeChoiceWithoutPredictor : Prop :=
  ∀ (s : State) (pl : Plane) (ss : BitVec 6),
    let n := s.args[0].toNat
    let x := sampleAt pl s.mem
    (1 ≤ n → n ≤ 65535 → Written pl 0 n s.mem →
      ((∀ i < n, x i = x 0) → ∃ r : Vector Word 16, exec (.sfChoose pl ss) s = .next { s with res := r }.completed ∧
        r[0] = 0 ∧ r[1] = 0 ∧ r[2] = 0 ∧ r[3] = 0 ∧ r[5] ++ r[4] = BitVec.ofInt 64 (x 0) ∧
        ∀ j : Fin 16, 6 ≤ j.val → r[j] = s.res[j]) ∧
      ((∃ i < n, x i ≠ x 0) → n ≤ 4 →
        ∃ r : Vector Word 16, exec (.sfChoose pl ss) s = .next { s with res := r }.completed ∧
          ∀ j : Fin 16, r[j] = if j.val = 2 then 1 else if j.val < 6 then 0 else s.res[j])) ∧
    (n = 0 ∨ 65535 < n → exec (.sfChoose pl ss) s = .next (s.failed .invalidOperand))

/-- SF_CHOOSE over at least five samples that are not all equal does what FP_BEST_ORDER with the range check of
`ss ≥ 28`, FP_RESIDUALS and RC_OPTIMISE with UMAX 8 and MAXK 14 or 30 do in turn: Verbatim where there is no order,
RESIDUAL_RANGE where the residuals do not fit, and otherwise RESP, RICE_CFG, PARAM and the total of the optimiser, the order
in RES3, and Fixed exactly where the total is below `N · ss` (spec/44_subframe.md R261, R262; spec/00_scope.md R17). -/
def Obligations.SubframeChoiceIsItsPrimitives : Prop :=
  ∀ (s b : State) (pl : Plane) (ss : BitVec 6),
    let n := s.args[0].toNat
    let maxk : BitVec 5 := if ss.toNat ≤ 16 then 14 else 30
    5 ≤ n → n ≤ 65535 → Written pl 0 n s.mem → (∃ i < n, sampleAt pl s.mem i ≠ sampleAt pl s.mem 0) →
    exec (.fpBestOrder pl (decide (28 ≤ ss.toNat))) s = .next b →
    (b.res[2] = 0xFFFFFFFF → ∃ r : Vector Word 16, exec (.sfChoose pl ss) s = .next { s with res := r }.completed ∧
      ∀ j : Fin 16, r[j] = if j.val = 2 then 1 else if j.val < 6 then 0 else s.res[j]) ∧
    (b.res[2] ≠ 0xFFFFFFFF → b.res[2].toNat ≤ 4 ∧
      (¬ ResidualsFit b.res[2].toNat n (sampleAt pl s.mem) →
        ∃ r : Vector Word 16, exec (.sfChoose pl ss) s = .next (State.failed .residualRange { s with res := r }) ∧
          ∀ j : Fin 16, r[j] = if j.val < 6 then 0 else s.res[j]) ∧
      (ResidualsFit b.res[2].toNat n (sampleAt pl s.mem) →
        ∀ m o, exec (.fpResiduals pl (b.res[2].setWidth 3)) s = .next { s with mem := m }.completed →
        exec (.rcOptimise (b.res[2].setWidth 3) 8 maxk) { s with mem := m } = .next o →
        ∃ r : Vector Word 16,
          exec (.sfChoose pl ss) s = .next { s with
            mem := m, method := o.method, porder := o.porder, param := o.param, res := r }.completed ∧
          ∀ j : Fin 16, r[j] =
            if j.val < 2 then o.res[j]
            else if j.val = 2 then (if (o.res[1] ++ o.res[0]).toNat < n * ss.toNat then 2 else 1)
            else if j.val = 3 then b.res[2]
            else if j.val < 6 then 0 else s.res[j]))

/-- A reader of the subframe SF_ENCODE writes recovers the plane's samples exactly: SF_ENCODE completes on samples that
fit `ss` bits, leaves what SF_CHOOSE leaves, and has written the one subframe of the kind SF_CHOOSE answers in RES2:
Constant, Verbatim, or Fixed of the order in RES3 (spec/44_subframe.md R263, spec/47_frame.md R342). -/
def Obligations.SubframesAreLossless : Prop :=
  ∀ (s : State) (pl : Plane) (ss : BitVec 6),
    let n := s.args[0].toNat
    legalPlane pl = true → legalSampleSize ss = true → 1 ≤ n → n ≤ 65535 → Written pl 0 n s.mem →
    SamplesFit ss.toNat (entries pl 0 n s.mem) → SinkAccepts s →
    ∃ u t bits, exec (.sfChoose pl ss) s = .next u ∧ u.done = true ∧ u.err = s.err ∧
      exec (.sfEncode pl ss) s = .next t ∧ Emitted bits u t ∧
      (u.res[2] = 0 ∧ bits = constantBits ss.toNat (sampleAt pl s.mem 0) ∨
        u.res[2] = 1 ∧ bits = verbatimBits ss.toNat (entries pl 0 n s.mem) ∨
        u.res[2] = 2 ∧ bits = fixedBits ss.toNat u.res[3].toNat n u) ∧
      readSubframe ss.toNat n bits = some (entries pl 0 n s.mem, [])

/-- FRAME_ENCODE on a frame the host's contract covers: it completes aligned, with the CRC-16 register 0, the number of
bytes written in RES0 and BYTES_WRITTEN, and the mode and channel assignment in RES2 and RES3: the mode ST_CHOOSE answers
where there are two channels and stereo is enabled, as CTRL was when the command was accepted (the model's choice, log 13),
else LeftRight. But for RES0-RES3 it leaves, and it writes, what the commands it performs do: the stereo choice, the transform,
the header, a subframe for each plane of the mode, the flush (BW_FLUSH's effect, spec/41_bitwriter.md R164) and the CRC-16
(spec/47_frame.md R340, R341). -/
def Obligations.FrameEncodeCompletes : Prop :=
  ∀ (s : State) (var : Bool) (n : Nat), FrameReady s n → SinkAccepts s →
    ∃ (t c u : State) (mode : StereoMode) (bytes : List Byte),
      exec (.frameEncode var) s = .next t ∧ t.done = true ∧ t.err = s.err ∧ t.engine = .idle ∧
      (s.channels = 2 ∧ stereoOperand s = true → Performs [.stChoose] s c ∧ c.res[2] = mode.code.setWidth 32) ∧
      (¬ (s.channels = 2 ∧ stereoOperand s = true) → c = s ∧ mode = .leftRight) ∧
      Performs (frameCommands var mode s.channels.toNat s.bits.toNat ++ [.bwFlush, .bwWriteCrc16]) c u ∧
      t = State.completed { u with res := t.res } ∧ (∀ j : Fin 16, 4 ≤ j.val → t.res[j] = u.res[j]) ∧
      t.out = s.out ++ bytes ∧ t.nb = 0 ∧ t.crc16 = 0 ∧ t.bytesWritten = BitVec.ofNat 32 bytes.length ∧
      t.res[0] = BitVec.ofNat 32 bytes.length ∧ t.res[1] = 0 ∧ t.res[2] = mode.code.setWidth 32 ∧
      t.res[3] = (if mode = .leftRight then s.channels.setWidth 32 - 1 else 7 + mode.code.setWidth 32)

/-- The frame FRAME_ENCODE writes can be read back: after the header come the subframes of R341's order, and a reader of
them gets samples from which R330 recovers every channel, exactly; then the zero padding and the CRC-16 of all bytes before
it (spec/47_frame.md R340-R342, spec/46_stereo.md R330). -/
def Obligations.FramesAreLossless : Prop :=
  ∀ (s : State) (var : Bool) (n : Nat), FrameReady s n → SinkAccepts s →
    ∃ (t : State) (mode : StereoMode) (header bytes : List Byte) (body : List Bool) (pad crc : Nat),
      exec (.frameEncode var) s = .next t ∧ t.done = true ∧ t.res[2] = mode.code.setWidth 32 ∧
      t.out = s.out ++ header ++ bytes ∧
      bytesBits header = fieldsBits (headerFields var (frameAssignment mode s.channels.toNat) n
        (s.args[2] ++ s.args[1]).toNat s.bits.toNat s.rate.toNat) ++
        fieldBits 8 (header.dropLast.foldl crc8Update 0).toNat ∧
      bytesBits bytes = body ++ List.replicate pad false ++ fieldBits 16 crc ∧ pad < 8 ∧
      crc = ((header ++ bytes.take (bytes.length - 2)).foldl crc16Update 0).toNat ∧
      readSubframes n (frameSubframes mode s.channels.toNat s.bits.toNat) body =
        some (stereoPlanes mode ((List.range s.channels.toNat).map fun i => entries (channelPlane i) 0 n s.mem), []) ∧
      recoverChannels mode
        (stereoPlanes mode ((List.range s.channels.toNat).map fun i => entries (channelPlane i) 0 n s.mem)) =
        (List.range s.channels.toNat).map fun i => entries (channelPlane i) 0 n s.mem

end
end

