-- ==== Sys2Proof/Laws/Predictor.lean ====
section
/-! SUPPORT. The residual set of the fixed predictor, entry by entry (spec/43_fixed_predictor.md R230-R232). -/

namespace Sys2Proof.Machine

theorem length_residualsFrom (p i : Nat) (history xs : List Int) :
    (residualsFrom p i history xs).length = xs.length := by
  induction xs generalizing i history with
  | nil => rfl
  | cons x xs ih => simp [residualsFrom, ih]

@[simp] theorem length_residualSet (p : Nat) (xs : List Int) : (residualSet p xs).length = xs.length :=
  length_residualsFrom ..

theorem getElem?_residualsFrom (p i : Nat) (history xs : List Int) (j : Nat) :
    (residualsFrom p i history xs)[j]? =
      xs[j]?.map fun x => if i + j < p then x else x - prediction p ((xs.take j).reverse ++ history) := by
  induction xs generalizing i history j with
  | nil => rfl
  | cons x xs ih =>
    cases j with
    | zero => simp [residualsFrom]
    | succ j =>
      simp only [residualsFrom, List.getElem?_cons_succ, ih, List.take_succ_cons, List.reverse_cons, List.append_assoc,
        List.singleton_append, show i + 1 + j = i + (j + 1) by omega]

/-- Entry `i` of the residual set: the sample itself below p, else its difference from its prediction (R232). -/
theorem getElem?_residualSet (p : Nat) (xs : List Int) (i : Nat) :
    (residualSet p xs)[i]? = xs[i]?.map fun x => if i < p then x else x - prediction p (xs.take i).reverse := by
  simp [residualSet, getElem?_residualsFrom]

/-- The earlier samples, latest first, down to the `k`-th before index `i`. -/
theorem reverse_take_eq {xs : List Int} {i : Nat} (hi : i < xs.length) :
    (xs.take (i + 1)).reverse = xs.getD i 0 :: (xs.take i).reverse := by
  rw [List.take_add_one, List.getElem?_eq_getElem hi]
  simp [List.getD_eq_getElem?_getD, List.getElem?_eq_getElem hi]

end Sys2Proof.Machine
end

