-- ==== Sys2Proof/Laws/Operands.lean ====
section
/-! SUPPORT. The operand forms in terms of the argument registers (spec/30_encoding.md R113, spec/00_scope.md R13). -/

namespace Sys2Proof.Machine

theorem arg_eq (s : State) (i : Fin 4) : arg i s = s.args[i] := by simp [arg, Vector.getD]

theorem sampleCount_eq (s : State) : sampleCount s = s.args[0].toNat := congrArg BitVec.toNat (arg_eq s 0)

theorem operandU_eq (s : State) : operandU s = (s.args[1] ++ s.args[0]).toNat := by
  rw [operandU, arg64, show arg (0 + 1) s = s.args[1] from arg_eq s 1, show arg 0 s = s.args[0] from arg_eq s 0]

theorem operandSv_eq (s : State) : operandSv s = (s.args[1] ++ s.args[0]).toInt := by
  rw [operandSv, arg64, show arg (0 + 1) s = s.args[1] from arg_eq s 1, show arg 0 s = s.args[0] from arg_eq s 0]

theorem operandV32_eq (s : State) : operandV32 s = s.args[0].toInt := congrArg BitVec.toInt (arg_eq s 0)

theorem operandNum_eq (s : State) : operandNum s = (s.args[2] ++ s.args[1]).toNat := by
  rw [operandNum, arg64, show arg (1 + 1) s = s.args[2] from arg_eq s 2, show arg 1 s = s.args[1] from arg_eq s 1]

theorem operandL_eq (s : State) : operandL s = s.args[2].toNat := congrArg BitVec.toNat (arg_eq s 2)

theorem getParam_eq (s : State) (j : Fin 256) : getParam j s = s.param[j].toNat := by simp [getParam, Vector.getD]

theorem getRes_eq (s : State) (i : Fin 16) : getRes i s = s.res[i] := by simp [getRes, Vector.getD]

theorem legalSamples_iff {n : Nat} : legalSamples n = true ↔ 1 ≤ n ∧ n ≤ 65535 :=
  decide_eq_true_iff

theorem inI32_iff {v : Int} : inI32 v = true ↔ -2 ^ 31 ≤ v ∧ v < 2 ^ 31 := by
  simp only [inI32, decide_eq_true_eq]
  omega

end Sys2Proof.Machine
end

