-- ==== Sys2Proof/Laws/Memory.lean ====
section
/-! SUPPORT. What the memory and plane operations do: a read after a write, and that every write keeps the canonical
form (spec/20_memory.md R81, R82; spec/10_state.md R44, R45). -/

namespace Sys2Proof.Machine

/-! ### Bytes -/

@[simp] theorem readByte_nil (a : Nat) : Memory.readByte [] a = none := rfl

theorem readByte_cons (c : Host.Cell) (m : Memory) (a : Nat) :
    Memory.readByte (c :: m) a = if c.1 = a then some c.2 else m.readByte a := by
  by_cases h : c.1 = a <;> simp [Memory.readByte, h]

theorem readByte_writeByte (m : Memory) (a a' : Nat) (b : Byte) :
    (m.writeByte a b).readByte a' = if a' = a then some b else m.readByte a' := by
  induction m with
  | nil => simp [Memory.writeByte, readByte_cons, eq_comm]
  | cons c cs ih =>
    unfold Memory.writeByte
    split
    · simp only [readByte_cons, eq_comm (a := a)]
    · split
      · next h =>
        simp only [readByte_cons, eq_comm (a := a), ← h]
        split <;> rfl
      · next h =>
        rw [readByte_cons, ih, readByte_cons]
        by_cases h' : c.1 = a'
        · rw [if_pos h', if_pos h', if_neg (by omega)]
        · rw [if_neg h', if_neg h']

@[simp] theorem readByte_writeByte_self (m : Memory) (a : Nat) (b : Byte) : (m.writeByte a b).readByte a = some b := by
  simp [readByte_writeByte]

theorem readByte_writeByte_ne (m : Memory) {a a' : Nat} (b : Byte) (h : a' ≠ a) :
    (m.writeByte a b).readByte a' = m.readByte a' := by
  simp [readByte_writeByte, h]

theorem wf_cons {c : Host.Cell} {m : Memory} :
    Memory.wf (c :: m) = true ↔ (∀ x ∈ m, c.1 < x.1) ∧ Memory.wf m = true := by
  simp [Memory.wf]

theorem mem_writeByte {m : Memory} {a : Nat} {b : Byte} {c : Host.Cell} (h : c ∈ m.writeByte a b) :
    c = (a, b) ∨ c ∈ m := by
  induction m with
  | nil => simpa [Memory.writeByte] using h
  | cons d ds ih =>
    unfold Memory.writeByte at h
    split at h
    · simpa using h
    · split at h
      · rcases List.mem_cons.mp h with h | h
        · exact .inl h
        · exact .inr (List.mem_cons_of_mem _ h)
      · rcases List.mem_cons.mp h with h | h
        · exact .inr (h ▸ List.mem_cons_self)
        · rcases ih h with h | h
          · exact .inl h
          · exact .inr (List.mem_cons_of_mem _ h)

theorem wf_writeByte {m : Memory} (a : Nat) (b : Byte) (h : m.wf = true) : (m.writeByte a b).wf = true := by
  induction m with
  | nil => simp [Memory.writeByte, Memory.wf]
  | cons c cs ih =>
    obtain ⟨hc, hcs⟩ := wf_cons.mp h
    unfold Memory.writeByte
    split
    · next hlt =>
      refine wf_cons.mpr ⟨fun x hx => ?_, h⟩
      rcases List.mem_cons.mp hx with rfl | hx
      · exact hlt
      · exact hlt.trans (hc x hx)
    · split
      · next heq => exact wf_cons.mpr ⟨fun x hx => by simpa [heq] using hc x hx, hcs⟩
      · refine wf_cons.mpr ⟨fun x hx => ?_, ih hcs⟩
        rcases mem_writeByte hx with rfl | hx
        · simp only; omega
        · exact hc x hx

/-- Everything a memory update that writes only bytes with `p` promises: other bytes read as before, the canonical form
is kept, new cells lie where it writes, and a byte that holds a value goes on holding one. -/
structure WritesOnly (p : Nat → Prop) (m m' : Memory) : Prop where
  outside : ∀ a, ¬ p a → m'.readByte a = m.readByte a
  wf : m.wf = true → m'.wf = true
  cells : ∀ c ∈ m', c ∈ m ∨ p c.1
  grows : ∀ a, (m.readByte a).isSome → (m'.readByte a).isSome

/-- A memory update that writes only bytes `lo .. hi-1`. -/
abbrev WritesWithin (lo hi : Nat) : Memory → Memory → Prop := WritesOnly fun a => lo ≤ a ∧ a < hi

theorem WritesOnly.refl (p : Nat → Prop) (m : Memory) : WritesOnly p m m :=
  ⟨fun _ _ => rfl, id, fun _ h => .inl h, fun _ => id⟩

theorem WritesOnly.trans {p : Nat → Prop} {m m' m'' : Memory} (h : WritesOnly p m m') (h' : WritesOnly p m' m'') :
    WritesOnly p m m'' :=
  ⟨fun a ha => (h'.outside a ha).trans (h.outside a ha), fun w => h'.wf (h.wf w), fun c hc =>
    (h'.cells c hc).elim (fun hc => h.cells c hc) .inr, fun a ha => h'.grows a (h.grows a ha)⟩

theorem WritesOnly.imp {p q : Nat → Prop} {m m' : Memory} (h : WritesOnly p m m') (hpq : ∀ a, p a → q a) :
    WritesOnly q m m' :=
  ⟨fun a ha => h.outside a fun hp => ha (hpq a hp), h.wf, fun c hc => (h.cells c hc).imp id (hpq _), h.grows⟩

theorem WritesOnly.mono {lo hi lo' hi' : Nat} {m m' : Memory} (h : WritesWithin lo hi m m') (hl : lo' ≤ lo)
    (hh : hi ≤ hi') : WritesWithin lo' hi' m m' := h.imp fun a ha => by omega

theorem writeByte_within (m : Memory) (a : Nat) (b : Byte) : WritesWithin a (a + 1) m (m.writeByte a b) := by
  refine ⟨fun a' h => readByte_writeByte_ne m b (by omega), wf_writeByte a b, fun c hc => ?_, fun a' h => ?_⟩
  · rcases mem_writeByte hc with rfl | hc
    · right; simp
    · exact .inl hc
  · rw [readByte_writeByte]
    split
    · rfl
    · exact h

/-! ### Words -/

theorem writeWord_within (m : Memory) (a : Nat) (v : Word) : WritesWithin a (a + 4) m (m.writeWord a v) := by
  have step (m : Memory) (k : Nat) (b : Byte) (hk : k < 4) : WritesWithin a (a + 4) m (m.writeByte (a + k) b) :=
    (writeByte_within ..).mono (by omega) (by omega)
  exact (((step m 0 _ (by omega)).trans (step _ 1 _ (by omega))).trans (step _ 2 _ (by omega))).trans
    (step _ 3 _ (by omega))

theorem word_of_bytes (v : Word) :
    v.extractLsb' 24 8 ++ v.extractLsb' 16 8 ++ v.extractLsb' 8 8 ++ v.extractLsb' 0 8 = v := by
  ext i hi
  simp only [BitVec.getElem_append, BitVec.getElem_extractLsb']
  split
  · simp [BitVec.getLsbD_eq_getElem hi]
  · split
    · simp only [show 8 + (i - 8) = i by omega, BitVec.getLsbD_eq_getElem hi]
    · split
      · simp only [show 16 + (i - 8 - 8) = i by omega, BitVec.getLsbD_eq_getElem hi]
      · simp only [show 24 + (i - 8 - 8 - 8) = i by omega, BitVec.getLsbD_eq_getElem hi]

@[simp] theorem readWord_writeWord_self (m : Memory) (a : Nat) (v : Word) : (m.writeWord a v).readWord a = some v := by
  simp only [Memory.readWord, Memory.writeWord, readByte_writeByte]
  simp [word_of_bytes]

theorem readWord_congr {m m' : Memory} {a : Nat} (h : ∀ k < 4, m'.readByte (a + k) = m.readByte (a + k)) :
    m'.readWord a = m.readWord a := by
  simp only [Memory.readWord]
  rw [show m'.readByte a = m.readByte a from h 0 (by omega), h 1 (by omega), h 2 (by omega), h 3 (by omega)]

theorem readWord_outside {lo hi : Nat} {m m' : Memory} (h : WritesWithin lo hi m m') {a : Nat}
    (ha : a + 4 ≤ lo ∨ hi ≤ a) : m'.readWord a = m.readWord a :=
  readWord_congr fun k hk => h.outside _ (by omega)

/-! ### Entries -/

/-- A value an entry of the plane can hold (R44). -/
def Holds (pl : Plane) (v : Int) : Prop := -(2 ^ (8 * entryBytes pl - 1)) ≤ v ∧ v < 2 ^ (8 * entryBytes pl - 1)

theorem entryOffset_succ (pl : Plane) (i : Nat) : entryOffset pl (i + 1) = entryOffset pl i + entryBytes pl := by
  simp [entryOffset, Nat.mul_add, Nat.add_assoc]

theorem entryOffset_mono (pl : Plane) {i j : Nat} (h : i < j) :
    entryOffset pl i + entryBytes pl ≤ entryOffset pl j := by
  rw [← entryOffset_succ]
  exact Nat.add_le_add_left (Nat.mul_le_mul_left _ h) _

theorem writeEntry_within (pl : Plane) (i : Nat) (v : Int) (m : Memory) :
    WritesWithin (entryOffset pl i) (entryOffset pl i + entryBytes pl) m (writeEntry pl i v m) := by
  cases pl with
  | side =>
    exact .trans ((writeWord_within ..).mono (le_refl _) (by simp [entryBytes]))
      ((writeWord_within ..).mono (by omega) (by simp [entryBytes, Nat.add_assoc]))
  | _ => exact (writeWord_within ..).mono (le_refl _) (by simp [entryBytes])

theorem readEntry_congr {pl : Plane} {i : Nat} {m m' : Memory}
    (h : ∀ a, entryOffset pl i ≤ a → a < entryOffset pl i + entryBytes pl → m'.readByte a = m.readByte a) :
    readEntry pl i m' = readEntry pl i m := by
  cases pl with
  | side =>
    have h0 : m'.readWord (entryOffset .side i) = m.readWord (entryOffset .side i) :=
      readWord_congr fun k hk => h _ (by omega) (by simp [entryBytes]; omega)
    have h4 : m'.readWord (entryOffset .side i + 4) = m.readWord (entryOffset .side i + 4) :=
      readWord_congr fun k hk => h _ (by omega) (by simp [entryBytes]; omega)
    simp only [readEntry, h0, h4]
  | ch c =>
    have h0 : m'.readWord (entryOffset (.ch c) i) = m.readWord (entryOffset (.ch c) i) :=
      readWord_congr fun k hk => h _ (by omega) (by simp [entryBytes]; omega)
    simp only [readEntry, h0]
  | mid =>
    have h0 : m'.readWord (entryOffset .mid i) = m.readWord (entryOffset .mid i) :=
      readWord_congr fun k hk => h _ (by omega) (by simp [entryBytes]; omega)
    simp only [readEntry, h0]
  | resp =>
    have h0 : m'.readWord (entryOffset .resp i) = m.readWord (entryOffset .resp i) :=
      readWord_congr fun k hk => h _ (by omega) (by simp [entryBytes]; omega)
    simp only [readEntry, h0]

theorem dword_of_words (d : DWord) : d.extractLsb' 32 32 ++ d.extractLsb' 0 32 = d := by
  ext i hi
  simp only [BitVec.getElem_append, BitVec.getElem_extractLsb']
  split
  · simp [BitVec.getLsbD_eq_getElem hi]
  · simp only [show 32 + (i - 32) = i by omega, BitVec.getLsbD_eq_getElem hi]

theorem readEntry_writeEntry_self {pl : Plane} {i : Nat} {v : Int} (m : Memory) (h : Holds pl v) :
    readEntry pl i (writeEntry pl i v m) = some v := by
  cases pl with
  | side =>
    simp only [readEntry, writeEntry, readWord_writeWord_self]
    rw [readWord_outside (writeWord_within ..) (by omega), readWord_writeWord_self]
    simp only [Holds, entryBytes] at h
    simp only [dword_of_words, BitVec.toInt_ofInt, Option.some.injEq]
    exact Int.bmod_eq_of_le (by norm_num at *; omega) (by norm_num at *; omega)
  | _ =>
    simp only [readEntry, writeEntry, readWord_writeWord_self, Option.map_some, BitVec.toInt_ofInt, Option.some.injEq]
    simp only [Holds, entryBytes] at h
    exact Int.bmod_eq_of_le (by norm_num at *; omega) (by norm_num at *; omega)

/-- What an entry reads as fits the entry. -/
theorem readEntry_holds {pl : Plane} {i : Nat} {m : Memory} {v : Int} (h : readEntry pl i m = some v) : Holds pl v := by
  have hw (w : Word) : -(2 ^ 31) ≤ w.toInt ∧ w.toInt < 2 ^ 31 := ⟨BitVec.le_toInt w, BitVec.toInt_lt⟩
  cases pl with
  | side =>
    simp only [readEntry] at h
    split at h
    · cases h
      exact ⟨BitVec.le_toInt (_ : DWord), BitVec.toInt_lt (x := (_ : DWord))⟩
    · cases h
  | _ =>
    obtain ⟨w, _, rfl⟩ := Option.map_eq_some_iff.mp h
    exact hw w

theorem readEntry_writeEntry_ne {pl : Plane} {i j : Nat} (v : Int) (m : Memory) (h : j ≠ i) :
    readEntry pl j (writeEntry pl i v m) = readEntry pl j m := by
  refine readEntry_congr fun a h1 h2 => (writeEntry_within pl i v m).outside a ?_
  rcases Nat.lt_or_gt_of_ne h with h | h
  · have := entryOffset_mono pl h; omega
  · have := entryOffset_mono pl h; omega

/-- The bytes entries `i .. i+n-1` occupy. -/
theorem writeEntries_within (pl : Plane) (i : Nat) (vs : List Int) (m : Memory) :
    WritesWithin (entryOffset pl i) (entryOffset pl i + entryBytes pl * vs.length) m (writeEntries pl i vs m) := by
  induction vs generalizing i m with
  | nil => exact .refl ..
  | cons v vs ih =>
    refine .trans ((writeEntry_within pl i v m).mono (le_refl _) ?_) ((ih (i + 1) _).mono ?_ ?_)
    · simp [Nat.mul_add]
    · rw [entryOffset_succ]; omega
    · rw [entryOffset_succ]; simp [Nat.mul_add]; omega

theorem readEntry_writeEntries_ne {pl : Plane} {i j : Nat} (vs : List Int) (m : Memory)
    (h : j < i ∨ i + vs.length ≤ j) : readEntry pl j (writeEntries pl i vs m) = readEntry pl j m := by
  induction vs generalizing i m with
  | nil => rfl
  | cons v vs ih =>
    simp only [List.length_cons] at h
    simp only [writeEntries]
    rw [ih _ (by omega), readEntry_writeEntry_ne _ _ (by omega)]

theorem readEntry_writeEntries {pl : Plane} {i : Nat} {vs : List Int} (m : Memory) (h : ∀ v ∈ vs, Holds pl v)
    {j : Nat} (hj : j < vs.length) : readEntry pl (i + j) (writeEntries pl i vs m) = some vs[j] := by
  induction vs generalizing i j m with
  | nil => simp at hj
  | cons v vs ih =>
    simp only [writeEntries]
    cases j with
    | zero =>
      rw [readEntry_writeEntries_ne _ _ (by omega)]
      exact readEntry_writeEntry_self _ (h v List.mem_cons_self)
    | succ j =>
      have := ih (i := i + 1) (writeEntry pl i v m) (fun x hx => h x (List.mem_cons_of_mem _ hx))
        (j := j) (by simpa using hj)
      rw [show i + (j + 1) = i + 1 + j by omega, this]
      rfl

/-! ### Reading a run of entries -/

theorem entries_succ (pl : Plane) (i n : Nat) (m : Memory) :
    entries pl i (n + 1) m = (readEntry pl i m).getD 0 :: entries pl (i + 1) n m := by
  simp only [entries, List.range_succ_eq_map, List.map_cons, List.map_map]
  simp [Function.comp_def, Nat.add_comm, Nat.add_left_comm]

@[simp] theorem entries_length (pl : Plane) (i n : Nat) (m : Memory) : (entries pl i n m).length = n := by
  simp [entries]

theorem Written.head {pl : Plane} {i n : Nat} {m : Memory} (h : Written pl i (n + 1) m) :
    ∃ v, readEntry pl i m = some v := Option.isSome_iff_exists.mp (h i (le_refl _) (by omega))

theorem Written.tail {pl : Plane} {i n : Nat} {m : Memory} (h : Written pl i (n + 1) m) : Written pl (i + 1) n m :=
  fun j h1 h2 => h j (by omega) (by omega)

/-- Reading entries that all hold values gives exactly those. -/
theorem readEntries_ok {pl : Plane} {i n : Nat} {m : Memory} (h : Written pl i n m) :
    readEntries pl m i n = .ok (entries pl i n m) := by
  induction n generalizing i with
  | zero => rfl
  | succ n ih =>
    obtain ⟨v, hv⟩ := h.head
    simp [readEntries, hv, ih h.tail, entries_succ]

/-- What a successful read gives, and that every entry read holds a value. -/
theorem readEntries_spec {pl : Plane} {i n : Nat} {m : Memory} {vs : List Int} (h : readEntries pl m i n = .ok vs) :
    vs = entries pl i n m ∧ Written pl i n m := by
  induction n generalizing i vs with
  | zero =>
    simp only [readEntries, Except.ok.injEq] at h
    exact ⟨by simp [← h, entries], fun j h1 h2 => absurd h2 (by omega)⟩
  | succ n ih =>
    unfold readEntries at h
    cases hv : readEntry pl i m with
    | none => simp [hv] at h
    | some v =>
      cases hr : readEntries pl m (i + 1) n with
      | error f => simp [hv, hr] at h
      | ok ws =>
        simp only [hv, hr, Except.ok.injEq] at h
        obtain ⟨h1, h2⟩ := ih hr
        refine ⟨by rw [entries_succ, hv, ← h, h1]; rfl, fun j hj hj' => ?_⟩
        rcases Nat.eq_or_lt_of_le hj with rfl | hj
        · simp [hv]
        · exact h2 j hj (by omega)

theorem entries_getElem {pl : Plane} {i n : Nat} {m : Memory} {j : Nat} (h : j < (entries pl i n m).length) :
    (entries pl i n m)[j] = (readEntry pl (i + j) m).getD 0 := by
  simp [entries]

/-! ### Which entries hold values -/

theorem readWord_isSome {m : Memory} {a : Nat} :
    (m.readWord a).isSome = true ↔ ∀ k < 4, (m.readByte (a + k)).isSome = true := by
  constructor
  · intro h k hk
    unfold Memory.readWord at h
    split at h
    · next h0 h1 h2 h3 =>
      match k, hk with
      | 0, _ => simp [h0]
      | 1, _ => simp [h1]
      | 2, _ => simp [h2]
      | 3, _ => simp [h3]
    · simp at h
  · intro h
    obtain ⟨b0, h0⟩ := Option.isSome_iff_exists.mp (h 0 (by omega))
    obtain ⟨b1, h1⟩ := Option.isSome_iff_exists.mp (h 1 (by omega))
    obtain ⟨b2, h2⟩ := Option.isSome_iff_exists.mp (h 2 (by omega))
    obtain ⟨b3, h3⟩ := Option.isSome_iff_exists.mp (h 3 (by omega))
    simp only [Nat.add_zero] at h0
    simp [Memory.readWord, h0, h1, h2, h3]

theorem readEntry_isSome {pl : Plane} {i : Nat} {m : Memory} :
    (readEntry pl i m).isSome = true ↔
      ∀ k < entryBytes pl, (m.readByte (entryOffset pl i + k)).isSome = true := by
  cases pl with
  | side =>
    have e : (readEntry .side i m).isSome = true ↔
        (m.readWord (entryOffset .side i)).isSome = true ∧ (m.readWord (entryOffset .side i + 4)).isSome = true := by
      simp only [readEntry]
      cases m.readWord (entryOffset .side i) <;> cases m.readWord (entryOffset .side i + 4) <;> simp
    rw [e, readWord_isSome, readWord_isSome]
    constructor
    · rintro ⟨h1, h2⟩ k hk
      simp only [entryBytes] at hk
      by_cases h : k < 4
      · exact h1 k h
      · simpa [show entryOffset .side i + 4 + (k - 4) = entryOffset .side i + k by omega] using h2 (k - 4) (by omega)
    · intro h
      exact ⟨fun k hk => h k (by simp only [entryBytes]; omega), fun k hk => by
        simpa [Nat.add_assoc] using h (4 + k) (by simp only [entryBytes]; omega)⟩
  | _ => simp only [readEntry, Option.isSome_map, entryBytes, readWord_isSome]

theorem WritesOnly.readEntry_isSome {p : Nat → Prop} {m m' : Memory} (h : WritesOnly p m m') {pl : Plane} {i : Nat}
    (hs : (readEntry pl i m).isSome = true) : (readEntry pl i m').isSome = true :=
  Machine.readEntry_isSome.mpr fun k hk => h.grows _ (Machine.readEntry_isSome.mp hs k hk)

/-- Entries that hold values go on holding values. -/
theorem WritesOnly.written {p : Nat → Prop} {m m' : Memory} (h : WritesOnly p m m') {pl : Plane} {i n : Nat}
    (hw : Written pl i n m) : Written pl i n m' := fun j h1 h2 => h.readEntry_isSome (hw j h1 h2)

theorem Written.mono {pl : Plane} {i n i' n' : Nat} {m : Memory} (h : Written pl i n m) (hi : i ≤ i')
    (hn : i' + n' ≤ i + n) : Written pl i' n' m := fun j h1 h2 => h j (by omega) (by omega)

/-- A run of entries after the entries of `vs` were written over its beginning. -/
theorem written_writeEntries (pl : Plane) (i : Nat) {vs : List Int} (m : Memory) (h : ∀ v ∈ vs, Holds pl v) :
    Written pl i vs.length (writeEntries pl i vs m) := fun j h1 h2 => by
  have := readEntry_writeEntries m h (i := i) (j := j - i) (by omega)
  rw [show i + (j - i) = j by omega] at this
  simp [this]

/-- Entries written are the entries read back. -/
theorem entries_writeEntries {pl : Plane} {i : Nat} {vs : List Int} (m : Memory) (h : ∀ v ∈ vs, Holds pl v) :
    entries pl i vs.length (writeEntries pl i vs m) = vs := by
  refine List.ext_getElem (by simp) fun j h1 h2 => ?_
  rw [entries_getElem, readEntry_writeEntries m h h2]
  rfl

theorem entries_congr {pl : Plane} {i n : Nat} {m m' : Memory}
    (h : ∀ j, i ≤ j → j < i + n → readEntry pl j m' = readEntry pl j m) : entries pl i n m' = entries pl i n m := by
  refine List.map_congr_left fun j hj => ?_
  have := List.mem_range.mp hj
  rw [h (i + j) (by omega) (by omega)]

/-- Entries no byte of which is written read as before. -/
theorem WritesOnly.readEntry_eq {p : Nat → Prop} {m m' : Memory} (h : WritesOnly p m m') {pl : Plane} {i : Nat}
    (hp : ∀ a, entryOffset pl i ≤ a → a < entryOffset pl i + entryBytes pl → ¬ p a) :
    readEntry pl i m' = readEntry pl i m := readEntry_congr fun a h1 h2 => h.outside a (hp a h1 h2)

/-- Where a plane's entries lie (spec/20_memory.md R81). -/
theorem entryOffset_bounds {pl : Plane} {i : Nat} (h : i < 65536) :
    planeBase pl ≤ entryOffset pl i ∧ entryOffset pl i + entryBytes pl ≤ planeBase pl + 65536 * entryBytes pl := by
  cases pl <;> simp only [entryOffset, entryBytes] <;> omega

theorem planeBase_bounds (pl : Plane) : 0x100000 ≤ planeBase pl ∧ planeBase pl + 65536 * entryBytes pl ≤ 0x400000 := by
  cases pl with
  | ch c => simp only [planeBase, entryBytes]; omega
  | _ => simp [planeBase, entryBytes]

/-- Different planes do not overlap (spec/20_memory.md R81). -/
theorem planes_disjoint {pl pl' : Plane} (h : pl ≠ pl') :
    planeBase pl + 65536 * entryBytes pl ≤ planeBase pl' ∨ planeBase pl' + 65536 * entryBytes pl' ≤ planeBase pl := by
  cases pl <;> cases pl' <;> simp only [planeBase, entryBytes, ne_eq, Plane.ch.injEq, not_true_eq_false] at h ⊢ <;>
    omega

end Sys2Proof.Machine
end

