-- ==== Sys2Proof/Laws/Emit.lean ====
section
/-! SUPPORT. What the output primitives do (spec/41_bitwriter.md R152-R156): on a sink that accepts, exactly their bits
are written; on one that fails, WRITE_FAILED, and only the output's own state has changed. -/

namespace Sys2Proof.Machine

/-! ### Fields as bits -/

@[simp] theorem fieldBits_zero (v : Nat) : fieldBits 0 v = [] := rfl

theorem fieldBits_succ (n v : Nat) : fieldBits (n + 1) v = v.testBit n :: fieldBits n v := by
  simp only [fieldBits, List.range_succ_eq_map, List.map_cons, List.map_map]
  congr 1
  refine List.map_congr_left fun i hi => ?_
  have := List.mem_range.mp hi
  simp only [Function.comp]
  congr 1
  omega

@[simp] theorem fieldBits_length (n v : Nat) : (fieldBits n v).length = n := by simp [fieldBits]

theorem fieldBits_snoc (n v : Nat) : fieldBits (n + 1) v = fieldBits n (v / 2) ++ [v.testBit 0] := by
  induction n with
  | zero => simp [fieldBits_succ]
  | succ n ih => rw [fieldBits_succ, ih, fieldBits_succ]; simp [Nat.testBit_succ]

theorem fieldBits_mod {n m : Nat} (v : Nat) (h : n ≤ m) : fieldBits n (v % 2 ^ m) = fieldBits n v := by
  refine List.map_congr_left fun i hi => ?_
  have := List.mem_range.mp hi
  simp [Nat.testBit_mod_two_pow, show n - 1 - i < m by omega]

theorem fieldBits_zero_value (n : Nat) : fieldBits n 0 = List.replicate n false := by
  induction n with
  | zero => rfl
  | succ n ih => simp [fieldBits_succ, ih, List.replicate_succ]

@[simp] theorem bytesBits_nil : bytesBits [] = [] := rfl

theorem bytesBits_append (as bs : List Byte) : bytesBits (as ++ bs) = bytesBits as ++ bytesBits bs := by
  simp [bytesBits]

theorem bytesBits_singleton (b : Byte) : bytesBits [b] = fieldBits 8 b.toNat := by simp [bytesBits]

/-! ### Relations between the state before and after -/

/-- Only the output's own state has changed, and the CRCs and the counter account for the bytes added. -/
structure OutputOnly (s t : State) : Prop where
  bytes : ∃ bs : List Byte, t.out = s.out ++ bs ∧ t.crc8 = bs.foldl crc8Update s.crc8 ∧
    t.crc16 = bs.foldl crc16Update s.crc16 ∧ t.bytesWritten = s.bytesWritten + BitVec.ofNat 32 bs.length
  rest : t = { s with
    out := t.out, crc8 := t.crc8, crc16 := t.crc16, bytesWritten := t.bytesWritten, sink := t.sink
    nb := t.nb, acc := t.acc }

theorem OutputOnly.refl (s : State) : OutputOnly s s := ⟨⟨[], by simp⟩, rfl⟩

theorem OutputOnly.trans {s t u : State} (h : OutputOnly s t) (h' : OutputOnly t u) : OutputOnly s u := by
  obtain ⟨⟨as, ha⟩, hr⟩ := h
  obtain ⟨⟨bs, hb⟩, hr'⟩ := h'
  refine ⟨⟨as ++ bs, ?_⟩, ?_⟩
  · simp only [hb, ha, List.foldl_append, List.length_append, List.append_assoc]
    refine ⟨trivial, trivial, trivial, ?_⟩
    rw [BitVec.add_assoc, ← BitVec.ofNat_add]
  · rw [hr', hr]

theorem Emitted.refl (s : State) : Emitted [] s s := ⟨by simp, ⟨[], by simp⟩, rfl⟩

theorem Emitted.trans {a b : List Bool} {s t u : State} (h : Emitted a s t) (h' : Emitted b t u) :
    Emitted (a ++ b) s u := by
  obtain ⟨hs, ⟨as, ha⟩, hr⟩ := h
  obtain ⟨hs', ⟨bs, hb⟩, hr'⟩ := h'
  refine ⟨by simp [hs', hs], ⟨as ++ bs, ?_⟩, ?_⟩
  · simp only [hb, ha, List.foldl_append, List.length_append, List.append_assoc, List.drop_drop]
    refine ⟨trivial, trivial, trivial, ?_, trivial, fun a (hm : a ∈ s.sink.take (as.length + bs.length)) => ?_⟩
    · rw [BitVec.add_assoc, ← BitVec.ofNat_add]
    · rw [List.take_add] at hm
      rcases List.mem_append.mp hm with hm | hm
      · exact ha.2.2.2.2.2 a hm
      · exact hb.2.2.2.2.2 a (ha.2.2.2.2.1 ▸ hm)
  · rw [hr', hr]

theorem Emitted.outputOnly {bits : List Bool} {s t : State} (h : Emitted bits s t) : OutputOnly s t := by
  obtain ⟨_, ⟨bs, h1, h2, h3, h4, _⟩, hr⟩ := h
  exact ⟨⟨bs, h1, h2, h3, h4⟩, hr⟩

theorem Emitted.sinkAccepts {bits : List Bool} {s t : State} (h : Emitted bits s t) (ha : SinkAccepts s) :
    SinkAccepts t := by
  obtain ⟨bs, _, _, _, _, hs, _⟩ := h.bytes
  intro a hm
  rw [hs] at hm
  exact ha a (List.mem_of_mem_drop hm)

/-- Everything a run of output primitives can do: it writes exactly `bits`, or the sink fails a byte. -/
def Run.Emits (bits : List Bool) (s : State) (r : Run) : Prop :=
  match r with
  | .ok t => Emitted bits s t
  | .error c t => c = .writeFailed ∧ OutputOnly s t ∧ ¬ SinkAccepts s
  | .fault _ => False

theorem Run.Emits.andThen {a b : List Bool} {s : State} {r : Run} {f : State → Run} (h : r.Emits a s)
    (h' : ∀ t, Emitted a s t → (f t).Emits b t) : (r.andThen f).Emits (a ++ b) s := by
  cases r with
  | ok t =>
    have ht : Emitted a s t := h
    have hf := h' t ht
    simp only [Run.andThen]
    cases hr : f t with
    | ok u => rw [hr] at hf; exact ht.trans hf
    | error c u =>
      rw [hr] at hf
      exact ⟨hf.1, ht.outputOnly.trans hf.2.1, fun ha => hf.2.2 (ht.sinkAccepts ha)⟩
    | fault g => rw [hr] at hf; exact hf.elim
  | error c t => exact h
  | fault g => exact h.elim

/-- On a sink that accepts, a run of output primitives finishes. -/
theorem Run.Emits.completes {bits : List Bool} {s : State} {r : Run} (h : r.Emits bits s) (ha : SinkAccepts s) :
    ∃ t, r = .ok t ∧ Emitted bits s t := by
  cases r with
  | ok t => exact ⟨t, rfl, h⟩
  | error c t => exact absurd ha h.2.2
  | fault g => exact h.elim

theorem Run.Emits.congr {a b : List Bool} {s : State} {r : Run} (h : r.Emits a s) (e : a = b) : r.Emits b s := e ▸ h

/-! ### The primitives -/

theorem head_accepts {sink : List SinkAnswer} (h : ∀ rest, sink = .fail :: rest → False) :
    ∀ a ∈ sink.take 1, a = .accept := by
  match sink with
  | [] => simp
  | .accept :: _ => simp
  | .fail :: rest => exact (h rest rfl).elim

theorem emitByte_emits (b : Byte) {s : State} (h : s.nb = 0) : (emitByte b s).Emits (fieldBits 8 b.toNat) s := by
  unfold emitByte
  split
  · next rest hs =>
    exact ⟨rfl, ⟨⟨[], by simp⟩, rfl⟩, fun ha => by simpa using ha .fail (by simp [hs])⟩
  · next hs =>
    exact ⟨by simp [stream, acceptByte, bytesBits_append, bytesBits_singleton, h],
      ⟨[b], rfl, rfl, rfl, rfl, by simp [acceptByte], head_accepts hs⟩, rfl⟩

theorem toNat_appendBit (acc : BitVec 7) (x : Bool) :
    (acc ++ BitVec.ofBool x : BitVec 8).toNat / 2 = acc.toNat ∧
      (acc ++ BitVec.ofBool x : BitVec 8).toNat.testBit 0 = x := by
  constructor
  · have e : acc.toNat <<< 1 ||| (BitVec.ofBool x).toNat = acc.toNat <<< 1 + (BitVec.ofBool x).toNat :=
      (Nat.shiftLeft_add_eq_or_of_lt (BitVec.ofBool x).isLt _).symm
    rw [BitVec.toNat_append, e]
    have := (BitVec.ofBool x).isLt
    omega
  · rw [BitVec.testBit_toNat, BitVec.getLsbD_append]
    cases x <;> simp

theorem emitBit_emits (x : Bool) (s : State) : (emitBit x s).Emits [x] s := by
  obtain ⟨h1, h2⟩ := toNat_appendBit s.acc x
  unfold emitBit
  simp only
  split
  · next hn =>
    unfold emitByte
    split
    · next rest hs =>
      exact ⟨rfl, ⟨⟨[], by simp⟩, rfl⟩, fun ha => by simpa using ha .fail (by simp_all)⟩
    · next hs =>
      refine ⟨?_, ⟨[s.acc ++ BitVec.ofBool x], rfl, rfl, rfl, rfl, by simp [acceptByte], head_accepts hs⟩, rfl⟩
      simp [stream, acceptByte, bytesBits_append, bytesBits_singleton, hn, fieldBits_snoc 7, h1, h2]
  · next hn =>
    refine ⟨?_, ⟨[], by simp⟩, rfl⟩
    have hlt : s.nb.toNat < 7 := by
      have := s.nb.isLt
      have : s.nb.toNat ≠ 7 := fun e => hn (BitVec.eq_of_toNat_eq e)
      omega
    have hn1 : (s.nb + 1).toNat = s.nb.toNat + 1 := by simp [BitVec.toNat_add]; omega
    simp only [stream, hn1, BitVec.toNat_setWidth, List.append_assoc]
    rw [fieldBits_mod _ (by omega), fieldBits_snoc, h1, h2]

theorem emitBits_emits (n v : Nat) (s : State) : (emitBits n v s).Emits (fieldBits n v) s := by
  induction n generalizing s with
  | zero => exact Emitted.refl s
  | succ n ih =>
    rw [fieldBits_succ]
    exact (emitBit_emits (v.testBit n) s).andThen fun t _ => ih t

theorem emitZeros_emits (q : Nat) (s : State) : (emitZeros q s).Emits (List.replicate q false) s := by
  induction q generalizing s with
  | zero => exact Emitted.refl s
  | succ q ih => exact (emitBit_emits false s).andThen fun t _ => ih t

theorem emitUnary_emits (q : Nat) (s : State) : (emitUnary q s).Emits (unaryBits q) s :=
  (emitZeros_emits q s).andThen fun t _ => emitBit_emits true t

theorem emitFlush_emits (s : State) :
    (emitFlush s).Emits (List.replicate ((8 - s.nb.toNat) % 8) false) s := by
  unfold emitFlush
  split
  · next h => exact (show Run.Emits [] s (.ok s) from Emitted.refl s).congr (by simp [h])
  · next h =>
    refine (emitBits_emits _ 0 s).congr ?_
    have : s.nb.toNat ≠ 0 := fun e => h (BitVec.eq_of_toNat_eq e)
    rw [fieldBits_zero_value, Nat.mod_eq_of_lt (by omega)]

theorem emitFields_emits (fs : List (Nat × Nat)) (s : State) : (emitFields fs s).Emits (fieldsBits fs) s := by
  induction fs generalizing s with
  | nil => exact Emitted.refl s
  | cons f fs ih => exact (emitBits_emits f.1 f.2 s).andThen fun t _ => ih t

theorem Emitted.mem {bits : List Bool} {s t : State} (h : Emitted bits s t) : t.mem = s.mem := by rw [h.rest]

/-- Entries that hold values are emitted one after the other. -/
theorem emitEntries_emits {emit : Int → State → Run} {bits : Int → List Bool}
    (he : ∀ v s, (emit v s).Emits (bits v) s) {pl : Plane} {i n : Nat} {s : State} (h : Written pl i n s.mem) :
    (emitEntries emit pl i n s).Emits ((entries pl i n s.mem).flatMap bits) s := by
  induction n generalizing i s with
  | zero => exact Emitted.refl s
  | succ n ih =>
    obtain ⟨v, hv⟩ := h.head
    simp only [emitEntries, hv]
    rw [entries_succ, hv, List.flatMap_cons]
    refine (he v s).andThen fun t ht => ?_
    have := ih (i := i + 1) (s := t) (by rw [ht.mem]; exact h.tail)
    rwa [ht.mem] at this

/-! ### How far the stream is from a byte boundary -/

theorem stream_length (s : State) : (stream s).length = 8 * s.out.length + s.nb.toNat := by
  simp only [stream, List.length_append, fieldBits_length, bytesBits, List.length_flatMap]
  simp [List.map_const', Nat.mul_comm]

/-- The number of pending bits after writing `bits`. -/
theorem Emitted.nb {bits : List Bool} {s t : State} (h : Emitted bits s t) :
    t.nb.toNat = (s.nb.toNat + bits.length) % 8 := by
  have h1 := congrArg List.length h.stream
  obtain ⟨bs, ho, _⟩ := h.bytes
  simp only [List.length_append, stream_length, ho] at h1
  have := t.nb.isLt
  omega

/-- The number of bytes completed by writing `bits`. -/
theorem Emitted.out_length {bits : List Bool} {s t : State} (h : Emitted bits s t) :
    t.out.length = s.out.length + (s.nb.toNat + bits.length) / 8 := by
  have h1 := congrArg List.length h.stream
  obtain ⟨bs, ho, _⟩ := h.bytes
  simp only [List.length_append, stream_length, ho] at h1 ⊢
  have := t.nb.isLt
  have := s.nb.isLt
  omega

theorem flush_aligned {s t : State} (h : Emitted (List.replicate ((8 - s.nb.toNat) % 8) false) s t) : t.nb = 0 := by
  have h1 := h.nb
  have := s.nb.isLt
  rw [List.length_replicate] at h1
  exact BitVec.eq_of_toNat_eq (by rw [h1]; simp; omega)

end Sys2Proof.Machine
end

