-- ==== Sys2Proof/Laws/State.lean ====
section
/-! SUPPORT. Every field after every shared update of State, so that no proof unfolds a record update. -/

namespace Sys2Proof.Machine

/-! ### setRes -/

@[simp] theorem setRes_irqEn (i : Nat) (v : Word) (s : State) : (setRes i v s).irqEn = s.irqEn := rfl
@[simp] theorem setRes_stereoEn (i : Nat) (v : Word) (s : State) : (setRes i v s).stereoEn = s.stereoEn := rfl
@[simp] theorem setRes_done (i : Nat) (v : Word) (s : State) : (setRes i v s).done = s.done := rfl
@[simp] theorem setRes_err (i : Nat) (v : Word) (s : State) : (setRes i v s).err = s.err := rfl
@[simp] theorem setRes_errCode (i : Nat) (v : Word) (s : State) : (setRes i v s).errCode = s.errCode := rfl
@[simp] theorem setRes_engine (i : Nat) (v : Word) (s : State) : (setRes i v s).engine = s.engine := rfl
@[simp] theorem setRes_channels (i : Nat) (v : Word) (s : State) : (setRes i v s).channels = s.channels := rfl
@[simp] theorem setRes_bits (i : Nat) (v : Word) (s : State) : (setRes i v s).bits = s.bits := rfl
@[simp] theorem setRes_rate (i : Nat) (v : Word) (s : State) : (setRes i v s).rate = s.rate := rfl
@[simp] theorem setRes_method (i : Nat) (v : Word) (s : State) : (setRes i v s).method = s.method := rfl
@[simp] theorem setRes_porder (i : Nat) (v : Word) (s : State) : (setRes i v s).porder = s.porder := rfl
@[simp] theorem setRes_param (i : Nat) (v : Word) (s : State) : (setRes i v s).param = s.param := rfl
@[simp] theorem setRes_args (i : Nat) (v : Word) (s : State) : (setRes i v s).args = s.args := rfl
@[simp] theorem setRes_res (i : Nat) (v : Word) (s : State) : (setRes i v s).res = s.res.setIfInBounds i v := rfl
@[simp] theorem setRes_crc8 (i : Nat) (v : Word) (s : State) : (setRes i v s).crc8 = s.crc8 := rfl
@[simp] theorem setRes_crc16 (i : Nat) (v : Word) (s : State) : (setRes i v s).crc16 = s.crc16 := rfl
@[simp] theorem setRes_bytesWritten (i : Nat) (v : Word) (s : State) : (setRes i v s).bytesWritten = s.bytesWritten := rfl
@[simp] theorem setRes_nb (i : Nat) (v : Word) (s : State) : (setRes i v s).nb = s.nb := rfl
@[simp] theorem setRes_acc (i : Nat) (v : Word) (s : State) : (setRes i v s).acc = s.acc := rfl
@[simp] theorem setRes_mem (i : Nat) (v : Word) (s : State) : (setRes i v s).mem = s.mem := rfl
@[simp] theorem setRes_out (i : Nat) (v : Word) (s : State) : (setRes i v s).out = s.out := rfl
@[simp] theorem setRes_host (i : Nat) (v : Word) (s : State) : (setRes i v s).host = s.host := rfl
@[simp] theorem setRes_turns (i : Nat) (v : Word) (s : State) : (setRes i v s).turns = s.turns := rfl
@[simp] theorem setRes_sink (i : Nat) (v : Word) (s : State) : (setRes i v s).sink = s.sink := rfl
@[simp] theorem setRes_readData (i : Nat) (v : Word) (s : State) : (setRes i v s).readData = s.readData := rfl
@[simp] theorem setRes_draws (i : Nat) (v : Word) (s : State) : (setRes i v s).draws = s.draws := rfl
@[simp] theorem setRes_sumStart (i : Nat) (v : Word) (s : State) : (setRes i v s).sumStart = s.sumStart := rfl

/-! ### setRes64 -/

@[simp] theorem setRes64_irqEn (i : Nat) (v : DWord) (s : State) : (setRes64 i v s).irqEn = s.irqEn := rfl
@[simp] theorem setRes64_stereoEn (i : Nat) (v : DWord) (s : State) : (setRes64 i v s).stereoEn = s.stereoEn := rfl
@[simp] theorem setRes64_done (i : Nat) (v : DWord) (s : State) : (setRes64 i v s).done = s.done := rfl
@[simp] theorem setRes64_err (i : Nat) (v : DWord) (s : State) : (setRes64 i v s).err = s.err := rfl
@[simp] theorem setRes64_errCode (i : Nat) (v : DWord) (s : State) : (setRes64 i v s).errCode = s.errCode := rfl
@[simp] theorem setRes64_engine (i : Nat) (v : DWord) (s : State) : (setRes64 i v s).engine = s.engine := rfl
@[simp] theorem setRes64_channels (i : Nat) (v : DWord) (s : State) : (setRes64 i v s).channels = s.channels := rfl
@[simp] theorem setRes64_bits (i : Nat) (v : DWord) (s : State) : (setRes64 i v s).bits = s.bits := rfl
@[simp] theorem setRes64_rate (i : Nat) (v : DWord) (s : State) : (setRes64 i v s).rate = s.rate := rfl
@[simp] theorem setRes64_method (i : Nat) (v : DWord) (s : State) : (setRes64 i v s).method = s.method := rfl
@[simp] theorem setRes64_porder (i : Nat) (v : DWord) (s : State) : (setRes64 i v s).porder = s.porder := rfl
@[simp] theorem setRes64_param (i : Nat) (v : DWord) (s : State) : (setRes64 i v s).param = s.param := rfl
@[simp] theorem setRes64_args (i : Nat) (v : DWord) (s : State) : (setRes64 i v s).args = s.args := rfl
@[simp] theorem setRes64_res (i : Nat) (v : DWord) (s : State) : (setRes64 i v s).res =
    (s.res.setIfInBounds i (v.extractLsb' 0 32)).setIfInBounds (i + 1) (v.extractLsb' 32 32) := rfl
@[simp] theorem setRes64_crc8 (i : Nat) (v : DWord) (s : State) : (setRes64 i v s).crc8 = s.crc8 := rfl
@[simp] theorem setRes64_crc16 (i : Nat) (v : DWord) (s : State) : (setRes64 i v s).crc16 = s.crc16 := rfl
@[simp] theorem setRes64_bytesWritten (i : Nat) (v : DWord) (s : State) : (setRes64 i v s).bytesWritten = s.bytesWritten := rfl
@[simp] theorem setRes64_nb (i : Nat) (v : DWord) (s : State) : (setRes64 i v s).nb = s.nb := rfl
@[simp] theorem setRes64_acc (i : Nat) (v : DWord) (s : State) : (setRes64 i v s).acc = s.acc := rfl
@[simp] theorem setRes64_mem (i : Nat) (v : DWord) (s : State) : (setRes64 i v s).mem = s.mem := rfl
@[simp] theorem setRes64_out (i : Nat) (v : DWord) (s : State) : (setRes64 i v s).out = s.out := rfl
@[simp] theorem setRes64_host (i : Nat) (v : DWord) (s : State) : (setRes64 i v s).host = s.host := rfl
@[simp] theorem setRes64_turns (i : Nat) (v : DWord) (s : State) : (setRes64 i v s).turns = s.turns := rfl
@[simp] theorem setRes64_sink (i : Nat) (v : DWord) (s : State) : (setRes64 i v s).sink = s.sink := rfl
@[simp] theorem setRes64_readData (i : Nat) (v : DWord) (s : State) : (setRes64 i v s).readData = s.readData := rfl
@[simp] theorem setRes64_draws (i : Nat) (v : DWord) (s : State) : (setRes64 i v s).draws = s.draws := rfl
@[simp] theorem setRes64_sumStart (i : Nat) (v : DWord) (s : State) : (setRes64 i v s).sumStart = s.sumStart := rfl

/-! ### clearSpan -/

@[simp] theorem clearSpan_irqEn (s : State) : (clearSpan s).irqEn = s.irqEn := rfl
@[simp] theorem clearSpan_stereoEn (s : State) : (clearSpan s).stereoEn = s.stereoEn := rfl
@[simp] theorem clearSpan_done (s : State) : (clearSpan s).done = s.done := rfl
@[simp] theorem clearSpan_err (s : State) : (clearSpan s).err = s.err := rfl
@[simp] theorem clearSpan_errCode (s : State) : (clearSpan s).errCode = s.errCode := rfl
@[simp] theorem clearSpan_engine (s : State) : (clearSpan s).engine = s.engine := rfl
@[simp] theorem clearSpan_channels (s : State) : (clearSpan s).channels = s.channels := rfl
@[simp] theorem clearSpan_bits (s : State) : (clearSpan s).bits = s.bits := rfl
@[simp] theorem clearSpan_rate (s : State) : (clearSpan s).rate = s.rate := rfl
@[simp] theorem clearSpan_method (s : State) : (clearSpan s).method = s.method := rfl
@[simp] theorem clearSpan_porder (s : State) : (clearSpan s).porder = s.porder := rfl
@[simp] theorem clearSpan_param (s : State) : (clearSpan s).param = s.param := rfl
@[simp] theorem clearSpan_args (s : State) : (clearSpan s).args = s.args := rfl
@[simp] theorem clearSpan_res (s : State) : (clearSpan s).res = s.res := rfl
@[simp] theorem clearSpan_crc8 (s : State) : (clearSpan s).crc8 = 0 := rfl
@[simp] theorem clearSpan_crc16 (s : State) : (clearSpan s).crc16 = 0 := rfl
@[simp] theorem clearSpan_bytesWritten (s : State) : (clearSpan s).bytesWritten = 0 := rfl
@[simp] theorem clearSpan_nb (s : State) : (clearSpan s).nb = s.nb := rfl
@[simp] theorem clearSpan_acc (s : State) : (clearSpan s).acc = s.acc := rfl
@[simp] theorem clearSpan_mem (s : State) : (clearSpan s).mem = s.mem := rfl
@[simp] theorem clearSpan_out (s : State) : (clearSpan s).out = s.out := rfl
@[simp] theorem clearSpan_host (s : State) : (clearSpan s).host = s.host := rfl
@[simp] theorem clearSpan_turns (s : State) : (clearSpan s).turns = s.turns := rfl
@[simp] theorem clearSpan_sink (s : State) : (clearSpan s).sink = s.sink := rfl
@[simp] theorem clearSpan_readData (s : State) : (clearSpan s).readData = s.readData := rfl
@[simp] theorem clearSpan_draws (s : State) : (clearSpan s).draws = s.draws := rfl
@[simp] theorem clearSpan_sumStart (s : State) : (clearSpan s).sumStart = s.sumStart := rfl

/-! ### acceptByte -/

@[simp] theorem acceptByte_irqEn (b : Byte) (s : State) : (acceptByte b s).irqEn = s.irqEn := rfl
@[simp] theorem acceptByte_stereoEn (b : Byte) (s : State) : (acceptByte b s).stereoEn = s.stereoEn := rfl
@[simp] theorem acceptByte_done (b : Byte) (s : State) : (acceptByte b s).done = s.done := rfl
@[simp] theorem acceptByte_err (b : Byte) (s : State) : (acceptByte b s).err = s.err := rfl
@[simp] theorem acceptByte_errCode (b : Byte) (s : State) : (acceptByte b s).errCode = s.errCode := rfl
@[simp] theorem acceptByte_engine (b : Byte) (s : State) : (acceptByte b s).engine = s.engine := rfl
@[simp] theorem acceptByte_channels (b : Byte) (s : State) : (acceptByte b s).channels = s.channels := rfl
@[simp] theorem acceptByte_bits (b : Byte) (s : State) : (acceptByte b s).bits = s.bits := rfl
@[simp] theorem acceptByte_rate (b : Byte) (s : State) : (acceptByte b s).rate = s.rate := rfl
@[simp] theorem acceptByte_method (b : Byte) (s : State) : (acceptByte b s).method = s.method := rfl
@[simp] theorem acceptByte_porder (b : Byte) (s : State) : (acceptByte b s).porder = s.porder := rfl
@[simp] theorem acceptByte_param (b : Byte) (s : State) : (acceptByte b s).param = s.param := rfl
@[simp] theorem acceptByte_args (b : Byte) (s : State) : (acceptByte b s).args = s.args := rfl
@[simp] theorem acceptByte_res (b : Byte) (s : State) : (acceptByte b s).res = s.res := rfl
@[simp] theorem acceptByte_crc8 (b : Byte) (s : State) : (acceptByte b s).crc8 = crc8Update s.crc8 b := rfl
@[simp] theorem acceptByte_crc16 (b : Byte) (s : State) : (acceptByte b s).crc16 = crc16Update s.crc16 b := rfl
@[simp] theorem acceptByte_bytesWritten (b : Byte) (s : State) : (acceptByte b s).bytesWritten = s.bytesWritten + 1 := rfl
@[simp] theorem acceptByte_nb (b : Byte) (s : State) : (acceptByte b s).nb = s.nb := rfl
@[simp] theorem acceptByte_acc (b : Byte) (s : State) : (acceptByte b s).acc = s.acc := rfl
@[simp] theorem acceptByte_mem (b : Byte) (s : State) : (acceptByte b s).mem = s.mem := rfl
@[simp] theorem acceptByte_out (b : Byte) (s : State) : (acceptByte b s).out = s.out ++ [b] := rfl
@[simp] theorem acceptByte_host (b : Byte) (s : State) : (acceptByte b s).host = s.host := rfl
@[simp] theorem acceptByte_turns (b : Byte) (s : State) : (acceptByte b s).turns = s.turns := rfl
@[simp] theorem acceptByte_sink (b : Byte) (s : State) : (acceptByte b s).sink = s.sink.tail := rfl
@[simp] theorem acceptByte_readData (b : Byte) (s : State) : (acceptByte b s).readData = s.readData := rfl
@[simp] theorem acceptByte_draws (b : Byte) (s : State) : (acceptByte b s).draws = s.draws := rfl
@[simp] theorem acceptByte_sumStart (b : Byte) (s : State) : (acceptByte b s).sumStart = s.sumStart := rfl

/-! ### complete -/

@[simp] theorem complete_irqEn (s : State) : (complete s).irqEn = s.irqEn := rfl
@[simp] theorem complete_stereoEn (s : State) : (complete s).stereoEn = s.stereoEn := rfl
@[simp] theorem complete_done (s : State) : (complete s).done = true := rfl
@[simp] theorem complete_err (s : State) : (complete s).err = s.err := rfl
@[simp] theorem complete_errCode (s : State) : (complete s).errCode = s.errCode := rfl
@[simp] theorem complete_engine (s : State) : (complete s).engine = .idle := rfl
@[simp] theorem complete_channels (s : State) : (complete s).channels = s.channels := rfl
@[simp] theorem complete_bits (s : State) : (complete s).bits = s.bits := rfl
@[simp] theorem complete_rate (s : State) : (complete s).rate = s.rate := rfl
@[simp] theorem complete_method (s : State) : (complete s).method = s.method := rfl
@[simp] theorem complete_porder (s : State) : (complete s).porder = s.porder := rfl
@[simp] theorem complete_param (s : State) : (complete s).param = s.param := rfl
@[simp] theorem complete_args (s : State) : (complete s).args = s.args := rfl
@[simp] theorem complete_res (s : State) : (complete s).res = s.res := rfl
@[simp] theorem complete_crc8 (s : State) : (complete s).crc8 = s.crc8 := rfl
@[simp] theorem complete_crc16 (s : State) : (complete s).crc16 = s.crc16 := rfl
@[simp] theorem complete_bytesWritten (s : State) : (complete s).bytesWritten = s.bytesWritten := rfl
@[simp] theorem complete_nb (s : State) : (complete s).nb = s.nb := rfl
@[simp] theorem complete_acc (s : State) : (complete s).acc = s.acc := rfl
@[simp] theorem complete_mem (s : State) : (complete s).mem = s.mem := rfl
@[simp] theorem complete_out (s : State) : (complete s).out = s.out := rfl
@[simp] theorem complete_host (s : State) : (complete s).host = s.host := rfl
@[simp] theorem complete_turns (s : State) : (complete s).turns = s.turns := rfl
@[simp] theorem complete_sink (s : State) : (complete s).sink = s.sink := rfl
@[simp] theorem complete_readData (s : State) : (complete s).readData = s.readData := rfl
@[simp] theorem complete_draws (s : State) : (complete s).draws = s.draws := rfl
@[simp] theorem complete_sumStart (s : State) : (complete s).sumStart = s.sumStart := rfl

/-! ### errorEntry -/

@[simp] theorem errorEntry_irqEn (c : ErrorCode) (s : State) : (errorEntry c s).irqEn = s.irqEn := rfl
@[simp] theorem errorEntry_stereoEn (c : ErrorCode) (s : State) : (errorEntry c s).stereoEn = s.stereoEn := rfl
@[simp] theorem errorEntry_done (c : ErrorCode) (s : State) : (errorEntry c s).done = s.done := rfl
@[simp] theorem errorEntry_err (c : ErrorCode) (s : State) : (errorEntry c s).err = true := rfl
@[simp] theorem errorEntry_errCode (c : ErrorCode) (s : State) : (errorEntry c s).errCode = if s.err then s.errCode else c := rfl
@[simp] theorem errorEntry_engine (c : ErrorCode) (s : State) : (errorEntry c s).engine = .idle := rfl
@[simp] theorem errorEntry_channels (c : ErrorCode) (s : State) : (errorEntry c s).channels = s.channels := rfl
@[simp] theorem errorEntry_bits (c : ErrorCode) (s : State) : (errorEntry c s).bits = s.bits := rfl
@[simp] theorem errorEntry_rate (c : ErrorCode) (s : State) : (errorEntry c s).rate = s.rate := rfl
@[simp] theorem errorEntry_method (c : ErrorCode) (s : State) : (errorEntry c s).method = s.method := rfl
@[simp] theorem errorEntry_porder (c : ErrorCode) (s : State) : (errorEntry c s).porder = s.porder := rfl
@[simp] theorem errorEntry_param (c : ErrorCode) (s : State) : (errorEntry c s).param = s.param := rfl
@[simp] theorem errorEntry_args (c : ErrorCode) (s : State) : (errorEntry c s).args = s.args := rfl
@[simp] theorem errorEntry_res (c : ErrorCode) (s : State) : (errorEntry c s).res = s.res := rfl
@[simp] theorem errorEntry_crc8 (c : ErrorCode) (s : State) : (errorEntry c s).crc8 = s.crc8 := rfl
@[simp] theorem errorEntry_crc16 (c : ErrorCode) (s : State) : (errorEntry c s).crc16 = s.crc16 := rfl
@[simp] theorem errorEntry_bytesWritten (c : ErrorCode) (s : State) : (errorEntry c s).bytesWritten = s.bytesWritten := rfl
@[simp] theorem errorEntry_nb (c : ErrorCode) (s : State) : (errorEntry c s).nb = s.nb := rfl
@[simp] theorem errorEntry_acc (c : ErrorCode) (s : State) : (errorEntry c s).acc = s.acc := rfl
@[simp] theorem errorEntry_mem (c : ErrorCode) (s : State) : (errorEntry c s).mem = s.mem := rfl
@[simp] theorem errorEntry_out (c : ErrorCode) (s : State) : (errorEntry c s).out = s.out := rfl
@[simp] theorem errorEntry_host (c : ErrorCode) (s : State) : (errorEntry c s).host = s.host := rfl
@[simp] theorem errorEntry_turns (c : ErrorCode) (s : State) : (errorEntry c s).turns = s.turns := rfl
@[simp] theorem errorEntry_sink (c : ErrorCode) (s : State) : (errorEntry c s).sink = s.sink := rfl
@[simp] theorem errorEntry_readData (c : ErrorCode) (s : State) : (errorEntry c s).readData = s.readData := rfl
@[simp] theorem errorEntry_draws (c : ErrorCode) (s : State) : (errorEntry c s).draws = s.draws := rfl
@[simp] theorem errorEntry_sumStart (c : ErrorCode) (s : State) : (errorEntry c s).sumStart = s.sumStart := rfl

/-! ### setFmt -/

@[simp] theorem setFmt_irqEn (v : Word) (s : State) : (setFmt v s).irqEn = s.irqEn := rfl
@[simp] theorem setFmt_stereoEn (v : Word) (s : State) : (setFmt v s).stereoEn = s.stereoEn := rfl
@[simp] theorem setFmt_done (v : Word) (s : State) : (setFmt v s).done = s.done := rfl
@[simp] theorem setFmt_err (v : Word) (s : State) : (setFmt v s).err = s.err := rfl
@[simp] theorem setFmt_errCode (v : Word) (s : State) : (setFmt v s).errCode = s.errCode := rfl
@[simp] theorem setFmt_engine (v : Word) (s : State) : (setFmt v s).engine = s.engine := rfl
@[simp] theorem setFmt_channels (v : Word) (s : State) : (setFmt v s).channels = v.extractLsb' 0 4 := rfl
@[simp] theorem setFmt_bits (v : Word) (s : State) : (setFmt v s).bits = v.extractLsb' 4 6 := rfl
@[simp] theorem setFmt_rate (v : Word) (s : State) : (setFmt v s).rate = v.extractLsb' 12 20 := rfl
@[simp] theorem setFmt_method (v : Word) (s : State) : (setFmt v s).method = s.method := rfl
@[simp] theorem setFmt_porder (v : Word) (s : State) : (setFmt v s).porder = s.porder := rfl
@[simp] theorem setFmt_param (v : Word) (s : State) : (setFmt v s).param = s.param := rfl
@[simp] theorem setFmt_args (v : Word) (s : State) : (setFmt v s).args = s.args := rfl
@[simp] theorem setFmt_res (v : Word) (s : State) : (setFmt v s).res = s.res := rfl
@[simp] theorem setFmt_crc8 (v : Word) (s : State) : (setFmt v s).crc8 = s.crc8 := rfl
@[simp] theorem setFmt_crc16 (v : Word) (s : State) : (setFmt v s).crc16 = s.crc16 := rfl
@[simp] theorem setFmt_bytesWritten (v : Word) (s : State) : (setFmt v s).bytesWritten = s.bytesWritten := rfl
@[simp] theorem setFmt_nb (v : Word) (s : State) : (setFmt v s).nb = s.nb := rfl
@[simp] theorem setFmt_acc (v : Word) (s : State) : (setFmt v s).acc = s.acc := rfl
@[simp] theorem setFmt_mem (v : Word) (s : State) : (setFmt v s).mem = s.mem := rfl
@[simp] theorem setFmt_out (v : Word) (s : State) : (setFmt v s).out = s.out := rfl
@[simp] theorem setFmt_host (v : Word) (s : State) : (setFmt v s).host = s.host := rfl
@[simp] theorem setFmt_turns (v : Word) (s : State) : (setFmt v s).turns = s.turns := rfl
@[simp] theorem setFmt_sink (v : Word) (s : State) : (setFmt v s).sink = s.sink := rfl
@[simp] theorem setFmt_readData (v : Word) (s : State) : (setFmt v s).readData = s.readData := rfl
@[simp] theorem setFmt_draws (v : Word) (s : State) : (setFmt v s).draws = s.draws := rfl
@[simp] theorem setFmt_sumStart (v : Word) (s : State) : (setFmt v s).sumStart = s.sumStart := rfl

/-! ### setRiceCfg -/

@[simp] theorem setRiceCfg_irqEn (v : Word) (s : State) : (setRiceCfg v s).irqEn = s.irqEn := rfl
@[simp] theorem setRiceCfg_stereoEn (v : Word) (s : State) : (setRiceCfg v s).stereoEn = s.stereoEn := rfl
@[simp] theorem setRiceCfg_done (v : Word) (s : State) : (setRiceCfg v s).done = s.done := rfl
@[simp] theorem setRiceCfg_err (v : Word) (s : State) : (setRiceCfg v s).err = s.err := rfl
@[simp] theorem setRiceCfg_errCode (v : Word) (s : State) : (setRiceCfg v s).errCode = s.errCode := rfl
@[simp] theorem setRiceCfg_engine (v : Word) (s : State) : (setRiceCfg v s).engine = s.engine := rfl
@[simp] theorem setRiceCfg_channels (v : Word) (s : State) : (setRiceCfg v s).channels = s.channels := rfl
@[simp] theorem setRiceCfg_bits (v : Word) (s : State) : (setRiceCfg v s).bits = s.bits := rfl
@[simp] theorem setRiceCfg_rate (v : Word) (s : State) : (setRiceCfg v s).rate = s.rate := rfl
@[simp] theorem setRiceCfg_method (v : Word) (s : State) : (setRiceCfg v s).method = Method.ofBit (v.getLsbD 0) := rfl
@[simp] theorem setRiceCfg_porder (v : Word) (s : State) : (setRiceCfg v s).porder = v.extractLsb' 4 4 := rfl
@[simp] theorem setRiceCfg_param (v : Word) (s : State) : (setRiceCfg v s).param = s.param := rfl
@[simp] theorem setRiceCfg_args (v : Word) (s : State) : (setRiceCfg v s).args = s.args := rfl
@[simp] theorem setRiceCfg_res (v : Word) (s : State) : (setRiceCfg v s).res = s.res := rfl
@[simp] theorem setRiceCfg_crc8 (v : Word) (s : State) : (setRiceCfg v s).crc8 = s.crc8 := rfl
@[simp] theorem setRiceCfg_crc16 (v : Word) (s : State) : (setRiceCfg v s).crc16 = s.crc16 := rfl
@[simp] theorem setRiceCfg_bytesWritten (v : Word) (s : State) : (setRiceCfg v s).bytesWritten = s.bytesWritten := rfl
@[simp] theorem setRiceCfg_nb (v : Word) (s : State) : (setRiceCfg v s).nb = s.nb := rfl
@[simp] theorem setRiceCfg_acc (v : Word) (s : State) : (setRiceCfg v s).acc = s.acc := rfl
@[simp] theorem setRiceCfg_mem (v : Word) (s : State) : (setRiceCfg v s).mem = s.mem := rfl
@[simp] theorem setRiceCfg_out (v : Word) (s : State) : (setRiceCfg v s).out = s.out := rfl
@[simp] theorem setRiceCfg_host (v : Word) (s : State) : (setRiceCfg v s).host = s.host := rfl
@[simp] theorem setRiceCfg_turns (v : Word) (s : State) : (setRiceCfg v s).turns = s.turns := rfl
@[simp] theorem setRiceCfg_sink (v : Word) (s : State) : (setRiceCfg v s).sink = s.sink := rfl
@[simp] theorem setRiceCfg_readData (v : Word) (s : State) : (setRiceCfg v s).readData = s.readData := rfl
@[simp] theorem setRiceCfg_draws (v : Word) (s : State) : (setRiceCfg v s).draws = s.draws := rfl
@[simp] theorem setRiceCfg_sumStart (v : Word) (s : State) : (setRiceCfg v s).sumStart = s.sumStart := rfl

/-! ### setCtrl -/

@[simp] theorem setCtrl_irqEn (v : Word) (s : State) : (setCtrl v s).irqEn = v.getLsbD 1 := rfl
@[simp] theorem setCtrl_stereoEn (v : Word) (s : State) : (setCtrl v s).stereoEn = v.getLsbD 2 := rfl
@[simp] theorem setCtrl_done (v : Word) (s : State) : (setCtrl v s).done = s.done := rfl
@[simp] theorem setCtrl_err (v : Word) (s : State) : (setCtrl v s).err = s.err := rfl
@[simp] theorem setCtrl_errCode (v : Word) (s : State) : (setCtrl v s).errCode = s.errCode := rfl
@[simp] theorem setCtrl_engine (v : Word) (s : State) : (setCtrl v s).engine = s.engine := rfl
@[simp] theorem setCtrl_channels (v : Word) (s : State) : (setCtrl v s).channels = s.channels := rfl
@[simp] theorem setCtrl_bits (v : Word) (s : State) : (setCtrl v s).bits = s.bits := rfl
@[simp] theorem setCtrl_rate (v : Word) (s : State) : (setCtrl v s).rate = s.rate := rfl
@[simp] theorem setCtrl_method (v : Word) (s : State) : (setCtrl v s).method = s.method := rfl
@[simp] theorem setCtrl_porder (v : Word) (s : State) : (setCtrl v s).porder = s.porder := rfl
@[simp] theorem setCtrl_param (v : Word) (s : State) : (setCtrl v s).param = s.param := rfl
@[simp] theorem setCtrl_args (v : Word) (s : State) : (setCtrl v s).args = s.args := rfl
@[simp] theorem setCtrl_res (v : Word) (s : State) : (setCtrl v s).res = s.res := rfl
@[simp] theorem setCtrl_crc8 (v : Word) (s : State) : (setCtrl v s).crc8 = s.crc8 := rfl
@[simp] theorem setCtrl_crc16 (v : Word) (s : State) : (setCtrl v s).crc16 = s.crc16 := rfl
@[simp] theorem setCtrl_bytesWritten (v : Word) (s : State) : (setCtrl v s).bytesWritten = s.bytesWritten := rfl
@[simp] theorem setCtrl_nb (v : Word) (s : State) : (setCtrl v s).nb = s.nb := rfl
@[simp] theorem setCtrl_acc (v : Word) (s : State) : (setCtrl v s).acc = s.acc := rfl
@[simp] theorem setCtrl_mem (v : Word) (s : State) : (setCtrl v s).mem = s.mem := rfl
@[simp] theorem setCtrl_out (v : Word) (s : State) : (setCtrl v s).out = s.out := rfl
@[simp] theorem setCtrl_host (v : Word) (s : State) : (setCtrl v s).host = s.host := rfl
@[simp] theorem setCtrl_turns (v : Word) (s : State) : (setCtrl v s).turns = s.turns := rfl
@[simp] theorem setCtrl_sink (v : Word) (s : State) : (setCtrl v s).sink = s.sink := rfl
@[simp] theorem setCtrl_readData (v : Word) (s : State) : (setCtrl v s).readData = s.readData := rfl
@[simp] theorem setCtrl_draws (v : Word) (s : State) : (setCtrl v s).draws = s.draws := rfl
@[simp] theorem setCtrl_sumStart (v : Word) (s : State) : (setCtrl v s).sumStart = s.sumStart := rfl

/-! ### setStatus -/

@[simp] theorem setStatus_irqEn (v : Word) (s : State) : (setStatus v s).irqEn = s.irqEn := rfl
@[simp] theorem setStatus_stereoEn (v : Word) (s : State) : (setStatus v s).stereoEn = s.stereoEn := rfl
@[simp] theorem setStatus_done (v : Word) (s : State) : (setStatus v s).done = (s.done && !v.getLsbD 1) := rfl
@[simp] theorem setStatus_err (v : Word) (s : State) : (setStatus v s).err = s.err := rfl
@[simp] theorem setStatus_errCode (v : Word) (s : State) : (setStatus v s).errCode = s.errCode := rfl
@[simp] theorem setStatus_engine (v : Word) (s : State) : (setStatus v s).engine = s.engine := rfl
@[simp] theorem setStatus_channels (v : Word) (s : State) : (setStatus v s).channels = s.channels := rfl
@[simp] theorem setStatus_bits (v : Word) (s : State) : (setStatus v s).bits = s.bits := rfl
@[simp] theorem setStatus_rate (v : Word) (s : State) : (setStatus v s).rate = s.rate := rfl
@[simp] theorem setStatus_method (v : Word) (s : State) : (setStatus v s).method = s.method := rfl
@[simp] theorem setStatus_porder (v : Word) (s : State) : (setStatus v s).porder = s.porder := rfl
@[simp] theorem setStatus_param (v : Word) (s : State) : (setStatus v s).param = s.param := rfl
@[simp] theorem setStatus_args (v : Word) (s : State) : (setStatus v s).args = s.args := rfl
@[simp] theorem setStatus_res (v : Word) (s : State) : (setStatus v s).res = s.res := rfl
@[simp] theorem setStatus_crc8 (v : Word) (s : State) : (setStatus v s).crc8 = s.crc8 := rfl
@[simp] theorem setStatus_crc16 (v : Word) (s : State) : (setStatus v s).crc16 = s.crc16 := rfl
@[simp] theorem setStatus_bytesWritten (v : Word) (s : State) : (setStatus v s).bytesWritten = s.bytesWritten := rfl
@[simp] theorem setStatus_nb (v : Word) (s : State) : (setStatus v s).nb = s.nb := rfl
@[simp] theorem setStatus_acc (v : Word) (s : State) : (setStatus v s).acc = s.acc := rfl
@[simp] theorem setStatus_mem (v : Word) (s : State) : (setStatus v s).mem = s.mem := rfl
@[simp] theorem setStatus_out (v : Word) (s : State) : (setStatus v s).out = s.out := rfl
@[simp] theorem setStatus_host (v : Word) (s : State) : (setStatus v s).host = s.host := rfl
@[simp] theorem setStatus_turns (v : Word) (s : State) : (setStatus v s).turns = s.turns := rfl
@[simp] theorem setStatus_sink (v : Word) (s : State) : (setStatus v s).sink = s.sink := rfl
@[simp] theorem setStatus_readData (v : Word) (s : State) : (setStatus v s).readData = s.readData := rfl
@[simp] theorem setStatus_draws (v : Word) (s : State) : (setStatus v s).draws = s.draws := rfl
@[simp] theorem setStatus_sumStart (v : Word) (s : State) : (setStatus v s).sumStart = s.sumStart := rfl

/-! ### returns -/

@[simp] theorem returns_irqEn (v : Word) (s : State) : (returns v s).irqEn = s.irqEn := rfl
@[simp] theorem returns_stereoEn (v : Word) (s : State) : (returns v s).stereoEn = s.stereoEn := rfl
@[simp] theorem returns_done (v : Word) (s : State) : (returns v s).done = s.done := rfl
@[simp] theorem returns_err (v : Word) (s : State) : (returns v s).err = s.err := rfl
@[simp] theorem returns_errCode (v : Word) (s : State) : (returns v s).errCode = s.errCode := rfl
@[simp] theorem returns_engine (v : Word) (s : State) : (returns v s).engine = s.engine := rfl
@[simp] theorem returns_channels (v : Word) (s : State) : (returns v s).channels = s.channels := rfl
@[simp] theorem returns_bits (v : Word) (s : State) : (returns v s).bits = s.bits := rfl
@[simp] theorem returns_rate (v : Word) (s : State) : (returns v s).rate = s.rate := rfl
@[simp] theorem returns_method (v : Word) (s : State) : (returns v s).method = s.method := rfl
@[simp] theorem returns_porder (v : Word) (s : State) : (returns v s).porder = s.porder := rfl
@[simp] theorem returns_param (v : Word) (s : State) : (returns v s).param = s.param := rfl
@[simp] theorem returns_args (v : Word) (s : State) : (returns v s).args = s.args := rfl
@[simp] theorem returns_res (v : Word) (s : State) : (returns v s).res = s.res := rfl
@[simp] theorem returns_crc8 (v : Word) (s : State) : (returns v s).crc8 = s.crc8 := rfl
@[simp] theorem returns_crc16 (v : Word) (s : State) : (returns v s).crc16 = s.crc16 := rfl
@[simp] theorem returns_bytesWritten (v : Word) (s : State) : (returns v s).bytesWritten = s.bytesWritten := rfl
@[simp] theorem returns_nb (v : Word) (s : State) : (returns v s).nb = s.nb := rfl
@[simp] theorem returns_acc (v : Word) (s : State) : (returns v s).acc = s.acc := rfl
@[simp] theorem returns_mem (v : Word) (s : State) : (returns v s).mem = s.mem := rfl
@[simp] theorem returns_out (v : Word) (s : State) : (returns v s).out = s.out := rfl
@[simp] theorem returns_host (v : Word) (s : State) : (returns v s).host = s.host := rfl
@[simp] theorem returns_turns (v : Word) (s : State) : (returns v s).turns = s.turns := rfl
@[simp] theorem returns_sink (v : Word) (s : State) : (returns v s).sink = s.sink := rfl
@[simp] theorem returns_readData (v : Word) (s : State) : (returns v s).readData = v := rfl
@[simp] theorem returns_draws (v : Word) (s : State) : (returns v s).draws = s.draws := rfl
@[simp] theorem returns_sumStart (v : Word) (s : State) : (returns v s).sumStart = s.sumStart := rfl

/-! ### drew -/

@[simp] theorem drew_irqEn (s : State) : (drew s).irqEn = s.irqEn := rfl
@[simp] theorem drew_stereoEn (s : State) : (drew s).stereoEn = s.stereoEn := rfl
@[simp] theorem drew_done (s : State) : (drew s).done = s.done := rfl
@[simp] theorem drew_err (s : State) : (drew s).err = s.err := rfl
@[simp] theorem drew_errCode (s : State) : (drew s).errCode = s.errCode := rfl
@[simp] theorem drew_engine (s : State) : (drew s).engine = s.engine := rfl
@[simp] theorem drew_channels (s : State) : (drew s).channels = s.channels := rfl
@[simp] theorem drew_bits (s : State) : (drew s).bits = s.bits := rfl
@[simp] theorem drew_rate (s : State) : (drew s).rate = s.rate := rfl
@[simp] theorem drew_method (s : State) : (drew s).method = s.method := rfl
@[simp] theorem drew_porder (s : State) : (drew s).porder = s.porder := rfl
@[simp] theorem drew_param (s : State) : (drew s).param = s.param := rfl
@[simp] theorem drew_args (s : State) : (drew s).args = s.args := rfl
@[simp] theorem drew_res (s : State) : (drew s).res = s.res := rfl
@[simp] theorem drew_crc8 (s : State) : (drew s).crc8 = s.crc8 := rfl
@[simp] theorem drew_crc16 (s : State) : (drew s).crc16 = s.crc16 := rfl
@[simp] theorem drew_bytesWritten (s : State) : (drew s).bytesWritten = s.bytesWritten := rfl
@[simp] theorem drew_nb (s : State) : (drew s).nb = s.nb := rfl
@[simp] theorem drew_acc (s : State) : (drew s).acc = s.acc := rfl
@[simp] theorem drew_mem (s : State) : (drew s).mem = s.mem := rfl
@[simp] theorem drew_out (s : State) : (drew s).out = s.out := rfl
@[simp] theorem drew_host (s : State) : (drew s).host = s.host := rfl
@[simp] theorem drew_turns (s : State) : (drew s).turns = s.turns := rfl
@[simp] theorem drew_sink (s : State) : (drew s).sink = s.sink := rfl
@[simp] theorem drew_readData (s : State) : (drew s).readData = s.readData := rfl
@[simp] theorem drew_draws (s : State) : (drew s).draws = s.draws + 1 := rfl
@[simp] theorem drew_sumStart (s : State) : (drew s).sumStart = s.sumStart := rfl

/-! ### scramblePlanes -/

@[simp] theorem scramblePlanes_irqEn (f : Footprint) (s : State) : (scramblePlanes f s).irqEn = s.irqEn := rfl
@[simp] theorem scramblePlanes_stereoEn (f : Footprint) (s : State) : (scramblePlanes f s).stereoEn = s.stereoEn := rfl
@[simp] theorem scramblePlanes_done (f : Footprint) (s : State) : (scramblePlanes f s).done = s.done := rfl
@[simp] theorem scramblePlanes_err (f : Footprint) (s : State) : (scramblePlanes f s).err = s.err := rfl
@[simp] theorem scramblePlanes_errCode (f : Footprint) (s : State) : (scramblePlanes f s).errCode = s.errCode := rfl
@[simp] theorem scramblePlanes_engine (f : Footprint) (s : State) : (scramblePlanes f s).engine = s.engine := rfl
@[simp] theorem scramblePlanes_channels (f : Footprint) (s : State) : (scramblePlanes f s).channels = s.channels := rfl
@[simp] theorem scramblePlanes_bits (f : Footprint) (s : State) : (scramblePlanes f s).bits = s.bits := rfl
@[simp] theorem scramblePlanes_rate (f : Footprint) (s : State) : (scramblePlanes f s).rate = s.rate := rfl
@[simp] theorem scramblePlanes_method (f : Footprint) (s : State) : (scramblePlanes f s).method = s.method := rfl
@[simp] theorem scramblePlanes_porder (f : Footprint) (s : State) : (scramblePlanes f s).porder = s.porder := rfl
@[simp] theorem scramblePlanes_param (f : Footprint) (s : State) : (scramblePlanes f s).param = s.param := rfl
@[simp] theorem scramblePlanes_args (f : Footprint) (s : State) : (scramblePlanes f s).args = s.args := rfl
@[simp] theorem scramblePlanes_res (f : Footprint) (s : State) : (scramblePlanes f s).res = s.res := rfl
@[simp] theorem scramblePlanes_crc8 (f : Footprint) (s : State) : (scramblePlanes f s).crc8 = s.crc8 := rfl
@[simp] theorem scramblePlanes_crc16 (f : Footprint) (s : State) : (scramblePlanes f s).crc16 = s.crc16 := rfl
@[simp] theorem scramblePlanes_bytesWritten (f : Footprint) (s : State) : (scramblePlanes f s).bytesWritten = s.bytesWritten := rfl
@[simp] theorem scramblePlanes_nb (f : Footprint) (s : State) : (scramblePlanes f s).nb = s.nb := rfl
@[simp] theorem scramblePlanes_acc (f : Footprint) (s : State) : (scramblePlanes f s).acc = s.acc := rfl
@[simp] theorem scramblePlanes_mem (f : Footprint) (s : State) : (scramblePlanes f s).mem = scrambleFootprint s 0 f s.mem := rfl
@[simp] theorem scramblePlanes_out (f : Footprint) (s : State) : (scramblePlanes f s).out = s.out := rfl
@[simp] theorem scramblePlanes_host (f : Footprint) (s : State) : (scramblePlanes f s).host = s.host := rfl
@[simp] theorem scramblePlanes_turns (f : Footprint) (s : State) : (scramblePlanes f s).turns = s.turns := rfl
@[simp] theorem scramblePlanes_sink (f : Footprint) (s : State) : (scramblePlanes f s).sink = s.sink := rfl
@[simp] theorem scramblePlanes_readData (f : Footprint) (s : State) : (scramblePlanes f s).readData = s.readData := rfl
@[simp] theorem scramblePlanes_draws (f : Footprint) (s : State) : (scramblePlanes f s).draws = s.draws + (f.map Prod.snd).sum := rfl
@[simp] theorem scramblePlanes_sumStart (f : Footprint) (s : State) : (scramblePlanes f s).sumStart = s.sumStart := rfl

/-! ### scrambleRegisters -/

@[simp] theorem scrambleRegisters_irqEn (s : State) : (scrambleRegisters s).irqEn = s.irqEn := rfl
@[simp] theorem scrambleRegisters_stereoEn (s : State) : (scrambleRegisters s).stereoEn = s.stereoEn := rfl
@[simp] theorem scrambleRegisters_done (s : State) : (scrambleRegisters s).done = s.done := rfl
@[simp] theorem scrambleRegisters_err (s : State) : (scrambleRegisters s).err = s.err := rfl
@[simp] theorem scrambleRegisters_errCode (s : State) : (scrambleRegisters s).errCode = s.errCode := rfl
@[simp] theorem scrambleRegisters_engine (s : State) : (scrambleRegisters s).engine = s.engine := rfl
@[simp] theorem scrambleRegisters_channels (s : State) : (scrambleRegisters s).channels = s.channels := rfl
@[simp] theorem scrambleRegisters_bits (s : State) : (scrambleRegisters s).bits = s.bits := rfl
@[simp] theorem scrambleRegisters_rate (s : State) : (scrambleRegisters s).rate = s.rate := rfl
@[simp] theorem scrambleRegisters_args (s : State) : (scrambleRegisters s).args = s.args := rfl
@[simp] theorem scrambleRegisters_crc8 (s : State) : (scrambleRegisters s).crc8 = s.crc8 := rfl
@[simp] theorem scrambleRegisters_crc16 (s : State) : (scrambleRegisters s).crc16 = s.crc16 := rfl
@[simp] theorem scrambleRegisters_bytesWritten (s : State) : (scrambleRegisters s).bytesWritten = s.bytesWritten := rfl
@[simp] theorem scrambleRegisters_mem (s : State) : (scrambleRegisters s).mem = s.mem := rfl
@[simp] theorem scrambleRegisters_out (s : State) : (scrambleRegisters s).out = s.out := rfl
@[simp] theorem scrambleRegisters_host (s : State) : (scrambleRegisters s).host = s.host := rfl
@[simp] theorem scrambleRegisters_turns (s : State) : (scrambleRegisters s).turns = s.turns := rfl
@[simp] theorem scrambleRegisters_sink (s : State) : (scrambleRegisters s).sink = s.sink := rfl
@[simp] theorem scrambleRegisters_readData (s : State) : (scrambleRegisters s).readData = s.readData := rfl
@[simp] theorem scrambleRegisters_sumStart (s : State) : (scrambleRegisters s).sumStart = s.sumStart := rfl

/-! ### resetRegisters -/

@[simp] theorem resetRegisters_irqEn (s : State) : (resetRegisters s).irqEn = State.reset.irqEn := rfl
@[simp] theorem resetRegisters_stereoEn (s : State) : (resetRegisters s).stereoEn = State.reset.stereoEn := rfl
@[simp] theorem resetRegisters_done (s : State) : (resetRegisters s).done = State.reset.done := rfl
@[simp] theorem resetRegisters_err (s : State) : (resetRegisters s).err = State.reset.err := rfl
@[simp] theorem resetRegisters_errCode (s : State) : (resetRegisters s).errCode = State.reset.errCode := rfl
@[simp] theorem resetRegisters_engine (s : State) : (resetRegisters s).engine = State.reset.engine := rfl
@[simp] theorem resetRegisters_channels (s : State) : (resetRegisters s).channels = State.reset.channels := rfl
@[simp] theorem resetRegisters_bits (s : State) : (resetRegisters s).bits = State.reset.bits := rfl
@[simp] theorem resetRegisters_rate (s : State) : (resetRegisters s).rate = State.reset.rate := rfl
@[simp] theorem resetRegisters_method (s : State) : (resetRegisters s).method = State.reset.method := rfl
@[simp] theorem resetRegisters_porder (s : State) : (resetRegisters s).porder = State.reset.porder := rfl
@[simp] theorem resetRegisters_param (s : State) : (resetRegisters s).param = State.reset.param := rfl
@[simp] theorem resetRegisters_args (s : State) : (resetRegisters s).args = State.reset.args := rfl
@[simp] theorem resetRegisters_res (s : State) : (resetRegisters s).res = State.reset.res := rfl
@[simp] theorem resetRegisters_crc8 (s : State) : (resetRegisters s).crc8 = State.reset.crc8 := rfl
@[simp] theorem resetRegisters_crc16 (s : State) : (resetRegisters s).crc16 = State.reset.crc16 := rfl
@[simp] theorem resetRegisters_bytesWritten (s : State) : (resetRegisters s).bytesWritten = State.reset.bytesWritten := rfl
@[simp] theorem resetRegisters_nb (s : State) : (resetRegisters s).nb = State.reset.nb := rfl
@[simp] theorem resetRegisters_acc (s : State) : (resetRegisters s).acc = State.reset.acc := rfl
@[simp] theorem resetRegisters_mem (s : State) : (resetRegisters s).mem = s.mem := rfl
@[simp] theorem resetRegisters_out (s : State) : (resetRegisters s).out = s.out := rfl
@[simp] theorem resetRegisters_host (s : State) : (resetRegisters s).host = s.host := rfl
@[simp] theorem resetRegisters_turns (s : State) : (resetRegisters s).turns = s.turns := rfl
@[simp] theorem resetRegisters_sink (s : State) : (resetRegisters s).sink = s.sink := rfl
@[simp] theorem resetRegisters_readData (s : State) : (resetRegisters s).readData = s.readData := rfl
@[simp] theorem resetRegisters_draws (s : State) : (resetRegisters s).draws = s.draws := rfl
@[simp] theorem resetRegisters_sumStart (s : State) : (resetRegisters s).sumStart = s.sumStart := rfl

/-! ### forgetPlanes -/

@[simp] theorem forgetPlanes_irqEn (s : State) : (forgetPlanes s).irqEn = s.irqEn := rfl
@[simp] theorem forgetPlanes_stereoEn (s : State) : (forgetPlanes s).stereoEn = s.stereoEn := rfl
@[simp] theorem forgetPlanes_done (s : State) : (forgetPlanes s).done = s.done := rfl
@[simp] theorem forgetPlanes_err (s : State) : (forgetPlanes s).err = s.err := rfl
@[simp] theorem forgetPlanes_errCode (s : State) : (forgetPlanes s).errCode = s.errCode := rfl
@[simp] theorem forgetPlanes_engine (s : State) : (forgetPlanes s).engine = s.engine := rfl
@[simp] theorem forgetPlanes_channels (s : State) : (forgetPlanes s).channels = s.channels := rfl
@[simp] theorem forgetPlanes_bits (s : State) : (forgetPlanes s).bits = s.bits := rfl
@[simp] theorem forgetPlanes_rate (s : State) : (forgetPlanes s).rate = s.rate := rfl
@[simp] theorem forgetPlanes_method (s : State) : (forgetPlanes s).method = s.method := rfl
@[simp] theorem forgetPlanes_porder (s : State) : (forgetPlanes s).porder = s.porder := rfl
@[simp] theorem forgetPlanes_param (s : State) : (forgetPlanes s).param = s.param := rfl
@[simp] theorem forgetPlanes_args (s : State) : (forgetPlanes s).args = s.args := rfl
@[simp] theorem forgetPlanes_res (s : State) : (forgetPlanes s).res = s.res := rfl
@[simp] theorem forgetPlanes_crc8 (s : State) : (forgetPlanes s).crc8 = s.crc8 := rfl
@[simp] theorem forgetPlanes_crc16 (s : State) : (forgetPlanes s).crc16 = s.crc16 := rfl
@[simp] theorem forgetPlanes_bytesWritten (s : State) : (forgetPlanes s).bytesWritten = s.bytesWritten := rfl
@[simp] theorem forgetPlanes_nb (s : State) : (forgetPlanes s).nb = s.nb := rfl
@[simp] theorem forgetPlanes_acc (s : State) : (forgetPlanes s).acc = s.acc := rfl
@[simp] theorem forgetPlanes_mem (s : State) : (forgetPlanes s).mem = [] := rfl
@[simp] theorem forgetPlanes_out (s : State) : (forgetPlanes s).out = s.out := rfl
@[simp] theorem forgetPlanes_host (s : State) : (forgetPlanes s).host = s.host := rfl
@[simp] theorem forgetPlanes_turns (s : State) : (forgetPlanes s).turns = s.turns := rfl
@[simp] theorem forgetPlanes_sink (s : State) : (forgetPlanes s).sink = s.sink := rfl
@[simp] theorem forgetPlanes_readData (s : State) : (forgetPlanes s).readData = s.readData := rfl
@[simp] theorem forgetPlanes_draws (s : State) : (forgetPlanes s).draws = s.draws := rfl
@[simp] theorem forgetPlanes_sumStart (s : State) : (forgetPlanes s).sumStart = s.sumStart := rfl

/-! ### keepOutput -/

@[simp] theorem keepOutput_irqEn (s t : State) : (keepOutput s t).irqEn = s.irqEn := rfl
@[simp] theorem keepOutput_stereoEn (s t : State) : (keepOutput s t).stereoEn = s.stereoEn := rfl
@[simp] theorem keepOutput_done (s t : State) : (keepOutput s t).done = s.done := rfl
@[simp] theorem keepOutput_err (s t : State) : (keepOutput s t).err = s.err := rfl
@[simp] theorem keepOutput_errCode (s t : State) : (keepOutput s t).errCode = s.errCode := rfl
@[simp] theorem keepOutput_engine (s t : State) : (keepOutput s t).engine = s.engine := rfl
@[simp] theorem keepOutput_channels (s t : State) : (keepOutput s t).channels = s.channels := rfl
@[simp] theorem keepOutput_bits (s t : State) : (keepOutput s t).bits = s.bits := rfl
@[simp] theorem keepOutput_rate (s t : State) : (keepOutput s t).rate = s.rate := rfl
@[simp] theorem keepOutput_method (s t : State) : (keepOutput s t).method = s.method := rfl
@[simp] theorem keepOutput_porder (s t : State) : (keepOutput s t).porder = s.porder := rfl
@[simp] theorem keepOutput_param (s t : State) : (keepOutput s t).param = s.param := rfl
@[simp] theorem keepOutput_args (s t : State) : (keepOutput s t).args = s.args := rfl
@[simp] theorem keepOutput_res (s t : State) : (keepOutput s t).res = s.res := rfl
@[simp] theorem keepOutput_crc8 (s t : State) : (keepOutput s t).crc8 = t.crc8 := rfl
@[simp] theorem keepOutput_crc16 (s t : State) : (keepOutput s t).crc16 = t.crc16 := rfl
@[simp] theorem keepOutput_bytesWritten (s t : State) : (keepOutput s t).bytesWritten = t.bytesWritten := rfl
@[simp] theorem keepOutput_nb (s t : State) : (keepOutput s t).nb = s.nb := rfl
@[simp] theorem keepOutput_acc (s t : State) : (keepOutput s t).acc = s.acc := rfl
@[simp] theorem keepOutput_mem (s t : State) : (keepOutput s t).mem = s.mem := rfl
@[simp] theorem keepOutput_out (s t : State) : (keepOutput s t).out = t.out := rfl
@[simp] theorem keepOutput_host (s t : State) : (keepOutput s t).host = s.host := rfl
@[simp] theorem keepOutput_turns (s t : State) : (keepOutput s t).turns = s.turns := rfl
@[simp] theorem keepOutput_sink (s t : State) : (keepOutput s t).sink = s.sink.drop (t.out.length - s.out.length) := rfl
@[simp] theorem keepOutput_readData (s t : State) : (keepOutput s t).readData = s.readData := rfl
@[simp] theorem keepOutput_draws (s t : State) : (keepOutput s t).draws = s.draws + 1 := rfl
@[simp] theorem keepOutput_sumStart (s t : State) : (keepOutput s t).sumStart = s.sumStart := rfl

end Sys2Proof.Machine
end

