-- ==== Sys2Proof/Laws/Progress.lean ====
section
/-! SUPPORT. What every command's pseudocode keeps, whatever it does: one relation, proved once per operation and per
command, from which the invariants and the frames follow. -/

namespace Sys2Proof.Machine

/-- The error codes a command's pseudocode raises (spec/60_exceptions.md R362). -/
def ErrorCode.Raised (c : ErrorCode) : Prop :=
  c = .writeFailed ∨ c = .unsupportedFormat ∨ c = .invalidOperand ∨ c = .bwUnaligned ∨ c = .paramEscape ∨
    c = .residualRange

/-- Everything a part of a command may do from `s` to `t`: it writes planes within `f`, results, parameters and the
output's state; the output only grows, its CRCs go on covering it, and the pending bits stay an `nb`-bit value. -/
structure Progress (f : Footprint) (s t : State) : Prop where
  rest : t = { s with
    method := t.method, porder := t.porder, param := t.param, res := t.res
    crc8 := t.crc8, crc16 := t.crc16, bytesWritten := t.bytesWritten
    nb := t.nb, acc := t.acc, mem := t.mem, out := t.out, sink := t.sink }
  out : ∃ bs, t.out = s.out ++ bs
  span : s.SpanCovered → t.SpanCovered
  pending : s.acc.toNat < 2 ^ s.nb.toNat → t.acc.toNat < 2 ^ t.nb.toNat
  mem : WritesOnly f.Covers s.mem t.mem

theorem Progress.refl (f : Footprint) (s : State) : Progress f s s :=
  ⟨rfl, ⟨[], by simp⟩, id, id, .refl ..⟩

theorem Progress.trans {f : Footprint} {s t u : State} (h : Progress f s t) (h' : Progress f t u) : Progress f s u := by
  obtain ⟨bs, hb⟩ := h.out
  obtain ⟨bs', hb'⟩ := h'.out
  refine ⟨?_, ⟨bs ++ bs', by simp [hb', hb]⟩, h'.span ∘ h.span, h'.pending ∘ h.pending, h.mem.trans h'.mem⟩
  rw [h'.rest, h.rest]

theorem Progress.imp {f g : Footprint} {s t : State} (h : Progress f s t) (hfg : ∀ a, f.Covers a → g.Covers a) :
    Progress g s t := ⟨h.rest, h.out, h.span, h.pending, h.mem.imp hfg⟩

theorem covers_nil (a : Nat) : ¬ Footprint.Covers [] a := by simp [Footprint.Covers]

theorem covers_append {f g : Footprint} {a : Nat} : Footprint.Covers (f ++ g) a ↔ f.Covers a ∨ g.Covers a := by
  simp only [Footprint.Covers, List.mem_append, or_and_right, exists_or]

theorem Progress.mono_nil {f : Footprint} {s t : State} (h : Progress [] s t) : Progress f s t :=
  h.imp fun a ha => (covers_nil a ha).elim

/-- However a command's pseudocode ends, it got there by progress, and raises a code of its own. -/
def Run.Keeps (f : Footprint) (s : State) (r : Run) : Prop :=
  match r with
  | .ok t => Progress f s t
  | .error c t => c.Raised ∧ Progress f s t
  | .fault _ => True

theorem Run.Keeps.andThen {f : Footprint} {s : State} {r : Run} {g : State → Run} (h : r.Keeps f s)
    (h' : ∀ t, r = .ok t → (g t).Keeps f t) : (r.andThen g).Keeps f s := by
  cases r with
  | ok t =>
    have ht : Progress f s t := h
    have hg := h' t rfl
    simp only [Run.andThen]
    cases hr : g t with
    | ok u => rw [hr] at hg; exact ht.trans hg
    | error c u => rw [hr] at hg; exact ⟨hg.1, ht.trans hg.2⟩
    | fault k => trivial
  | error c t => exact h
  | fault k => trivial

theorem Run.Keeps.imp {f g : Footprint} {s : State} {r : Run} (h : r.Keeps f s)
    (hfg : ∀ a, f.Covers a → g.Covers a) : r.Keeps g s := by
  cases r with
  | ok t => exact Progress.imp h hfg
  | error c t => exact ⟨h.1, h.2.imp hfg⟩
  | fault k => trivial

theorem Run.Keeps.mono_nil {f : Footprint} {s : State} {r : Run} (h : r.Keeps [] s) : r.Keeps f s :=
  h.imp fun a ha => (covers_nil a ha).elim

theorem keeps_ok {f : Footprint} (s : State) : (Run.ok s).Keeps f s := Progress.refl f s

theorem keeps_error {f : Footprint} (s : State) {c : ErrorCode} (h : c.Raised) : (Run.error c s).Keeps f s :=
  ⟨h, Progress.refl f s⟩

theorem raised_writeFailed : ErrorCode.Raised .writeFailed := .inl rfl
theorem raised_unsupportedFormat : ErrorCode.Raised .unsupportedFormat := .inr (.inl rfl)
theorem raised_invalidOperand : ErrorCode.Raised .invalidOperand := .inr (.inr (.inl rfl))
theorem raised_bwUnaligned : ErrorCode.Raised .bwUnaligned := .inr (.inr (.inr (.inl rfl)))
theorem raised_paramEscape : ErrorCode.Raised .paramEscape := .inr (.inr (.inr (.inr (.inl rfl))))
theorem raised_residualRange : ErrorCode.Raised .residualRange := .inr (.inr (.inr (.inr (.inr rfl))))

theorem withEntries_keeps {f : Footprint} {s : State} {pl : Plane} {m : Memory} {i n : Nat} {g : List Int → Run}
    (h : Written pl i n m → (g (entries pl i n m)).Keeps f s) : (withEntries (readEntries pl m i n) g).Keeps f s := by
  cases hr : readEntries pl m i n with
  | error k => trivial
  | ok vs =>
    obtain ⟨rfl, hw⟩ := readEntries_spec hr
    exact h hw

/-! ### Registers and planes -/

theorem setRes_progress {f : Footprint} (i : Nat) (v : Word) (s : State) : Progress f s (setRes i v s) :=
  ⟨rfl, ⟨[], by simp⟩, id, id, .refl ..⟩

theorem setRes64_progress {f : Footprint} (i : Nat) (v : DWord) (s : State) : Progress f s (setRes64 i v s) :=
  (setRes_progress ..).trans (setRes_progress ..)

theorem params_progress {f : Footprint} {s t : State}
    (h : t = { s with method := t.method, porder := t.porder, param := t.param }) : Progress f s t := by
  rw [h]
  exact ⟨rfl, ⟨[], by simp⟩, id, id, .refl ..⟩

theorem setParams_progress {f : Footprint} (j : Nat) (ks : List Nat) (s : State) :
    Progress f s (setParams j ks s) := by
  induction ks generalizing j s with
  | nil => exact .refl ..
  | cons k ks ih => exact (params_progress rfl).trans (ih ..)

theorem setChoice_progress {f : Footprint} (c : RiceChoice) (s : State) : Progress f s (setChoice c s) :=
  (params_progress rfl).trans (setParams_progress ..)

theorem clearSpan_progress {f : Footprint} (s : State) : Progress f s (clearSpan s) :=
  ⟨rfl, ⟨[], by simp⟩, fun _ => ⟨s.out, [], by simp [clearSpan]⟩, id, .refl ..⟩

theorem covers_entries {pl : Plane} {n : Nat} (h : legalSamples n = true) (a : Nat) :
    (entriesFootprint pl n).Covers a ↔ entryOffset pl 0 ≤ a ∧ a < entryOffset pl 0 + entryBytes pl * n := by
  simp [entriesFootprint, h, Footprint.Covers, entryOffset]

theorem writeEntries_progress {f : Footprint} {pl : Plane} {vs : List Int} (s : State)
    (h : legalSamples vs.length = true) (hf : ∀ a, (entriesFootprint pl vs.length).Covers a → f.Covers a) :
    Progress f s { s with mem := writeEntries pl 0 vs s.mem } :=
  ⟨rfl, ⟨[], by simp⟩, id, id, (writeEntries_within pl 0 vs s.mem).imp fun a ha => hf a ((covers_entries h a).mpr ha)⟩

/-! ### Output -/

theorem acceptByte_progress {f : Footprint} (b : Byte) (s : State) : Progress f s (acceptByte b s) := by
  refine ⟨rfl, ⟨[b], rfl⟩, ?_, id, .refl ..⟩
  rintro ⟨before, span, h1, h2, h3, h4⟩
  refine ⟨before, span ++ [b], ?_, ?_, ?_, ?_⟩
  · simp [h1]
  · simp [h2]
  · simp [h3]
  · simp [h4, BitVec.ofNat_add]

theorem emitByte_keeps {f : Footprint} (b : Byte) (s : State) : (emitByte b s).Keeps f s := by
  unfold emitByte
  split
  · exact ⟨raised_writeFailed, rfl, ⟨[], by simp⟩, id, id, .refl ..⟩
  · exact acceptByte_progress ..

theorem toNat_appendBit_lt {acc : BitVec 7} {x : Bool} {n : Nat} (h : acc.toNat < 2 ^ n) :
    (acc ++ BitVec.ofBool x : BitVec 8).toNat < 2 ^ (n + 1) := by
  have := (toNat_appendBit acc x).1
  rw [Nat.pow_succ]
  omega

theorem emitBit_keeps {f : Footprint} (x : Bool) (s : State) : (emitBit x s).Keeps f s := by
  have clear : Progress f s { s with acc := 0, nb := 0 } := ⟨rfl, ⟨[], by simp⟩, id, fun _ => by simp, .refl ..⟩
  unfold emitBit
  simp only
  split
  · exact (show Run.Keeps f s (.ok { s with acc := 0, nb := 0 }) from clear).andThen fun t _ => emitByte_keeps _ t
  · next hn =>
    refine ⟨rfl, ⟨[], by simp⟩, id, fun h => ?_, .refl ..⟩
    have hlt : s.nb.toNat < 7 := by
      have := s.nb.isLt
      have : s.nb.toNat ≠ 7 := fun e => hn (BitVec.eq_of_toNat_eq e)
      omega
    have hn1 : (s.nb + 1).toNat = s.nb.toNat + 1 := by simp [BitVec.toNat_add]; omega
    have ha := toNat_appendBit_lt (x := x) h
    simp only [BitVec.toNat_setWidth, hn1]
    exact lt_of_le_of_lt (Nat.mod_le ..) ha

theorem emitBits_keeps {f : Footprint} (n v : Nat) (s : State) : (emitBits n v s).Keeps f s := by
  induction n generalizing s with
  | zero => exact keeps_ok s
  | succ n ih => exact (emitBit_keeps ..).andThen fun t _ => ih t

theorem emitZeros_keeps {f : Footprint} (q : Nat) (s : State) : (emitZeros q s).Keeps f s := by
  induction q generalizing s with
  | zero => exact keeps_ok s
  | succ q ih => exact (emitBit_keeps ..).andThen fun t _ => ih t

theorem emitUnary_keeps {f : Footprint} (q : Nat) (s : State) : (emitUnary q s).Keeps f s :=
  (emitZeros_keeps ..).andThen fun t _ => emitBit_keeps true t

theorem emitFlush_keeps {f : Footprint} (s : State) : (emitFlush s).Keeps f s := by
  unfold emitFlush
  split
  · exact keeps_ok s
  · exact emitBits_keeps ..

theorem emitFields_keeps {f : Footprint} (fs : List (Nat × Nat)) (s : State) : (emitFields fs s).Keeps f s := by
  induction fs generalizing s with
  | nil => exact keeps_ok s
  | cons g gs ih => exact (emitBits_keeps ..).andThen fun t _ => ih t

theorem emitEntries_keeps {f : Footprint} {emit : Int → State → Run} (he : ∀ v s, (emit v s).Keeps f s) (pl : Plane)
    (i n : Nat) (s : State) : (emitEntries emit pl i n s).Keeps f s := by
  induction n generalizing i s with
  | zero => exact keeps_ok s
  | succ n ih =>
    unfold emitEntries
    split
    · trivial
    · exact (he _ s).andThen fun t _ => ih (i + 1) t

theorem emitSample_keeps {f : Footprint} (ss : Nat) (v : Int) (s : State) : (emitSample ss v s).Keeps f s :=
  emitBits_keeps ..

theorem emitRice_keeps {f : Footprint} (k : Nat) (v : Int) (s : State) : (emitRice k v s).Keeps f s :=
  (emitUnary_keeps ..).andThen fun t _ => emitBits_keeps _ _ t

theorem emitConstant_keeps {f : Footprint} (ss : Nat) (v : Int) (s : State) : (emitConstant ss v s).Keeps f s :=
  (emitBits_keeps ..).andThen fun t _ => emitSample_keeps _ _ t

theorem emitVerbatim_keeps {f : Footprint} (pl : Plane) (ss n : Nat) (s : State) :
    (emitVerbatim pl ss n s).Keeps f s :=
  (emitBits_keeps ..).andThen fun t _ => emitEntries_keeps (emitSample_keeps ss) pl 0 n t

theorem emitPartitions_keeps {f : Footprint} (p n j count : Nat) (s : State) :
    (emitPartitions p n j count s).Keeps f s := by
  induction count generalizing j s with
  | zero => exact keeps_ok s
  | succ count ih =>
    exact Run.Keeps.andThen ((emitBits_keeps ..).andThen fun _ _ => emitEntries_keeps (emitRice_keeps _) ..)
      fun t _ => ih (j + 1) t

theorem emitResidualSection_keeps {f : Footprint} (p n : Nat) (s : State) :
    (emitResidualSection p n s).Keeps f s :=
  ((emitBits_keeps ..).andThen fun t _ => emitBits_keeps _ _ t).andThen fun _ _ => emitPartitions_keeps ..

theorem emitFixed_keeps {f : Footprint} (ss p n : Nat) (s : State) : (emitFixed ss p n s).Keeps f s :=
  ((emitBits_keeps ..).andThen fun _ _ => emitEntries_keeps (emitSample_keeps ss) ..).andThen
    fun t _ => emitResidualSection_keeps p n t

theorem emitFooter_keeps {f : Footprint} (s : State) : (emitFooter s).Keeps f s :=
  (emitByte_keeps ..).andThen fun t _ => emitByte_keeps _ t

/-! ### Commands -/

theorem residualsFrom_length (p i : Nat) (h xs : List Int) : (residualsFrom p i h xs).length = xs.length := by
  induction xs generalizing i h with
  | nil => rfl
  | cons x xs ih => simp [residualsFrom, ih]

@[simp] theorem residualSet_length (p : Nat) (xs : List Int) : (residualSet p xs).length = xs.length :=
  residualsFrom_length ..

theorem paramError_raised {m : Method} {k : Nat} {c : ErrorCode} (h : paramError m k = some c) : c.Raised := by
  cases m <;> simp only [paramError] at h <;> split at h <;> try split at h
  all_goals cases h
  all_goals first | exact raised_paramEscape | exact raised_invalidOperand

theorem residualSectionError_raised {p n : Nat} {s : State} {c : ErrorCode}
    (h : residualSectionError p n s = some c) : c.Raised := by
  unfold residualSectionError at h
  simp only at h
  repeat' split at h
  all_goals first
    | (cases h; exact raised_invalidOperand)
    | (obtain ⟨j, _, hj⟩ := List.exists_of_findSome?_eq_some h
       exact paramError_raised hj)

theorem runBwWriteFrameHeader_keeps {f : Footprint} (var : Bool) (ca : Nat) (s : State) :
    (runBwWriteFrameHeader var ca s).Keeps f s := by
  unfold runBwWriteFrameHeader
  split; · exact keeps_error s raised_unsupportedFormat
  split; · exact keeps_error s raised_bwUnaligned
  split; · exact keeps_error s raised_invalidOperand
  split; · exact keeps_error s raised_invalidOperand
  split; · exact keeps_error s raised_invalidOperand
  have := (show Run.Keeps f s (.ok (clearSpan s)) from clearSpan_progress s).andThen fun t _ =>
    ((emitFields_keeps (headerFields var ca (sampleCount s) (operandNum s) (bitDepth s) (sampleRate s)) t).andThen
      fun t _ => emitFlush_keeps t).andThen fun t _ => emitByte_keeps t.crc8 t
  exact this

theorem bestOrderResults_progress {f : Footprint} (cr : Bool) (xs : List Int) (s : State) :
    Progress f s (bestOrderResults cr xs s) := by
  refine (setRes64_progress ..).trans <| (setRes_progress ..).trans <| (setRes64_progress ..).trans <|
    (setRes64_progress ..).trans <| (setRes64_progress ..).trans <| (setRes64_progress ..).trans <|
    setRes64_progress ..

theorem stereoResults_progress {f : Footprint} (sums : StereoSums) (n : Nat) (s : State) :
    Progress f s (stereoResults sums n s) := by
  refine (setRes64_progress ..).trans <| (setRes_progress ..).trans <| (setRes64_progress ..).trans <|
    (setRes64_progress ..).trans <| (setRes64_progress ..).trans <| setRes64_progress ..

theorem clearResults_progress {f : Footprint} (s : State) : Progress f s (clearResults s) := by
  refine (setRes_progress ..).trans <| (setRes_progress ..).trans <| (setRes_progress ..).trans <|
    (setRes_progress ..).trans <| (setRes_progress ..).trans <| setRes_progress ..

theorem frameResults_progress {f : Footprint} (mode : StereoMode) (s : State) :
    Progress f s (frameResults mode s) := by
  refine (setRes_progress ..).trans <| (setRes_progress ..).trans <| (setRes_progress ..).trans <| setRes_progress ..

theorem runStChoose_keeps {f : Footprint} (s : State) : (runStChoose s).Keeps f s := by
  unfold runStChoose
  split; · exact keeps_error s raised_invalidOperand
  exact withEntries_keeps fun _ => withEntries_keeps fun _ => stereoResults_progress ..

theorem transformCount_of_ne {mode : StereoMode} (h : mode ≠ .leftRight) (n : Nat) : transformCount mode n = n := by
  simp [transformCount, h]

theorem runStTransform_keeps (mode : StereoMode) (s : State) :
    (runStTransform mode s).Keeps (footStTransform mode s) s := by
  unfold runStTransform
  split; · exact keeps_error s raised_invalidOperand
  next hn =>
  refine withEntries_keeps fun _ => withEntries_keeps fun _ => ?_
  have hl : legalSamples (sampleCount s) = true := by simpa using hn
  have side (f : Footprint) (hf : ∀ a, (entriesFootprint .side (sampleCount s)).Covers a → f.Covers a)
      (m : Memory) (l r : List Int) (hlen : (List.zipWith sideOf l r).length = sampleCount s) :
      WritesOnly f.Covers m (writeEntries .side 0 (List.zipWith sideOf l r) m) :=
    (writeEntries_within ..).imp fun a ha => hf a ((covers_entries hl a).mpr (hlen ▸ ha))
  cases mode with
  | leftRight => exact keeps_ok s
  | leftSide => exact ⟨rfl, ⟨[], by simp⟩, id, id, side _ (fun _ h => h) _ _ _ (by simp [transformCount])⟩
  | sideRight => exact ⟨rfl, ⟨[], by simp⟩, id, id, side _ (fun _ h => h) _ _ _ (by simp [transformCount])⟩
  | midSide =>
    refine ⟨rfl, ⟨[], by simp⟩, id, id, .trans (side _ (fun a h => covers_append.mpr (.inl h)) _ _ _
      (by simp [transformCount])) ((writeEntries_within ..).imp fun a ha =>
        covers_append.mpr (.inr ((covers_entries hl a).mpr ?_)))⟩
    simpa [transformCount] using ha

theorem chooseFixed_keeps {f : Footprint} {ss n p : Nat} {xs : List Int} (s : State) (hx : xs.length = n)
    (hl : legalSamples n = true) (hf : ∀ a, (entriesFootprint .resp n).Covers a → f.Covers a) :
    (chooseFixed ss n p xs s).Keeps f s := by
  unfold chooseFixed
  split; · exact keeps_error s raised_residualRange
  exact (writeEntries_progress s (by simpa [hx] using hl) (by simpa [hx] using hf)).trans <|
    (setRes_progress ..).trans <| (setChoice_progress ..).trans <| (setRes64_progress ..).trans <| setRes_progress ..

theorem runSfChoose_keeps {f : Footprint} (pl : Plane) (ss : Nat) (s : State)
    (hf : ∀ a, (footSubframe s).Covers a → f.Covers a) : (runSfChoose pl ss s).Keeps f s := by
  unfold runSfChoose
  split; · exact keeps_error s raised_invalidOperand
  next hn =>
  have hl : legalSamples (sampleCount s) = true := by simpa using hn
  refine withEntries_keeps fun _ => ?_
  refine Run.Keeps.andThen (r := .ok (clearResults s)) (clearResults_progress s) (g := chooseOver _ _ _) fun t _ => ?_
  unfold chooseOver
  simp only
  split; · exact (setRes_progress ..).trans (setRes64_progress ..)
  split; · exact setRes_progress ..
  split; · exact setRes_progress ..
  exact chooseFixed_keeps t (by simp) hl hf

theorem emitChosen_keeps {f : Footprint} (pl : Plane) (ss n : Nat) (s : State) : (emitChosen pl ss n s).Keeps f s := by
  unfold emitChosen
  split
  · split
    · trivial
    · exact emitConstant_keeps ..
  · split
    · exact emitVerbatim_keeps ..
    · split
      · next h => exact keeps_error s (residualSectionError_raised h)
      · exact emitFixed_keeps ..

theorem runSfEncode_keeps {f : Footprint} (pl : Plane) (ss : Nat) (s : State)
    (hf : ∀ a, (footSubframe s).Covers a → f.Covers a) : (runSfEncode pl ss s).Keeps f s :=
  (runSfChoose_keeps pl ss s hf).andThen fun _ _ => emitChosen_keeps ..

theorem runBwWriteCrc16_keeps {f : Footprint} (s : State) : (runBwWriteCrc16 s).Keeps f s :=
  (emitFlush_keeps s).andThen fun t _ => emitFooter_keeps t

theorem Progress.args {f : Footprint} {s t : State} (h : Progress f s t) : t.args = s.args := by rw [h.rest]
theorem Progress.channels {f : Footprint} {s t : State} (h : Progress f s t) : t.channels = s.channels := by
  rw [h.rest]
theorem Progress.bits {f : Footprint} {s t : State} (h : Progress f s t) : t.bits = s.bits := by rw [h.rest]
theorem Progress.rate {f : Footprint} {s t : State} (h : Progress f s t) : t.rate = s.rate := by rw [h.rest]
theorem Progress.sumStart {f : Footprint} {s t : State} (h : Progress f s t) : t.sumStart = s.sumStart := by
  rw [h.rest]

theorem Progress.sampleCount {f : Footprint} {s t : State} (h : Progress f s t) : sampleCount t = sampleCount s := by
  simp [Machine.sampleCount, arg, h.args]
theorem Progress.operandNum {f : Footprint} {s t : State} (h : Progress f s t) : operandNum t = operandNum s := by
  simp [Machine.operandNum, arg64, arg, h.args]
theorem Progress.channelCount {f : Footprint} {s t : State} (h : Progress f s t) :
    channelCount t = channelCount s := by simp [Machine.channelCount, h.channels]
theorem Progress.bitDepth {f : Footprint} {s t : State} (h : Progress f s t) : bitDepth t = bitDepth s := by
  simp [Machine.bitDepth, h.bits]
theorem Progress.sampleRate {f : Footprint} {s t : State} (h : Progress f s t) : sampleRate t = sampleRate s := by
  simp [Machine.sampleRate, h.rate]
theorem Progress.formatSupported {f : Footprint} {s t : State} (h : Progress f s t) :
    formatSupported t = formatSupported s := by
  simp [Machine.formatSupported, h.channelCount, h.bitDepth]

theorem encodeSubframes_keeps {f : Footprint} (fs : List (Plane × Nat)) (s : State)
    (hf : ∀ a, (footSubframe s).Covers a → f.Covers a) : (encodeSubframes fs s).Keeps f s := by
  induction fs generalizing s with
  | nil => exact keeps_ok s
  | cons g gs ih =>
    have h := runSfEncode_keeps g.1 g.2 s hf
    refine h.andThen fun t ht => ih t ?_
    rw [ht] at h
    simpa [footSubframe, Progress.sampleCount h] using hf

theorem frameStereo_keeps {f : Footprint} (s : State) : (frameStereo s).Keeps f s := by
  unfold frameStereo
  split
  · exact runStChoose_keeps s
  · exact keeps_ok s

theorem footStTransform_frame {mode : StereoMode} {s : State} (h : channelCount s = 2 ∧ stereoOperand s = true)
    (a : Nat) (ha : (footStTransform mode s).Covers a) : (footFrame s).Covers a := by
  simp only [footFrame, if_pos h]
  cases mode with
  | leftRight => exact (covers_nil a ha).elim
  | leftSide => exact covers_append.mpr (.inl (covers_append.mpr (.inl ha)))
  | sideRight => exact covers_append.mpr (.inl (covers_append.mpr (.inl ha)))
  | midSide => exact covers_append.mpr (.inl ha)

theorem footSubframe_frame {s : State} (a : Nat) (ha : (footSubframe s).Covers a) : (footFrame s).Covers a := by
  unfold footFrame
  split
  · exact covers_append.mpr (.inr ha)
  · exact ha

theorem Progress.stereoOperand {f : Footprint} {s t : State} (h : Progress f s t) :
    stereoOperand t = stereoOperand s := by
  rw [h.rest]; rfl

theorem frameMode_leftRight {s : State} (h : ¬(channelCount s = 2 ∧ stereoOperand s = true)) :
    frameMode s = .leftRight := by simp only [frameMode, if_neg h]

theorem runFrameEncode_keeps (var : Bool) (s : State) : (runFrameEncode var s).Keeps (footFrame s) s := by
  unfold runFrameEncode
  split; · exact keeps_error s raised_unsupportedFormat
  split; · exact keeps_error s raised_bwUnaligned
  split; · exact keeps_error s raised_invalidOperand
  split; · exact keeps_error s raised_invalidOperand
  have h1 := frameStereo_keeps (f := footFrame s) s
  refine h1.andThen fun t ht => ?_
  rw [ht] at h1
  have h1 : Progress (footFrame s) s t := h1
  have e : footFrame t = footFrame s := by
    simp [footFrame, h1.channelCount, h1.stereoOperand, h1.sampleCount]
  rw [← e]
  unfold frameBody
  have h2 : (frameTransform (frameMode t) t).Keeps (footFrame t) t := by
    unfold frameTransform
    split
    · exact keeps_ok t
    · next hm =>
      refine (runStTransform_keeps (frameMode t) t).imp (footStTransform_frame ?_)
      exact Classical.not_not.mp fun h => hm (frameMode_leftRight h)
  refine (((((h2.andThen fun u _ => runBwWriteFrameHeader_keeps ..).andThen fun u hu => ?_).andThen
    fun u _ => emitFlush_keeps u).andThen fun u _ => runBwWriteCrc16_keeps u).andThen
    fun u _ => frameResults_progress ..)
  have h3 := h2.andThen fun u _ =>
    runBwWriteFrameHeader_keeps var (frameAssignment (frameMode t) (channelCount u)) u
  rw [hu] at h3
  have h3 : Progress (footFrame t) t u := h3
  refine encodeSubframes_keeps _ u fun a ha => ?_
  refine footSubframe_frame a ?_
  simpa [footSubframe, h3.sampleCount] using ha

/-- What every command's pseudocode keeps. -/
theorem runInstr_keeps (i : Instr) (s : State) : (runInstr i s).Keeps (footprintOf i s) s := by
  cases i with
  | nop => exact keeps_ok s
  | bwCrcReset =>
    simp only [runInstr, runBwCrcReset]
    split
    · exact keeps_error s raised_bwUnaligned
    · exact clearSpan_progress s
  | bwWriteBits n7 =>
    simp only [runInstr, runBwWriteBits]
    split
    · exact keeps_error s raised_invalidOperand
    · exact emitBits_keeps ..
  | bwWriteBitsWrapped n7 => exact emitBits_keeps ..
  | bwWriteUnary =>
    simp only [runInstr, runBwWriteUnary]
    split
    · exact keeps_error s raised_invalidOperand
    · exact emitUnary_keeps ..
  | bwFlush => exact emitFlush_keeps s
  | bwWriteCrc8 =>
    simp only [runInstr, runBwWriteCrc8]
    split
    · exact keeps_error s raised_bwUnaligned
    · exact emitByte_keeps ..
  | bwWriteCrc16 => exact runBwWriteCrc16_keeps s
  | bwWriteConstant ss => exact emitConstant_keeps ..
  | bwWriteVerbatim pl ss =>
    simp only [runInstr, runBwWriteVerbatim]
    split
    · exact keeps_error s raised_invalidOperand
    · exact emitVerbatim_keeps ..
  | bwWriteFixed ord ss =>
    simp only [runInstr, runBwWriteFixed]
    split
    · exact keeps_error s raised_invalidOperand
    · split
      · next h => exact keeps_error s (residualSectionError_raised h)
      · exact emitFixed_keeps ..
  | bwWriteFrameHeader var ca => exact runBwWriteFrameHeader_keeps ..
  | fpBestOrder pl cr =>
    simp only [runInstr, runFpBestOrder]
    split
    · exact keeps_error s raised_invalidOperand
    · exact withEntries_keeps fun _ => bestOrderResults_progress ..
  | fpResiduals pl ord =>
    simp only [runInstr, runFpResiduals]
    split
    · exact keeps_error s raised_invalidOperand
    · next hn =>
      refine withEntries_keeps fun _ => ?_
      split
      · exact keeps_error s raised_residualRange
      · exact writeEntries_progress s (by simpa using hn) (by simp [footprintOf, footFpResiduals])
  | rcZigzag => exact setRes64_progress ..
  | rcWriteRice k =>
    simp only [runInstr, runRcWriteRice]
    split
    · exact keeps_error s raised_paramEscape
    · exact emitRice_keeps ..
  | rcOptimise ord umax maxk =>
    simp only [runInstr, runRcOptimise]
    split
    · exact keeps_error s raised_invalidOperand
    · split
      · exact keeps_error s raised_invalidOperand
      · exact withEntries_keeps fun _ =>
          (setChoice_progress ..).trans ((setRes64_progress ..).trans (setRes_progress ..))
  | rcEstimate =>
    simp only [runInstr, runRcEstimate]
    split
    · exact keeps_error s raised_invalidOperand
    · exact (setRes64_progress ..).trans (setRes_progress ..)
  | rcWriteResiduals ord =>
    simp only [runInstr, runRcWriteResiduals]
    split
    · exact keeps_error s raised_invalidOperand
    · split
      · next h => exact keeps_error s (residualSectionError_raised h)
      · exact emitResidualSection_keeps ..
  | stChoose => exact runStChoose_keeps s
  | stTransform mode => exact runStTransform_keeps mode s
  | sfChoose pl ss => exact runSfChoose_keeps pl _ s fun _ h => h
  | sfEncode pl ss => exact runSfEncode_keeps pl _ s fun _ h => h
  | frameEncode var => exact runFrameEncode_keeps var s

end Sys2Proof.Machine
end

