-- ==== Sys2Proof/Laws/Step.lean ====
section
/-! SUPPORT. Everything a step can do: how an issued command ends, what an interrupted one leaves, and the cases of a
host event and of a step. -/

namespace Sys2Proof.Machine

/-! ### How an issued command ends -/

/-- An issued command is its pseudocode and its end (spec/60_exceptions.md R366). -/
theorem exec_eq (i : Instr) (s : State) : exec i s = finish (footprintOf i s) (runInstr i s) := by cases i <;> rfl

theorem finish_next {f : Footprint} {r : Run} {t : State} (h : finish f r = .next t) :
    (∃ u, r = .ok u ∧ t = complete u) ∨
    (∃ c u, r = .error c u ∧ c ≠ .writeFailed ∧ t = errorEntry c u) ∨
    (∃ u, r = .error .writeFailed u ∧ t = errorEntry .writeFailed (scrambleRegisters (scramblePlanes f u))) := by
  cases r with
  | ok u => exact .inl ⟨u, rfl, by simpa [finish] using h.symm⟩
  | error c u =>
    by_cases hc : c = .writeFailed
    · subst hc
      exact .inr (.inr ⟨u, rfl, by simpa [finish] using h.symm⟩)
    · refine .inr (.inl ⟨c, u, rfl, hc, ?_⟩)
      cases c <;> first | exact absurd rfl hc | simpa [finish] using h.symm
  | fault g => simp [finish] at h

theorem finish_ok {f : Footprint} (u : State) : finish f (.ok u) = .next (complete u) := rfl

theorem finish_error {f : Footprint} {c : ErrorCode} (u : State) (hc : c ≠ .writeFailed) :
    finish f (.error c u) = .next (errorEntry c u) := by
  cases c <;> first | exact absurd rfl hc | rfl

theorem finish_not_refused {f : Footprint} {r : Run} {x : Refusal} : finish f r ≠ .refused x := by
  cases r with
  | ok u => simp [finish]
  | error c u => cases c <;> simp [finish]
  | fault g => simp [finish]

theorem scrambleBytes_only (s : State) (k a n : Nat) (m : Memory) :
    WritesWithin a (a + n) m (scrambleBytes s k a n m) := by
  induction n generalizing k a m with
  | zero => exact .refl ..
  | succ n ih =>
    exact .trans ((writeByte_within ..).mono (le_refl _) (by omega)) ((ih ..).mono (by omega) (by omega))

theorem scrambleFootprint_only (s : State) (k : Nat) (f : Footprint) (m : Memory) :
    WritesOnly f.Covers m (scrambleFootprint s k f m) := by
  induction f generalizing k m with
  | nil => exact .refl ..
  | cons r f ih =>
    refine .trans ((scrambleBytes_only s k r.1 r.2 m).imp fun a ha => ⟨r, List.mem_cons_self, ha⟩)
      ((ih ..).imp fun a ⟨x, hx, ha⟩ => ⟨x, List.mem_cons_of_mem _ hx, ha⟩)

theorem scrambleRegisters_pending (s : State) : (scrambleRegisters s).acc.toNat < 2 ^ (scrambleRegisters s).nb.toNat := by
  simp only [scrambleRegisters, BitVec.toNat_ofNat]
  exact lt_of_le_of_lt (Nat.mod_le ..) (Nat.mod_lt _ (by positivity))

/-- Everything the end of an issued command may have changed since its acceptance. -/
structure Ended (f : Footprint) (s t : State) : Prop where
  rest : t = { s with
    engine := .idle, done := t.done, err := t.err, errCode := t.errCode
    method := t.method, porder := t.porder, param := t.param, res := t.res
    crc8 := t.crc8, crc16 := t.crc16, bytesWritten := t.bytesWritten
    nb := t.nb, acc := t.acc, mem := t.mem, out := t.out, sink := t.sink, draws := t.draws }
  status : (t.done = true ∧ t.err = s.err ∧ t.errCode = s.errCode) ∨
    ∃ c : ErrorCode, c.Raised ∧ t.done = s.done ∧ t.err = true ∧ t.errCode = if s.err then s.errCode else c
  out : ∃ bs, t.out = s.out ++ bs
  span : s.SpanCovered → t.SpanCovered
  pending : s.acc.toNat < 2 ^ s.nb.toNat → t.acc.toNat < 2 ^ t.nb.toNat
  mem : WritesOnly f.Covers s.mem t.mem

theorem finish_ended {f : Footprint} {s t : State} {r : Run} (hr : r.Keeps f s) (h : finish f r = .next t) :
    Ended f s t := by
  rcases finish_next h with ⟨u, rfl, rfl⟩ | ⟨c, u, rfl, hc, rfl⟩ | ⟨u, rfl, rfl⟩
  · have hu : Progress f s u := hr
    refine ⟨?_, .inl ⟨rfl, ?_, ?_⟩, hu.out, hu.span, hu.pending, hu.mem⟩
    · rw [hu.rest]; rfl
    · rw [hu.rest]; rfl
    · rw [hu.rest]; rfl
  · obtain ⟨hraise, hu⟩ := hr
    refine ⟨?_, .inr ⟨c, hraise, ?_, rfl, ?_⟩, hu.out, hu.span, hu.pending, hu.mem⟩
    · rw [hu.rest]; rfl
    · rw [hu.rest]; rfl
    · rw [hu.rest]; rfl
  · obtain ⟨hraise, hu⟩ := hr
    refine ⟨?_, .inr ⟨.writeFailed, hraise, ?_, rfl, ?_⟩, hu.out, hu.span, fun _ => ?_,
      hu.mem.trans (scrambleFootprint_only ..)⟩
    · rw [hu.rest]; rfl
    · rw [hu.rest]; rfl
    · rw [hu.rest]; rfl
    · exact scrambleRegisters_pending _

theorem exec_ended {i : Instr} {s t : State} (h : exec i s = .next t) : Ended (footprintOf i s) s t :=
  finish_ended (runInstr_keeps i s) (exec_eq i s ▸ h)

theorem exec_not_refused (i : Instr) (s : State) (x : Refusal) : exec i s ≠ .refused x := by
  rw [exec_eq]
  exact finish_not_refused

/-- Every plane byte a command's rule writes lies in MID, RESP or SIDE (spec/70_reset_and_hazards.md R415). -/
theorem entriesFootprint_bounds {pl : Plane} {n a : Nat} (h : (entriesFootprint pl n).Covers a) :
    planeBase pl ≤ a ∧ a < planeBase pl + 65536 * entryBytes pl := by
  unfold entriesFootprint at h
  split at h
  · next hn =>
    obtain ⟨r, hr, h1, h2⟩ := h
    simp only [List.mem_singleton] at hr
    subst hr
    have hn := of_decide_eq_true hn
    simp only [Config.maxSamples] at hn
    refine ⟨h1, lt_of_lt_of_le h2 ?_⟩
    have := Nat.mul_le_mul_left (entryBytes pl) hn.2
    simp only at this ⊢
    omega
  · exact (covers_nil _ h).elim

theorem footprintOf_bounds {i : Instr} {s : State} {a : Nat} (h : (footprintOf i s).Covers a) :
    0x300000 ≤ a ∧ a < 0x400000 := by
  have key (pl : Plane) (n : Nat) (hp : 0x300000 ≤ planeBase pl) (h : (entriesFootprint pl n).Covers a) :
      0x300000 ≤ a ∧ a < 0x400000 := by
    have h1 := entriesFootprint_bounds h
    have h2 := planeBase_bounds pl
    omega
  have resp := key .resp (sampleCount s) (by decide)
  have mid := key .mid (sampleCount s) (by decide)
  have side := key .side (sampleCount s) (by decide)
  cases i with
  | fpResiduals _ _ => exact resp h
  | sfChoose _ _ => exact resp h
  | sfEncode _ _ => exact resp h
  | stTransform mode =>
    cases mode with
    | leftRight => exact (covers_nil _ h).elim
    | leftSide => exact side h
    | sideRight => exact side h
    | midSide => exact (covers_append.mp h).elim side mid
  | frameEncode _ =>
    simp only [footprintOf, footFrame] at h
    split at h
    · rcases covers_append.mp h with h | h
      · exact (covers_append.mp h).elim side mid
      · exact resp h
    · exact resp h
  | _ => exact (covers_nil _ h).elim

/-! ### The engine -/

theorem engineStep_ended {w : Word} {s t : State} (h : engineStep w s = .next t) :
    (decode w = none ∧ t = errorEntry .illegalCommand s) ∨
      ∃ i, decode w = some i ∧ exec i s = .next t := by
  unfold engineStep at h
  split at h
  · next hd => exact .inl ⟨hd, by simpa using h.symm⟩
  · next i hd => exact .inr ⟨i, hd, h⟩

/-! ### An interrupted command -/

theorem wordFootprint_bounds {w : Word} {s : State} {a : Nat} (h : (wordFootprint w s).Covers a) :
    0x300000 ≤ a ∧ a < 0x400000 := by
  unfold wordFootprint at h
  split at h
  · exact (covers_nil _ h).elim
  · exact footprintOf_bounds h

theorem stoppedAt_progress {w : Word} {s t : State} (h : stoppedAt w s = .ok t) :
    (∃ bs, t.out = s.out ++ bs) ∧ (s.SpanCovered → t.SpanCovered) := by
  unfold stoppedAt at h
  split at h
  · obtain rfl : s = t := by simpa using h
    exact ⟨⟨[], by simp⟩, id⟩
  · next i _ =>
    split at h
    · obtain rfl : s = t := by simpa using h
      exact ⟨⟨[], by simp⟩, id⟩
    · next k _ =>
      have hk := runInstr_keeps i { s with sink := cutSink k s }
      split at h
      · next u hu =>
        obtain rfl : u = t := by simpa using h
        rw [hu] at hk
        have hp : Progress _ _ u := hk
        exact ⟨hp.out, fun hs => hp.span hs⟩
      · next c u hu =>
        obtain rfl : u = t := by simpa using h
        rw [hu] at hk
        exact ⟨hk.2.out, fun hs => hk.2.span hs⟩
      · simp at h

/-- Everything the end of an interrupted command may have changed. -/
structure Interrupted (f : Footprint) (s t : State) : Prop where
  rest : t = { s with
    crc8 := t.crc8, crc16 := t.crc16, bytesWritten := t.bytesWritten
    mem := t.mem, out := t.out, sink := t.sink, draws := t.draws }
  out : ∃ bs, t.out = s.out ++ bs
  span : s.SpanCovered → t.SpanCovered
  mem : WritesOnly f.Covers s.mem t.mem

theorem inProgress_bounds {s : State} {a : Nat} (h : (inProgress s).Covers a) : 0x300000 ≤ a ∧ a < 0x400000 := by
  unfold inProgress at h
  split at h
  · exact (covers_nil _ h).elim
  · exact wordFootprint_bounds h

theorem interrupt_idle {s : State} (h : s.engine = .idle) : interrupt s = .ok s := by simp [interrupt, h]

theorem interrupt_ok {s t : State} (h : interrupt s = .ok t) : Interrupted (inProgress s) s t := by
  unfold interrupt at h
  split at h
  · obtain rfl : s = t := by simpa using h
    exact ⟨rfl, ⟨[], by simp⟩, id, .refl ..⟩
  · next w st he =>
    split at h
    · simp at h
    · next u hu =>
      obtain rfl : scramblePlanes (wordFootprint w s) (keepOutput s u) = t := by simpa using h
      obtain ⟨ho, hs⟩ := stoppedAt_progress hu
      refine ⟨rfl, by simpa using ho, fun h => ?_, ?_⟩
      · obtain ⟨b, p, h1, h2, h3, h4⟩ := hs h
        exact ⟨b, p, h1, h2, h3, h4⟩
      · simpa [inProgress, he] using scrambleFootprint_only _ 0 (wordFootprint w s) s.mem

/-! ### Host events -/

theorem hostAccessError_next {s t : State} (h : hostAccessError s = .next t) :
    ∃ u, interrupt s = .ok u ∧ t = errorEntry .hostAccess (if busy s then scrambleRegisters u else u) := by
  unfold hostAccessError at h
  split at h
  · simp at h
  · next u hu => exact ⟨u, hu, by simpa using h.symm⟩

theorem softReset_next {s t : State} (h : softReset s = .next t) :
    ∃ u, interrupt s = .ok u ∧ t = resetRegisters u := by
  unfold softReset at h
  split at h
  · simp at h
  · next u hu => exact ⟨u, hu, by simpa using h.symm⟩

theorem hardReset_next {s t : State} (h : hardReset s = .next t) :
    ∃ u, interrupt s = .ok u ∧ t = forgetPlanes (resetRegisters u) := by
  unfold hardReset at h
  split at h
  · simp at h
  · next u hu => exact ⟨u, hu, by simpa using h.symm⟩

/-- Everything a host or platform event can do. -/
inductive HostMoved (s : State) : State → Prop
  /-- a read that is not refused -/
  | read (v : Word) (d : Nat) : HostMoved s { s with readData := v, draws := d }
  /-- a refused access -/
  | refused (u v : State) (hu : u = s ∨ u = returns 0 s) (hv : interrupt u = .ok v) :
      HostMoved s (errorEntry .hostAccess (if busy u then scrambleRegisters v else v))
  /-- a write to CTRL, STATUS, FMT, RICE_CFG, ARG or PARAM, or one that is ignored -/
  | register (t : State)
      (ht : t = { s with
        irqEn := t.irqEn, stereoEn := t.stereoEn, done := t.done, channels := t.channels, bits := t.bits
        rate := t.rate, method := t.method, porder := t.porder, param := t.param, args := t.args })
      (hd : s.done = false → t.done = false) : HostMoved s t
  /-- a command accepted -/
  | issued (w : Word) (hi : s.engine = .idle) (he : s.err = false) :
      HostMoved s { s with done := false, engine := .busy w s.stereoEn }
  /-- a write to a plane -/
  | plane (a : Nat) (v : Word) (hi : s.engine = .idle) (ha : 0x100000 ≤ a ∧ a < 0x400000 ∧ a % 4 = 0) :
      HostMoved s { s with mem := s.mem.writeWord a v }
  | softReset (v : Word) (u : State) (hu : interrupt s = .ok u) : HostMoved s (resetRegisters u)
  | hardReset (u : State) (hu : interrupt s = .ok u) : HostMoved s (forgetPlanes (resetRegisters u))

theorem locate_plane {offset : BitVec 22} {width a : Nat} (h : locate offset width = some (.plane a)) :
    0x100000 ≤ a ∧ a < 0x400000 ∧ a % 4 = 0 := by
  unfold locate at h
  simp only at h
  have := offset.isLt
  split at h
  · simp at h
  · split at h
    · cases hr : regAtWord (offset.toNat / 4) <;> simp [hr] at h
    · split at h
      · simp at h
      · obtain rfl : offset.toNat = a := by simpa using h
        omega

theorem busy_eq_false {s : State} : busy s = false ↔ s.engine = .idle := by
  unfold busy; split <;> simp_all

theorem busy_eq_true {s : State} : busy s = true ↔ ∃ w st, s.engine = .busy w st := by
  unfold busy; split <;> simp_all

theorem refused_moved {s u t : State} (hu : u = s ∨ u = returns 0 s) (h : hostAccessError u = .next t) :
    HostMoved s t := by
  obtain ⟨v, hv, rfl⟩ := hostAccessError_next h
  exact .refused u v hu hv

theorem writeCtrl_moved {v : Word} {s t : State} (h : writeCtrl v s = .next t) : HostMoved s t := by
  unfold writeCtrl at h
  split at h
  · obtain ⟨u, hu, rfl⟩ := softReset_next h
    exact .softReset v u hu
  · obtain rfl : setCtrl v s = t := by simpa using h
    exact .register _ rfl id

theorem setStatus_moved (v : Word) (s : State) : HostMoved s (setStatus v s) :=
  .register _ rfl fun h => by simp [h]

theorem unchanged_moved (s : State) : HostMoved s s := .register s rfl id

theorem hostEvent_moved {e : HostEvent} {s t : State} (h : hostEvent e s = .next t) : HostMoved s t := by
  cases e with
  | hardReset =>
    obtain ⟨u, hu, rfl⟩ := hardReset_next h
    exact .hardReset u hu
  | read offset width =>
    simp only [hostEvent, hostRead] at h
    split at h
    · exact refused_moved (.inr rfl) h
    · next r _ =>
      obtain rfl : readReg r s = t := by simpa using h
      unfold readReg
      split
      · exact .read ..
      · split
        · exact .read ..
        · exact .read _ s.draws
    · split at h
      · exact refused_moved (.inr rfl) h
      · next a _ _ =>
        obtain rfl : readPlane a s = t := by simpa using h
        unfold readPlane
        split
        · exact .read _ s.draws
        · exact .read ..
  | write offset width v =>
    simp only [hostEvent, hostWrite] at h
    split at h
    · exact refused_moved (.inl rfl) h
    · next r _ =>
      split at h
      · cases r <;> simp only [writeRegBusy] at h
        case ctrl => exact writeCtrl_moved h
        case status =>
          obtain rfl : setStatus v s = t := by simpa using h
          exact setStatus_moved v s
        all_goals exact refused_moved (.inl rfl) h
      · next hb =>
        have hi := busy_eq_false.mp (Bool.eq_false_iff.mpr hb)
        cases r with
        | ctrl => exact writeCtrl_moved h
        | status =>
          obtain rfl : setStatus v s = t := by simpa [writeReg] using h
          exact setStatus_moved v s
        | cmd =>
          obtain rfl : issue v s = t := by simpa [writeReg] using h
          unfold issue
          split
          · exact unchanged_moved s
          · next he => exact .issued v hi (by simpa using he)
        | fmt =>
          obtain rfl : setFmt v s = t := by simpa [writeReg] using h
          exact .register _ rfl id
        | riceCfg =>
          obtain rfl : setRiceCfg v s = t := by simpa [writeReg] using h
          exact .register _ rfl id
        | arg i =>
          obtain rfl : { s with args := s.args.set i v } = t := by simpa [writeReg] using h
          exact .register _ rfl id
        | param j =>
          obtain rfl : { s with param := s.param.set j (v.setWidth 5) } = t := by simpa [writeReg] using h
          exact .register _ rfl id
        | _ =>
          obtain rfl : s = t := by simpa [writeReg] using h
          exact unchanged_moved s
    · next a hloc =>
      split at h
      · exact refused_moved (.inl rfl) h
      · next hb =>
        obtain rfl : { s with mem := s.mem.writeWord a v } = t := by simpa using h
        exact .plane a v (busy_eq_false.mp (Bool.eq_false_iff.mpr hb)) (locate_plane hloc)

/-! ### A step -/

/-- Everything a step can do. -/
theorem step_cases {s t : State} (h : step s = .next t) :
    (∃ ts, t = { s with turns := ts }) ∨
    (∃ e es ts, s.host = e :: es ∧ hostEvent e { s with host := es, turns := ts } = .next t) ∨
    (∃ w st ts, s.engine = .busy w st ∧ engineStep w { s with turns := ts } = .next t) := by
  have host (ts : List Turn) (h : hostStep { s with turns := ts } = .next t) :
      (∃ ts, t = { s with turns := ts }) ∨
      (∃ e es ts, s.host = e :: es ∧ hostEvent e { s with host := es, turns := ts } = .next t) := by
    unfold hostStep at h
    split at h
    · exact .inl ⟨ts, by simpa using h.symm⟩
    · next e es he => exact .inr ⟨e, es, ts, he, h⟩
  unfold step at h
  split at h
  · exact (host s.turns h).imp id .inl
  · next w st he =>
    unfold busyStep at h
    split at h
    · exact .inr (.inr ⟨w, st, s.turns, he, h⟩)
    · next ts _ => exact .inr (.inr ⟨w, st, ts, he, h⟩)
    · next ts _ => exact .inl ⟨ts, by simpa using h.symm⟩
    · next ts _ => exact (host ts h).imp id .inl

end Sys2Proof.Machine
end

