-- ==== Sys2Proof/Laws/Results.lean ====
section
/-! SUPPORT. Updates that change nothing but result registers, and what those registers then hold
(spec/00_scope.md R13). -/

namespace Sys2Proof.Machine

/-- `t` is `s` but for its result registers. -/
def ResOnly (s t : State) : Prop := t = { s with res := t.res }

theorem ResOnly.refl (s : State) : ResOnly s s := rfl

theorem ResOnly.trans {s t u : State} (h : ResOnly s t) (h' : ResOnly t u) : ResOnly s u := by
  unfold ResOnly at *
  rw [h'] at *
  rw [h]

theorem setRes_resOnly (i : Nat) (v : Word) (s : State) : ResOnly s (setRes i v s) := rfl

theorem setRes64_resOnly (i : Nat) (v : DWord) (s : State) : ResOnly s (setRes64 i v s) := rfl

/-- A command that only wrote result registers completes. -/
theorem ResOnly.completes {f : Footprint} {s t : State} (h : ResOnly s t) :
    finish f (.ok t) = .next { s with res := t.res }.completed := by
  show Host.Outcome.next (complete t) = _
  conv_lhs => rw [h]
  rfl

theorem bestOrderResults_resOnly (cr : Bool) (xs : List Int) (s : State) : ResOnly s (bestOrderResults cr xs s) := by
  unfold bestOrderResults
  exact (((((((setRes64_resOnly ..).trans (setRes_resOnly ..)).trans (setRes64_resOnly ..)).trans
    (setRes64_resOnly ..)).trans (setRes64_resOnly ..)).trans (setRes64_resOnly ..)).trans (setRes64_resOnly ..))

theorem stereoResults_resOnly (sums : StereoSums) (n : Nat) (s : State) : ResOnly s (stereoResults sums n s) := by
  unfold stereoResults
  exact (((((setRes64_resOnly ..).trans (setRes_resOnly ..)).trans (setRes64_resOnly ..)).trans
    (setRes64_resOnly ..)).trans (setRes64_resOnly ..)).trans (setRes64_resOnly ..)

theorem getRes_setRes (i j : Nat) (hj : j < 16) (v : Word) (s : State) :
    getRes j (setRes i v s) = if i = j then v else getRes j s := by
  rw [show getRes j (setRes i v s) = (setRes i v s).res[j] from getRes_eq _ ⟨j, hj⟩,
    show getRes j s = s.res[j] from getRes_eq _ ⟨j, hj⟩, setRes_res, Vector.getElem_setIfInBounds hj]

theorem getRes_setRes64 (i j : Nat) (hj : j < 16) (v : DWord) (s : State) :
    getRes j (setRes64 i v s) =
      if i + 1 = j then v.extractLsb' 32 32 else if i = j then v.extractLsb' 0 32 else getRes j s := by
  rw [setRes64, getRes_setRes _ _ hj, getRes_setRes _ _ hj]

/-- Six 64-bit results and one word, as FP_BEST_ORDER writes them, read back. -/
theorem read_sums (s : State) (w : Word) (b b0 b1 b2 b3 b4 : DWord) :
    let r := (setRes64 12 b4 (setRes64 10 b3 (setRes64 8 b2 (setRes64 6 b1 (setRes64 4 b0 (setRes 2 w
      (setRes64 0 b s))))))).res
    r[1] ++ r[0] = b ∧ r[2] = w ∧ r[5] ++ r[4] = b0 ∧ r[7] ++ r[6] = b1 ∧ r[9] ++ r[8] = b2 ∧ r[11] ++ r[10] = b3 ∧
    r[13] ++ r[12] = b4 ∧ r[3] = s.res[3] ∧ r[14] = s.res[14] ∧ r[15] = s.res[15] := by
  simp [dword_of_words]

/-- The registers FP_BEST_ORDER writes (spec/43_fixed_predictor.md R240). -/
theorem bestOrderResults_res (cr : Bool) (xs : List Int) (s : State) :
    let r := (bestOrderResults cr xs s).res
    let sum := fun p => BitVec.ofNat 64 (orderSum s.sumStart cr p xs)
    r[1] ++ r[0] = sum (leastSumOrder s.sumStart cr xs) ∧
    r[2] = (match bestOrder s.sumStart cr xs with | none => 0xFFFFFFFF#32 | some p => BitVec.ofNat 32 p) ∧
    r[5] ++ r[4] = sum 0 ∧ r[7] ++ r[6] = sum 1 ∧ r[9] ++ r[8] = sum 2 ∧ r[11] ++ r[10] = sum 3 ∧
    r[13] ++ r[12] = sum 4 ∧ r[3] = s.res[3] ∧ r[14] = s.res[14] ∧ r[15] = s.res[15] := read_sums s ..

/-- Five 64-bit results and one word, as ST_CHOOSE writes them, read back. -/
theorem read_scores (s : State) (w : Word) (e a b c d : DWord) :
    let r := (setRes64 10 d (setRes64 8 c (setRes64 6 b (setRes64 4 a (setRes 2 w (setRes64 0 e s)))))).res
    r[1] ++ r[0] = e ∧ r[2] = w ∧ r[5] ++ r[4] = a ∧ r[7] ++ r[6] = b ∧ r[9] ++ r[8] = c ∧ r[11] ++ r[10] = d ∧
    r[3] = s.res[3] ∧ ∀ j : Fin 16, 12 ≤ j.val → r[j] = s.res[j] := by
  simp only [setRes64_res, setRes_res]
  refine ⟨?_, ?_, ?_, ?_, ?_, ?_, ?_, fun j hj => ?_⟩
  iterate 7 simp [dword_of_words]
  obtain ⟨j, hj'⟩ := j
  simp only at hj
  simp only [Fin.getElem_fin, Vector.getElem_setIfInBounds hj']
  repeat' split
  all_goals first | rfl | omega

/-- The registers ST_CHOOSE writes (spec/46_stereo.md R325). -/
theorem stereoResults_res (sums : StereoSums) (n : Nat) (s : State) :
    let r := (stereoResults sums n s).res
    let score := stereoScore (stereoCost sums.left n) (stereoCost sums.right n) (stereoCost sums.mid n)
      (stereoCost sums.side n)
    r[1] ++ r[0] = score (firstLeast score 3) ∧ r[2] = BitVec.ofNat 32 (firstLeast score 3) ∧
    r[5] ++ r[4] = stereoCost sums.left n ∧ r[7] ++ r[6] = stereoCost sums.right n ∧
    r[9] ++ r[8] = stereoCost sums.mid n ∧ r[11] ++ r[10] = stereoCost sums.side n ∧ r[3] = s.res[3] ∧
    ∀ j : Fin 16, 12 ≤ j.val → r[j] = s.res[j] := read_scores s ..

theorem clearResults_resOnly (s : State) : ResOnly s (clearResults s) :=
  ((((setRes_resOnly ..).trans (setRes_resOnly ..)).trans (setRes_resOnly ..)).trans (setRes_resOnly ..)).trans
    (setRes_resOnly ..) |>.trans (setRes_resOnly ..)

/-- `RES[0..5]` after step 0 of spec/44_subframe.md R262, the others as they were. -/
theorem clearResults_res (s : State) (j : Fin 16) :
    (clearResults s).res[j] = if j.val < 6 then 0 else s.res[j] := by
  obtain ⟨j, hj⟩ := j
  simp only [clearResults, setRes_res, Fin.getElem_fin, Vector.getElem_setIfInBounds hj]
  repeat' split
  all_goals first | rfl | omega

end Sys2Proof.Machine
end

