-- ==== Sys2Proof/Laws/Search.lean ====
section
/-! SUPPORT. What the searches of the predictor, the Rice optimiser and the stereo estimator find. -/

namespace Sys2Proof.Machine

/-- The first least of 0..p (spec/43_fixed_predictor.md R235). -/
theorem leastOrder_spec (sum : Nat → Nat) (p : Nat) :
    leastOrder sum p ≤ p ∧ (∀ q ≤ p, sum (leastOrder sum p) ≤ sum q) ∧
      ∀ q < leastOrder sum p, sum (leastOrder sum p) < sum q := by
  induction p with
  | zero => simp [leastOrder]
  | succ p ih =>
    obtain ⟨h1, h2, h3⟩ := ih
    unfold leastOrder
    split
    · next h => exact ⟨le_rfl, fun q hq => by
        rcases Nat.lt_or_eq_of_le hq with hq | rfl
        · exact (h.trans_le (h2 q (by omega))).le
        · exact le_rfl, fun q hq => h.trans_le (h2 q (by omega))⟩
    · next h => exact ⟨by omega, fun q hq => by
        rcases Nat.lt_or_eq_of_le hq with hq | rfl
        · exact h2 q (by omega)
        · omega, h3⟩

/-- The first least of 0..m (spec/46_stereo.md R324). -/
theorem firstLeast_spec (score : Nat → DWord) (m : Nat) :
    firstLeast score m ≤ m ∧ (∀ q ≤ m, score (firstLeast score m) ≤ score q) ∧
      ∀ q < firstLeast score m, score (firstLeast score m) < score q := by
  induction m with
  | zero => simp [firstLeast, BitVec.le_def]
  | succ m ih =>
    obtain ⟨h1, h2, h3⟩ := ih
    simp only [BitVec.le_def, BitVec.lt_def, firstLeast] at *
    split
    · next h => exact ⟨le_rfl, fun q hq => by
        rcases Nat.lt_or_eq_of_le hq with hq | rfl
        · exact (h.trans_le (h2 q (by omega))).le
        · exact le_rfl, fun q hq => h.trans_le (h2 q (by omega))⟩
    · next h => exact ⟨by omega, fun q hq => by
        rcases Nat.lt_or_eq_of_le hq with hq | rfl
        · exact h2 q (by omega)
        · exact not_lt.mp h, h3⟩

/-- The last least of 0..P (spec/45_rice.md R289). -/
theorem lastLeast_spec (total : Nat → DWord) (P : Nat) :
    lastLeast total P ≤ P ∧ (∀ q ≤ P, total (lastLeast total P) ≤ total q) ∧
      ∀ q ≤ P, lastLeast total P < q → total (lastLeast total P) < total q := by
  induction P with
  | zero => exact ⟨le_rfl, fun q hq => by simp [Nat.le_zero.mp hq, lastLeast], fun q hq h => by omega⟩
  | succ P ih =>
    obtain ⟨h1, h2, h3⟩ := ih
    simp only [BitVec.le_def, BitVec.lt_def, lastLeast] at *
    split
    · next h => exact ⟨le_rfl, fun q hq => by
        rcases Nat.lt_or_eq_of_le hq with hq | rfl
        · exact h.trans (h2 q (by omega))
        · exact le_rfl, fun q hq hlt => by omega⟩
    · next h =>
      have h := not_le.mp h
      refine ⟨by omega, fun q hq => ?_, fun q hq hlt => ?_⟩
      · rcases Nat.lt_or_eq_of_le hq with hq | rfl
        · exact h2 q (by omega)
        · exact h.le
      · rcases Nat.lt_or_eq_of_le hq with hq | rfl
        · exact h3 q (by omega) hlt
        · exact h

/-- The first parameter of 0..maxParam with the least cost, and that cost (spec/45_rice.md R287). -/
theorem bestParam_spec (S : DWord) (L maxParam : Nat) :
    (bestParam S L maxParam).2 = cost S L (bestParam S L maxParam).1 ∧ (bestParam S L maxParam).1 ≤ maxParam ∧
      (∀ k ≤ maxParam, (bestParam S L maxParam).2 ≤ cost S L k) ∧
      ∀ k < (bestParam S L maxParam).1, (bestParam S L maxParam).2 < cost S L k := by
  induction maxParam with
  | zero => simp [bestParam, BitVec.le_def]
  | succ m ih =>
    obtain ⟨h0, h1, h2, h3⟩ := ih
    simp only [BitVec.le_def, BitVec.lt_def, bestParam] at *
    split
    · next h => exact ⟨rfl, le_rfl, fun q hq => by
        rcases Nat.lt_or_eq_of_le hq with hq | rfl
        · exact (h.trans_le (h2 q (by omega))).le
        · exact le_rfl, fun q hq => h.trans_le (h2 q (by omega))⟩
    · next h => exact ⟨h0, by omega, fun q hq => by
        rcases Nat.lt_or_eq_of_le hq with hq | rfl
        · exact h2 q (by omega)
        · exact not_lt.mp h, h3⟩

/-- The guard of spec/45_rice.md R285 lowers an order to the greatest one whose first partition holds the warm-ups. -/
theorem guardOrder_spec {n p : Nat} (h : p ≤ n) (P : Nat) :
    guardOrder n p P ≤ P ∧ p ≤ n >>> guardOrder n p P ∧ ∀ q ≤ P, p ≤ n >>> q → q ≤ guardOrder n p P := by
  induction P with
  | zero => exact ⟨le_rfl, by simpa [guardOrder] using h, fun q hq _ => hq⟩
  | succ P ih =>
    obtain ⟨h1, h2, h3⟩ := ih
    unfold guardOrder
    split
    · next hg => exact ⟨by omega, h2, fun q hq hp => by
        rcases Nat.lt_or_eq_of_le hq with hq | rfl
        · exact h3 q (by omega) hp
        · omega⟩
    · next hg => exact ⟨le_rfl, by omega, fun q hq _ => hq⟩

theorem length_takeWhile_range_le {f : Nat → Bool} {n q : Nat} (hq : q ≤ n) :
    q ≤ ((List.range n).takeWhile f).length ↔ ∀ i < q, f i = true := by
  induction n generalizing f q with
  | zero => simp [Nat.le_zero.mp hq]
  | succ n ih =>
    rw [List.range_succ_eq_map, List.takeWhile_cons]
    cases q with
    | zero => simp
    | succ q =>
      by_cases h0 : f 0 = true
      · rw [if_pos h0, List.takeWhile_map, List.length_cons, List.length_map, Nat.succ_le_succ_iff,
          ih (by omega)]
        constructor
        · intro h i hi
          cases i with
          | zero => exact h0
          | succ i => exact h i (by omega)
        · intro h i hi
          exact h (i + 1) (by omega)
      · rw [if_neg h0]
        exact ⟨fun h => by simp at h, fun h => absurd (h 0 (by omega)) h0⟩

/-- `q` trailing zeros (spec/00_scope.md R12). -/
theorem le_trailingZeros {x q : Nat} (hq : q ≤ 64) : q ≤ trailingZeros x ↔ 2 ^ q ∣ x := by
  rw [trailingZeros, length_takeWhile_range_le hq]
  constructor
  · intro h
    refine Nat.dvd_of_mod_eq_zero (Nat.eq_of_testBit_eq fun i => ?_)
    rw [Nat.testBit_mod_two_pow]
    by_cases hi : i < q
    · have := h i hi
      simpa [hi] using this
    · simp [hi]
  · rintro ⟨c, rfl⟩ i hi
    rw [show q = i + 1 + (q - i - 1) by omega, Nat.pow_add, Nat.pow_succ, Nat.mul_assoc, Nat.mul_assoc]
    simp [Nat.testBit_two_pow_mul]

end Sys2Proof.Machine
end

