-- ==== Sys2Proof/Laws/Optimiser.lean ====
section
/-! SUPPORT. The Rice optimiser: its partitions are the runs of entries spec/45_rice.md R286 names, its bound on the
order is R285's, its writes to PARAM are R293's. -/

namespace Sys2Proof.Machine

theorem pieces_getElem? (len count : Nat) (xs : List Int) (j : Nat) :
    (pieces len count xs)[j]? = if j < count then some ((xs.drop (j * len)).take len) else none := by
  induction count generalizing xs j with
  | zero => simp [pieces]
  | succ count ih =>
    cases j with
    | zero => simp [pieces]
    | succ j =>
      simp only [pieces, List.getElem?_cons_succ, ih, List.drop_drop, Nat.add_lt_add_iff_right]
      rw [show len + j * len = (j + 1) * len by rw [Nat.succ_mul, Nat.add_comm]]

theorem length_pieces (len count : Nat) (xs : List Int) : (pieces len count xs).length = count := by
  induction count generalizing xs with
  | zero => rfl
  | succ count ih => simp [pieces, ih]

theorem length_partitions (n p o : Nat) (tail : List Int) : (partitions n p o tail).length = 2 ^ o := by
  have := Nat.two_pow_pos o
  simp only [partitions, List.length_cons, length_pieces]
  omega

theorem partitionLength_eq {p n o j : Nat} (hp : p ≤ n >>> o) :
    partitionLength p n o j = if j = 0 then n >>> o - p else n >>> o := by
  unfold partitionLength partitionFirst
  split
  · next h => simp [h]
  · rw [Nat.succ_mul]; omega

/-- Partition `j` is the run of residuals from its first index on (R286). -/
theorem partitions_getElem? {n p o j : Nat} (tail : List Int) (hp : p ≤ n >>> o) (hj : j < 2 ^ o) :
    (partitions n p o tail)[j]? =
      some ((tail.drop (partitionFirst p n o j - p)).take (partitionLength p n o j)) := by
  rw [partitionLength_eq hp]
  cases j with
  | zero => simp [partitions, partitionFirst]
  | succ j =>
    simp only [partitions, List.getElem?_cons_succ, pieces_getElem?, List.drop_drop, partitionFirst]
    rw [if_pos (by omega), if_neg (by omega), if_neg (by omega)]
    rw [show n >>> o - p + j * (n >>> o) = (j + 1) * (n >>> o) - p by rw [Nat.succ_mul]; omega]

/-- The partitions end where the residuals end. -/
theorem partition_end {n p o j : Nat} (hp : p ≤ n >>> o) (hj : j < 2 ^ o) :
    p ≤ partitionFirst p n o j ∧ partitionFirst p n o j + partitionLength p n o j ≤ n := by
  have h1 : (j + 1) * (n >>> o) ≤ n := by
    rw [Nat.shiftRight_eq_div_pow]
    exact (Nat.mul_le_mul_right _ hj).trans (Nat.mul_div_le n (2 ^ o))
  unfold partitionLength partitionFirst
  split
  · next h => subst h; omega
  · next h =>
    have h2 : 1 * (n >>> o) ≤ j * (n >>> o) := Nat.mul_le_mul_right _ (by omega)
    have h3 : (j + 1) * (n >>> o) = j * (n >>> o) + n >>> o := Nat.succ_mul ..
    omega

/-- A run within a run of entries. -/
theorem take_drop_entries (pl : Plane) (i n a b : Nat) (m : Memory) (h : a + b ≤ n) :
    ((entries pl i n m).drop a).take b = entries pl (i + a) b m := by
  refine List.ext_getElem? fun j => ?_
  rw [List.getElem?_take, List.getElem?_drop]
  by_cases hj : j < b
  · simp [entries, hj, show a + j < n by omega, Nat.add_assoc]
  · simp [entries, hj]

/-- The zigzag sum in u64 is the exact sum modulo 2^64 (R286). -/
theorem zigzagSum_eq (xs : List Int) : zigzagSum xs = BitVec.ofNat 64 ((xs.map zigzag).sum) := by
  induction xs with
  | nil => rfl
  | cons x xs ih =>
    simp only [zigzagSum, List.map_cons, List.sum_cons] at ih ⊢
    rw [ih, BitVec.ofNat_add]

theorem entries_eq_range' (pl : Plane) (i n : Nat) (m : Memory) :
    entries pl i n m = (List.range' i n).map (sampleAt pl m) := by
  rw [List.range'_eq_map_range, List.map_map]
  rfl

/-- The bound on the order that R285 gives. -/
theorem maxOrder_effective {n p userMax : Nat} (hp : p < n) (hu : userMax ≤ 8) :
    EffectiveMaxOrder n p userMax (maxOrder n p userMax) := by
  have h64 : ∀ q ≤ userMax, (q ≤ trailingZeros n ↔ 2 ^ q ∣ n) := fun q hq => le_trailingZeros (by omega)
  let P := if 0 < p then min (min userMax (trailingZeros n)) (n.log2 - p.log2) else min userMax (trailingZeros n)
  obtain ⟨h1, h2, h3⟩ := guardOrder_spec hp.le P
  have hm : maxOrder n p userMax = guardOrder n p P := rfl
  have hP : ∀ q, q ≤ P ↔ q ≤ userMax ∧ 2 ^ q ∣ n ∧ (0 < p → q ≤ n.log2 - p.log2) := by
    intro q
    have := h64 q
    by_cases h0 : 0 < p
    · simp only [P, h0, if_true, Nat.le_min, true_implies]
      constructor
      · rintro ⟨⟨ha, hb⟩, hc⟩; exact ⟨ha, (this ha).mp hb, hc⟩
      · rintro ⟨ha, hb, hc⟩; exact ⟨⟨ha, (this ha).mpr hb⟩, hc⟩
    · simp only [P, h0, if_false, Nat.le_min, false_implies, and_true]
      constructor
      · rintro ⟨ha, hb⟩; exact ⟨ha, (this ha).mp hb⟩
      · rintro ⟨ha, hb⟩; exact ⟨ha, (this ha).mpr hb⟩
  rw [hm]
  obtain ⟨ha, hb, hc⟩ := (hP _).mp h1
  exact ⟨⟨ha, hb, hc, h2⟩, fun q ⟨qa, qb, qc, qd⟩ => h3 q ((hP q).mpr ⟨qa, qb, qc⟩) qd⟩

/-- What `PARAM[j], PARAM[j+1], … <- ks` leaves in PARAM; nothing else changes. -/
theorem setParams_eq (j : Nat) (ks : List Nat) (s : State) :
    setParams j ks s = { s with param := (setParams j ks s).param } ∧
      ∀ i : Fin 256, (setParams j ks s).param[i] =
        if j ≤ i.val ∧ i.val < j + ks.length then BitVec.ofNat 5 (ks.getD (i.val - j) 0) else s.param[i] := by
  induction ks generalizing j s with
  | nil =>
    refine ⟨rfl, fun i => ?_⟩
    rw [if_neg (by simp)]
    rfl
  | cons k ks ih =>
    obtain ⟨h1, h2⟩ := ih (j + 1) { s with param := s.param.setIfInBounds j (BitVec.ofNat 5 k) }
    refine ⟨?_, fun i => ?_⟩
    · simp only [setParams]
      rw [h1]
    · simp only [setParams, h2, Fin.getElem_fin, List.length_cons]
      by_cases h : j + 1 ≤ i.val ∧ i.val < j + 1 + ks.length
      · rw [if_pos h, if_pos ⟨by omega, by omega⟩, show i.val - j = i.val - (j + 1) + 1 by omega, List.getD_cons_succ]
      · rw [if_neg h, Vector.getElem_setIfInBounds]
        by_cases h' : j = i.val
        · subst h'
          simp
        · rw [if_neg h', if_neg (by omega)]

end Sys2Proof.Machine
end

