-- ==== Sys2Proof/Laws/Section.lean ====
section
/-! SUPPORT. What the subframe and residual-section emitters write, and when the checks of spec/45_rice.md R301 pass. -/

namespace Sys2Proof.Machine

theorem emitRice_emits (k : Nat) (v : Int) (s : State) : (emitRice k v s).Emits (riceBits k v) s := by
  rw [emitRice, Nat.shiftRight_eq_div_pow]
  exact (emitUnary_emits _ s).andThen fun t _ => emitBits_emits _ _ t

theorem emitSample_emits (ss : Nat) (v : Int) (s : State) : (emitSample ss v s).Emits (sampleBits ss v) s :=
  emitBits_emits _ _ s

theorem emitConstant_emits (ss : Nat) (v : Int) (s : State) : (emitConstant ss v s).Emits (constantBits ss v) s :=
  (emitBits_emits _ _ s).andThen fun t _ => emitBits_emits _ _ t

theorem emitVerbatim_emits {pl : Plane} (ss : Nat) {n : Nat} {s : State} (h : Written pl 0 n s.mem) :
    (emitVerbatim pl ss n s).Emits (verbatimBits ss (entries pl 0 n s.mem)) s := by
  refine (emitBits_emits _ _ s).andThen fun t ht => ?_
  rw [← ht.mem] at h ⊢
  exact emitEntries_emits (emitSample_emits ss) h

/-- The fields the section emitter reads, the same all along its run. -/
structure SameSection (s t : State) : Prop where
  method : t.method = s.method
  porder : t.porder = s.porder
  param : t.param = s.param
  mem : t.mem = s.mem

theorem Emitted.sameSection {bits : List Bool} {s t : State} (h : Emitted bits s t) : SameSection s t := by
  refine ⟨?_, ?_, ?_, h.mem⟩ <;> rw [h.rest]

theorem SameSection.getParam {s t : State} (h : SameSection s t) (j : Nat) : Machine.getParam j t = Machine.getParam j s := by
  simp [Machine.getParam, h.param]

theorem emitPartition_emits {p n j : Nat} {s t : State} (h : SameSection s t) (hp : p ≤ n >>> s.porder.toNat)
    (hj : j < 2 ^ s.porder.toNat) (hw : Written .resp p (n - p) s.mem) :
    (emitPartition p n j t).Emits
      (partitionBits p n s.porder.toNat s.method.paramBits (fun j => Machine.getParam j s) s.mem j) t := by
  obtain ⟨h1, h2⟩ := partition_end hp hj
  unfold partitionFirst partitionLength partitionFirst at h2
  unfold partitionFirst at h1
  unfold emitPartition partitionBits
  simp only [h.porder, h.method, h.getParam]
  refine (emitBits_emits _ _ t).andThen fun u hu => ?_
  rw [← h.mem, ← hu.mem]
  refine emitEntries_emits (emitRice_emits _) ?_
  rw [hu.mem, h.mem]
  exact hw.mono h1 (by omega)

theorem emitPartitions_emits {p n : Nat} {s : State} (hp : p ≤ n >>> s.porder.toNat)
    (hw : Written .resp p (n - p) s.mem) (j count : Nat) (hj : j + count ≤ 2 ^ s.porder.toNat) {t : State}
    (h : SameSection s t) :
    (emitPartitions p n j count t).Emits ((List.range' j count).flatMap
      (partitionBits p n s.porder.toNat s.method.paramBits (fun j => Machine.getParam j s) s.mem)) t := by
  induction count generalizing j t with
  | zero => exact Emitted.refl t
  | succ count ih =>
    rw [List.range'_succ, List.flatMap_cons]
    refine (emitPartition_emits h hp (by omega) hw).andThen fun u hu => ih (j + 1) (by omega) ?_
    have := hu.sameSection
    exact ⟨this.1.trans h.1, this.2.trans h.2, this.3.trans h.3, this.4.trans h.4⟩

/-- The residual section of a legal order (spec/45_rice.md R300). -/
theorem emitResidualSection_emits {p n : Nat} {s t : State} (h : SameSection s t) (hp : p ≤ n >>> s.porder.toNat)
    (hw : Written .resp p (n - p) s.mem) : (emitResidualSection p n t).Emits (sectionBits p n s) t := by
  unfold emitResidualSection sectionBits
  rw [h.method, h.porder, List.range_eq_range']
  refine ((emitBits_emits _ _ t).andThen fun u _ => emitBits_emits _ _ u).andThen fun u hu => ?_
  have := hu.sameSection
  exact emitPartitions_emits hp hw 0 _ (by omega) ⟨this.1.trans h.1, this.2.trans h.2, this.3.trans h.3, this.4.trans h.4⟩

theorem fixedHeader_eq {p : Nat} (h : p ≤ 4) : fixedHeader p = 0x10 + 2 * p := by
  interval_cases p <;> rfl

/-- A Fixed subframe (spec/41_bitwriter.md R172). -/
theorem emitFixed_emits (ss : Nat) {p n : Nat} {s : State} (h4 : p ≤ 4) (hp : p ≤ n >>> s.porder.toNat) (hn : p ≤ n)
    (hw : Written .resp 0 n s.mem) : (emitFixed ss p n s).Emits (fixedBits ss p n s) s := by
  unfold emitFixed fixedBits
  rw [fixedHeader_eq h4]
  refine ((emitBits_emits _ _ s).andThen fun t ht => ?_).andThen fun t ht =>
    emitResidualSection_emits ht.sameSection hp (hw.mono (by omega) (by omega))
  rw [← ht.mem]
  refine emitEntries_emits (emitSample_emits ss) ?_
  rw [ht.mem]
  exact hw.mono (by omega) (by omega)

theorem paramError_none {m : Method} {k : Nat} (hk : k ≤ 31) :
    paramError m k = none ↔ k ≤ if m = .four then 14 else 30 := by
  cases m with
  | four =>
    simp only [paramError, if_true]
    split
    · next h => constructor <;> intro h'; cases h'; omega
    · split
      · next h => constructor <;> intro h'; cases h'; omega
      · next h => exact ⟨fun _ => by omega, fun _ => rfl⟩
  | five =>
    simp only [paramError, if_neg (show ¬ Method.five = Method.four by decide)]
    split
    · next h => constructor <;> intro h'; cases h'; omega
    · exact ⟨fun _ => by omega, fun _ => rfl⟩

theorem getParam_le (j : Nat) (s : State) : getParam j s ≤ 31 := by
  have := (s.param.getD j 0).isLt
  unfold getParam
  omega

/-- The checks of R301 pass exactly on a legal section. -/
theorem residualSectionError_none {p n : Nat} {s : State} : residualSectionError p n s = none ↔ SectionLegal p n s := by
  have key : residualSectionError p n s = none ↔ (s.porder.toNat ≤ 8 ∧ n % 2 ^ s.porder.toNat = 0 ∧
      p ≤ n >>> s.porder.toNat ∧ p < n ∧
      ∀ j < 2 ^ s.porder.toNat, paramError s.method (getParam j s) = none) := by
    simp only [residualSectionError, Config.maxPartitionOrder, ite_eq_iff, reduceCtorEq, and_false, false_or, not_not,
      not_lt, List.findSome?_eq_none_iff, List.mem_range, ne_eq, not_le]
  rw [key]
  constructor
  · rintro ⟨h1, h2, h3, h4, h5⟩
    exact ⟨h1, h2, h3, h4, fun j hj => (paramError_none (getParam_le j s)).mp (h5 j hj)⟩
  · rintro ⟨h1, h2, h3, h4, h5⟩
    exact ⟨h1, h2, h3, h4, fun j hj => (paramError_none (getParam_le j s)).mpr (h5 j hj)⟩

end Sys2Proof.Machine
end

