-- ==== Sys2Proof/Laws/Choice.lean ====
section
/-! SUPPORT. The encoding SF_CHOOSE decides on (spec/44_subframe.md R262): on samples that fit their sample size it never
fails, and a Fixed choice leaves a legal residual section over the residual set in RESP. -/

namespace Sys2Proof.Machine

/-- Every choice of the optimiser passes the checks of spec/45_rice.md R301. -/
theorem optimise_legal {n p maxParam : Nat} (tail : List Int) (hp : p < n) (hm : maxParam ≤ 30) :
    let c := optimise n p 8 maxParam tail
    c.order ≤ 8 ∧ 2 ^ c.order ∣ n ∧ p ≤ n >>> c.order ∧ c.params.length = 2 ^ c.order ∧
      ∀ k ∈ c.params, k ≤ if c.method = .four then 14 else 30 := by
  intro c
  obtain ⟨⟨h1, h2, h3, h4⟩, _⟩ := maxOrder_effective (userMax := 8) hp le_rfl
  have hl : c.order ≤ maxOrder n p 8 := (lastLeast_spec _ _).1
  have hpow : 2 ^ c.order ∣ 2 ^ maxOrder n p 8 := Nat.pow_dvd_pow 2 hl
  refine ⟨hl.trans h1, hpow.trans h2, h4.trans ?_, ?_, ?_⟩
  · rw [Nat.shiftRight_eq_div_pow, Nat.shiftRight_eq_div_pow]
    exact Nat.div_le_div_left (Nat.le_of_dvd (Nat.two_pow_pos _) hpow) (Nat.two_pow_pos _)
  · show ((orderParams n p maxParam c.order tail).map Prod.fst).length = _
    rw [List.length_map, orderParams, List.length_map, length_partitions]
  · intro k hk
    obtain ⟨b, hb, rfl⟩ := List.mem_map.mp (show k ∈ (orderParams n p maxParam c.order tail).map Prod.fst from hk)
    have h30 : b.1 ≤ 30 := by
      obtain ⟨xs, _, rfl⟩ := List.mem_map.mp hb
      exact (bestParam_spec ..).2.1.trans hm
    split
    · next hmeth =>
      have hmeth : methodOf (orderParams n p maxParam c.order tail) = .four := hmeth
      unfold methodOf at hmeth
      split at hmeth
      · cases hmeth
      · next hany =>
        simp only [List.any_eq_true, not_exists, not_and, decide_eq_true_eq] at hany
        have := hany b hb
        omega
    · exact h30

theorem setChoice_eq (c : RiceChoice) (s : State) :
    setChoice c s = { s with method := c.method, porder := BitVec.ofNat 4 c.order, param := (setChoice c s).param } :=
  (setParams_eq 0 c.params _).1

/-- Storing such a choice gives a legal section. -/
theorem setChoice_legal {n p maxParam : Nat} (tail : List Int) (s : State) (hp : p < n) (hm : maxParam ≤ 30) :
    SectionLegal p n (setChoice (optimise n p 8 maxParam tail) s) := by
  obtain ⟨h1, h2, h3, h4, h5⟩ := optimise_legal tail hp hm
  have he := setChoice_eq (optimise n p 8 maxParam tail) s
  generalize optimise n p 8 maxParam tail = c at *
  have ho : (setChoice c s).porder.toNat = c.order := by
    rw [he]
    simp only [BitVec.toNat_ofNat]
    omega
  have hme : (setChoice c s).method = c.method := by rw [he]
  refine ⟨by omega, ?_, by rwa [ho], hp, fun j hj => ?_⟩
  · rw [ho]
    exact Nat.mod_eq_zero_of_dvd h2
  · rw [ho] at hj
    have hj256 : j < 256 := hj.trans_le (Nat.pow_le_pow_right (by omega) h1)
    have := (setParams_eq 0 c.params { s with method := c.method, porder := BitVec.ofNat 4 c.order }).2 ⟨j, hj256⟩
    have hpar : (setChoice c s).param[j] = BitVec.ofNat 5 (c.params.getD j 0) := by
      refine this.trans ?_
      rw [if_pos (by simp only; omega)]
      rfl
    have hk := h5 (c.params.getD j 0) (by
      rw [List.getD_eq_getElem _ _ (by omega)]
      exact List.getElem_mem _)
    rw [hme, show getParam j (setChoice c s) = (setChoice c s).param[j].toNat from getParam_eq _ ⟨j, hj256⟩, hpar,
      BitVec.toNat_ofNat]
    exact (Nat.mod_le _ _).trans hk

/-! ### Residuals of samples within bounds -/

theorem natAbs_sum_zipWith_le {B : Nat} (cs xs : List Int) (h : ∀ x ∈ xs, x.natAbs ≤ B) :
    (List.zipWith (· * ·) cs xs).sum.natAbs ≤ (cs.map Int.natAbs).sum * B := by
  induction cs generalizing xs with
  | nil => simp
  | cons c cs ih =>
    cases xs with
    | nil => simp
    | cons x xs =>
      simp only [List.zipWith_cons_cons, List.sum_cons, List.map_cons]
      have h1 := Int.natAbs_add_le (c * x) (List.zipWith (· * ·) cs xs).sum
      have h2 := ih xs fun y hy => h y (by simp [hy])
      have h3 : (c * x).natAbs ≤ c.natAbs * B := by
        rw [Int.natAbs_mul]
        exact Nat.mul_le_mul_left _ (h x (by simp))
      rw [Nat.add_mul]
      omega

theorem natAbs_prediction_le {B p : Nat} (hp : p ≤ 4) (xs : List Int) (h : ∀ x ∈ xs, x.natAbs ≤ B) :
    (prediction p xs).natAbs ≤ 15 * B := by
  refine (natAbs_sum_zipWith_le _ _ h).trans (Nat.mul_le_mul_right _ ?_)
  interval_cases p <;> decide

/-- Below 28 bits no residual leaves i32. -/
theorem residualSet_inI32 {ss p : Nat} {xs : List Int} (hp : p ≤ 4) (hs : ss < 28) (h : SamplesFit ss xs) :
    (residualSet p xs).all inI32 = true := by
  have hB : ∀ x ∈ xs, x.natAbs ≤ 2 ^ 26 := by
    intro x hx
    obtain ⟨h1, h2⟩ := h x hx
    have : (2 : Int) ^ (ss - 1) ≤ 2 ^ 26 := by exact_mod_cast Nat.pow_le_pow_right (by omega) (by omega)
    omega
  rw [List.all_eq_true]
  intro e he
  obtain ⟨i, hi⟩ := List.mem_iff_getElem?.mp he
  rw [getElem?_residualSet] at hi
  obtain ⟨x, hx, rfl⟩ := Option.map_eq_some_iff.mp hi
  have h1 := hB x (List.mem_of_getElem? hx)
  have h2 := natAbs_prediction_le (B := 2 ^ 26) hp (xs.take i).reverse fun y hy =>
    hB y (List.mem_of_mem_take (List.mem_reverse.mp hy))
  rw [inI32_iff]
  split <;> omega

/-- The order the selector answers. -/
theorem bestOrder_le {m : SumStart} {cr : Bool} {p : Nat} {xs : List Int} (hb : bestOrder m cr xs = some p) : p ≤ 4 := by
  unfold bestOrder at hb
  split at hb
  · cases hb
  · obtain rfl : leastSumOrder m cr xs = p := by simpa using hb
    exact (leastOrder_spec _ 4).1

/-- The order the selector answers has a residual set that fits i32, samples being within their size. -/
theorem bestOrder_fits {m : SumStart} {ss p : Nat} {xs : List Int} (h : SamplesFit ss xs)
    (hb : bestOrder m (decide (Config.rangeCheckSize ≤ ss)) xs = some p) :
    p ≤ 4 ∧ (residualSet p xs).all inI32 = true := by
  unfold bestOrder at hb
  split at hb
  · cases hb
  · next hp =>
    have e : leastSumOrder m (decide (Config.rangeCheckSize ≤ ss)) xs = p := by simpa using hb
    have h4 : p ≤ 4 := e ▸ (leastOrder_spec _ 4).1
    refine ⟨h4, ?_⟩
    by_cases hs : ss < 28
    · exact residualSet_inI32 h4 hs h
    · rw [e, poisoned, decide_eq_true (show Config.rangeCheckSize ≤ ss from by unfold Config.rangeCheckSize; omega)] at hp
      rw [List.all_eq_true]
      intro v hv
      simp only [Bool.true_and, List.any_eq_true, not_exists, not_and, Bool.not_eq_true, Bool.not_eq_false'] at hp
      simpa using hp v hv

/-! ### SF_CHOOSE -/

/-- What SF_CHOOSE leaves: the kind in RES2, and for a Fixed choice a section that can be written. -/
def Chosen (n : Nat) (xs : List Int) (u : State) : Prop :=
  getRes 2 u = kindConstant ∧ (∀ x ∈ xs, x = xs.headD 0) ∨ getRes 2 u = kindVerbatim ∨
    getRes 2 u = kindFixed ∧ ∃ p, (getRes 3 u).toNat = p ∧ p ≤ 4 ∧ SectionLegal p n u ∧
      entries .resp 0 n u.mem = residualSet p xs ∧ Written .resp 0 n u.mem

/-- Nothing but a choice's own registers and RESP differs. -/
def ChoiceOnly (s u : State) : Prop :=
  u = { s with method := u.method, porder := u.porder, param := u.param, res := u.res, mem := u.mem }

theorem ResOnly.choiceOnly {s t : State} (h : ResOnly s t) : ChoiceOnly s t := by
  unfold ChoiceOnly
  rw [h]

theorem ChoiceOnly.trans {s t u : State} (h : ChoiceOnly s t) (h' : ChoiceOnly t u) : ChoiceOnly s u := by
  unfold ChoiceOnly at *
  rw [h'] at *
  rw [h]

theorem setChoice_choiceOnly (c : RiceChoice) (s : State) : ChoiceOnly s (setChoice c s) := by
  unfold ChoiceOnly
  rw [setChoice_eq]

theorem setChoice_res (c : RiceChoice) (s : State) : (setChoice c s).res = s.res := by rw [setChoice_eq]

theorem setChoice_mem (c : RiceChoice) (s : State) : (setChoice c s).mem = s.mem := by rw [setChoice_eq]

/-- Result registers are no part of a section. -/
theorem SectionLegal.resOnly {p n : Nat} {s t : State} (h : SectionLegal p n s) (ht : ResOnly s t) :
    SectionLegal p n t := by
  rw [ht]
  exact ⟨h.1, h.2, h.3, h.4, h.5⟩

theorem ResOnly.mem {s t : State} (h : ResOnly s t) : t.mem = s.mem := by rw [h]

theorem chooseFixed_chosen {ss n p : Nat} {xs : List Int} {s : State} (hx : xs.length = n) (h5 : 4 < n)
    (hp : p ≤ 4) (hf : (residualSet p xs).all inI32 = true) :
    ∃ u, chooseFixed ss n p xs s = .ok u ∧ ChoiceOnly s u ∧ Chosen n xs u := by
  unfold chooseFixed
  rw [if_neg (by simpa using hf)]
  refine ⟨_, rfl, ?_, ?_⟩
  · refine .trans (t := { s with mem := writeEntries .resp 0 (residualSet p xs) s.mem }) rfl ?_
    exact (((setRes_resOnly ..).choiceOnly.trans (setChoice_choiceOnly ..)).trans
      (setRes64_resOnly ..).choiceOnly).trans (setRes_resOnly ..).choiceOnly
  have hm : chooserMaxParam ss ≤ 30 := by unfold chooserMaxParam; split <;> decide
  have hh : ∀ v ∈ residualSet p xs, Holds .resp v := fun v hv => inI32_iff.mp (List.all_eq_true.mp hf v hv)
  have hmem := entries_writeEntries (pl := .resp) (i := 0) s.mem hh
  have hwr := written_writeEntries .resp 0 s.mem hh
  rw [length_residualSet, hx] at hmem hwr
  have hc := fun r => setChoice_legal (n := n) (p := p) ((residualSet p xs).drop p) r (by omega) hm
  have h8 : Config.maxPartitionOrder = 8 := rfl
  rw [h8]
  generalize writeEntries .resp 0 (residualSet p xs) s.mem = m at *
  generalize optimise n p 8 (chooserMaxParam ss) ((residualSet p xs).drop p) = c at *
  have hr (w : Word) : ResOnly (setChoice c (setRes 3 (BitVec.ofNat 32 p) { s with mem := m }))
      (setRes 2 w (setRes64 0 c.total (setChoice c (setRes 3 (BitVec.ofNat 32 p) { s with mem := m })))) :=
    (setRes64_resOnly ..).trans (setRes_resOnly ..)
  have hleg := hc (setRes 3 (BitVec.ofNat 32 p) { s with mem := m })
  have h3 : getRes 3 (setChoice c (setRes 3 (BitVec.ofNat 32 p) { s with mem := m })) = BitVec.ofNat 32 p := by
    rw [getRes, setChoice_res]
    exact (getRes_setRes 3 3 (by omega) _ _).trans (if_pos rfl)
  have hm' := setChoice_mem c (setRes 3 (BitVec.ofNat 32 p) { s with mem := m })
  generalize setChoice c (setRes 3 (BitVec.ofNat 32 p) { s with mem := m }) = r at *
  split
  · refine .inr (.inr ⟨by rw [getRes_setRes _ _ (by omega), if_pos rfl], p, ?_, hp, hleg.resOnly (hr _), ?_, ?_⟩)
    · rw [getRes_setRes _ _ (by omega), if_neg (by omega), getRes_setRes64 _ _ (by omega), if_neg (by omega),
        if_neg (by omega), h3, BitVec.toNat_ofNat]
      omega
    · rw [(hr _).mem, hm']
      exact hmem
    · rw [(hr _).mem, hm']
      exact hwr
  · exact .inr (.inl (by rw [getRes_setRes _ _ (by omega), if_pos rfl]))

/-- Everything the choice can do: a choice that can be written, or RESIDUAL_RANGE before any effect of its own, because
the chosen order's residual set leaves i32 (spec/44_subframe.md R262). -/
theorem chooseOver_cases (ss : Nat) {n : Nat} {xs : List Int} (s : State) (hx : xs.length = n) :
    (∃ u, chooseOver ss n xs s = .ok u ∧ ChoiceOnly s u ∧ Chosen n xs u) ∨
    (chooseOver ss n xs s = .error .residualRange s ∧
      ∃ p, bestOrder s.sumStart (decide (Config.rangeCheckSize ≤ ss)) xs = some p ∧
        ¬ (residualSet p xs).all inI32 = true) := by
  have g2 (w : Word) (d : DWord) (t : State) : getRes 2 (setRes64 4 d (setRes 2 w t)) = w := by
    rw [getRes_setRes64 _ _ (by omega), if_neg (by omega), if_neg (by omega), getRes_setRes _ _ (by omega), if_pos rfl]
  have g2' (w : Word) (t : State) : getRes 2 (setRes 2 w t) = w := by
    rw [getRes_setRes _ _ (by omega), if_pos rfl]
  unfold chooseOver
  simp only
  split
  · next h =>
    refine .inl ⟨_, rfl, ((setRes_resOnly ..).trans (setRes64_resOnly ..)).choiceOnly, .inl ⟨g2 .., fun x hx => ?_⟩⟩
    simpa using List.all_eq_true.mp h x hx
  · split
    · exact .inl ⟨_, rfl, (setRes_resOnly ..).choiceOnly, .inr (.inl (g2' ..))⟩
    · next hn =>
      split
      · exact .inl ⟨_, rfl, (setRes_resOnly ..).choiceOnly, .inr (.inl (g2' ..))⟩
      · next p hp =>
        by_cases hf : (residualSet p xs).all inI32 = true
        · exact .inl (chooseFixed_chosen hx (by omega) (bestOrder_le hp) hf)
        · exact .inr ⟨by rw [chooseFixed, if_pos hf], p, hp, hf⟩

/-- SF_CHOOSE never fails on samples that fit their size. -/
theorem runSfChoose_chosen {pl : Plane} {ss : Nat} {s : State} (hl : legalSamples (sampleCount s) = true)
    (hw : Written pl 0 (sampleCount s) s.mem) (hf : SamplesFit ss (entries pl 0 (sampleCount s) s.mem)) :
    ∃ u, runSfChoose pl ss s = .ok u ∧ ChoiceOnly s u ∧ Chosen (sampleCount s) (entries pl 0 (sampleCount s) s.mem) u := by
  unfold runSfChoose
  rw [if_neg (by simpa using hl), readEntries_ok hw]
  rcases chooseOver_cases ss (clearResults s) (entries_length pl 0 (sampleCount s) s.mem) with
    ⟨u, h1, h2, h3⟩ | ⟨-, p, hp, hn⟩
  · exact ⟨u, h1, (clearResults_resOnly s).choiceOnly.trans h2, h3⟩
  · exact absurd (bestOrder_fits hf hp).2 hn

/-- How SF_CHOOSE ends where the model does not fault: with its count refused, with RESIDUAL_RANGE after zeroing RES0-RES5,
or with a choice that can be written. -/
theorem runSfChoose_cases (pl : Plane) (ss : Nat) (s : State) :
    (∃ f, runSfChoose pl ss s = .fault f) ∨
    (runSfChoose pl ss s = .error .invalidOperand s ∧ legalSamples (sampleCount s) = false) ∨
    (runSfChoose pl ss s = .error .residualRange (clearResults s)) ∨
    ∃ u xs, runSfChoose pl ss s = .ok u ∧ readEntries pl s.mem 0 (sampleCount s) = .ok xs ∧ ChoiceOnly s u ∧
      Chosen (sampleCount s) xs u := by
  unfold runSfChoose
  split
  · next hl => exact .inr (.inl ⟨rfl, by simpa using hl⟩)
  · cases h : readEntries pl s.mem 0 (sampleCount s) with
    | error f => exact .inl ⟨f, rfl⟩
    | ok xs =>
      have hx : xs.length = sampleCount s := by
        rw [(readEntries_spec h).1]
        exact entries_length ..
      rcases chooseOver_cases ss (clearResults s) hx with ⟨u, h1, h2, h3⟩ | ⟨h1, -⟩
      · exact .inr (.inr (.inr ⟨u, xs, h1, rfl, (clearResults_resOnly s).choiceOnly.trans h2, h3⟩))
      · exact .inr (.inr (.inl h1))

end Sys2Proof.Machine
end

