-- ==== Sys2Proof/Laws/Encoding.lean ====
section
/-! SUPPORT. The bits of command words: what equal fields, clear reserved bits and a successful decoding say
(spec/30_encoding.md R110-R112, R130). -/

namespace Sys2Proof.Machine

/-- Equal fields have equal bits. -/
theorem extract_bits {s l : Nat} {w w' : Word} (h : w.extractLsb' s l = w'.extractLsb' s l) {j : Nat} (h1 : s ≤ j)
    (h2 : j < s + l) : w.getLsbD j = w'.getLsbD j := by
  have := congrArg (fun v => v.getLsbD (j - s)) h
  simp only [BitVec.getLsbD_extractLsb', show s + (j - s) = j by omega] at this
  simpa [show j - s < l by omega] using this

/-- A bit outside the fields of a word whose reserved bits are clear is 0. -/
theorem reserved_bit {w m : Word} (h : (w &&& reservedOf m == 0#32) = true) {j : Nat} (hj : j < 24)
    (hm : m.getLsbD j = false) : w.getLsbD j = false := by
  have h : w &&& reservedOf m = 0#32 := by simpa using h
  have := congrArg (fun v => v.getLsbD j) h
  simp only [BitVec.getLsbD_and, reservedOf, BitVec.getLsbD_not, BitVec.getLsbD_zero] at this
  have h2 : ∀ j < 24, (0x00FFFFFF#32).getLsbD j = true := by decide
  rw [h2 j hj, hm] at this
  simpa [show j < 32 by omega] using this

/-- Two words of one format with equal field bits are equal. -/
theorem word_eq {w w' : Word} {m : Word} (ho : Field.opc w = Field.opc w') (hm : fieldMask (Field.opc w) = some m)
    (h : reservedClear w = true) (h' : reservedClear w' = true)
    (hf : ∀ j < 24, m.getLsbD j = true → w.getLsbD j = w'.getLsbD j) : w = w' := by
  apply BitVec.eq_of_getLsbD_eq
  intro j hj
  by_cases hj' : j < 24
  · cases hb : m.getLsbD j with
    | true => exact hf j hj' hb
    | false =>
      simp only [reservedClear, hm] at h
      simp only [reservedClear, ← ho, hm] at h'
      rw [reserved_bit h hj' hb, reserved_bit h' hj' hb]
  · exact extract_bits ho (by omega) (by omega)

theorem planeOfCode_inj {c c' : BitVec 4} {pl : Plane} (h : planeOfCode c = some pl) (h' : planeOfCode c' = some pl) :
    c = c' := by
  revert c c'
  cases pl with
  | ch k => revert k; decide
  | _ => decide

theorem modeOfCode_inj {c c' : BitVec 2} (h : modeOfCode c = modeOfCode c') : c = c' := by
  revert c c'
  decide

/-- What a word that decodes satisfies. -/
theorem decode_spec {w : Word} {i : Instr} (h : decode w = some i) :
    reservedClear w = true ∧ fieldsOf w = some i ∧ i.wellFormed = true := by
  unfold decode at h
  split at h
  · next hr =>
    rw [Option.filter_eq_some_iff] at h
    exact ⟨hr, h.1, h.2⟩
  · simp at h

theorem fields_opc {w : Word} {i : Instr} (h : fieldsOf w = some i) : Field.opc w = i.opcode := by
  unfold fieldsOf at h
  split at h <;> first
    | (next ho => cases h; exact ho)
    | (next ho => obtain ⟨pl, _, rfl⟩ := Option.map_eq_some_iff.mp h; exact ho)
    | simp at h

/-- The reserved bits are clear when every bit of 23:0 is 0 or in a field. -/
theorem reserved_all (w m : Word) :
    (w &&& reservedOf m == 0#32) = (List.range 24).all fun b => !w.getLsbD b || m.getLsbD b := by
  rw [Bool.eq_iff_iff]
  constructor
  · intro h
    simp only [List.all_eq_true, List.mem_range]
    intro j hj
    cases hm : m.getLsbD j with
    | true => simp
    | false => simp [reserved_bit h hj hm]
  · intro h
    simp only [List.all_eq_true, List.mem_range] at h
    rw [beq_iff_eq]
    apply BitVec.eq_of_getLsbD_eq
    intro j hj
    simp only [BitVec.getLsbD_and, reservedOf, BitVec.getLsbD_not, BitVec.getLsbD_zero]
    by_cases hj' : j < 24
    · have := h j hj'
      cases h1 : w.getLsbD j <;> cases h2 : m.getLsbD j <;> simp_all
    · have h2 : ∀ j < 32, 24 ≤ j → (0x00FFFFFF#32).getLsbD j = false := by decide
      simp [h2 j hj (by omega)]

theorem opc_nat (w : Word) : (Field.opc w).toNat = w.toNat / 2 ^ 24 := by
  simp only [Field.opc, BitVec.extractLsb'_toNat, Nat.shiftRight_eq_div_pow]
  have := w.isLt
  omega

end Sys2Proof.Machine
end

