-- ==== Sys2Proof/Laws/Reader.lean ====
section
/-! SUPPORT. The bitstream reader recovers the fields the bit writer emits (spec/41_bitwriter.md R154, R155). -/

namespace Sys2Proof.Machine

theorem readFieldFrom_fieldBits (n v u : Nat) (rest : List Bool) :
    readFieldFrom n u (fieldBits n v ++ rest) = some (u * 2 ^ n + v % 2 ^ n, rest) := by
  induction n generalizing u with
  | zero => simp [readFieldFrom, fieldBits, Nat.mod_one]
  | succ n ih =>
    rw [fieldBits_succ, List.cons_append, readFieldFrom, ih]
    have h : v % 2 ^ (n + 1) = (v.testBit n).toNat * 2 ^ n + v % 2 ^ n := by
      rw [Nat.mod_pow_succ, Nat.testBit_eq_decide_div_mod_eq]
      rcases Nat.mod_two_eq_zero_or_one (v / 2 ^ n) with h | h <;> simp [h, Nat.add_comm]
    rw [h]
    congr 2
    ring

theorem readField_fieldBits (n v : Nat) (rest : List Bool) :
    readField n (fieldBits n v ++ rest) = some (v % 2 ^ n, rest) := by
  simp [readField, readFieldFrom_fieldBits]

/-- A sample that fits `n` bits is read back from its low `n` bits. -/
theorem readSigned_sampleBits {n : Nat} {v : Int} (hn : 1 ≤ n) (h : -(2 ^ (n - 1)) ≤ v ∧ v < 2 ^ (n - 1))
    (rest : List Bool) : readSigned n (sampleBits n v ++ rest) = some (v, rest) := by
  obtain ⟨k, rfl⟩ : ∃ k, n = k + 1 := ⟨n - 1, by omega⟩
  rw [Nat.add_sub_cancel] at h
  have hp : (2 : Int) ^ (k + 1) = 2 * 2 ^ k := by rw [pow_succ, mul_comm]
  have hb : ((lowBits (k + 1) v : Nat) : Int) = v % 2 ^ (k + 1) := by
    unfold lowBits
    exact Int.toNat_of_nonneg (Int.emod_nonneg _ (by positivity))
  have hlt : lowBits (k + 1) v < 2 ^ (k + 1) := by
    have := Int.emod_lt_of_pos v (show (0 : Int) < 2 ^ (k + 1) by positivity)
    rw [← hb] at this
    exact_mod_cast this
  rw [sampleBits, readSigned, readField_fieldBits, Nat.mod_eq_of_lt hlt]
  simp only [Option.map_some, Option.some.injEq, Prod.mk.injEq, and_true]
  by_cases h0 : 0 ≤ v
  · have e : v % 2 ^ (k + 1) = v := Int.emod_eq_of_lt h0 (by omega)
    rw [e] at hb
    have : 2 * lowBits (k + 1) v < 2 ^ (k + 1) := by zify; omega
    rw [if_pos this, hb]
  · have e : v % 2 ^ (k + 1) = v + 2 ^ (k + 1) := by
      rw [← Int.add_emod_right, Int.emod_eq_of_lt (by omega) (by omega)]
    rw [e] at hb
    have : ¬ 2 * lowBits (k + 1) v < 2 ^ (k + 1) := by zify; omega
    rw [if_neg this, hb]
    omega

theorem readUnary_unaryBits (q : Nat) (rest : List Bool) : readUnary (unaryBits q ++ rest) = some (q, rest) := by
  induction q with
  | zero => rfl
  | succ q ih =>
    rw [unaryBits, List.append_assoc] at ih
    rw [unaryBits, List.replicate_succ, List.append_assoc, List.cons_append, readUnary, ih]
    rfl

/-- Values that are each read back are read back in a row. -/
theorem readMany_flatMap {read : List Bool → Option (Int × List Bool)} {bits : Int → List Bool} {vs : List Int}
    (h : ∀ v ∈ vs, ∀ rest, read (bits v ++ rest) = some (v, rest)) (rest : List Bool) :
    readMany read vs.length (vs.flatMap bits ++ rest) = some (vs, rest) := by
  induction vs with
  | nil => rfl
  | cons v vs ih =>
    rw [List.flatMap_cons, List.append_assoc, List.length_cons, readMany, h v (by simp)]
    simp only
    rw [ih fun u hu => h u (by simp [hu])]
    rfl

end Sys2Proof.Machine
end

