-- ==== Sys2Proof/Laws/Lossless.lean ====
section
/-! SUPPORT. Reading back the subframes the emitters write: the predictor's residuals restore the samples
(spec/43_fixed_predictor.md R230), and the section's layout is what the reader expects (spec/45_rice.md R300). -/

namespace Sys2Proof.Machine

/-- A reader of Rice codes recovers every value. -/
def ReadsRice : Prop := ∀ (k : Nat) (v : Int) (rest : List Bool), readRice k (riceBits k v ++ rest) = some (v, rest)

theorem restore_residualsFrom {p i : Nat} (h : p ≤ i) (history xs : List Int) :
    restore p history (residualsFrom p i history xs) = xs := by
  induction xs generalizing i history with
  | nil => rfl
  | cons x xs ih =>
    rw [residualsFrom, if_neg (by omega), restore, Int.sub_add_cancel, ih (by omega)]

theorem drop_residualsFrom (p i : Nat) (history xs : List Int) (k : Nat) :
    (residualsFrom p i history xs).drop k = residualsFrom p (i + k) ((xs.take k).reverse ++ history) (xs.drop k) := by
  induction k generalizing i history xs with
  | zero => simp
  | succ k ih =>
    cases xs with
    | nil => simp [residualsFrom]
    | cons x xs =>
      rw [residualsFrom, List.drop_succ_cons, ih]
      simp [Nat.add_comm, Nat.add_left_comm]

/-- The warm-ups and the residuals of order `p` give the samples back. -/
theorem restore_residualSet (p : Nat) (xs : List Int) :
    xs.take p ++ restore p (xs.take p).reverse ((residualSet p xs).drop p) = xs := by
  rw [residualSet, drop_residualsFrom, List.append_nil, restore_residualsFrom (by omega), List.take_append_drop]

theorem take_residualSet (p : Nat) (xs : List Int) : (residualSet p xs).take p = xs.take p := by
  refine List.ext_getElem? fun i => ?_
  rw [List.getElem?_take, List.getElem?_take]
  split
  · next h =>
    rw [getElem?_residualSet]
    simp [h]
  · rfl

theorem readPartitions_partitionBits (hr : ReadsRice) {p n o pb : Nat} {param : Nat → Nat} {m : Memory}
    (hk : ∀ j < 2 ^ o, param j < 2 ^ pb) (j count : Nat) (hj : j + count ≤ 2 ^ o) (rest : List Bool) :
    readPartitions p n o pb j count ((List.range' j count).flatMap (partitionBits p n o pb param m) ++ rest) =
      some ((List.range' j count).flatMap
        (fun j => entries .resp (partitionFirst p n o j) (partitionLength p n o j) m), rest) := by
  induction count generalizing j with
  | zero => rfl
  | succ count ih =>
    rw [List.range'_succ, List.flatMap_cons, List.flatMap_cons, List.append_assoc, readPartitions, partitionBits,
      List.append_assoc, readField_fieldBits, Nat.mod_eq_of_lt (hk j (by omega))]
    simp only
    have h := readMany_flatMap (read := readRice (param j)) (bits := riceBits (param j))
      (vs := entries .resp (partitionFirst p n o j) (partitionLength p n o j) m) (fun v _ rest => hr _ v rest)
      ((List.range' (j + 1) count).flatMap (partitionBits p n o pb param m) ++ rest)
    rw [entries_length] at h
    simp only [partitionLength, partitionFirst] at h ih ⊢
    rw [h]
    simp only
    rw [ih (j + 1) (by omega)]
    rfl

theorem entries_append (pl : Plane) (i a b : Nat) (m : Memory) :
    entries pl i a m ++ entries pl (i + a) b m = entries pl i (a + b) m := by
  simp only [entries_eq_range', ← List.map_append, List.range'_append_1]

/-- The partitions together are the residuals `RESP[p..N-1]` (spec/45_rice.md R286). -/
theorem partitions_join {p n o : Nat} (m : Memory) (hp : p ≤ n >>> o) (count : Nat) (hc : 1 ≤ count) :
    (List.range' 0 count).flatMap
      (fun j => entries .resp (partitionFirst p n o j) (partitionLength p n o j) m) =
      entries .resp p (count * (n >>> o) - p) m := by
  induction count with
  | zero => omega
  | succ count ih =>
    rw [List.range'_1_concat, List.flatMap_append, List.flatMap_singleton, Nat.zero_add]
    cases count with
    | zero => simp [partitionLength, partitionFirst]
    | succ k =>
      rw [ih (by omega), partitionLength_eq hp, if_neg (by omega), partitionFirst, if_neg (by omega)]
      have h1 : p ≤ (k + 1) * (n >>> o) := hp.trans (Nat.le_mul_of_pos_left _ (by omega))
      have h2 : (k + 1 + 1) * (n >>> o) = (k + 1) * (n >>> o) + n >>> o := Nat.succ_mul ..
      have := entries_append .resp p ((k + 1) * (n >>> o) - p) (n >>> o) m
      rw [Nat.add_sub_cancel' h1] at this
      rw [this]
      congr 1
      omega

/-- The residual section of a legal configuration is read back as the residuals. -/
theorem readSection_sectionBits (hr : ReadsRice) {p n : Nat} {s : State} (h : SectionLegal p n s) (rest : List Bool) :
    readSection p n (sectionBits p n s ++ rest) = some (entries .resp p (n - p) s.mem, rest) := by
  have hm : ∀ m : Method, m.code.toNat % 2 ^ 2 = m.code.toNat ∧ (m.code.toNat = 0 ↔ m = .four) := by
    intro m
    cases m <;> decide
  rw [sectionBits, List.append_assoc, List.append_assoc, readSection, readField_fieldBits]
  simp only
  rw [readField_fieldBits, (hm s.method).1, Nat.mod_eq_of_lt (by have := h.order; omega)]
  simp only
  have hb : (if s.method.code.toNat = 0 then 4 else 5) = s.method.paramBits := by cases s.method <;> rfl
  rw [hb, List.range_eq_range', readPartitions_partitionBits hr _ 0 _ (by omega), partitions_join _ h.first _
    Nat.one_le_two_pow]
  · have := h.divides
    have e : 2 ^ s.porder.toNat * (n >>> s.porder.toNat) = n := by
      rw [Nat.shiftRight_eq_div_pow]
      exact Nat.mul_div_cancel' (Nat.dvd_of_mod_eq_zero this)
    rw [e]
  · intro j hj
    have := h.params j hj
    cases hmeth : s.method <;> simp only [hmeth, Method.paramBits, if_true, reduceCtorEq, if_false] at this ⊢ <;> omega

theorem readSubframe_constantBits {ss n : Nat} {x : Int} (hs : 1 ≤ ss) (h : -(2 ^ (ss - 1)) ≤ x ∧ x < 2 ^ (ss - 1))
    (rest : List Bool) : readSubframe ss n (constantBits ss x ++ rest) = some (List.replicate n x, rest) := by
  rw [constantBits, List.append_assoc, readSubframe, readField_fieldBits]
  simp [readSigned_sampleBits hs h]

theorem readSubframe_verbatimBits {ss : Nat} {xs : List Int} (hs : 1 ≤ ss) (h : SamplesFit ss xs)
    (rest : List Bool) : readSubframe ss xs.length (verbatimBits ss xs ++ rest) = some (xs, rest) := by
  rw [verbatimBits, List.append_assoc, readSubframe, readField_fieldBits]
  simp [readMany_flatMap (read := readSigned ss) (bits := sampleBits ss) fun v hv => readSigned_sampleBits hs (h v hv)]

/-- A Fixed subframe whose RESP entries are the residual set of the samples is read back as the samples. -/
theorem readSubframe_fixedBits (hr : ReadsRice) {ss p n : Nat} {xs : List Int} {s : State} (hs : 1 ≤ ss) (h4 : p ≤ 4)
    (h : SamplesFit ss xs) (hn : xs.length = n) (hl : SectionLegal p n s)
    (he : entries .resp 0 n s.mem = residualSet p xs) (rest : List Bool) :
    readSubframe ss n (fixedBits ss p n s ++ rest) = some (xs, rest) := by
  have hp := hl.some
  have hw : entries .resp 0 p s.mem = xs.take p := by
    have := take_drop_entries .resp 0 n 0 p s.mem (by omega)
    rw [List.drop_zero, he, take_residualSet] at this
    exact this.symm
  have ht : entries .resp p (n - p) s.mem = (residualSet p xs).drop p := by
    have := take_drop_entries .resp 0 n p (n - p) s.mem (by omega)
    rw [he, Nat.zero_add] at this
    rw [← this]
    exact List.take_of_length_le (by simp; omega)
  rw [fixedBits, hw, List.append_assoc, List.append_assoc, readSubframe, readField_fieldBits,
    show (0x10 + 2 * p) % 2 ^ 8 = 0x10 + 2 * p by omega]
  simp only
  rw [if_neg (by omega), if_neg (by omega), if_pos (by omega), show (0x10 + 2 * p - 0x10) / 2 = p by omega]
  have hm := readMany_flatMap (read := readSigned ss) (bits := sampleBits ss) (vs := xs.take p)
    (fun v hv => readSigned_sampleBits hs (h v (List.mem_of_mem_take hv))) (sectionBits p n s ++ rest)
  rw [List.length_take, Nat.min_eq_left (by omega)] at hm
  rw [hm]
  simp only
  rw [readSection_sectionBits hr hl, ht]
  simp only [Option.map_some, restore_residualSet]

end Sys2Proof.Machine
end

