-- ==== Sys2Proof/Laws/FrameWriting.lean ====
section
/-! SUPPORT. What the frame encoder's parts write and raise: subframes a reader recovers (spec/44_subframe.md R263), one
after the other, a header that ends aligned (spec/42_frame_header.md R208), and the errors of R369 (b). -/

namespace Sys2Proof.Machine

/-- From `s` to `t` exactly `bits` were written; a choice's own registers and planes may have changed too. -/
structure Wrote (bits : List Bool) (s t : State) : Prop where
  stream : stream t = stream s ++ bits
  bytes : ∃ bs : List Byte, t.out = s.out ++ bs ∧ t.crc8 = bs.foldl crc8Update s.crc8 ∧
    t.crc16 = bs.foldl crc16Update s.crc16 ∧ t.bytesWritten = s.bytesWritten + BitVec.ofNat 32 bs.length
  accepts : SinkAccepts s → SinkAccepts t
  rest : t = { s with
    method := t.method, porder := t.porder, param := t.param, res := t.res
    crc8 := t.crc8, crc16 := t.crc16, bytesWritten := t.bytesWritten
    nb := t.nb, acc := t.acc, mem := t.mem, out := t.out, sink := t.sink }

theorem Wrote.trans {a b : List Bool} {s t u : State} (h : Wrote a s t) (h' : Wrote b t u) : Wrote (a ++ b) s u := by
  obtain ⟨h1, ⟨as, h2, h3, h4, h5⟩, h6, h7⟩ := h
  obtain ⟨g1, ⟨bs, g2, g3, g4, g5⟩, g6, g7⟩ := h'
  refine ⟨by rw [g1, h1, List.append_assoc], ⟨as ++ bs, by rw [g2, h2, List.append_assoc],
    by rw [g3, h3, List.foldl_append], by rw [g4, h4, List.foldl_append], ?_⟩, g6 ∘ h6, ?_⟩
  · rw [g5, h5, List.length_append, BitVec.ofNat_add, BitVec.add_assoc]
  · rw [g7, h7]

theorem Emitted.wrote {bits : List Bool} {s t : State} (h : Emitted bits s t) : Wrote bits s t := by
  obtain ⟨bs, h1, h2, h3, h4, _⟩ := h.bytes
  exact ⟨h.stream, ⟨bs, h1, h2, h3, h4⟩, h.sinkAccepts, by rw [h.rest]⟩

theorem ChoiceOnly.wrote {s t : State} (h : ChoiceOnly s t) : Wrote [] s t := by
  refine ⟨?_, ⟨[], ?_, ?_, ?_, ?_⟩, ?_, ?_⟩
  · rw [h]; simp [stream]
  · rw [h]; simp
  · rw [h]; rfl
  · rw [h]; rfl
  · rw [h]; simp
  · rw [h]; exact id
  · rw [h]

theorem Wrote.count {bits : List Bool} {s t : State} (h : Wrote bits s t) : sampleCount t = sampleCount s := by
  rw [h.rest]
  rfl

theorem stream_aligned {s : State} (h : s.nb = 0) : stream s = bytesBits s.out := by
  simp [stream, h, fieldBits]

/-- The bytes that joined an aligned output are the bits written. -/
theorem bytesBits_of_append {as bs : List Byte} {bits : List Bool} (h : bytesBits (as ++ bs) = bytesBits as ++ bits) :
    bytesBits bs = bits := by
  rw [bytesBits_append] at h
  exact List.append_cancel_left h

/-! ### Subframes -/

theorem resp_apart {pl : Plane} {s u : State} (hpl : pl ≠ .resp) (hn : sampleCount s ≤ 65535)
    (hp : Progress (footSubframe s) s u) {j : Nat} (hj : j < sampleCount s) :
    readEntry pl j u.mem = readEntry pl j s.mem := by
  refine hp.mem.readEntry_eq fun a h1 h2 hcov => ?_
  have h3 := entryOffset_bounds (pl := pl) (i := j) (by omega)
  have h4 := entriesFootprint_bounds hcov
  have h5 := planes_disjoint hpl
  have e : entryBytes .resp = 4 := rfl
  omega

/-- The bits of the representation a choice names: RES2's kind, with the order in RES3 (spec/44_subframe.md R263). -/
def chosenBits (pl : Plane) (ss n : Nat) (u : State) : List Bool :=
  if getRes 2 u = kindConstant then constantBits ss (sampleAt pl u.mem 0)
  else if getRes 2 u = kindVerbatim then verbatimBits ss (entries pl 0 n u.mem)
  else fixedBits ss (getRes 3 u).toNat n u

/-- The kind a choice answers is one of three, and decides its bits. -/
theorem Chosen.bits {n : Nat} {xs : List Int} {u : State} (h : Chosen n xs u) (pl : Plane) (ss : Nat) :
    getRes 2 u = 0 ∧ chosenBits pl ss n u = constantBits ss (sampleAt pl u.mem 0) ∨
      getRes 2 u = 1 ∧ chosenBits pl ss n u = verbatimBits ss (entries pl 0 n u.mem) ∨
      getRes 2 u = 2 ∧ chosenBits pl ss n u = fixedBits ss (getRes 3 u).toNat n u := by
  unfold chosenBits
  rcases h with ⟨h, -⟩ | h | ⟨h, -⟩
  · exact .inl ⟨h, if_pos h⟩
  · exact .inr (.inl ⟨h, by rw [if_neg (by rw [h]; decide), if_pos h]⟩)
  · exact .inr (.inr ⟨h, by rw [if_neg (by rw [h]; decide), if_neg (by rw [h]; decide)]⟩)

/-- A choice is written as the representation it names, and that is read back as the samples. -/
theorem emitChosen_emits (hr : ReadsRice) {pl : Plane} {ss n : Nat} {xs : List Int} {u : State} (hn : 1 ≤ n)
    (hs : 1 ≤ ss) (hf : SamplesFit ss xs) (he : entries pl 0 n u.mem = xs) (hw : Written pl 0 n u.mem)
    (hc : Chosen n xs u) :
    (emitChosen pl ss n u).Emits (chosenBits pl ss n u) u ∧
      ∀ rest, readSubframe ss n (chosenBits pl ss n u ++ rest) = some (xs, rest) := by
  have hlen : xs.length = n := by rw [← he, entries_length]
  unfold emitChosen chosenBits
  rcases hc with ⟨h, hall⟩ | h | ⟨h, p, hp, h4, hleg, hent, hwr⟩
  · rw [if_pos h, if_pos h]
    obtain ⟨v, hv⟩ := Option.isSome_iff_exists.mp (hw 0 (by omega) (by omega))
    simp only [sampleAt, hv, Option.getD_some]
    refine ⟨emitConstant_emits ss v u, fun rest => ?_⟩
    have h0 : xs = List.replicate n v := by
      refine List.eq_replicate_iff.mpr ⟨hlen, fun x hx => ?_⟩
      rw [hall x hx, ← he]
      obtain ⟨k, rfl⟩ : ∃ k, n = k + 1 := ⟨n - 1, by omega⟩
      rw [entries_succ]
      simp [hv]
    have := readSubframe_constantBits (n := n) hs (hf v (by rw [h0]; simp; omega)) rest
    rw [this, h0]
  · rw [if_neg (by rw [h]; decide), if_pos h, if_neg (by rw [h]; decide), if_pos h]
    refine ⟨emitVerbatim_emits ss hw, fun rest => ?_⟩
    rw [he, ← hlen]
    exact readSubframe_verbatimBits hs hf rest
  · have h0 : getRes 2 u ≠ kindConstant := by rw [h]; decide
    have h1 : getRes 2 u ≠ kindVerbatim := by rw [h]; decide
    rw [if_neg h0, if_neg h1, if_neg h0, if_neg h1, hp, residualSectionError_none.mpr hleg]
    exact ⟨emitFixed_emits ss h4 hleg.first hleg.some.le hwr, fun rest =>
      readSubframe_fixedBits hr hs h4 hf hlen hleg hent rest⟩

/-- SF_ENCODE in its two parts: the choice, then the subframe it names, which is read back as the samples. -/
theorem runSfEncode_parts (hr : ReadsRice) {pl : Plane} {ss : Nat} {s : State} (hpl : pl ≠ .resp) (hs : 1 ≤ ss)
    (hl : legalSamples (sampleCount s) = true) (hw : Written pl 0 (sampleCount s) s.mem)
    (hf : SamplesFit ss (entries pl 0 (sampleCount s) s.mem)) :
    ∃ u, runSfChoose pl ss s = .ok u ∧ ChoiceOnly s u ∧ Progress (footSubframe s) s u ∧
      Chosen (sampleCount s) (entries pl 0 (sampleCount s) s.mem) u ∧
      (emitChosen pl ss (sampleCount s) u).Emits (chosenBits pl ss (sampleCount s) u) u ∧
      ∀ rest, readSubframe ss (sampleCount s) (chosenBits pl ss (sampleCount s) u ++ rest) =
        some (entries pl 0 (sampleCount s) s.mem, rest) := by
  obtain ⟨u, hu, hco, hc⟩ := runSfChoose_chosen hl hw hf
  have hp : (Run.ok u).Keeps (footSubframe s) s := hu ▸ runSfChoose_keeps pl ss s fun _ h => h
  have hl' := legalSamples_iff.mp hl
  have he : ∀ j, j < sampleCount s → readEntry pl j u.mem = readEntry pl j s.mem :=
    fun j hj => resp_apart hpl hl'.2 hp hj
  exact ⟨u, hu, hco, hp, hc, emitChosen_emits hr (pl := pl) (ss := ss) (u := u) hl'.1 hs hf
    (entries_congr fun j _ hj => he j (by omega)) (fun j h1 h2 => by rw [he j (by omega)]; exact hw j h1 h2) hc⟩

/-- The subframes of a frame complete and are read back as the samples of their planes. -/
theorem encodeSubframes_wrote (hr : ReadsRice) {n : Nat} (hn : 1 ≤ n ∧ n ≤ 65535) (fs : List (Plane × Nat)) (s : State)
    (hc : sampleCount s = n) (ha : SinkAccepts s)
    (hf : ∀ f ∈ fs, f.1 ≠ .resp ∧ 1 ≤ f.2 ∧ Written f.1 0 n s.mem ∧ SamplesFit f.2 (entries f.1 0 n s.mem)) :
    ∃ t bits, encodeSubframes fs s = .ok t ∧ Wrote bits s t ∧
      ∀ rest, readSubframes n fs (bits ++ rest) = some (fs.map fun f => entries f.1 0 n s.mem, rest) := by
  induction fs generalizing s with
  | nil => exact ⟨s, [], rfl, ChoiceOnly.wrote rfl, fun rest => rfl⟩
  | cons f fs ih =>
    obtain ⟨pl, ss⟩ := f
    obtain ⟨h1, h2, h3, h4⟩ := hf (pl, ss) (by simp)
    obtain ⟨u, hu, hco, hp, -, hb, hrd⟩ := runSfEncode_parts hr (s := s) h1 h2
      (legalSamples_iff.mpr (by rw [hc]; exact hn)) (by rwa [hc]) (by rwa [hc])
    have hwu := hco.wrote
    obtain ⟨t, ht, he⟩ := hb.completes (hwu.accepts ha)
    have hwt := hwu.trans he.wrote
    have hmem : ∀ pl, pl ≠ .resp → ∀ j < n, readEntry pl j t.mem = readEntry pl j s.mem := by
      intro pl hpl j hj
      rw [he.mem]
      exact resp_apart hpl (by rw [hc]; exact hn.2) hp (by rwa [hc])
    have hent : ∀ pl, pl ≠ .resp → entries pl 0 n t.mem = entries pl 0 n s.mem :=
      fun pl hpl => entries_congr fun j _ hj => hmem pl hpl j (by omega)
    obtain ⟨v, bits', hv, hwv, hrd'⟩ := ih t (by rw [hwt.count, hc]) (hwt.accepts ha) (by
      intro f hfm
      obtain ⟨k1, k2, k3, k4⟩ := hf f (by simp [hfm])
      refine ⟨k1, k2, fun j a b => ?_, ?_⟩
      · rw [hmem f.1 k1 j (by omega)]
        exact k3 j a b
      · rw [hent f.1 k1]
        exact k4)
    refine ⟨v, _ ++ bits', ?_, by simpa using hwt.trans hwv, fun rest => ?_⟩
    · show (runSfEncode pl ss s).andThen _ = _
      rw [runSfEncode, hu]
      show (emitChosen pl ss (sampleCount s) u).andThen (encodeSubframes fs) = _
      rw [ht]
      exact hv
    · rw [List.append_assoc, readSubframes, ← hc, hrd, hc]
      simp only
      rw [hrd']
      simp only [Option.map_some, List.map_cons]
      congr 3
      exact List.map_congr_left fun f hfm => hent f.1 (hf f (by simp [hfm])).1

/-! ### Errors inside a frame -/

/-- Writing a choice raises nothing but WRITE_FAILED. -/
theorem emitChosen_raises {pl : Plane} {ss n : Nat} {xs : List Int} {u v : State} {c : ErrorCode}
    (hw : Written pl 0 n u.mem) (hc : Chosen n xs u) (h : emitChosen pl ss n u = .error c v) : c = .writeFailed := by
  have key {bits : List Bool} {r : Run} (hr : r.Emits bits u) (e : r = .error c v) : c = .writeFailed := by
    rw [e] at hr
    exact hr.1
  unfold emitChosen at h
  rcases hc with ⟨h0, _⟩ | h0 | ⟨h0, p, hp, h4, hleg, hent, hwr⟩
  · rw [if_pos h0] at h
    split at h
    · cases h
    · exact key (emitConstant_emits ..) h
  · rw [if_neg (by rw [h0]; decide), if_pos h0] at h
    exact key (emitVerbatim_emits _ hw) h
  · rw [if_neg (by rw [h0]; decide), if_neg (by rw [h0]; decide), hp, residualSectionError_none.mpr hleg] at h
    exact key (emitFixed_emits ss h4 hleg.first hleg.some.le hwr) h

/-- An error of SF_ENCODE other than WRITE_FAILED is SF_CHOOSE's, with its state (spec/60_exceptions.md R365). -/
theorem runSfEncode_error {pl : Plane} {ss : Nat} {s v : State} {c : ErrorCode} (h : runSfEncode pl ss s = .error c v)
    (hc : c ≠ .writeFailed) : runSfChoose pl ss s = .error c v := by
  unfold runSfEncode at h
  have hk := runSfChoose_keeps pl ss s (f := footSubframe s) fun _ h => h
  rcases runSfChoose_cases pl ss s with ⟨f, e⟩ | ⟨e, -⟩ | e | ⟨u, xs, e, hr, -, hch⟩ <;> rw [e] at h
  · cases h
  · rw [e]
    exact h
  · rw [e]
    exact h
  · rw [e] at hk
    have hp : Progress (footSubframe s) s u := hk
    exact absurd (emitChosen_raises (hp.mem.written (readEntries_spec hr).2) hch h) hc

theorem Performs.append {a b : List Instr} {s t u : State} (h : Performs a s t) (h' : Performs b t u) :
    Performs (a ++ b) s u := by
  induction a generalizing s with
  | nil =>
    obtain rfl : t = s := h
    exact h'
  | cons i a ih =>
    obtain ⟨v, h1, h2, h3, h4⟩ := h
    exact ⟨v, h1, h2, h3, ih h4⟩

/-- A command's pseudocode that goes through has performed the command. -/
theorem performs_one {i : Instr} {s u : State} (h : runInstr i s = .ok u) : Performs [i] s u := by
  have hk := runInstr_keeps i s
  rw [h] at hk
  have hp : Progress _ s u := hk
  refine ⟨u, by rw [exec_eq, h]; rfl, ?_, ?_, rfl⟩ <;> rw [hp.rest]

/-- An error other than WRITE_FAILED among a frame's subframes is an SF_CHOOSE's RESIDUAL_RANGE, with the subframes before it
performed (spec/60_exceptions.md R369 (b)). -/
theorem encodeSubframes_error {fs : List (Plane × Nat)} {s v : State} {c : ErrorCode}
    (hn : legalSamples (sampleCount s) = true) (hfs : ∀ f ∈ fs, f.2 < 64) (h : encodeSubframes fs s = .error c v)
    (hc : c ≠ .writeFailed) :
    c = .residualRange ∧ ∃ before pl ss after u,
      (fs.map fun f => Instr.sfEncode f.1 (BitVec.ofNat 6 f.2)) = before ++ .sfEncode pl ss :: after ∧
      Performs before s u ∧ runSfChoose pl ss.toNat u = .error c v := by
  induction fs generalizing s with
  | nil => cases h
  | cons f fs ih =>
    obtain ⟨pl, ss⟩ := f
    have e : (BitVec.ofNat 6 ss).toNat = ss := by
      rw [BitVec.toNat_ofNat]
      exact Nat.mod_eq_of_lt (hfs (pl, ss) List.mem_cons_self)
    unfold encodeSubframes at h
    cases hr : runSfEncode pl ss s with
    | fault f =>
      rw [hr] at h
      cases h
    | error c' v' =>
      rw [hr] at h
      obtain ⟨rfl, rfl⟩ : c' = c ∧ v' = v := by simpa [Run.andThen] using h
      have h1 := runSfEncode_error hr hc
      refine ⟨?_, [], pl, BitVec.ofNat 6 ss, _, s, rfl, rfl, by rw [e]; exact h1⟩
      rcases runSfChoose_cases pl ss s with ⟨f, e'⟩ | ⟨-, hl⟩ | e' | ⟨u, xs, e', -⟩
      · rw [e'] at h1
        cases h1
      · rw [hn] at hl
        cases hl
      · rw [e'] at h1
        simp only [Run.error.injEq] at h1
        exact h1.1.symm
      · rw [e'] at h1
        cases h1
    | ok t =>
      rw [hr] at h
      have hi : runInstr (.sfEncode pl (BitVec.ofNat 6 ss)) s = .ok t := by
        simp only [runInstr, e]
        exact hr
      have hk := runInstr_keeps (.sfEncode pl (BitVec.ofNat 6 ss)) s
      rw [hi] at hk
      have hp : Progress _ s t := hk
      have hs : sampleCount t = sampleCount s := by rw [hp.rest]; rfl
      obtain ⟨h0, b, pl', ss', a, u, h1, h2, h3⟩ :=
        ih (s := t) (by rw [hs]; exact hn) (fun f hf => hfs f (List.mem_cons_of_mem _ hf)) h
      exact ⟨h0, .sfEncode pl (BitVec.ofNat 6 ss) :: b, pl', ss', a, u, by simp [h1],
        .append (a := [_]) (performs_one hi) h2, h3⟩

/-! ### What a frame performs -/

/-- A command that completes has kept the format, the count and what belongs to the command in progress. -/
theorem runInstr_operands {i : Instr} {s t : State} (h : runInstr i s = .ok t) :
    channelCount t = channelCount s ∧ bitDepth t = bitDepth s ∧ sampleCount t = sampleCount s ∧
      stereoOperand t = stereoOperand s := by
  have hk := runInstr_keeps i s
  rw [h] at hk
  have hp : Progress _ s t := hk
  rw [hp.rest]
  exact ⟨rfl, rfl, rfl, rfl⟩

/-- Subframes that are written are SF_ENCODEs performed in turn (spec/47_frame.md R341). -/
theorem encodeSubframes_performs {fs : List (Plane × Nat)} {s t : State} (hfs : ∀ f ∈ fs, f.2 < 64)
    (h : encodeSubframes fs s = .ok t) :
    Performs (fs.map fun f => Instr.sfEncode f.1 (BitVec.ofNat 6 f.2)) s t := by
  induction fs generalizing s with
  | nil =>
    obtain rfl : s = t := by simpa [encodeSubframes] using h
    rfl
  | cons f fs ih =>
    obtain ⟨pl, ss⟩ := f
    unfold encodeSubframes at h
    cases hr : runSfEncode pl ss s with
    | fault f =>
      rw [hr] at h
      cases h
    | error c v =>
      rw [hr] at h
      cases h
    | ok u =>
      rw [hr] at h
      have e : (BitVec.ofNat 6 ss).toNat = ss := by
        rw [BitVec.toNat_ofNat]
        exact Nat.mod_eq_of_lt (hfs (pl, ss) List.mem_cons_self)
      exact .append (a := [_]) (performs_one (i := .sfEncode pl (BitVec.ofNat 6 ss)) (by
        simp only [runInstr, e]
        exact hr)) (ih (fun f hf => hfs f (List.mem_cons_of_mem _ hf)) h)

theorem Run.andThen_ok {r : Run} {f : State → Run} {v : State} (h : r.andThen f = .ok v) :
    ∃ u, r = .ok u ∧ f u = .ok v := by
  cases r with
  | ok u => exact ⟨u, rfl, h⟩
  | error => cases h
  | fault => cases h

theorem frameSubframes_sizes {mode : StereoMode} {c bd : Nat} (hb : bd ≤ 32) :
    ∀ f ∈ frameSubframes mode c bd, f.2 < 64 := by
  intro f hf
  cases mode <;> simp only [frameSubframes, List.mem_map, List.mem_cons, List.not_mem_nil, or_false] at hf
  · obtain ⟨_, _, rfl⟩ := hf
    exact Nat.lt_of_le_of_lt hb (by decide)
  all_goals rcases hf with rfl | rfl <;> dsimp only <;> omega

/-- A frame's body that goes through has performed its commands, and then set its results (spec/47_frame.md R341). -/
theorem frameBody_performs {var : Bool} {mode : StereoMode} {s t : State} (hc : 1 ≤ channelCount s ∧ channelCount s ≤ 8)
    (hb : bitDepth s ≤ 32) (h : frameBody var mode s = .ok t) :
    ∃ u, Performs (frameCommands var mode (channelCount s) (bitDepth s) ++ [.bwFlush, .bwWriteCrc16]) s u ∧
      t = frameResults mode u := by
  obtain ⟨u, h, h6⟩ := Run.andThen_ok h
  obtain ⟨e, h, h5⟩ := Run.andThen_ok h
  obtain ⟨d, h, h4⟩ := Run.andThen_ok h
  obtain ⟨b, h, h3⟩ := Run.andThen_ok h
  obtain ⟨a, h1, h2⟩ := Run.andThen_ok h
  have ha : channelCount a = channelCount s ∧ bitDepth a = bitDepth s := by
    unfold frameTransform at h1
    split at h1
    · cases h1
      exact ⟨rfl, rfl⟩
    · have := runInstr_operands (i := .stTransform mode) h1
      exact ⟨this.1, this.2.1⟩
  have hca : frameAssignment mode (channelCount s) < 16 := by
    unfold frameAssignment
    cases mode <;> simp [StereoMode.code]
    omega
  have hh : runInstr (.bwWriteFrameHeader var (BitVec.ofNat 4 (frameAssignment mode (channelCount s)))) a = .ok b := by
    rw [ha.1] at h2
    simp only [runInstr, BitVec.toNat_ofNat]
    rwa [Nat.mod_eq_of_lt hca]
  have hbo := runInstr_operands hh
  rw [hbo.1, hbo.2.1, ha.1, ha.2] at h3
  have tail := ((performs_one hh).append (encodeSubframes_performs (frameSubframes_sizes hb) h3)).append
    ((performs_one (i := .bwFlush) h4).append (performs_one (i := .bwWriteCrc16) h5))
  refine ⟨u, ?_, by simpa using h6.symm⟩
  cases mode with
  | leftRight =>
    obtain rfl : s = a := by simpa [frameTransform] using h1
    simpa [frameCommands, frameAssignment, frameSubframes, channelPlane, Function.comp_def] using tail
  | leftSide => exact .append (a := [_]) (performs_one (i := .stTransform .leftSide) h1) tail
  | sideRight => exact .append (a := [_]) (performs_one (i := .stTransform .sideRight) h1) tail
  | midSide => exact .append (a := [_]) (performs_one (i := .stTransform .midSide) h1) tail

/-! ### The header -/

theorem fieldsBits_append (as bs : List (Nat × Nat)) : fieldsBits (as ++ bs) = fieldsBits as ++ fieldsBits bs := by
  simp [fieldsBits]

/-- Fields 1 to 8 fill whole bytes (spec/42_frame_header.md R208). -/
theorem headerFields_aligned (var : Bool) (ca bs num bd r : Nat) :
    (fieldsBits (headerFields var ca bs num bd r)).length % 8 = 0 := by
  have h1 : (fieldsBits ((utf8 num).map fun y => (8, y))).length % 8 = 0 := by
    generalize utf8 num = l
    induction l with
    | nil => rfl
    | cons a l ih =>
      simp only [fieldsBits, List.map_cons, List.flatMap_cons, List.length_append, fieldBits_length] at *
      omega
  have h2 : (fieldsBits (bsCode bs).trailer.toList).length % 8 = 0 := by
    unfold bsCode
    split; · rfl
    split; · rfl
    split; · rfl
    split <;> simp [fieldsBits]
  have h3 : (fieldsBits (srCode r).trailer.toList).length % 8 = 0 := by
    unfold srCode
    split; · rfl
    split; · rfl
    split; · simp [fieldsBits]
    split; · simp [fieldsBits]
    split <;> simp [fieldsBits]
  have h0 (a b c d e : Nat) : (fieldsBits [(16, a), (4, b), (4, c), (4, d), (4, e)]).length = 32 := by
    simp [fieldsBits]
  simp only [headerFields, fieldsBits_append, List.length_append, h0]
  omega

end Sys2Proof.Machine
end

