-- ==== Sys2Proof/Laws/HostPort.lean ====
section
/-! SUPPORT. Where a host access goes, and what BW_NBITS shows (spec/10_state.md R32, spec/20_memory.md R81, R86). -/

namespace Sys2Proof.Machine

theorem regAtWord_none {n : Nat} (h : 4 * n = 0x02C ∨ 0x080 ≤ 4 * n ∧ 4 * n < 0x400 ∨ 0x800 ≤ 4 * n) :
    regAtWord n = none := by
  unfold regAtWord
  iterate 11 rw [if_neg (by omega)]
  rw [if_neg (by omega), if_neg (by omega), if_neg (by omega)]

theorem regAtWord_offset (r : Reg) : regAtWord (r.offset / 4) = some r := by
  cases r with
  | arg i => revert i; decide
  | res i => revert i; decide
  | param j => revert j; decide +kernel
  | _ => rfl

theorem Reg.offset_lt (r : Reg) : r.offset < 0x800 ∧ r.offset % 4 = 0 := by
  cases r <;> simp [Reg.offset] <;> omega

theorem regAtWord_some {n : Nat} (h : 4 * n < 0x02C ∨ 0x030 ≤ 4 * n ∧ 4 * n < 0x080 ∨ 0x400 ≤ 4 * n ∧ 4 * n < 0x800) :
    ∃ r, regAtWord n = some r ∧ r.offset = 4 * n := by
  by_cases h1 : n < 11
  · interval_cases n <;> exact ⟨_, rfl, rfl⟩
  · by_cases h2 : n < 16
    · have : 12 ≤ n := by omega
      interval_cases n <;> exact ⟨_, rfl, rfl⟩
    · by_cases h3 : n < 32
      · interval_cases n <;> exact ⟨_, rfl, rfl⟩
      · refine ⟨.param (Fin.ofNat 256 (n - 256)), ?_, ?_⟩
        · unfold regAtWord
          iterate 11 rw [if_neg (by omega)]
          rw [if_neg (by omega), if_neg (by omega), if_pos (by omega)]
        · simp only [Reg.offset, Fin.ofNat]
          omega

theorem locate_illegal {offset : BitVec 22} {width : Nat} (h : ¬ LegalAccess offset width) :
    locate offset width = none := by
  unfold locate
  simp only
  split
  · rfl
  · next hw =>
    have hw := not_or.mp hw
    have hm : ¬ mapped offset := fun hm => h ⟨Classical.not_not.mp hw.1, Classical.not_not.mp hw.2, hm⟩
    have h4 := Classical.not_not.mp hw.2
    simp only [mapped] at hm
    split
    · rw [regAtWord_none (by omega)]
      rfl
    · rw [if_pos (by omega)]

theorem locate_register {offset : BitVec 22} (h : LegalAccess offset 4) (hr : offset.toNat < 0x800) :
    ∃ r, locate offset 4 = some (.reg r) ∧ r.offset = offset.toNat := by
  obtain ⟨-, h4, hm⟩ := h
  simp only [mapped] at hm
  obtain ⟨r, h1, h2⟩ := regAtWord_some (n := offset.toNat / 4) (by omega)
  refine ⟨r, ?_, by omega⟩
  unfold locate
  simp only
  rw [if_neg (by simp [h4]), if_pos hr, h1]
  rfl

theorem locate_plane_eq {offset : BitVec 22} (h4 : offset.toNat % 4 = 0) (hp : 0x100000 ≤ offset.toNat) :
    locate offset 4 = some (.plane offset.toNat) := by
  unfold locate
  simp only
  rw [if_neg (by simp [h4]), if_neg (by omega), if_neg (by omega)]

theorem locate_offset (r : Reg) : locate (BitVec.ofNat 22 r.offset) 4 = some (.reg r) := by
  have := r.offset_lt
  have e : (BitVec.ofNat 22 r.offset).toNat = r.offset := by
    rw [BitVec.toNat_ofNat]
    exact Nat.mod_eq_of_lt (by omega)
  unfold locate
  simp only [e]
  rw [if_neg (by simp [this.2]), if_pos this.1, regAtWord_offset]
  rfl

/-! ### BW_NBITS -/

@[simp] theorem bitsInProgress_idle {s : State} (h : s.engine = .idle) : bitsInProgress s = 0 := by
  simp [bitsInProgress, h]

@[simp] theorem nbitsSeen_idle {s : State} (h : s.engine = .idle) : nbitsSeen s = s.nb := by simp [nbitsSeen, h]

theorem bitsInProgress_busy {s : State} {w : Word} {stereo : Bool} {i : Instr} (h : s.engine = .busy w stereo)
    (hi : decode w = some i) : bitsInProgress s = bitsAhead i s := by simp [bitsInProgress, h, hi]

/-- BW_NBITS is `nb` after some of the bits still to come. -/
theorem nbitsSeen_spec (s : State) : ∃ b ≤ bitsInProgress s, nbitsSeen s = s.nb + BitVec.ofNat 3 b := by
  unfold nbitsSeen
  split
  · exact ⟨0, by omega, by simp⟩
  · exact ⟨_, Nat.lt_succ_iff.mp (Nat.mod_lt _ (by omega)), rfl⟩

/-- A command that a check refuses writes no bit. -/
theorem bitsWritten_refused {s : State} {c : ErrorCode} (hc : c ≠ .writeFailed) : bitsWritten s (.error c s) = 0 := by
  cases c <;> simp_all [bitsWritten]

/-- A part that writes exactly `bits` counts them (spec/41_bitwriter.md R153). -/
theorem bitsWritten_emitted {bits : List Bool} {s t : State} (h : Emitted bits s t) :
    bitsWritten s (.ok t) = bits.length := by
  have h1 := congrArg List.length h.stream
  obtain ⟨bs, h2, -⟩ := h.bytes
  rw [List.length_append, stream_length, stream_length, h2, List.length_append] at h1
  simp only [bitsWritten, h2, List.length_append]
  omega

/-- A refused access while idle (spec/60_exceptions.md R368). -/
theorem hostAccessError_idle {s : State} (h : s.engine = .idle) :
    hostAccessError s = .next (errorEntry .hostAccess s) := by
  simp [hostAccessError, interrupt_idle h, busy_eq_false.mpr h]

/-- Once ERR is set only a reset event clears it. -/
theorem hostEvent_keeps_error {e : HostEvent} {s t : State} (h : hostEvent e s = .next t) (he : s.err = true) :
    (t.err = true ∧ t.errCode = s.errCode) ∨ e = .hardReset ∨
      ∃ v, v.getLsbD 0 = true ∧ e = .write 0x008 4 v := by
  have refused {u : State} (hu : u = s ∨ u = returns 0 s) (h : hostAccessError u = .next t) :
      t.err = true ∧ t.errCode = s.errCode := by
    obtain ⟨x, hx, rfl⟩ := hostAccessError_next h
    have hi := (interrupt_ok hx).rest
    have e1 : u.err = true ∧ u.errCode = s.errCode := by rcases hu with rfl | rfl <;> exact ⟨he, rfl⟩
    have e2 : x.err = true ∧ x.errCode = s.errCode := by rw [hi]; exact e1
    refine ⟨rfl, ?_⟩
    split <;> simp [e2]
  cases e with
  | hardReset => exact .inr (.inl rfl)
  | read offset width =>
    left
    simp only [hostEvent, hostRead] at h
    split at h
    · exact refused (.inr rfl) h
    · next r _ =>
      obtain rfl : readReg r s = t := by simpa using h
      unfold readReg
      split
      · exact ⟨he, rfl⟩
      · split <;> exact ⟨he, rfl⟩
    · split at h
      · exact refused (.inr rfl) h
      · next a _ _ =>
        obtain rfl : readPlane a s = t := by simpa using h
        unfold readPlane
        split <;> exact ⟨he, rfl⟩
  | write offset width v =>
    have ctrl (hl : locate offset width = some (.reg .ctrl)) (h : writeCtrl v s = .next t) :
        (t.err = true ∧ t.errCode = s.errCode) ∨ HostEvent.write offset width v = .hardReset ∨
          ∃ w, w.getLsbD 0 = true ∧ HostEvent.write offset width v = .write 0x008 4 w := by
      unfold writeCtrl at h
      split at h
      · next hv =>
        refine .inr (.inr ⟨v, hv, ?_⟩)
        have hleg : LegalAccess offset width := Classical.not_not.mp fun hn => by simp [locate_illegal hn] at hl
        obtain rfl := hleg.1
        have hlt : offset.toNat < 0x800 := by
          by_contra hp
          have hm := hleg.2.2
          simp only [mapped] at hm
          simp [locate_plane_eq hleg.2.1 (by omega)] at hl
        obtain ⟨r, h1, h2⟩ := locate_register hleg hlt
        rw [hl] at h1
        obtain rfl : Reg.ctrl = r := by simpa using h1
        have : offset = 0x008#22 := BitVec.eq_of_toNat_eq (by rw [← h2]; rfl)
        rw [this]
        rfl
      · obtain rfl : setCtrl v s = t := by simpa using h
        exact .inl ⟨he, rfl⟩
    simp only [hostEvent, hostWrite] at h
    split at h
    · exact .inl (refused (.inl rfl) h)
    · next r hl =>
      split at h
      · cases r <;> simp only [writeRegBusy] at h
        case ctrl => exact ctrl hl h
        case status =>
          obtain rfl : setStatus v s = t := by simpa using h
          exact .inl ⟨he, rfl⟩
        all_goals exact .inl (refused (.inl rfl) h)
      · cases r <;> simp only [writeReg, Host.Outcome.next.injEq] at h
        case ctrl => exact ctrl hl h
        case cmd =>
          obtain rfl : s = t := by simpa [issue, he] using h
          exact .inl ⟨he, rfl⟩
        all_goals (subst h; exact .inl ⟨he, rfl⟩)
    · split at h
      · exact .inl (refused (.inl rfl) h)
      · obtain rfl : { s with mem := s.mem.writeWord _ v } = t := by simpa using h
        exact .inl ⟨he, rfl⟩

end Sys2Proof.Machine
end

