-- ==== Sys2Proof/Laws/PerInstr.lean ====
section
/-! SUPPORT. The encoding of every instruction lies in its own row of spec/opcode_table.json. -/

namespace Sys2Proof.Laws.TableRow

/-- The command word belongs to the instruction's row: it agrees with the row's pattern on the row's mask. -/
def Statement (i : Instr) : Prop := encode i &&& i.row.mask = i.row.pattern

theorem nop : Statement .nop := rfl

theorem bwCrcReset : Statement .bwCrcReset := rfl

theorem bwWriteBits (n7 : BitVec 7) : Statement (.bwWriteBits n7) := by
  unfold Statement
  revert n7
  decide +kernel

theorem bwWriteBitsWrapped (n7 : BitVec 7) : Statement (.bwWriteBitsWrapped n7) := by
  unfold Statement
  revert n7
  decide +kernel

theorem bwWriteUnary : Statement .bwWriteUnary := rfl

theorem bwFlush : Statement .bwFlush := rfl

theorem bwWriteCrc8 : Statement .bwWriteCrc8 := rfl

theorem bwWriteCrc16 : Statement .bwWriteCrc16 := rfl

theorem bwWriteConstant (ss : BitVec 6) : Statement (.bwWriteConstant ss) := by
  unfold Statement
  revert ss
  decide +kernel

theorem bwWriteVerbatim (pl : Plane) (ss : BitVec 6) : Statement (.bwWriteVerbatim pl ss) := by
  simp only [Statement, encode, Instr.opcode, Instr.fieldBits, Instr.row]
  generalize pl.code = c
  revert c ss
  decide +kernel

theorem bwWriteFixed (ord : BitVec 3) (ss : BitVec 6) : Statement (.bwWriteFixed ord ss) := by
  unfold Statement
  revert ord ss
  decide +kernel

theorem bwWriteFrameHeader (var : Bool) (ca : BitVec 4) : Statement (.bwWriteFrameHeader var ca) := by
  unfold Statement
  revert var ca
  decide +kernel

theorem fpBestOrder (pl : Plane) (cr : Bool) : Statement (.fpBestOrder pl cr) := by
  simp only [Statement, encode, Instr.opcode, Instr.fieldBits, Instr.row]
  generalize pl.code = c
  revert c cr
  decide +kernel

theorem fpResiduals (pl : Plane) (ord : BitVec 3) : Statement (.fpResiduals pl ord) := by
  simp only [Statement, encode, Instr.opcode, Instr.fieldBits, Instr.row]
  generalize pl.code = c
  revert c ord
  decide +kernel

theorem rcZigzag : Statement .rcZigzag := rfl

theorem rcWriteRice (k : BitVec 5) : Statement (.rcWriteRice k) := by
  unfold Statement
  revert k
  decide +kernel

theorem rcOptimise (ord : BitVec 3) (umax : BitVec 4) (maxk : BitVec 5) : Statement (.rcOptimise ord umax maxk) := by
  unfold Statement
  revert ord umax maxk
  decide +kernel

theorem rcEstimate : Statement .rcEstimate := rfl

theorem rcWriteResiduals (ord : BitVec 3) : Statement (.rcWriteResiduals ord) := by
  unfold Statement
  revert ord
  decide +kernel

theorem stChoose : Statement .stChoose := rfl

theorem stTransform (mode : StereoMode) : Statement (.stTransform mode) := by
  cases mode <;> rfl

theorem sfChoose (pl : Plane) (ss : BitVec 6) : Statement (.sfChoose pl ss) := by
  simp only [Statement, encode, Instr.opcode, Instr.fieldBits, Instr.row]
  generalize pl.code = c
  revert c ss
  decide +kernel

theorem sfEncode (pl : Plane) (ss : BitVec 6) : Statement (.sfEncode pl ss) := by
  simp only [Statement, encode, Instr.opcode, Instr.fieldBits, Instr.row]
  generalize pl.code = c
  revert c ss
  decide +kernel

theorem frameEncode (var : Bool) : Statement (.frameEncode var) := by
  unfold Statement
  revert var
  decide +kernel

end Sys2Proof.Laws.TableRow
end

