-- ==== Sys2Proof/Laws/Sink.lean ====
section
/-! SUPPORT. A command on a sink that accepts `k` bytes and then fails one follows the command on a sink that always
accepts, up to that byte (spec/20_memory.md R97, spec/70_reset_and_hazards.md R421). -/

namespace Sys2Proof.Machine

/-- A sink that accepts `k` bytes, fails one, and then answers `rest`. -/
def failing (k : Nat) (rest : List SinkAnswer) : List SinkAnswer := List.replicate k .accept ++ .fail :: rest

/-- `s` before a sink with other answers. -/
def withSink (l : List SinkAnswer) (s : State) : State := { s with sink := l }

/-- `t` comes after `s` on an accepting sink: bytes were added, the status is untouched. -/
def Later (s t : State) (bs : List Byte) : Prop :=
  t.out = s.out ++ bs ∧ t.sink = [] ∧ t.done = s.done ∧ t.err = s.err ∧ t.errCode = s.errCode

/-- What byte `k` failed leaves, `t` being where the command gets on an accepting sink. -/
def Cut (k : Nat) (rest : List SinkAnswer) (s t : State) (r : Run) : Prop :=
  ∃ u, r = .error .writeFailed u ∧ u.out = t.out.take (s.out.length + k) ∧ u.sink = rest ∧ u.done = s.done ∧
    u.err = s.err ∧ u.errCode = s.errCode

/-- `r`, on the failing sink, follows `r0`, on the accepting one. -/
def Run.Follows (k : Nat) (rest : List SinkAnswer) (s : State) (r0 r : Run) : Prop :=
  match r0 with
  | .ok t => ∃ bs, Later s t bs ∧
      (bs.length ≤ k ∧ r = .ok (withSink (failing (k - bs.length) rest) t) ∨ k < bs.length ∧ Cut k rest s t r)
  | .error c t => c ≠ .writeFailed ∧ ∃ bs, Later s t bs ∧
      (bs.length ≤ k ∧ r = .error c (withSink (failing (k - bs.length) rest) t) ∨ k < bs.length ∧ Cut k rest s t r)
  | .fault _ => True

/-- Pseudocode that follows itself on every failing sink. -/
def FollowsSink (f : State → Run) : Prop :=
  ∀ s k rest, s.sink = [] → (f s).Follows k rest s (f (withSink (failing k rest) s))

theorem Later.trans {s t u : State} {as bs : List Byte} (h : Later s t as) (h' : Later t u bs) :
    Later s u (as ++ bs) := by
  obtain ⟨h1, h2, h3, h4, h5⟩ := h
  obtain ⟨g1, g2, g3, g4, g5⟩ := h'
  exact ⟨by simp [g1, h1], g2, g3.trans h3, g4.trans h4, g5.trans h5⟩

theorem Cut.extend {k : Nat} {rest : List SinkAnswer} {s t u : State} {as bs : List Byte} {r : Run}
    (h : Cut k rest s t r) (ht : Later s t as) (hu : Later t u bs) (hk : k < as.length) : Cut k rest s u r := by
  obtain ⟨v, h1, h2, h3⟩ := h
  refine ⟨v, h1, ?_, h3⟩
  rw [h2, hu.1, List.take_append_of_le_length]
  rw [ht.1, List.length_append]
  omega

theorem Run.Follows.andThen {r0 r : Run} {g : State → Run} {s : State} {k : Nat} {rest : List SinkAnswer}
    (h : r0.Follows k rest s r) (hg : FollowsSink g) : (r0.andThen g).Follows k rest s (r.andThen g) := by
  cases r0 with
  | fault x => trivial
  | error c t =>
    obtain ⟨hc, bs, hl, ⟨hk, rfl⟩ | ⟨hk, v, rfl, hv⟩⟩ := h
    · exact ⟨hc, bs, hl, .inl ⟨hk, rfl⟩⟩
    · exact ⟨hc, bs, hl, .inr ⟨hk, v, rfl, hv⟩⟩
  | ok t =>
    obtain ⟨as, hl, ⟨hk, rfl⟩ | ⟨hk, hcut⟩⟩ := h
    · have h' := hg t (k - as.length) rest hl.2.1
      have lift {u : State} {r : Run} (hc : Cut (k - as.length) rest t u r) : Cut k rest s u r := by
        obtain ⟨v, h1, h2, h3, h4, h5, h6⟩ := hc
        refine ⟨v, h1, ?_, h3, h4.trans hl.2.2.1, h5.trans hl.2.2.2.1, h6.trans hl.2.2.2.2⟩
        rw [h2, hl.1, List.length_append, Nat.add_assoc, Nat.add_sub_cancel' hk]
      show (g t).Follows k rest s (g (withSink (failing (k - as.length) rest) t))
      cases hgt : g t with
      | fault x => trivial
      | ok u =>
        rw [hgt] at h'
        obtain ⟨bs, hu, ⟨hb, hr'⟩ | ⟨hb, hc⟩⟩ := h'
        · refine ⟨as ++ bs, hl.trans hu, .inl ⟨by simp; omega, ?_⟩⟩
          rw [hr', List.length_append, Nat.sub_sub]
        · exact ⟨as ++ bs, hl.trans hu, .inr ⟨by simp; omega, lift hc⟩⟩
      | error c u =>
        rw [hgt] at h'
        obtain ⟨hne, bs, hu, ⟨hb, hr'⟩ | ⟨hb, hc⟩⟩ := h'
        · refine ⟨hne, as ++ bs, hl.trans hu, .inl ⟨by simp; omega, ?_⟩⟩
          rw [hr', List.length_append, Nat.sub_sub]
        · exact ⟨hne, as ++ bs, hl.trans hu, .inr ⟨by simp; omega, lift hc⟩⟩
    · have h' := hg t 0 rest hl.2.1
      have hcut' {u : State} {bs : List Byte} (hu : Later t u bs) : Cut k rest s u (r.andThen g) := by
        obtain ⟨v, h1, h2⟩ := hcut.extend hl hu hk
        exact ⟨v, by rw [h1]; rfl, h2⟩
      show (g t).Follows k rest s (r.andThen g)
      cases hgt : g t with
      | fault x => trivial
      | ok u =>
        rw [hgt] at h'
        obtain ⟨bs, hu, -⟩ := h'
        exact ⟨as ++ bs, hl.trans hu, .inr ⟨by simp; omega, hcut' hu⟩⟩
      | error c u =>
        rw [hgt] at h'
        obtain ⟨hne, bs, hu, -⟩ := h'
        exact ⟨hne, as ++ bs, hl.trans hu, .inr ⟨by simp; omega, hcut' hu⟩⟩

theorem FollowsSink.andThen {f g : State → Run} (hf : FollowsSink f) (hg : FollowsSink g) :
    FollowsSink fun s => (f s).andThen g := fun s k rest hs => (hf s k rest hs).andThen hg

theorem later_refl {s : State} (h : s.sink = []) : Later s s [] := ⟨by simp, h, rfl, rfl, rfl⟩

/-- `t` is `s` but for what neither the sink nor the status shows. -/
def SameSink (s t : State) : Prop :=
  t.out = s.out ∧ t.sink = s.sink ∧ t.done = s.done ∧ t.err = s.err ∧ t.errCode = s.errCode

/-- Updates that touch neither the sink nor the status. -/
theorem pure_follows {h : State → State} (hc : ∀ l s, h (withSink l s) = withSink l (h s) ∧ SameSink s (h s)) :
    FollowsSink fun s => .ok (h s) := by
  intro s k rest hs
  obtain ⟨h1, h2, h3, h4⟩ := (hc [] s).2
  exact ⟨[], ⟨by simp [h1], h2.trans hs, h3, h4⟩, .inl ⟨by simp, by simp [(hc _ s).1]⟩⟩

theorem follows_ok : FollowsSink .ok := fun s k rest h => ⟨[], later_refl h, .inl ⟨by simp, rfl⟩⟩

theorem follows_error {c : ErrorCode} {s : State} {k : Nat} {rest : List SinkAnswer} (hc : c ≠ .writeFailed)
    (h : s.sink = []) : Run.Follows k rest s (.error c s) (.error c (withSink (failing k rest) s)) :=
  ⟨hc, [], later_refl h, .inl ⟨by simp, rfl⟩⟩

theorem emitByte_follows (b : State → Byte) (hb : ∀ l s, b (withSink l s) = b s) :
    FollowsSink fun s => emitByte (b s) s := by
  intro s k rest hs
  have h0 : emitByte (b s) s = .ok (acceptByte (b s) s) := by simp [emitByte, hs]
  show Run.Follows k rest s (emitByte (b s) s)
    (emitByte (b (withSink (failing k rest) s)) (withSink (failing k rest) s))
  rw [h0, hb]
  refine ⟨[b s], ⟨rfl, by simp [hs], rfl, rfl, rfl⟩, ?_⟩
  cases k with
  | zero =>
    refine .inr ⟨by simp, { s with sink := rest }, by simp [emitByte, withSink, failing], ?_, rfl, rfl, rfl, rfl⟩
    simp
  | succ k =>
    refine .inl ⟨by simp, ?_⟩
    simp [emitByte, withSink, failing, List.replicate_succ, acceptByte]

theorem emitBit_follows (x : Bool) : FollowsSink (emitBit x) := by
  intro s k rest hs
  unfold emitBit
  simp only
  by_cases hn : s.nb = 7
  · rw [if_pos hn, if_pos (show (withSink (failing k rest) s).nb = 7 from hn)]
    exact emitByte_follows (fun _ => s.acc ++ BitVec.ofBool x) (fun _ _ => rfl) { s with acc := 0, nb := 0 } k rest hs
  · rw [if_neg hn, if_neg (show ¬ (withSink (failing k rest) s).nb = 7 from hn)]
    exact ⟨[], ⟨by simp, hs, rfl, rfl, rfl⟩, .inl ⟨by simp, rfl⟩⟩

theorem emitBits_follows (n v : Nat) : FollowsSink (emitBits n v) := by
  induction n with
  | zero => exact follows_ok
  | succ n ih => exact (emitBit_follows (v.testBit n)).andThen ih

theorem emitZeros_follows (q : Nat) : FollowsSink (emitZeros q) := by
  induction q with
  | zero => exact follows_ok
  | succ q ih => exact (emitBit_follows false).andThen ih

theorem emitUnary_follows (q : Nat) : FollowsSink (emitUnary q) := (emitZeros_follows q).andThen (emitBit_follows true)

theorem emitFlush_follows : FollowsSink emitFlush := by
  intro s k rest hs
  unfold emitFlush
  by_cases hn : s.nb = 0
  · rw [if_pos hn, if_pos (show (withSink (failing k rest) s).nb = 0 from hn)]
    exact follows_ok s k rest hs
  · rw [if_neg hn, if_neg (show ¬ (withSink (failing k rest) s).nb = 0 from hn)]
    exact emitBits_follows _ 0 s k rest hs

theorem emitFields_follows (fs : List (Nat × Nat)) : FollowsSink (emitFields fs) := by
  induction fs with
  | nil => exact follows_ok
  | cons f fs ih => exact (emitBits_follows f.1 f.2).andThen ih

theorem emitEntries_follows {emit : Int → State → Run} (he : ∀ v, FollowsSink (emit v)) (pl : Plane) (i n : Nat) :
    FollowsSink (emitEntries emit pl i n) := by
  induction n generalizing i with
  | zero => exact follows_ok
  | succ n ih =>
    intro s k rest hs
    simp only [emitEntries, show (withSink (failing k rest) s).mem = s.mem from rfl]
    cases readEntry pl i s.mem with
    | none => trivial
    | some v => exact ((he v).andThen (ih (i + 1))) s k rest hs

theorem emitRice_follows (k : Nat) (v : Int) : FollowsSink (emitRice k v) :=
  (emitUnary_follows _).andThen (emitBits_follows _ _)

theorem emitConstant_follows (ss : Nat) (v : Int) : FollowsSink (emitConstant ss v) :=
  (emitBits_follows _ _).andThen (emitBits_follows _ _)

theorem emitVerbatim_follows (pl : Plane) (ss n : Nat) : FollowsSink (emitVerbatim pl ss n) :=
  (emitBits_follows _ _).andThen (emitEntries_follows (fun _ => emitBits_follows _ _) _ _ _)

theorem emitPartition_follows (p n j : Nat) : FollowsSink (emitPartition p n j) := by
  intro s k rest hs
  exact ((emitBits_follows _ _).andThen (emitEntries_follows (emitRice_follows _) _ _ _)) s k rest hs

theorem emitPartitions_follows (p n j count : Nat) : FollowsSink (emitPartitions p n j count) := by
  induction count generalizing j with
  | zero => exact follows_ok
  | succ count ih => exact (emitPartition_follows p n j).andThen (ih (j + 1))

theorem emitResidualSection_follows (p n : Nat) : FollowsSink (emitResidualSection p n) := by
  intro s k rest hs
  exact (((emitBits_follows 2 _).andThen (emitBits_follows 4 _)).andThen (emitPartitions_follows p n 0 _)) s k rest hs

theorem emitFixed_follows (ss p n : Nat) : FollowsSink (emitFixed ss p n) :=
  ((emitBits_follows _ _).andThen (emitEntries_follows (fun _ => emitBits_follows _ _) _ _ _)).andThen
    (emitResidualSection_follows p n)

theorem emitFooter_follows : FollowsSink emitFooter := by
  intro s k rest hs
  exact ((emitByte_follows (fun _ => s.crc16.extractLsb' 8 8) fun _ _ => rfl).andThen
    (emitByte_follows (fun _ => s.crc16.extractLsb' 0 8) fun _ _ => rfl)) s k rest hs

theorem runBwWriteCrc16_follows : FollowsSink runBwWriteCrc16 := emitFlush_follows.andThen emitFooter_follows

/-- A check, the same on every sink, before pseudocode that follows. -/
theorem Run.Follows.check {P P' : Prop} [Decidable P] [Decidable P'] {c : ErrorCode} {r0 r : Run} {s : State} {k : Nat}
    {rest : List SinkAnswer} (hc : c ≠ .writeFailed) (hs : s.sink = []) (hP : P' ↔ P) (h : r0.Follows k rest s r) :
    (if P then .error c s else r0 : Run).Follows k rest s
      (if P' then .error c (withSink (failing k rest) s) else r) := by
  by_cases hp : P
  · rw [if_pos hp, if_pos (hP.mpr hp)]
    exact follows_error hc hs
  · rw [if_neg hp, if_neg fun h' => hp (hP.mp h')]
    exact h

theorem Run.Follows.withEntries {e : Except Fault (List Int)} {g0 g : List Int → Run} {s : State} {k : Nat}
    {rest : List SinkAnswer} (h : ∀ xs, (g0 xs).Follows k rest s (g xs)) :
    (withEntries e g0).Follows k rest s (withEntries e g) := by
  cases e with
  | error f => trivial
  | ok xs => exact h xs

theorem runBwWriteFrameHeader_follows (var : Bool) (ca : Nat) : FollowsSink (runBwWriteFrameHeader var ca) := by
  intro s k rest hs
  refine .check (by decide) hs .rfl ?_
  refine .check (by decide) hs .rfl ?_
  refine .check (by decide) hs .rfl ?_
  refine .check (by decide) hs .rfl ?_
  refine .check (by decide) hs .rfl ?_
  have h1 : FollowsSink fun s => .ok (clearSpan s) := pure_follows fun _ _ => ⟨rfl, rfl, rfl, rfl, rfl, rfl⟩
  exact (h1.andThen (((emitFields_follows _).andThen emitFlush_follows).andThen
    (emitByte_follows State.crc8 fun _ _ => rfl))) s k rest hs

theorem setRes_withSink (i : Nat) (v : Word) (l : List SinkAnswer) (s : State) :
    setRes i v (withSink l s) = withSink l (setRes i v s) := rfl

theorem setRes64_withSink (i : Nat) (v : DWord) (l : List SinkAnswer) (s : State) :
    setRes64 i v (withSink l s) = withSink l (setRes64 i v s) := rfl

theorem setParams_sink (l : List SinkAnswer) (j : Nat) (ks : List Nat) (s : State) :
    setParams j ks (withSink l s) = withSink l (setParams j ks s) ∧ SameSink s (setParams j ks s) := by
  induction ks generalizing j s with
  | nil => exact ⟨rfl, rfl, rfl, rfl, rfl, rfl⟩
  | cons k ks ih => exact ih (j + 1) { s with param := s.param.setIfInBounds j (BitVec.ofNat 5 k) }

theorem setChoice_sink (l : List SinkAnswer) (c : RiceChoice) (s : State) :
    setChoice c (withSink l s) = withSink l (setChoice c s) ∧ SameSink s (setChoice c s) :=
  setParams_sink l 0 c.params { s with porder := BitVec.ofNat 4 c.order, method := c.method }

theorem runStChoose_follows : FollowsSink runStChoose := by
  intro s k rest hs
  refine .check (by decide) hs .rfl ?_
  refine .withEntries fun xs => .withEntries fun ys => ?_
  exact pure_follows (h := stereoResults (stereoSums xs ys) (sampleCount s)) 
    (fun _ _ => by simp [SameSink, stereoResults, setRes_withSink, setRes64_withSink]) s k rest hs

theorem runStTransform_follows (mode : StereoMode) : FollowsSink (runStTransform mode) := by
  intro s k rest hs
  refine .check (by decide) hs .rfl ?_
  exact .withEntries fun xs => .withEntries fun ys => ⟨[], ⟨by simp, hs, rfl, rfl, rfl⟩, .inl ⟨by simp, rfl⟩⟩

theorem residualSectionError_ne {p n : Nat} {s : State} {c : ErrorCode} (h : residualSectionError p n s = some c) :
    c ≠ .writeFailed := by
  have : c.Raised := residualSectionError_raised h
  unfold residualSectionError at h
  simp only at h
  repeat' split at h
  all_goals first
    | (cases h; decide)
    | (obtain ⟨j, _, hj⟩ := List.exists_of_findSome?_eq_some h
       cases hm : s.method <;> simp only [hm, paramError] at hj <;> repeat' split at hj
       all_goals first | (cases hj; decide) | cases hj)

theorem Run.Follows.sectionCheck {p n : Nat} {r0 r : Run} {s : State} {k : Nat} {rest : List SinkAnswer}
    (hs : s.sink = []) (h : r0.Follows k rest s r) :
    (match residualSectionError p n s with
      | some c => .error c s
      | none => r0 : Run).Follows k rest s
      (match residualSectionError p n s with
      | some c => .error c (withSink (failing k rest) s)
      | none => r) := by
  cases h' : residualSectionError p n s with
  | some c => exact follows_error (residualSectionError_ne h') hs
  | none => exact h

theorem silent_follows {s t : State} {k : Nat} {rest : List SinkAnswer} (hs : s.sink = []) (h : SameSink s t) :
    Run.Follows k rest s (.ok t) (.ok (withSink (failing k rest) t)) := by
  obtain ⟨h1, h2, h3⟩ := h
  exact ⟨[], ⟨by simp [h1], h2.trans hs, h3⟩, .inl ⟨by simp, rfl⟩⟩

theorem chooseFixed_follows (ss n p : Nat) (xs : List Int) : FollowsSink (chooseFixed ss n p xs) := by
  intro s k rest hs
  refine .check (by decide) hs .rfl ?_
  refine pure_follows (h := fun s =>
    let t : State := { s with mem := writeEntries .resp 0 (residualSet p xs) s.mem }
    let c := optimise n p Config.maxPartitionOrder (chooserMaxParam ss) ((residualSet p xs).drop p)
    setRes 2 (if c.total.toNat < n * ss then kindFixed else kindVerbatim)
      (setRes64 0 c.total (setChoice c (setRes 3 (BitVec.ofNat 32 p) t)))) (fun l s => ?_) s k rest hs
  have hch := setChoice_sink l
    (optimise n p Config.maxPartitionOrder (chooserMaxParam ss) ((residualSet p xs).drop p))
    (setRes 3 (BitVec.ofNat 32 p) { s with mem := writeEntries .resp 0 (residualSet p xs) s.mem })
  have e : ({ withSink l s with mem := writeEntries .resp 0 (residualSet p xs) (withSink l s).mem } : State) =
    withSink l { s with mem := writeEntries .resp 0 (residualSet p xs) s.mem } := rfl
  obtain ⟨h1, h2, h3, h4, h5, h6⟩ := hch
  simp only [e, setRes_withSink, h1, setRes64_withSink]
  exact ⟨trivial, by simp [h2], by simp [h3], by simp [h4], by simp [h5], by simp [h6]⟩

theorem chooseOver_follows (ss n : Nat) (xs : List Int) : FollowsSink (chooseOver ss n xs) := by
  intro s k rest hs
  unfold chooseOver
  simp only [show (withSink (failing k rest) s).sumStart = s.sumStart from rfl, setRes_withSink, setRes64_withSink]
  split
  · exact silent_follows hs ⟨rfl, rfl, rfl, rfl, rfl⟩
  · split
    · exact silent_follows hs ⟨rfl, rfl, rfl, rfl, rfl⟩
    · split
      · exact silent_follows hs ⟨rfl, rfl, rfl, rfl, rfl⟩
      · exact chooseFixed_follows ss n _ xs s k rest hs

theorem clearResults_follows : FollowsSink fun s => .ok (clearResults s) :=
  pure_follows fun _ _ => by simp [SameSink, clearResults, setRes_withSink]

theorem runSfChoose_follows (pl : Plane) (ss : Nat) : FollowsSink (runSfChoose pl ss) := by
  intro s k rest hs
  refine .check (by decide) hs .rfl (.withEntries fun xs => ?_)
  exact (clearResults_follows.andThen (chooseOver_follows ss (sampleCount s) xs)) s k rest hs

theorem emitChosen_follows (pl : Plane) (ss n : Nat) : FollowsSink (emitChosen pl ss n) := by
  intro s k rest hs
  unfold emitChosen
  simp only [show ∀ i, getRes i (withSink (failing k rest) s) = getRes i s from fun _ => rfl,
    show (withSink (failing k rest) s).mem = s.mem from rfl]
  by_cases h1 : getRes 2 s = kindConstant
  · rw [if_pos h1, if_pos h1]
    cases readEntry pl 0 s.mem with
    | none => trivial
    | some v => exact emitConstant_follows ss v s k rest hs
  · rw [if_neg h1, if_neg h1]
    by_cases h2 : getRes 2 s = kindVerbatim
    · rw [if_pos h2, if_pos h2]
      exact emitVerbatim_follows pl ss n s k rest hs
    · rw [if_neg h2, if_neg h2]
      exact .sectionCheck hs (emitFixed_follows ss _ n s k rest hs)

theorem runSfEncode_follows (pl : Plane) (ss : Nat) : FollowsSink (runSfEncode pl ss) := by
  intro s k rest hs
  exact ((runSfChoose_follows pl ss).andThen (emitChosen_follows pl ss (sampleCount s))) s k rest hs

theorem encodeSubframes_follows (fs : List (Plane × Nat)) : FollowsSink (encodeSubframes fs) := by
  induction fs with
  | nil => exact follows_ok
  | cons f fs ih => exact (runSfEncode_follows f.1 f.2).andThen ih

theorem frameResults_follows (mode : StereoMode) : FollowsSink fun s => .ok (frameResults mode s) :=
  pure_follows fun l s => by
    simp [SameSink, frameResults, show channelCount (withSink l s) = channelCount s from rfl,
      show (withSink l s).bytesWritten = s.bytesWritten from rfl, setRes_withSink]

theorem frameTransform_follows (mode : StereoMode) : FollowsSink (frameTransform mode) := by
  intro s k rest hs
  unfold frameTransform
  split
  · exact follows_ok s k rest hs
  · exact runStTransform_follows mode s k rest hs

theorem frameBody_follows (var : Bool) (mode : StereoMode) : FollowsSink (frameBody var mode) := by
  have h2 : FollowsSink fun t => runBwWriteFrameHeader var (frameAssignment mode (channelCount t)) t :=
    fun s k rest hs => runBwWriteFrameHeader_follows var (frameAssignment mode (channelCount s)) s k rest hs
  have h3 : FollowsSink fun t => encodeSubframes (frameSubframes mode (channelCount t) (bitDepth t)) t :=
    fun s k rest hs => encodeSubframes_follows (frameSubframes mode (channelCount s) (bitDepth s)) s k rest hs
  intro s k rest hs
  exact (((((frameTransform_follows mode s k rest hs).andThen h2).andThen h3).andThen emitFlush_follows).andThen
    runBwWriteCrc16_follows).andThen (frameResults_follows mode)

theorem runFrameEncode_follows (var : Bool) : FollowsSink (runFrameEncode var) := by
  intro s k rest hs
  refine .check (by decide) hs .rfl ?_
  refine .check (by decide) hs .rfl ?_
  refine .check (by decide) hs .rfl ?_
  refine .check (by decide) hs .rfl ?_
  have h1 : FollowsSink frameStereo := by
    intro s k rest hs
    unfold frameStereo
    simp only [show channelCount (withSink (failing k rest) s) = channelCount s from rfl,
      show stereoOperand (withSink (failing k rest) s) = stereoOperand s from rfl]
    split
    · exact runStChoose_follows s k rest hs
    · exact follows_ok s k rest hs
  exact h1.andThen (fun s k rest hs => frameBody_follows var (frameMode s) s k rest hs) s k rest hs

/-- Every command's pseudocode follows itself on a failing sink. -/
theorem runInstr_follows (i : Instr) : FollowsSink (runInstr i) := by
  intro s k rest hs
  cases i with
  | nop => exact follows_ok s k rest hs
  | bwCrcReset =>
    exact .check (by decide) hs .rfl
      (pure_follows (h := clearSpan) (fun _ _ => ⟨rfl, rfl, rfl, rfl, rfl, rfl⟩) s k rest hs)
  | bwWriteBits n7 => exact .check (by decide) hs .rfl (emitBits_follows _ (operandU s) s k rest hs)
  | bwWriteBitsWrapped n7 => exact emitBits_follows _ (lowBits _ (operandU s)) s k rest hs
  | bwWriteUnary => exact .check (by decide) hs .rfl (emitUnary_follows (arg 0 s).toNat s k rest hs)
  | bwFlush => exact emitFlush_follows s k rest hs
  | bwWriteCrc8 =>
    exact .check (by decide) hs .rfl (emitByte_follows State.crc8 (fun _ _ => rfl) s k rest hs)
  | bwWriteCrc16 => exact runBwWriteCrc16_follows s k rest hs
  | bwWriteConstant ss => exact emitConstant_follows _ (operandSv s) s k rest hs
  | bwWriteVerbatim pl ss =>
    exact .check (by decide) hs .rfl (emitVerbatim_follows pl _ (sampleCount s) s k rest hs)
  | bwWriteFixed ord ss =>
    exact .check (by decide) hs .rfl
      (.sectionCheck hs (emitFixed_follows _ _ (sampleCount s) s k rest hs))
  | bwWriteFrameHeader var ca => exact runBwWriteFrameHeader_follows var _ s k rest hs
  | fpBestOrder pl cr =>
    refine .check (by decide) hs .rfl (.withEntries fun xs => ?_)
    exact pure_follows (h := bestOrderResults cr xs) 
      (fun l s => by
        simp [SameSink, bestOrderResults, show (withSink l s).sumStart = s.sumStart from rfl, setRes_withSink,
          setRes64_withSink]) s k rest hs
  | fpResiduals pl ord =>
    exact .check (by decide) hs .rfl (.withEntries fun xs => .check (by decide) hs .rfl
      ⟨[], ⟨by simp, hs, rfl, rfl, rfl⟩, .inl ⟨by simp, rfl⟩⟩)
  | rcZigzag =>
    exact ⟨[], ⟨by simp [setRes64, setRes], hs, rfl, rfl, rfl⟩, .inl ⟨by simp, rfl⟩⟩
  | rcWriteRice j => exact .check (by decide) hs .rfl (emitRice_follows _ (operandV32 s) s k rest hs)
  | rcOptimise ord umax maxk =>
    refine .check (by decide) hs .rfl (.check (by decide) hs .rfl (.withEntries fun xs => ?_))
    refine pure_follows (h := fun t =>
      let c := optimise (sampleCount s) ord.toNat umax.toNat maxk.toNat xs
      setRes 2 (BitVec.ofNat 32 c.maxOrder) (setRes64 0 c.total (setChoice c t)))
      (fun l t => ?_) s k rest hs
    obtain ⟨h1, h2, h3, h4, h5, h6⟩ :=
      setChoice_sink l (optimise (sampleCount s) ord.toNat umax.toNat maxk.toNat xs) t
    simp only [setRes_withSink, h1, setRes64_withSink]
    exact ⟨trivial, by simp [h2], by simp [h3], by simp [h4], by simp [h5], by simp [h6]⟩
  | rcEstimate =>
    exact .check (by decide) hs .rfl ⟨[], ⟨by simp [setRes64, setRes], hs, rfl, rfl, rfl⟩, .inl ⟨by simp, rfl⟩⟩
  | rcWriteResiduals ord =>
    exact .check (by decide) hs .rfl
      (.sectionCheck hs (emitResidualSection_follows _ (sampleCount s) s k rest hs))
  | stChoose => exact runStChoose_follows s k rest hs
  | stTransform mode => exact runStTransform_follows mode s k rest hs
  | sfChoose pl ss => exact runSfChoose_follows pl _ s k rest hs
  | sfEncode pl ss => exact runSfEncode_follows pl _ s k rest hs
  | frameEncode var => exact runFrameEncode_follows var s k rest hs

end Sys2Proof.Machine
end

