-- ==== Sys2Proof/Tests/Slice0.lean ====
section
/-! SUPPORT. Tests. Expected values are those of spec/95_test_vectors.md and of the formats of spec/30_encoding.md; after
them, for each statement with hypotheses, states and operands that meet them all. -/

namespace Sys2Proof.Tests

open Sys2Proof.Machine

/-! ### States and what a test looks at -/

/-- The state after reset with argument registers and planes of its own. -/
def start (args : Vector Word 4) (planes : List (Plane × List Int)) : State :=
  { State.reset with args := args, mem := planes.foldl (fun m p => writeEntries p.1 0 p.2 m) [] }

/-- Argument registers with a sample count. -/
def count (n : Word) : Vector Word 4 := #v[n, 0, 0, 0]

/-- `s` with `FMT` set. -/
def withFmt (channels : BitVec 4) (bits : BitVec 6) (rate : BitVec 20) (s : State) : State :=
  { s with channels := channels, bits := bits, rate := rate }

/-- The next state, if there is one. -/
def nextOf (r : Host.Outcome State Fault Refusal) : Option State :=
  match r with
  | .next t => some t
  | .fault _ => none
  | .refused _ => none

/-- What one step leaves with command word `w` accepted. -/
def after (w : Nat) (s : State) : Option State := nextOf (step (s.withFetchWord 32 w))

/-- The bytes in `OUT`, `nb` and `acc`. -/
def output (t : State) : List Nat × Nat × Nat := (t.out.map BitVec.toNat, t.nb.toNat, t.acc.toNat)

/-- The first result registers. -/
def results (n : Nat) (t : State) : List Nat := (t.res.toList.take n).map BitVec.toNat

/-! ### Ill-formed commands -/

theorem test_ill_formed_N7 :
    (Instr.bwWriteBits 0).wellFormed = false ∧ (Instr.bwWriteBitsWrapped 65).wellFormed = false := by decide

theorem test_ill_formed_SS :
    (Instr.bwWriteConstant 0).wellFormed = false ∧ (Instr.sfChoose .mid 34).wellFormed = false := by decide

theorem test_ill_formed_PL : (Instr.fpBestOrder .resp true).wellFormed = false := by decide

theorem test_ill_formed_ORD : (Instr.bwWriteFixed 5 16).wellFormed = false := by decide

theorem test_ill_formed_UMAX : (Instr.rcOptimise 2 9 14).wellFormed = false := by decide

theorem test_ill_formed_MAXK : (Instr.rcOptimise 2 8 31).wellFormed = false := by decide

theorem test_ill_formed_CA : (Instr.bwWriteFrameHeader false 11).wellFormed = false := by decide

/-! ### Command words, written out from R112's formats -/

theorem test_decode_control : decode 0b00000000_000000000000000000000000#32 = some .nop := by decide

theorem test_decode_bitwriter :
    decode 0b00010000_000000000000000000000000#32 = some .bwCrcReset ∧
    decode 0b00010001_00000000000000000_1000000#32 = some (.bwWriteBits 64) ∧
    decode 0b00010010_00000000000000000_0000001#32 = some (.bwWriteBitsWrapped 1) ∧
    decode 0b00010011_000000000000000000000000#32 = some .bwWriteUnary ∧
    decode 0b00010100_000000000000000000000000#32 = some .bwFlush ∧
    decode 0b00010101_000000000000000000000000#32 = some .bwWriteCrc8 ∧
    decode 0b00010110_000000000000000000000000#32 = some .bwWriteCrc16 ∧
    decode 0b00010111_000000000000000000_100001#32 = some (.bwWriteConstant 33) ∧
    decode 0b00011000_1000_00000000000000_010000#32 = some (.bwWriteVerbatim .mid 16) ∧
    decode 0b00011001_00000_100_0000000000_001000#32 = some (.bwWriteFixed 4 8) ∧
    decode 0b00011010_00000000000_1_00000000_1010#32 = some (.bwWriteFrameHeader true 10) := by decide

theorem test_decode_predictor :
    decode 0b00100000_0111_0000000_1_000000000000#32 = some (.fpBestOrder (.ch 7) true) ∧
    decode 0b00100001_1001_0_011_0000000000000000#32 = some (.fpResiduals .side 3) := by decide

theorem test_decode_rice :
    decode 0b00110000_000000000000000000000000#32 = some .rcZigzag ∧
    decode 0b00110001_0000000000000000000_11111#32 = some (.rcWriteRice 31) ∧
    decode 0b00110010_00000_010_0000_1000_000_11110#32 = some (.rcOptimise 2 8 30) ∧
    decode 0b00110011_000000000000000000000000#32 = some .rcEstimate ∧
    decode 0b00110100_00000_001_0000000000000000#32 = some (.rcWriteResiduals 1) := by decide

theorem test_decode_stereo :
    decode 0b01000000_000000000000000000000000#32 = some .stChoose ∧
    decode 0b01000001_000000_10_0000000000000000#32 = some (.stTransform .sideRight) := by decide

theorem test_decode_subframe :
    decode 0b01010000_0000_00000000000000_000001#32 = some (.sfChoose (.ch 0) 1) ∧
    decode 0b01010001_1001_00000000000000_010001#32 = some (.sfEncode .side 17) := by decide

theorem test_decode_frame : decode 0b01100000_00000000000_1_000000000000#32 = some (.frameEncode true) := by decide

/-- The illegal words of 95_test_vectors.md 2.2-2.5. -/
theorem test_decode_illegal :
    [0x11000000, 0x11000041, 0x14000001, 0x01000000, 0x17000000, 0x17000022, 0x1A00000B, 0x21050000].all
      fun w => decode (BitVec.ofNat 32 w) == none := by decide

/-! ### One step of each command -/

theorem test_nop : after 0x00000000 State.reset = some { State.reset with done := true } := rfl

theorem test_bwCrcReset :
    after 0x10000000 { State.reset with crc8 := 1, crc16 := 2, bytesWritten := 3 } =
      some { State.reset with done := true } := rfl

theorem test_bwCrcReset_unaligned :
    (after 0x10000000 { State.reset with nb := 3, acc := 5 }).map (·.errCode) = some .bwUnaligned := by decide +kernel

theorem test_bwWriteBits :
    (after 0x11000040 (start #v[0x89ABCDEF, 0x01234567, 0, 0] [])).map output =
      some ([0x01, 0x23, 0x45, 0x67, 0x89, 0xAB, 0xCD, 0xEF], 0, 0) := by decide +kernel

theorem test_bwWriteBits_does_not_fit :
    (after 0x11000004 (start #v[16, 0, 0, 0] [])).map (·.errCode) = some .invalidOperand := by decide +kernel

theorem test_bwWriteBitsWrapped :
    (after 0x12000004 (start #v[0x1F, 0, 0, 0] [])).map output = some ([], 4, 0b1111) := by decide +kernel

theorem test_bwWriteUnary : (after 0x13000000 (start #v[3, 0, 0, 0] [])).map output = some ([], 4, 1) := by
  decide +kernel

theorem test_bwWriteUnary_high_word :
    (after 0x13000000 (start #v[3, 1, 0, 0] [])).map (·.errCode) = some .invalidOperand := by decide +kernel

theorem test_bwFlush : (after 0x14000000 { State.reset with nb := 4, acc := 1 }).map output = some ([0x10], 0, 0) := by
  decide +kernel

theorem test_bwWriteCrc8 :
    (after 0x15000000 { State.reset with crc8 := 0x22 }).map (fun t => (output t, t.crc8)) =
      some (([0x22], 0, 0), 0) := by decide +kernel

theorem test_bwWriteCrc16 :
    (after 0x16000000 { State.reset with nb := 3, acc := 5 }).map (fun t => (output t, t.crc16)) =
      some (([0xA0, 0x03, 0xC0], 0, 0), 0) := by decide +kernel

theorem test_bwWriteConstant :
    (after 0x17000011 (start #v[0xFFFFFFFF, 0xFFFFFFFF, 0, 0] [])).map output = some ([0x00, 0xFF, 0xFF], 1, 1) := by
  decide +kernel

theorem test_bwWriteVerbatim :
    (after 0x18000010 (start (count 2) [(.ch 0, [1, -1])])).map output = some ([0x02, 0x00, 0x01, 0xFF, 0xFF], 0, 0) := by
  decide +kernel

theorem test_bwWriteFixed :
    (after 0x19020010 (start (count 8) [(.resp, [0, 1, 0, 0, 0, 0, 0, 0])])).map output =
      some ([0x14, 0x00, 0x00, 0x00, 0x01, 0x00, 0x3F], 0, 0) := by decide +kernel

theorem test_bwWriteFixed_escape :
    (after 0x19020010 { start (count 8) [] with porder := 2, param := (Vector.replicate 256 0).set 0 15 }).map
      (·.errCode) = some .paramEscape := by decide +kernel

theorem test_bwWriteFrameHeader :
    (after 0x1A001000 (withFmt 1 24 48000 (start #v[4096, 12288, 0, 0] []))).map output =
      some ([0xFF, 0xF9, 0xCA, 0x0C, 0xE3, 0x80, 0x80, 0x3B], 0, 0) := by decide +kernel

theorem test_bwWriteFrameHeader_longest :
    (after 0x1A001000 (withFmt 1 16 65535 (start #v[65535, 0xFFFFFFFF, 0xF, 0] []))).map output =
      some ([0xFF, 0xF9, 0x7D, 0x08, 0xFE, 0xBF, 0xBF, 0xBF, 0xBF, 0xBF, 0xBF, 0xFF, 0xFE, 0xFF, 0xFF, 0x23], 0, 0) := by
  decide +kernel

theorem test_fpBestOrder :
    (after 0x20000000 (start (count 6) [(.ch 0, [1, -1, 1, -1, 1, -1])])).map (results 14) =
      some [6, 0, 0, 0, 6, 0, 10, 0, 16, 0, 24, 0, 32, 0] := by decide +kernel

theorem test_fpBestOrder_poisoned :
    (after 0x20901000 (start (count 8) [(.side, [2 ^ 31, 2 ^ 31 + 1, 2 ^ 31, 0, 0, 0, 0, 0])])).map (results 3) =
      some [0xFFFFFFFF, 0x1FFFF, 0xFFFFFFFF] := by decide +kernel

theorem test_fpResiduals :
    (after 0x21040000 (start (count 8) [(.ch 0, [3, 1, 4, 1, 5, 9, 2, 6])])).map (fun t => entries .resp 0 8 t.mem) =
      some [3, 1, 4, 1, 24, -20, -4, 33] := by decide +kernel

theorem test_fpResiduals_range :
    (after 0x21010000 (start (count 2) [(.ch 0, [2 ^ 31 - 1, -2 ^ 31])])).map (·.errCode) = some .residualRange := by
  decide +kernel

theorem test_rcZigzag :
    (after 0x30000000 (start #v[0x80000000, 0, 0, 0] [])).map (results 2) = some [0xFFFFFFFF, 0] := by decide +kernel

theorem test_rcWriteRice :
    (after 0x31000002 (start #v[0xFFFFFFFD, 0, 0, 0] [])).map output = some ([], 4, 0b0101) := by decide +kernel

theorem test_rcWriteRice_widest :
    (after 0x3100001E (start #v[0x80000000, 0, 0, 0] [])).map output = some ([0x1F, 0xFF, 0xFF, 0xFF], 2, 0b11) := by
  decide +kernel

theorem test_rcOptimise :
    (after 0x3200080E (start (count 8) [(.resp, [5, 6, 2, -1, -1, 0, 1, 2])])).map
      (fun t => (t.method, t.porder, t.param.toList.take 3, results 3 t)) = some (.four, 1, [2, 0, 0], [39, 0, 3]) := by
  decide +kernel

theorem test_rcOptimise_guard :
    (after 0x3203080E (start (count 4) [(.resp, [3, 0, 0, 0])])).map (fun t => (t.porder, results 3 t)) =
      some (0, [9, 0, 0]) := by decide +kernel

theorem test_rcEstimate :
    (after 0x33000000 (start #v[1880, 0, 128, 0] [])).map (results 3) = some [739, 0, 3] := by decide +kernel

theorem test_rcEstimate_wraps :
    (after 0x33000000 (start #v[100, 0, 65535, 0] [])).map (results 3) = some [32868, 0, 0] := by decide +kernel

theorem test_rcWriteResiduals :
    (after 0x34010000 { start (count 8) [(.resp, [5, -3, 2, -1, 0, 7, -8, 1])] with
      porder := 1, param := ((Vector.replicate 256 0).set 0 1).set 1 2 }).map output =
      some ([0x04, 0x4C, 0xB2, 0x83, 0x0F], 2, 0b10) := by decide +kernel

theorem test_rcWriteResiduals_shape :
    (after 0x34000000 { start (count 6) [] with porder := 2 }).map (·.errCode) = some .invalidOperand := by
  decide +kernel

theorem test_stChoose :
    (after 0x40000000 (start (count 4) [(.ch 0, [1, 2, 3, 4]), (.ch 1, [5, -6, 7, -8])])).map (results 12) =
      some [31, 0, 0, 0, 5, 0, 26, 0, 22, 0, 26, 0] := by decide +kernel

theorem test_stTransform :
    (after 0x41030000 (start (count 3) [(.ch 0, [5, -3, -2 ^ 31]), (.ch 1, [-2, -4, 2 ^ 31 - 1])])).map
      (fun t => (entries .mid 0 3 t.mem, entries .side 0 3 t.mem)) = some ([1, -4, -1], [7, 1, -(2 ^ 32 - 1)]) := by
  decide +kernel

theorem test_sfChoose :
    (after 0x50000008 (start (count 8) [(.ch 0, [0, 100, -100, 100, -100, 100, -100, 100])])).map (results 4) =
      some [82, 0, 1, 0] := by decide +kernel

theorem test_sfChoose_range :
    (after 0x50900010 (start (count 8) [(.side, [2 ^ 31, 2 ^ 31 + 1, 2 ^ 31, 0, 0, 0, 0, 0])])).map (·.errCode) =
      some .residualRange := by decide +kernel

theorem test_sfEncode :
    (after 0x51000010 (start (count 4) [(.ch 0, [1, 2, 3, 4])])).map output =
      some ([0x02, 0x00, 0x01, 0x00, 0x02, 0x00, 0x03, 0x00, 0x04], 0, 0) := by decide +kernel

theorem test_frameEncode :
    (after 0x60000000 (withFmt 2 16 44100 (start (count 4) [(.ch 0, [1, 2, 3, 4]), (.ch 1, [5, -6, 7, -8])]))).map
      (fun t => (output t, results 4 t)) =
      some (([0xFF, 0xF8, 0x69, 0x18, 0x00, 0x03, 0xB6, 0x02, 0x00, 0x01, 0x00, 0x02, 0x00, 0x03, 0x00, 0x04,
        0x02, 0x00, 0x05, 0xFF, 0xFA, 0x00, 0x07, 0xFF, 0xF8, 0x55, 0x29], 0, 0), [27, 0, 0, 1]) := by decide +kernel

theorem test_frameEncode_format : (after 0x60000000 State.reset).map (regWord .status) = some 0x00000304 := by
  decide +kernel

/-! ### The host port -/

theorem test_error_survives_a_refused_read :
    nextOf (hostEvent (.read 0x000800 4) { State.reset with err := true, errCode := .unsupportedFormat }) =
      some { State.reset with err := true, errCode := .unsupportedFormat } := rfl

theorem test_misaligned_read :
    nextOf (hostEvent (.read 0x000002 4) State.reset) =
      some { State.reset with err := true, errCode := .hostAccess } := rfl

/-- STATUS while BW_WRITE_CRC8 is in progress: BUSY, and the writer aligned (R88, R165). -/
theorem test_status_while_busy :
    (nextOf (hostEvent (.read 0x00C 4) { State.reset with engine := .busy 0x15000000 true })).map (·.readData) =
      some 0x00000001 := by decide +kernel

/-- STATUS while a command its check refuses is in progress: BUSY, and three pending bits (R88, R369 (a)). -/
theorem test_status_while_refused :
    (nextOf (hostEvent (.read 0x00C 4) { start #v[16, 0, 0, 0] [] with
      engine := .busy 0x11000004 true, nb := 3, acc := 5 })).map (·.readData) = some 0x00030001 := by decide +kernel

/-! ### States that meet the statements' hypotheses -/

/-- The state after reset with command word `w` in progress. -/
def running (w : Word) (s : State) : State := { s with engine := .busy w s.stereoEn }

/-- The state after reset with an error standing. -/
def inError : State := { State.reset with err := true, errCode := .hostAccess }

/-- Entries hold values, by looking at each. -/
theorem written_of_all {pl : Plane} {n : Nat} {m : Memory}
    (h : ((List.range n).all fun j => (readEntry pl j m).isSome) = true) : Written pl 0 n m := fun j _ hj =>
  List.all_eq_true.mp h j (List.mem_range.mpr (by omega))

/-- A whole plane of one value: the greatest sample count. -/
theorem written_replicate (pl : Plane) (n : Nat) (v : Int) (h : Holds pl v) :
    Written pl 0 n (writeEntries pl 0 (List.replicate n v) []) := by
  have := written_writeEntries pl 0 (vs := List.replicate n v) [] fun x hx => (List.mem_replicate.mp hx).2 ▸ h
  rwa [List.length_replicate] at this

/-- A state with the first `n` entries of one plane holding `v`, and `n` as the count. -/
def filled (pl : Plane) (n : Nat) (v : Int) : State :=
  { State.reset with args := count (BitVec.ofNat 32 n), mem := writeEntries pl 0 (List.replicate n v) [] }

/-- That plane is written and that count stands. -/
theorem filled_spec (pl : Plane) (v : Int) (n : Nat) (h : Holds pl v) (hn : n < 2 ^ 32) :
    (filled pl n v).args[0].toNat = n ∧ Written pl 0 n (filled pl n v).mem :=
  ⟨(BitVec.toNat_ofNat ..).trans (Nat.mod_eq_of_lt hn), written_replicate pl n v h⟩

/-- The sink of `s` has nothing to say: it accepts. -/
theorem sink_accepts {s : State} (h : s.sink = []) : SinkAccepts s := by simp [SinkAccepts, h]

/-! ### Witnesses: command words, steps, issue and completion -/

theorem witness_DecodeOfEncode :
    [Instr.bwWriteBits 1, .bwWriteBits 64, .bwWriteBitsWrapped 64, .bwWriteConstant 33, .bwWriteVerbatim (.ch 7) 1,
      .bwWriteFixed 4 33, .bwWriteFrameHeader true 10, .fpBestOrder .side true, .fpResiduals .mid 4, .rcWriteRice 31,
      .rcOptimise 4 8 30, .rcWriteResiduals 0, .stTransform .midSide, .sfChoose (.ch 0) 33, .sfEncode .side 1,
      .frameEncode false].all (·.wellFormed) = true := by decide

theorem witness_EncodeOfDecode : decode 0x3204081E#32 = some (.rcOptimise 4 8 30) := by decide

theorem witness_IllegalWordOnlyRaises :
    let s := running 0x01000000#32 State.reset
    s.engine = .busy 0x01000000#32 true ∧ s.turns = [] ∧ legalWord 0x01000000#32 = false := by decide

theorem witness_StepRunsDecodedCommand :
    let s := running 0x11000040#32 State.reset
    let u := { s with turns := [.engine, .host] }
    s.engine = .busy 0x11000040#32 true ∧ decode 0x11000040#32 = some (.bwWriteBits 64) ∧ s.turns = [] ∧
      u.engine = .busy 0x11000040#32 true ∧ u.turns = .engine :: [.host] := by decide

theorem witness_StepTakesTheHostsEvent :
    let s := { State.reset with host := [.hardReset] }
    let u := { running 0#32 s with turns := [.host] }
    s.host = [.hardReset] ∧ s.engine = .idle ∧ u.host = [.hardReset] ∧ u.engine = .busy 0#32 true ∧
      u.turns = [.host] := by decide

theorem witness_CommandIssue :
    State.reset.engine = .idle ∧ State.reset.err = false ∧ inError.engine = .idle ∧ inError.err = true := by decide

/-- A command that completes, and one that is in error. -/
theorem witness_EveryCommandEndsDoneOrInError :
    exec .nop State.reset = .next State.reset.completed ∧
      exec (.frameEncode true) State.reset = .next (State.reset.failed .unsupportedFormat) := ⟨rfl, rfl⟩

theorem witness_OnlyUnwrittenEntriesStopACommand :
    let s := start (count 1) ((List.finRange 8).map (fun c => (.ch c, [0])) ++ [(.mid, [0]), (.side, [0]), (.resp, [0])])
    (Instr.frameEncode true).wellFormed = true ∧
      ∀ pl j, j < sampleCount s → (readEntry pl j s.mem).isSome = true := by
  refine ⟨rfl, fun pl j hj => ?_⟩
  obtain rfl : j = 0 := by
    have h (p : List (Plane × List Int)) : sampleCount (start (count 1) p) = 1 := rfl
    rw [h] at hj
    omega
  revert pl
  rintro (c | _ | _ | _)
  · revert c
    decide +kernel
  all_goals decide +kernel

/-- A step with a command, one with a host access, the two resets. -/
theorem witness_OnlyAResetLeavesTheErrorState :
    (∃ t, step inError = .next t) ∧ inError.err = true ∧
    (∃ t, step { inError with host := [.hardReset] } = .next t) ∧
    (∃ t, step { inError with host := [.write 0x008 4 1] } = .next t) ∧ (1 : Word).getLsbD 0 = true :=
  ⟨⟨_, rfl⟩, rfl, ⟨_, rfl⟩, ⟨_, rfl⟩, rfl⟩

/-! ### Witnesses: reset and the host port -/

theorem witness_ResetWhileIdle : inError.engine = .idle ∧ (0xFFFFFFFF : Word).getLsbD 0 = true := by decide

/-- BW_FLUSH in progress with seven pending bits. -/
def flushing : State := running 0x14000000#32 { State.reset with nb := 7 }

/-- Whichever its free cut, what it leaves is a state. -/
theorem interrupt_flushing : ∃ t, interrupt flushing = .ok t := by
  have h : ∃ t, stoppedAt 0x14000000#32 flushing = .ok t := by
    have hd : decode 0x14000000#32 = some .bwFlush := by decide
    unfold stoppedAt
    rw [hd]
    simp only
    cases State.free flushing 0 with
    | zero => exact ⟨_, rfl⟩
    | succ k => cases k <;> exact ⟨_, rfl⟩
  obtain ⟨t, h⟩ := h
  exact ⟨_, by simp only [interrupt, show flushing.engine = .busy 0x14000000#32 true from rfl, h]; rfl⟩

theorem witness_ResetAtAnyMoment :
    (∃ t, hostEvent .hardReset flushing = .next t) ∧ (1 : Word).getLsbD 0 = true ∧
      ∃ t, hostEvent (.write 0x008 4 1) flushing = .next t := by
  obtain ⟨t, h⟩ := interrupt_flushing
  have hl : locate 0x008 4 = some (.reg .ctrl) := by decide
  have hb : busy flushing = true := rfl
  exact ⟨⟨_, by simp only [hostEvent, hardReset, h]; rfl⟩, rfl, ⟨_, by
    simp only [hostEvent, hostWrite, hl, hb, softReset, h, writeRegBusy, writeCtrl]
    rfl⟩⟩

/-- The ends of the mapped ranges, and a plane while idle. -/
theorem witness_ReadsHaveNoSideEffect :
    (∀ a ∈ [0x000, 0x028, 0x030, 0x07C, 0x400, 0x7FC], LegalAccess (BitVec.ofNat 22 a) 4 ∧
      (BitVec.ofNat 22 a).toNat < 0x800) ∧
    LegalAccess 0x100000 4 ∧ LegalAccess 0x3FFFFC 4 ∧ State.reset.engine = .idle := by
  simp only [LegalAccess, mapped]
  decide

/-- Every way an access can be illegal, at the edges of the unmapped ranges. -/
theorem witness_IllegalAccessIsRefused :
    State.reset.engine = .idle ∧ ¬ LegalAccess 0x000 2 ∧ ¬ LegalAccess 0x100000 8 ∧
    ∀ a ∈ [0x002, 0x02C, 0x080, 0x3FC, 0x800, 0xFFFFC, 0x3FFFFE], ¬ LegalAccess (BitVec.ofNat 22 a) 4 := by
  simp only [LegalAccess, mapped]
  decide

/-- A host access error while BW_FLUSH is in progress ends in a state. -/
theorem refused_while_flushing {e : HostEvent} (h : hostEvent e flushing = hostAccessError flushing) :
    ∃ t, hostEvent e flushing = .next t := by
  obtain ⟨t, ht⟩ := interrupt_flushing
  exact ⟨_, h.trans (by simp only [hostAccessError, ht]; rfl)⟩

/-- Each kind of access that ends the command in progress, the register ranges at both ends. -/
theorem witness_BusyAccessEndsTheCommand :
    busy flushing = true ∧
    (∀ p ∈ [(0x000, 2), (0x02C, 4), (0x100000, 4), (0x3FFFFC, 4)],
      (¬ LegalAccess (BitVec.ofNat 22 p.1) p.2 ∨ 0x100000 ≤ (BitVec.ofNat 22 p.1).toNat) ∧
        ∃ t, hostEvent (.read (BitVec.ofNat 22 p.1) p.2) flushing = .next t) ∧
    (∀ p ∈ [(0x010, 1), (0x800, 4), (0x100000, 4), (0x3FFFFC, 4)],
      (¬ LegalAccess (BitVec.ofNat 22 p.1) p.2 ∨ 0x100000 ≤ (BitVec.ofNat 22 p.1).toNat) ∧
        ∃ t, hostEvent (.write (BitVec.ofNat 22 p.1) p.2 0) flushing = .next t) ∧
    ∀ n ∈ [0x010, 0x014, 0x018, 0x030, 0x03C, 0x400, 0x7FC],
      let a := BitVec.ofNat 22 n
      (a = 0x010 ∨ a = 0x014 ∨ a = 0x018 ∨ (0x030 ≤ a.toNat ∧ a.toNat < 0x040) ∨
        (0x400 ≤ a.toNat ∧ a.toNat < 0x800)) ∧ ∃ t, hostEvent (.write a 4 0) flushing = .next t := by
  have both {α : Type} {l : List α} {p q : α → Prop} (h : ∀ a ∈ l, p a) (h' : ∀ a ∈ l, q a) : ∀ a ∈ l, p a ∧ q a :=
    fun a ha => ⟨h a ha, h' a ha⟩
  refine ⟨rfl, both ?_ ?_, both ?_ ?_, both ?_ ?_⟩
  · simp only [LegalAccess, mapped]
    decide
  · simp only [List.mem_cons, List.not_mem_nil, or_false, forall_eq_or_imp, forall_eq]
    exact ⟨refused_while_flushing rfl, refused_while_flushing rfl, refused_while_flushing rfl,
      refused_while_flushing rfl⟩
  · simp only [LegalAccess, mapped]
    decide
  · simp only [List.mem_cons, List.not_mem_nil, or_false, forall_eq_or_imp, forall_eq]
    exact ⟨refused_while_flushing rfl, refused_while_flushing rfl, refused_while_flushing rfl,
      refused_while_flushing rfl⟩
  · decide
  · simp only [List.mem_cons, List.not_mem_nil, or_false, forall_eq_or_imp, forall_eq]
    exact ⟨refused_while_flushing rfl, refused_while_flushing rfl, refused_while_flushing rfl,
      refused_while_flushing rfl, refused_while_flushing rfl, refused_while_flushing rfl, refused_while_flushing rfl⟩

/-- The statement has no hypothesis; both of its moments occur. -/
theorem witness_SteadyReadsWhileBusy : busy flushing = true ∧ busy State.reset = false := ⟨rfl, rfl⟩

theorem witness_RegisterReadBack :
    State.reset.engine = .idle ∧
    ∀ r ∈ [Reg.ctrl, .fmt, .riceCfg, .arg 0, .arg 3, .param 0, .param 255],
      (writableBits r).isSome = true ∧ (r = .ctrl → (0xFFFFFFFE : Word).getLsbD 0 = false) := by decide

theorem witness_ReadOnlyRegistersIgnoreWrites : State.reset.engine = .idle ∧ ∃ i, Reg.res 15 = .res i := ⟨rfl, _, rfl⟩

theorem witness_PlaneWordReadBack :
    State.reset.engine = .idle ∧
    ∀ a ∈ [0x100000, 0x3FFFFC], (BitVec.ofNat 22 a).toNat % 4 = 0 ∧ 0x100000 ≤ (BitVec.ofNat 22 a).toNat := by decide

theorem witness_HostWrittenEntries :
    State.reset.engine = .idle ∧ 0 < 65536 ∧ 65535 < 65536 ∧ Plane.resp ≠ .side ∧ (Plane.mid, 65535) ≠ (.resp, 65535) := by
  decide

/-- Idle, an illegal word, a command that writes bits, and those that write none of their own. -/
theorem witness_StatusFields :
    inError.engine = .idle ∧
    (running 0x01000000 State.reset).engine = .busy 0x01000000 true ∧ decode 0x01000000 = none ∧
    flushing.engine = .busy 0x14000000 true ∧ decode 0x14000000 = some .bwFlush ∧
    (running 0x14000000 State.reset).nb = 0 ∧ decode 0x15000000 = some .bwWriteCrc8 ∧
    decode 0x16000000 = some .bwWriteCrc16 := by decide

/-! ### Witnesses: invariants of every step -/

/-- A command in progress, an access of the host, and the reset state meet the invariants and step. -/
theorem witness_StepKeepsInvariant :
    (∃ t, step (running 0x50000010 State.reset) = .next t) ∧ (running 0x50000010 State.reset).Inv ∧
    (∃ t, step { inError with host := [.write 0x3FFFFC 4 1] } = .next t) ∧
    State.Inv { inError with host := [.write 0x3FFFFC 4 1] } := by
  refine ⟨⟨_, rfl⟩, ⟨?_, ?_, ?_, ?_, ?_, ?_⟩, ⟨_, rfl⟩, ⟨?_, ?_, ?_, ?_, ?_, ?_⟩⟩ <;> decide

/-- One byte written since the CRC registers were cleared, and a step that writes another. -/
theorem witness_StepKeepsSpanCovered :
    let s := { running 0x15000000 State.reset with out := [1, 2], crc8 := 0x0E, crc16 := 0x800F, bytesWritten := 1 }
    (∃ t, step s = .next t) ∧ s.SpanCovered :=
  ⟨⟨_, rfl⟩, [1], [2], by decide⟩

theorem witness_OutputOnlyGrows :
    (∃ t, step (running 0x15000000 State.reset) = .next t) ∧ ∃ t, step State.reset = .next t := ⟨⟨_, rfl⟩, _, rfl⟩

/-- An outcome with a next state. -/
theorem next_of_isSome {r : Host.Outcome State Fault Refusal} (h : (nextOf r).isSome = true) : ∃ t, r = .next t := by
  cases r with
  | next t => exact ⟨t, rfl⟩
  | fault f => cases h
  | refused f => cases h

theorem next_of_eq {r : Host.Outcome State Fault Refusal} {t : State} (h : nextOf r = some t) : r = .next t := by
  cases r with
  | next u => rw [Option.some.inj h]
  | fault f => cases h
  | refused f => cases h

/-- Two channels of four samples. -/
def stereo : State :=
  withFmt 2 16 44100 (start (count 4) [(.ch 0, [1, 2, 3, 4]), (.ch 1, [5, -6, 7, -8])])

theorem witness_CommandsKeepTheirInputs :
    (∃ t, exec (.stTransform .midSide) stereo = .next t) ∧ (∃ t, exec (.frameEncode false) stereo = .next t) ∧
      65535 < 65536 :=
  ⟨next_of_isSome (by decide +kernel), next_of_isSome (by decide +kernel), by decide⟩

/-- A side plane on which no order's residuals fit i32. -/
def wide : State := start (count 8) [(.side, [2 ^ 31, 2 ^ 31 + 1, 2 ^ 31, 0, 0, 0, 0, 0])]

/-- A 16-bit channel whose host broke the contract on samples: order 1 is chosen and one of its residuals is 2^32 - 1. -/
def jump : State :=
  withFmt 1 16 44100 (start (count 8) [(.ch 0, List.replicate 4 (-2 ^ 31) ++ List.replicate 4 (2 ^ 31 - 1))])

/-- Those samples on both channels: ST_CHOOSE answers mode 1. -/
def jumps : State :=
  let x := List.replicate 4 (-2 ^ 31) ++ List.replicate 4 (2 ^ 31 - 1)
  withFmt 2 16 44100 (start (count 8) [(.ch 0, x), (.ch 1, x)])

/-- A check of a plain command; both checks of SF_CHOOSE and of SF_ENCODE; FRAME_ENCODE refused at once, and after its
header: on one channel, on two with the stereo choice, and on two where the command was accepted with stereo disabled though
it stands enabled now (log 13). -/
theorem witness_CheckErrorsChangeOnlyStatus :
    State.reset.err = false ∧ wide.err = false ∧ jump.err = false ∧ jumps.err = false ∧
    (isComposite (.rcWriteRice 31) = false ∧ ∃ t, exec (.rcWriteRice 31) State.reset = .next t ∧
      t.err = true ∧ t.errCode = .paramEscape) ∧
    (∃ t, exec (.sfChoose .side 16) State.reset = .next t ∧ t.err = true ∧ t.errCode = .invalidOperand) ∧
    (∃ t, exec (.sfChoose .side 16) wide = .next t ∧ t.err = true ∧ t.errCode = .residualRange) ∧
    (∃ t, exec (.sfEncode .side 16) State.reset = .next t ∧ t.err = true ∧ t.errCode = .invalidOperand) ∧
    (∃ t, exec (.sfEncode .side 16) wide = .next t ∧ t.err = true ∧ t.errCode = .residualRange) ∧
    (∃ t, exec (.frameEncode true) State.reset = .next t ∧ t.err = true ∧ t.errCode = .unsupportedFormat) ∧
    (¬ (jump.channels = 2 ∧ stereoOperand jump = true) ∧
      ∃ t, exec (.frameEncode true) jump = .next t ∧ t.err = true ∧ t.errCode = .residualRange) ∧
    ((jumps.channels = 2 ∧ stereoOperand jumps = true) ∧
      ∃ t, exec (.frameEncode true) jumps = .next t ∧ t.err = true ∧ t.errCode = .residualRange) ∧
    let independent : State := { jumps with engine := .busy 0x60001000 false }
    (independent.stereoEn = true ∧ ¬ (independent.channels = 2 ∧ stereoOperand independent = true)) ∧
      ∃ t, exec (.frameEncode true) independent = .next t ∧ t.err = true ∧ t.errCode = .residualRange := by
  have raised {i : Instr} {s : State} {c : ErrorCode}
      (h : ((nextOf (exec i s)).map fun t => (t.err, t.errCode)) = some (true, c)) :
      ∃ t, exec i s = .next t ∧ t.err = true ∧ t.errCode = c := by
    obtain ⟨t, ht, e⟩ := Option.map_eq_some_iff.mp h
    simp only [Prod.mk.injEq] at e
    exact ⟨t, next_of_eq ht, e.1, e.2⟩
  exact ⟨rfl, rfl, rfl, rfl, ⟨rfl, _, rfl, rfl, rfl⟩, ⟨_, rfl, rfl, rfl⟩, raised (by decide +kernel), ⟨_, rfl, rfl, rfl⟩,
    raised (by decide +kernel), ⟨_, rfl, rfl, rfl⟩, ⟨by decide, raised (by decide +kernel)⟩,
    ⟨⟨rfl, rfl⟩, raised (by decide +kernel)⟩, ⟨rfl, by decide⟩, raised (by decide +kernel)⟩

/-- Equal channels score 2 bL, bL + bS, bS + bL and bL + bS, and bS < bL: the first least is mode 1 (spec/46_stereo.md
R323, R324). -/
theorem test_jumps_mode : ((nextOf (exec .stChoose jumps)).map fun t => t.res[2]) = some 1 := by decide +kernel

/-- BW_WRITE_CRC8 writes one byte: `k = 1` meets the first clause, `k = 0` the second. -/
theorem witness_SinkFailureCutsTheOutput :
    ∃ t, exec .bwWriteCrc8 { State.reset with sink := [] } = .next t ∧
      t.out.length ≤ State.reset.out.length + 1 ∧ State.reset.out.length + 0 < t.out.length ∧
      State.reset.err = false := ⟨_, rfl, by decide, by decide, rfl⟩

/-! ### Witnesses: the bit writer's commands -/

theorem witness_NopAndCrcReset : State.reset.nb = 0 ∧ State.nb { State.reset with nb := 7 } ≠ 0 := by decide

/-- The narrowest and the widest field, a value that just fits and one that just does not. -/
theorem witness_WriteBitsEmits :
    SinkAccepts State.reset ∧ (1 ≤ (1 : BitVec 7).toNat ∧ (64 : BitVec 7).toNat ≤ 64) ∧
    ((#v[1, 0, 0, 0] : Vector Word 4)[1] ++ (#v[1, 0, 0, 0] : Vector Word 4)[0]).toNat < 2 ^ (1 : BitVec 7).toNat ∧
    2 ^ (1 : BitVec 7).toNat ≤ ((#v[2, 0, 0, 0] : Vector Word 4)[1] ++ (#v[2, 0, 0, 0] : Vector Word 4)[0]).toNat ∧
    ((0xFFFFFFFF : Word) ++ (0xFFFFFFFF : Word)).toNat < 2 ^ (64 : BitVec 7).toNat :=
  ⟨sink_accepts rfl, by decide, by decide, by decide, by decide⟩

theorem witness_UnaryAndRiceEmit :
    SinkAccepts State.reset ∧ State.reset.args[1] = 0 ∧
    SinkAccepts (start #v[0, 1, 0, 0] []) ∧ (start #v[0, 1, 0, 0] []).args[1] ≠ 0 ∧
    (30 : BitVec 5) ≠ 31 ∧ (31 : BitVec 5) = 31 :=
  ⟨sink_accepts rfl, by decide, sink_accepts rfl, by decide, by decide, rfl⟩

theorem witness_FlushAligns : SinkAccepts { State.reset with nb := 7, acc := 0x7F } := sink_accepts rfl

theorem witness_CrcFooters :
    SinkAccepts State.reset ∧ State.reset.nb = 0 ∧ SinkAccepts { State.reset with nb := 7 } ∧
      State.nb { State.reset with nb := 7 } ≠ 0 := ⟨sink_accepts rfl, rfl, sink_accepts rfl, by decide⟩

/-- Counts 65535, 1, 0 and 65536. -/
theorem witness_ConstantAndVerbatimEmit :
    (let s := filled (.ch 7) 65535 1
     SinkAccepts s ∧ s.args[0].toNat = 65535 ∧ Written (.ch 7) 0 65535 s.mem) ∧
    (let s := filled .side 1 1
     SinkAccepts s ∧ s.args[0].toNat = 1 ∧ Written .side 0 1 s.mem) ∧
    SinkAccepts State.reset ∧ State.reset.args[0].toNat = 0 ∧ 65535 < (filled .mid 65536 0).args[0].toNat :=
  ⟨⟨sink_accepts rfl, filled_spec _ _ _ (by simp [Holds, entryBytes]) (by decide)⟩,
    ⟨sink_accepts rfl, filled_spec _ _ _ (by simp [Holds, entryBytes]) (by decide)⟩, sink_accepts rfl, rfl, by
    rw [(filled_spec .mid 0 65536 (by simp [Holds, entryBytes]) (by decide)).1]
    decide⟩

/-- A legal residual section, by what it looks at. -/
theorem sectionLegal_of {p n o k : Nat} {s : State} (ho : s.porder = BitVec.ofNat 4 o)
    (hk : s.param = Vector.replicate 256 (BitVec.ofNat 5 k)) (hk' : k ≤ if s.method = .four then 14 else 30)
    (h8 : o ≤ 8) (hd : n % 2 ^ o = 0) (hf : p ≤ n >>> o) (hp : p < n) : SectionLegal p n s := by
  have e : s.porder.toNat = o := by rw [ho, BitVec.toNat_ofNat, Nat.mod_eq_of_lt (by omega)]
  refine ⟨by rwa [e], by rwa [e], by rwa [e], hp, fun j _ => ?_⟩
  have : k ≤ 30 := by split at hk' <;> omega
  have hj : getParam j s ≤ k := by
    rw [getParam, hk, Vector.getD, Array.getD]
    split
    · simp [Nat.mod_le]
    · exact Nat.zero_le _
  omega

/-- The greatest partition order with the fewest entries it can have, and the greatest count. -/
theorem witness_ResidualSectionEmits :
    (∃ s : State, (4 : BitVec 3).toNat ≤ 4 ∧ s.args[0].toNat = 1024 ∧ s.porder = 8 ∧ s.method = .five ∧
      SectionLegal 4 1024 s ∧ Written .resp 0 1024 s.mem ∧ SinkAccepts s) ∧
    ∃ s : State, s.args[0].toNat = 65535 ∧ SectionLegal 4 65535 s ∧ Written .resp 0 65535 s.mem ∧ SinkAccepts s := by
  have of {n : Nat} {m : Memory} (hn : n < 2 ^ 32) (h : Written .resp 0 n m) :
      ∃ s : State, s.args[0].toNat = n ∧ s.porder = 8 ∧ s.method = .five ∧ s.param = Vector.replicate 256 30 ∧
        Written .resp 0 n s.mem ∧ SinkAccepts s :=
    ⟨{ State.reset with
      args := count (BitVec.ofNat 32 n), mem := m, method := .five, porder := 8, param := Vector.replicate 256 30 },
      (BitVec.toNat_ofNat ..).trans (Nat.mod_eq_of_lt hn), rfl, rfl, rfl, h, sink_accepts rfl⟩
  obtain ⟨s, h1, h2, h3, h4, h5, h6⟩ := of (by decide) (written_replicate .resp 1024 1 (by simp [Holds, entryBytes]))
  obtain ⟨h7, h8⟩ := filled_spec .resp 1 65535 (by simp [Holds, entryBytes]) (by decide)
  exact ⟨⟨s, by decide, h1, h2, h3, sectionLegal_of (o := 8) (k := 30) h2 h4 (by rw [h3]; decide) (by decide) (by decide)
    (by decide) (by decide), h5, h6⟩, ⟨_, h7, sectionLegal_of (o := 0) (k := 0) rfl rfl (Nat.zero_le _) (by decide)
    (by decide) (by decide) (by decide), h8, sink_accepts rfl⟩⟩

/-- The operands of a residual section's checks: count, partition order, method, the first two parameters. -/
def partitioned (n : Word) (o : BitVec 4) (m : Method) (k₀ k₁ : BitVec 5) : State :=
  { start (count n) [] with porder := o, method := m, param := ((Vector.replicate 256 0).set 0 k₀).set 1 k₁ }

/-- Each way the shape can fail, at its boundary; then each bad parameter, in the first and in the last partition. -/
theorem witness_ResidualSectionChecks :
    (∀ x ∈ [(0, 0, 0), (65536, 0, 0), (512, 9, 0), (1023, 8, 0), (256, 8, 2), (4, 0, 4), (1, 0, 1)],
      let s := partitioned (BitVec.ofNat 32 x.1) (BitVec.ofNat 4 x.2.1) .four 0 0
      let n := s.args[0].toNat
      let o := s.porder.toNat
      ¬ (1 ≤ n ∧ n ≤ 65535 ∧ o ≤ 8 ∧ n % 2 ^ o = 0 ∧ (BitVec.ofNat 3 x.2.2).toNat ≤ n >>> o ∧
        (BitVec.ofNat 3 x.2.2).toNat < n)) ∧
    (∀ x ∈ [(Method.four, 15, 0), (.four, 14, 31), (.four, 16, 0), (.four, 14, 30), (.five, 30, 31)],
      let s := partitioned 8 1 x.1 (BitVec.ofNat 5 x.2.1) (BitVec.ofNat 5 x.2.2)
      (1 ≤ s.args[0].toNat ∧ s.args[0].toNat ≤ 65535 ∧ s.porder.toNat ≤ 8 ∧ s.args[0].toNat % 2 ^ s.porder.toNat = 0 ∧
        (4 : BitVec 3).toNat ≤ s.args[0].toNat >>> s.porder.toNat ∧ (4 : BitVec 3).toNat < s.args[0].toNat) ∧
      ∃ j < 2 ^ s.porder.toNat, (∀ i < j, getParam i s ≤ if s.method = .four then 14 else 30) ∧
        (s.method = .four ∧ (getParam j s = 15 ∨ getParam j s = 31) ∨
          s.method = .four ∧ 16 ≤ getParam j s ∧ getParam j s ≤ 30 ∨ s.method = .five ∧ getParam j s = 31)) := by
  decide +kernel

/-! ### Witnesses: the frame header -/

/-- The greatest operands with eight independent channels, the least with one, and a stereo mode. -/
theorem witness_FrameHeaderEmits :
    ∀ x ∈ [(8, 32, 65535, 0xFFFFFFFF, 0xF, 7), (1, 8, 1, 0, 0, 0), (2, 16, 192, 0, 0, 10)],
      let s := withFmt (BitVec.ofNat 4 x.1) (BitVec.ofNat 6 x.2.1) 44100
        (start #v[BitVec.ofNat 32 x.2.2.1, BitVec.ofNat 32 x.2.2.2.1, BitVec.ofNat 32 x.2.2.2.2.1, 0] [])
      let ca := BitVec.ofNat 4 x.2.2.2.2.2
      let c := s.channels.toNat
      let bd := s.bits.toNat
      (1 ≤ c ∧ c ≤ 8) ∧ (bd = 8 ∨ bd = 16 ∨ bd = 24 ∨ bd = 32) ∧ s.nb = 0 ∧ 1 ≤ s.args[0].toNat ∧
        s.args[0].toNat ≤ 65535 ∧ (s.args[2] ++ s.args[1]).toNat < 2 ^ 36 ∧
        (8 ≤ ca.toNat ∧ c = 2 ∨ ca.toNat < 8 ∧ ca.toNat + 1 = c) ∧ s.sink = [] := by decide

/-- A state for the checks of a header: channels, bit depth, `nb`, count, high word of the number. -/
def header (c bd nb n hi : Nat) : State :=
  { withFmt (BitVec.ofNat 4 c) (BitVec.ofNat 6 bd) 44100 (start #v[BitVec.ofNat 32 n, 0, BitVec.ofNat 32 hi, 0] []) with
    nb := BitVec.ofNat 3 nb }

def headerFormat (s : State) : Bool :=
  decide ((1 ≤ s.channels.toNat ∧ s.channels.toNat ≤ 8) ∧
    (s.bits.toNat = 8 ∨ s.bits.toNat = 16 ∨ s.bits.toNat = 24 ∨ s.bits.toNat = 32))

def headerOperands (s : State) : Bool :=
  decide ((1 ≤ s.args[0].toNat ∧ s.args[0].toNat ≤ 65535) ∧ (s.args[2] ++ s.args[1]).toNat < 2 ^ 36)

def headerAgrees (ca : Nat) (s : State) : Bool :=
  decide (8 ≤ ca ∧ s.channels.toNat = 2 ∨ ca < 8 ∧ ca + 1 = s.channels.toNat)

/-- Each check failing at its boundary with those before it passed. -/
theorem witness_FrameChecks :
    (∀ s ∈ [header 0 16 0 1 0, header 9 16 0 1 0, header 1 12 0 1 0], headerFormat s = false) ∧
    (headerFormat (header 8 32 7 1 0) = true ∧ (header 8 32 7 1 0).nb ≠ 0) ∧
    (∀ s ∈ [header 1 8 0 0 0, header 1 8 0 65536 0, header 1 8 0 1 0x10],
      headerFormat s = true ∧ s.nb = 0 ∧ headerOperands s = false) ∧
    ∀ x ∈ [(2, 0), (2, 2), (2, 7), (1, 8), (8, 10)],
      headerFormat (header x.1 8 0 1 0xF) = true ∧ (header x.1 8 0 1 0xF).nb = 0 ∧
        headerOperands (header x.1 8 0 1 0xF) = true ∧ headerAgrees x.2 (header x.1 8 0 1 0xF) = false := by
  decide +kernel

/-- A block size of each case at the ends of its range, and a rate of each case. -/
theorem witness_HeaderCodesCanBeRead :
    (144 * 2 ^ 2 = 576 ∧ 144 * 2 ^ 5 = 4608 ∧ 2 ^ 8 = 256 ∧ 2 ^ 15 = 32768 ∧ 1 ≤ 1 ∧ 65535 ≤ 65535) ∧
    (∀ bs ∈ [1, 255, 257, 65535], bs ≠ 192 ∧ (∀ k ∈ [2, 3, 4, 5], bs ≠ 144 * 2 ^ k) ∧
      ∀ k ∈ [8, 9, 10, 11, 12, 13, 14, 15], bs ≠ 2 ^ k) ∧
    rateTable[0]? = some 88200 ∧ rateTable[10]? = some 96000 ∧
    (∀ r ∈ [1000, 255000, 1, 65535, 65540, 655350, 65537, 655360, 1048575], r ∉ rateTable ∧ r ≠ 0 ∧ r < 2 ^ 20) ∧
    (255000 % 1000 = 0 ∧ 255000 / 1000 ≤ 255) ∧ ¬ (65535 % 1000 = 0 ∧ 65535 / 1000 ≤ 255) ∧
    (65535 < 655350 ∧ 655350 % 10 = 0 ∧ 655350 / 10 ≤ 65535) ∧ ¬ (655360 % 10 = 0 ∧ 655360 / 10 ≤ 65535) := by
  decide

theorem witness_FrameNumberCanBeRead : 0 < 2 ^ 36 ∧ 2 ^ 36 - 1 < 2 ^ 36 := by decide

/-! ### Witnesses: the predictor and the Rice coder -/

theorem witness_ResidualFormula : 4 ≤ 4 ∧ 0 < [1, 2, 3, 4, 5].length ∧ 4 < [1, 2, 3, 4, (5 : Int)].length := by decide

/-- Order 0 fits on every plane of 32-bit entries. -/
theorem fits_order_zero (c : Fin 8) (n : Nat) (m : Memory) : ResidualsFit 0 n (sampleAt (.ch c) m) := fun i _ => by
  have h : residualAt 0 (sampleAt (.ch c) m) i = sampleAt (.ch c) m i := rfl
  rw [h, sampleAt]
  cases e : readEntry (.ch c) i m with
  | none => simp
  | some v =>
    have := readEntry_holds e
    simp only [Holds, entryBytes] at this
    simpa using this

/-- One sample and 65535 that fit, two that do not, no sample and 65536. -/
theorem witness_ResidualsIntoResp :
    (4 : BitVec 3).toNat ≤ 4 ∧ (0 : BitVec 3).toNat ≤ 4 ∧
    (let s := start (count 1) [(.ch 0, [2 ^ 31 - 1])]
     s.args[0].toNat = 1 ∧ Written (.ch 0) 0 1 s.mem ∧ ResidualsFit 4 1 (sampleAt (.ch 0) s.mem)) ∧
    (∃ s : State, s.args[0].toNat = 65535 ∧ Written (.ch 7) 0 65535 s.mem ∧
      ResidualsFit 0 65535 (sampleAt (.ch 7) s.mem)) ∧
    (let s := start (count 2) [(.ch 0, [2 ^ 31 - 1, -2 ^ 31])]
     s.args[0].toNat = 2 ∧ Written (.ch 0) 0 2 s.mem ∧ ¬ ResidualsFit 1 2 (sampleAt (.ch 0) s.mem)) ∧
    State.reset.args[0].toNat = 0 ∧ 65535 < (start (count 65536) []).args[0].toNat := by
  obtain ⟨h1, h2⟩ := filled_spec (.ch 7) 0 65535 (by simp [Holds, entryBytes]) (by decide)
  refine ⟨by decide, by decide, ⟨rfl, written_of_all (by decide +kernel), ?_⟩, ⟨_, h1, h2, fits_order_zero _ _ _⟩,
    ⟨rfl, written_of_all (by decide +kernel), ?_⟩, rfl, by decide⟩
  · unfold ResidualsFit
    decide +kernel
  · unfold ResidualsFit
    decide +kernel

/-- Five samples, 65535, and a plane where orders are poisoned and where they are not; four samples and 65536. -/
theorem witness_BestOrderIsLeast :
    (let s := start (count 5) [(.ch 0, [1, 2, 3, 4, 5])]
     s.args[0].toNat = 5 ∧ Written (.ch 0) 0 5 s.mem ∧
       ¬ (true = true ∧ ¬ ResidualsFit 1 5 (sampleAt (.ch 0) s.mem))) ∧
    (∃ s : State, s.args[0].toNat = 65535 ∧ Written .mid 0 65535 s.mem) ∧
    (wide.args[0].toNat = 8 ∧ Written .side 0 8 wide.mem ∧ ∀ p ≤ 4, ¬ ResidualsFit p 8 (sampleAt .side wide.mem)) ∧
    stereo.args[0].toNat < 5 ∧ 65535 < (start (count 65536) []).args[0].toNat := by
  refine ⟨⟨rfl, written_of_all (by decide +kernel), ?_⟩,
    ⟨_, filled_spec .mid 0 65535 (by simp [Holds, entryBytes]) (by decide)⟩,
    ⟨rfl, written_of_all (by decide +kernel), ?_⟩, by decide, by decide⟩
  · unfold ResidualsFit
    decide +kernel
  · unfold ResidualsFit
    decide +kernel

theorem witness_ZigzagIsABijection :
    -2 ^ 31 ≤ (-2 ^ 31 : Int) ∧ (2 ^ 31 - 1 : Int) < 2 ^ 31 ∧ (5 : Int).natAbs < (-6 : Int).natAbs ∧
      2 ≤ (15 : Fin 16).val := by decide

/-- Order 4 over the greatest count and over five entries; no entry, 65536, and as many as the order. -/
theorem witness_OptimiserChoosesTheLeast :
    (30 : BitVec 5).toNat ≤ 30 ∧ (8 : BitVec 4).toNat ≤ 8 ∧ (4 : BitVec 3).toNat = 4 ∧
    (∃ s : State, s.args[0].toNat = 65535 ∧ 4 < s.args[0].toNat ∧ Written .resp 4 (65535 - 4) s.mem) ∧
    (∃ s : State, s.args[0].toNat = 5 ∧ 4 < s.args[0].toNat ∧ Written .resp 4 (5 - 4) s.mem) ∧
    State.reset.args[0].toNat = 0 ∧ 65535 < (start (count 65536) []).args[0].toNat ∧ stereo.args[0].toNat ≤ 4 := by
  obtain ⟨h1, h2⟩ := filled_spec .resp 0 65535 (by simp [Holds, entryBytes]) (by decide)
  obtain ⟨h3, h4⟩ := filled_spec .resp 0 5 (by simp [Holds, entryBytes]) (by decide)
  exact ⟨by decide, by decide, rfl, ⟨_, h1, by omega, h2.mono (by omega) (by omega)⟩,
    ⟨_, h3, by omega, h4.mono (by omega) (by omega)⟩, rfl, by decide, by decide⟩

theorem witness_EstimateResult :
    (start #v[0, 0, 1, 0] []).args[2].toNat = 1 ∧ (start #v[1, 0, 65535, 0] []).args[2].toNat = 65535 ∧
    ((start #v[0, 0, 1, 0] []).args[1] ++ (start #v[0, 0, 1, 0] []).args[0]).toNat = 0 ∧
    ((start #v[1, 0, 65535, 0] []).args[1] ++ (start #v[1, 0, 65535, 0] []).args[0]).toNat ≠ 0 ∧
    State.reset.args[2].toNat = 0 ∧ 65535 < (start #v[0, 0, 65536, 0] []).args[2].toNat := by decide

/-! ### Witnesses: stereo -/

/-- A state with the first `n` entries of two planes written, and `n` as the count. -/
theorem two_planes (n : Nat) (hn : n < 2 ^ 32) :
    ∃ s : State, s.args[0].toNat = n ∧ Written (.ch 0) 0 n s.mem ∧ Written (.ch 1) 0 n s.mem := by
  have hv (c : Fin 8) : ∀ v ∈ List.replicate n (0 : Int), Holds (.ch c) v := fun v hv => by
    rw [(List.mem_replicate.mp hv).2]
    simp [Holds, entryBytes]
  have h0 := written_writeEntries (.ch 0) 0 [] (hv 0)
  have h1 := written_writeEntries (.ch 1) 0 (writeEntries (.ch 0) 0 (List.replicate n 0) []) (hv 1)
  have h0' := (writeEntries_within (.ch 1) 0 (List.replicate n 0) _).written h0
  rw [List.length_replicate] at h0' h1
  exact ⟨{ State.reset with args := count (BitVec.ofNat 32 n), mem := _ },
    (BitVec.toNat_ofNat ..).trans (Nat.mod_eq_of_lt hn), h0', h1⟩

theorem witness_StereoChoiceIsFirstLeast :
    (∃ s : State, s.args[0].toNat = 1 ∧ Written (.ch 0) 0 1 s.mem ∧ Written (.ch 1) 0 1 s.mem) ∧
    (∃ s : State, s.args[0].toNat = 65535 ∧ Written (.ch 0) 0 65535 s.mem ∧ Written (.ch 1) 0 65535 s.mem) ∧
    State.reset.args[0].toNat = 0 ∧ 65535 < (start (count 65536) []).args[0].toNat :=
  ⟨two_planes 1 (by decide), two_planes 65535 (by decide), rfl, by decide⟩

theorem witness_StereoTransformPlanes :
    (∃ s : State, s.args[0].toNat = 1 ∧ Written (.ch 0) 0 1 s.mem ∧ Written (.ch 1) 0 1 s.mem) ∧
    (∃ s : State, s.args[0].toNat = 65535 ∧ Written (.ch 0) 0 65535 s.mem ∧ Written (.ch 1) 0 65535 s.mem) ∧
    StereoMode.leftSide ≠ .leftRight ∧ StereoMode.sideRight ≠ .midSide ∧
    State.reset.args[0].toNat = 0 ∧ 65535 < (start (count 65536) []).args[0].toNat :=
  ⟨two_planes 1 (by decide), two_planes 65535 (by decide), by decide, by decide, rfl, by decide⟩

theorem witness_MidSideRecovers : -2 ^ 31 ≤ (-2 ^ 31 : Int) ∧ (2 ^ 31 - 1 : Int) < 2 ^ 31 := by decide

/-! ### Witnesses: subframes and frames -/

/-- All samples equal, for one sample and for 65535; two values among four samples; no sample and 65536. -/
theorem witness_SubframeChoiceWithoutPredictor :
    (∀ n ∈ [1, 65535], ∃ s : State, s.args[0].toNat = n ∧ Written (.ch 0) 0 n s.mem ∧
      ∀ i < n, sampleAt (.ch 0) s.mem i = sampleAt (.ch 0) s.mem 0) ∧
    (stereo.args[0].toNat = 4 ∧ Written (.ch 0) 0 4 stereo.mem ∧
      ∃ i < 4, sampleAt (.ch 0) stereo.mem i ≠ sampleAt (.ch 0) stereo.mem 0) ∧
    State.reset.args[0].toNat = 0 ∧ 65535 < (start (count 65536) []).args[0].toNat := by
  refine ⟨fun n hn => ?_, ⟨rfl, written_of_all (by decide +kernel), by decide +kernel⟩, rfl, by decide⟩
  have hlt : 1 ≤ n ∧ n < 2 ^ 32 := by
    simp only [List.mem_cons, List.not_mem_nil, or_false] at hn
    omega
  obtain ⟨h1, h2⟩ := filled_spec (.ch 0) 7 n (by simp [Holds, entryBytes]) hlt.2
  have hv : ∀ v ∈ List.replicate n (7 : Int), Holds (.ch 0) v := fun v hv => by
    rw [(List.mem_replicate.mp hv).2]
    simp [Holds, entryBytes]
  have h (i : Nat) (hi : i < n) : sampleAt (.ch 0) (filled (.ch 0) n 7).mem i = 7 := by
    have := readEntry_writeEntries (pl := .ch 0) (i := 0) (j := i) [] hv (by simpa using hi)
    simp only [Nat.zero_add, List.getElem_replicate] at this
    simp only [sampleAt, filled, this, Option.getD_some]
  exact ⟨_, h1, h2, fun i hi => (h i hi).trans (h 0 hlt.1).symm⟩

/-- Samples a predictor shortens. -/
def sawtooth : State := start (count 8) [(.ch 0, [0, 100, -100, 100, -100, 100, -100, 100])]

/-- What BEST_ORDER, FP_RESIDUALS and RC_OPTIMISE answer on `sawtooth`; no order on `wide` with the range check; an order
out of range on it without. -/
theorem witness_SubframeChoiceIsItsPrimitives :
    (sawtooth.args[0].toNat = 8 ∧ Written (.ch 0) 0 8 sawtooth.mem ∧
      (∃ i < 8, sampleAt (.ch 0) sawtooth.mem i ≠ sampleAt (.ch 0) sawtooth.mem 0) ∧
      ∃ b m o, exec (.fpBestOrder (.ch 0) (decide (28 ≤ (8 : BitVec 6).toNat))) sawtooth = .next b ∧
        b.res[2] = 0 ∧ ResidualsFit 0 8 (sampleAt (.ch 0) sawtooth.mem) ∧
        exec (.fpResiduals (.ch 0) ((0 : Word).setWidth 3)) sawtooth = .next { sawtooth with mem := m }.completed ∧
        exec (.rcOptimise ((0 : Word).setWidth 3) 8 14) { sawtooth with mem := m } = .next o) ∧
    (wide.args[0].toNat = 8 ∧ Written .side 0 8 wide.mem ∧
      (∃ i < 8, sampleAt .side wide.mem i ≠ sampleAt .side wide.mem 0) ∧
      (∃ b, exec (.fpBestOrder .side (decide (28 ≤ (33 : BitVec 6).toNat))) wide = .next b ∧ b.res[2] = 0xFFFFFFFF) ∧
      ∃ b, exec (.fpBestOrder .side (decide (28 ≤ (16 : BitVec 6).toNat))) wide = .next b ∧
        b.res[2] ≠ 0xFFFFFFFF ∧ ¬ ResidualsFit b.res[2].toNat 8 (sampleAt .side wide.mem)) := by
  have result {i : Instr} {s : State} {v : Word} (h : ((nextOf (exec i s)).map fun t => t.res[2]) = some v) :
      ∃ b, exec i s = .next b ∧ b.res[2] = v := by
    obtain ⟨t, ht, e⟩ := Option.map_eq_some_iff.mp h
    exact ⟨t, next_of_eq ht, e⟩
  refine ⟨⟨rfl, written_of_all (by decide +kernel), by decide +kernel, ?_⟩,
    rfl, written_of_all (by decide +kernel), by decide +kernel, result (by decide +kernel), ?_⟩
  · obtain ⟨b, hb, hr⟩ := result (i := .fpBestOrder (.ch 0) (decide (28 ≤ (8 : BitVec 6).toNat))) (s := sawtooth)
      (v := 0) (by decide +kernel)
    obtain ⟨o, ho⟩ := next_of_isSome (r := exec (.rcOptimise ((0 : Word).setWidth 3) 8 14) { sawtooth with
      mem := writeEntries .resp 0 [0, 100, -100, 100, -100, 100, -100, 100] sawtooth.mem }) (by decide +kernel)
    exact ⟨b, _, o, hb, hr, fits_order_zero _ _ _, rfl, ho⟩
  · obtain ⟨b, hb, hr⟩ := result (i := .fpBestOrder .side (decide (28 ≤ (16 : BitVec 6).toNat))) (s := wide) (v := 1)
      (by decide +kernel)
    refine ⟨b, hb, by rw [hr]; decide, ?_⟩
    rw [hr]
    unfold ResidualsFit
    decide +kernel

/-- Entries of one value that fit. -/
theorem filled_fit (pl : Plane) (n ss : Nat) (v : Int) (h : Holds pl v) (hv : -(2 ^ (ss - 1)) ≤ v ∧ v < 2 ^ (ss - 1)) :
    SamplesFit ss (entries pl 0 n (filled pl n v).mem) := fun x hx => by
  have e := entries_writeEntries (pl := pl) (i := 0) (vs := List.replicate n v) [] fun x hx =>
    (List.mem_replicate.mp hx).2 ▸ h
  rw [List.length_replicate] at e
  rw [filled, e] at hx
  exact (List.mem_replicate.mp hx).2 ▸ hv

/-- The least and the greatest sample at the narrowest and the widest size, for 65535 samples and for one; SF_CHOOSE
answers each kind on some samples that fit. -/
theorem witness_SubframesAreLossless :
    (legalPlane (.ch 7) = true ∧ legalPlane .side = true ∧ legalSampleSize 1 = true ∧ legalSampleSize 33 = true) ∧
    (∃ s : State, s.args[0].toNat = 65535 ∧ Written (.ch 7) 0 65535 s.mem ∧
      SamplesFit 1 (entries (.ch 7) 0 65535 s.mem) ∧ SinkAccepts s) ∧
    (∃ s : State, s.args[0].toNat = 1 ∧ Written .side 0 1 s.mem ∧ SamplesFit 33 (entries .side 0 1 s.mem) ∧
      SinkAccepts s) ∧
    (∀ x ∈ [(start (count 4) [(.ch 0, [7, 7, 7, 7])], (0 : Word)), (start (count 4) [(.ch 0, [1, 2, 3, 4])], 1), (sawtooth, 2)],
      ((nextOf (exec (.sfChoose (.ch 0) 16) x.1)).map fun t => t.res[2]) = some x.2 ∧
        SamplesFit 16 (entries (.ch 0) 0 x.1.args[0].toNat x.1.mem)) := by
  obtain ⟨h1, h2⟩ := filled_spec (.ch 7) (-1) 65535 (by simp [Holds, entryBytes]) (by decide)
  obtain ⟨h3, h4⟩ := filled_spec .side (2 ^ 32 - 1) 1 (by simp [Holds, entryBytes]) (by decide)
  exact ⟨by decide, ⟨_, h1, h2, filled_fit _ _ _ _ (by simp [Holds, entryBytes]) (by decide), sink_accepts rfl⟩,
    ⟨_, h3, h4, filled_fit _ _ _ _ (by simp [Holds, entryBytes]) (by decide), sink_accepts rfl⟩, by
    unfold SamplesFit
    decide +kernel⟩

/-- Eight channels of one sample at the widest depth, with the greatest number. -/
def eight : State :=
  withFmt 8 32 44100 (start #v[1, 0xFFFFFFFF, 0xF, 0] ((List.finRange 8).map fun c => (.ch c, [-2 ^ 31])))

theorem frameReady_eight : FrameReady eight 1 := by
  refine ⟨rfl, by decide, by decide, rfl, by decide, by decide, fun c _ => written_of_all ?_, fun c _ => ?_⟩
  · revert c
    decide +kernel
  · unfold SamplesFit
    revert c
    decide +kernel

theorem frameReady_stereo : FrameReady stereo 4 := by
  refine ⟨rfl, by decide, by decide, rfl, by decide, by decide, fun c _ => written_of_all ?_, fun c _ => ?_⟩
  · revert c
    decide +kernel
  · unfold SamplesFit
    revert c
    decide +kernel

/-- One channel of the greatest count. -/
theorem frameReady_longest : ∃ s : State, FrameReady s 65535 ∧ SinkAccepts s := by
  obtain ⟨h1, h2⟩ := filled_spec (.ch 0) 127 65535 (by simp [Holds, entryBytes]) (by decide)
  have h3 := filled_fit (.ch 0) 65535 8 127 (by simp [Holds, entryBytes]) (by decide)
  have zero {c : Fin 8} (hc : c.val < 1) : c = 0 := Fin.ext (by omega)
  have of {s : State} (h1 : s.args[0].toNat = 65535) (hn : s.args = count 65535) (hb : s.nb = 0) (hs : s.sink = [])
      (h2 : Written (.ch 0) 0 65535 s.mem) (h3 : SamplesFit 8 (entries (.ch 0) 0 65535 s.mem)) :
      ∃ s : State, FrameReady s 65535 ∧ SinkAccepts s :=
    ⟨withFmt 1 8 8000 s, ⟨h1, show 1 ≤ (1 : BitVec 4).toNat ∧ (1 : BitVec 4).toNat ≤ 8 by decide,
      .inl (show (8 : BitVec 6).toNat = 8 by decide), hb, by decide, by
        show (s.args[2] ++ s.args[1]).toNat < 2 ^ 36
        simp [hn, count], fun c hc => zero hc ▸ h2, fun c hc => zero hc ▸ h3⟩, sink_accepts hs⟩
  exact of h1 rfl rfl rfl h2 h3

/-- With a stereo choice, with stereo disabled, with eight channels, and with the greatest count. -/
theorem witness_FrameEncodeCompletes :
    (FrameReady stereo 4 ∧ SinkAccepts stereo ∧ stereo.channels = 2 ∧ stereoOperand stereo = true) ∧
    ¬ (State.channels { stereo with stereoEn := false } = 2 ∧ stereoOperand { stereo with stereoEn := false } = true) ∧
    (FrameReady eight 1 ∧ SinkAccepts eight ∧ ¬ (eight.channels = 2 ∧ stereoOperand eight = true)) ∧
    ∃ s : State, FrameReady s 65535 ∧ SinkAccepts s :=
  ⟨⟨frameReady_stereo, sink_accepts rfl, rfl, rfl⟩, by decide, ⟨frameReady_eight, sink_accepts rfl, by decide⟩,
    frameReady_longest⟩

theorem witness_FramesAreLossless :
    (FrameReady stereo 4 ∧ SinkAccepts stereo) ∧ (FrameReady eight 1 ∧ SinkAccepts eight) ∧
    ∃ s : State, FrameReady s 65535 ∧ SinkAccepts s :=
  ⟨⟨frameReady_stereo, sink_accepts rfl⟩, ⟨frameReady_eight, sink_accepts rfl⟩, frameReady_longest⟩

end Sys2Proof.Tests
end

section
/-! The ends of an issued command in the words of the obligations, and the control commands NOP and BW_CRC_RESET. -/

namespace Sys2Proof.Machine

/-- A command whose pseudocode ends ok completes (spec/60_exceptions.md R366). -/
theorem exec_completed {i : Instr} {s t : State} (h : runInstr i s = .ok t) : exec i s = .next t.completed := by
  rw [exec_eq, h, finish_ok]
  rfl

/-- A command whose pseudocode ends in an error of its checks enters the error state and keeps what it left
(spec/60_exceptions.md R367, R369 (a), (b)). -/
theorem exec_failed {i : Instr} {s t : State} {c : ErrorCode} (h : runInstr i s = .error c t) (hc : c ≠ .writeFailed) :
    exec i s = .next (t.failed c) := by
  rw [exec_eq, h, finish_error t hc]
  rfl

theorem runBwCrcReset_aligned {s : State} (h : s.nb = 0) : runBwCrcReset s = .ok s.cleared :=
  if_neg (not_not_intro h)

theorem runBwCrcReset_unaligned {s : State} (h : s.nb ≠ 0) : runBwCrcReset s = .error .bwUnaligned s :=
  if_pos h

/-- Settles O32, from what the two commands' pseudocode ends in. -/
theorem nopAndCrcReset : Obligations.NopAndCrcReset := by
  intro s
  refine ⟨?nop, fun aligned => ?aligned, fun unaligned => ?unaligned⟩
  case nop => exact exec_completed rfl
  case aligned => exact exec_completed (runBwCrcReset_aligned aligned)
  case unaligned => exact exec_failed (runBwCrcReset_unaligned unaligned) (by decide)

end Sys2Proof.Machine
end

section
/-! The residual set against R230's table, and how FP_RESIDUALS ends (spec/43_fixed_predictor.md R230-R232, R241). -/

namespace Sys2Proof.Machine

/-! ### The rows of R230's table, as predictions and as residuals -/

theorem prediction_zero (h : List Int) : prediction 0 h = 0 := rfl

theorem prediction_one (a : Int) (h : List Int) : prediction 1 (a :: h) = a := by
  simp [prediction, coefficients]

theorem prediction_two (a b : Int) (h : List Int) : prediction 2 (a :: b :: h) = 2 * a - b := by
  simp [prediction, coefficients, Int.sub_eq_add_neg]

theorem prediction_three (a b c : Int) (h : List Int) : prediction 3 (a :: b :: c :: h) = 3 * a - 3 * b + c := by
  simp [prediction, coefficients, Int.sub_eq_add_neg, Int.add_assoc]

theorem prediction_four (a b c d : Int) (h : List Int) :
    prediction 4 (a :: b :: c :: d :: h) = 4 * a - 6 * b + 4 * c - d := by
  simp [prediction, coefficients, Int.sub_eq_add_neg, Int.add_assoc]

theorem residualAt_warmup {p i : Nat} (x : Nat → Int) (h : i < p) : residualAt p x i = x i := if_pos h

theorem residualAt_zero (x : Nat → Int) (i : Nat) : residualAt 0 x i = x i := if_neg (Nat.not_lt_zero i)

theorem residualAt_one (x : Nat → Int) (i : Nat) : residualAt 1 x (i + 1) = x (i + 1) - x i := if_neg (by omega)

theorem residualAt_two (x : Nat → Int) (i : Nat) :
    residualAt 2 x (i + 2) = x (i + 2) - 2 * x (i + 1) + x i := if_neg (by omega)

theorem residualAt_three (x : Nat → Int) (i : Nat) :
    residualAt 3 x (i + 3) = x (i + 3) - 3 * x (i + 2) + 3 * x (i + 1) - x i := if_neg (by omega)

theorem residualAt_four (x : Nat → Int) (i : Nat) :
    residualAt 4 x (i + 4) = x (i + 4) - 4 * x (i + 3) + 6 * x (i + 2) - 4 * x (i + 1) + x i := if_neg (by omega)

/-! ### The residual set is the table's residuals -/

/-- From p on, a sample's difference from its prediction is the residual of the table's row of order p: the history's
first p entries are the p samples before it (R230). -/
theorem sub_prediction_eq_residualAt {p i : Nat} {xs : List Int} (hp : p ≤ 4) (hpi : p ≤ i) (hi : i < xs.length) :
    xs.getD i 0 - prediction p (xs.take i).reverse = residualAt p (fun j => xs.getD j 0) i := by
  obtain ⟨k, rfl⟩ := Nat.exists_eq_add_of_le' hpi
  match p, hp with
  | 0, _ => rw [prediction_zero, residualAt_zero, sub_zero]
  | 1, _ => simp (disch := omega) only [reverse_take_eq, prediction_one, residualAt_one]
  | 2, _ =>
    simp (disch := omega) only [reverse_take_eq, prediction_two, residualAt_two]
    ring
  | 3, _ =>
    simp (disch := omega) only [reverse_take_eq, prediction_three, residualAt_three]
    ring
  | 4, _ =>
    simp (disch := omega) only [reverse_take_eq, prediction_four, residualAt_four]
    ring

/-- A residual looks at no later sample. -/
theorem residualAt_congr {p i : Nat} {x y : Nat → Int} (h : ∀ j ≤ i, x j = y j) :
    residualAt p x i = residualAt p y i := by
  simp only [residualAt, h i (le_refl i), h (i - 1) (Nat.sub_le ..), h (i - 2) (Nat.sub_le ..),
    h (i - 3) (Nat.sub_le ..), h (i - 4) (Nat.sub_le ..)]

/-- Entry `i` of the residual set is `e_p[i]` (R232). -/
theorem getElem?_residualSet_eq_residualAt {p i : Nat} {xs : List Int} (hp : p ≤ 4) (hi : i < xs.length) :
    (residualSet p xs)[i]? = some (residualAt p (fun j => xs.getD j 0) i) := by
  have hx : xs[i]? = some (xs.getD i 0) := by simp [hi]
  rw [getElem?_residualSet, hx, Option.map_some]
  split
  · next warmup => rw [residualAt_warmup _ warmup]
  · next later => rw [sub_prediction_eq_residualAt hp (Nat.le_of_not_lt later) hi]

/-- Settles O46, entry by entry. -/
theorem residualFormula : Obligations.ResidualFormula := fun _ _ hp =>
  ⟨length_residualSet .., fun _ hi => getElem?_residualSet_eq_residualAt hp hi⟩

/-! ### The residual set of a plane -/

theorem getD_entries {pl : Plane} {n j : Nat} (m : Memory) (hj : j < n) :
    (entries pl 0 n m).getD j 0 = sampleAt pl m j := by
  simp [entries, sampleAt, hj]

theorem residualSet_entries {p : Nat} (pl : Plane) (n : Nat) (m : Memory) (hp : p ≤ 4) :
    residualSet p (entries pl 0 n m) = (List.range n).map (residualAt p (sampleAt pl m)) := by
  refine List.ext_getElem? fun i => ?_
  rcases Nat.lt_or_ge i n with inside | outside
  · rw [getElem?_residualSet_eq_residualAt hp (by simpa using inside),
      residualAt_congr fun j hj => getD_entries m (by omega)]
    simp [inside]
  · rw [List.getElem?_eq_none (by simpa using outside), List.getElem?_eq_none (by simpa using outside)]

/-- R241's range check of a plane's residual set is `ResidualsFit`. -/
theorem residualsFit_iff {p : Nat} (pl : Plane) (n : Nat) (m : Memory) (hp : p ≤ 4) :
    ResidualsFit p n (sampleAt pl m) ↔ (residualSet p (entries pl 0 n m)).all inI32 = true := by
  simp [residualSet_entries pl n m hp, ResidualsFit, inI32_iff]

/-- A residual set that fits reads back entry by entry from where RESP took it. -/
theorem readEntry_writeEntries_residualSet {p n i : Nat} (pl : Plane) (m : Memory) (hp : p ≤ 4)
    (fits : ResidualsFit p n (sampleAt pl m)) (hi : i < n) :
    readEntry .resp i (writeEntries .resp 0 (residualSet p (entries pl 0 n m)) m) =
      some (residualAt p (sampleAt pl m) i) := by
  have holds : ∀ v ∈ residualSet p (entries pl 0 n m), Holds .resp v := fun v hv =>
    inI32_iff.mp (List.all_eq_true.mp ((residualsFit_iff pl n m hp).mp fits) v hv)
  have read := readEntry_writeEntries (i := 0) (j := i) m holds (by simpa using hi)
  simpa [residualSet_entries pl n m hp] using read

/-- Writing the first `vs.length` entries of a plane leaves the bytes outside them. -/
theorem readByte_writeEntries_outside {pl : Plane} {vs : List Int} {a : Nat} (m : Memory)
    (h : a < entryOffset pl 0 ∨ entryOffset pl vs.length ≤ a) :
    (writeEntries pl 0 vs m).readByte a = m.readByte a := by
  have length_offset : entryOffset pl vs.length = entryOffset pl 0 + entryBytes pl * vs.length := by simp [entryOffset]
  exact (writeEntries_within pl 0 vs m).outside a (by omega)

/-! ### How FP_RESIDUALS ends -/

theorem runFpResiduals_count {p : Nat} (pl : Plane) {s : State} (h : ¬ legalSamples (sampleCount s) = true) :
    runFpResiduals pl p s = .error .invalidOperand s := if_pos h

theorem runFpResiduals_fits {p : Nat} {pl : Plane} {s : State} (hl : legalSamples (sampleCount s) = true)
    (hw : Written pl 0 (sampleCount s) s.mem) (hp : p ≤ 4)
    (fits : ResidualsFit p (sampleCount s) (sampleAt pl s.mem)) :
    runFpResiduals pl p s =
      .ok { s with mem := writeEntries .resp 0 (residualSet p (entries pl 0 (sampleCount s) s.mem)) s.mem } := by
  unfold runFpResiduals
  rw [if_neg (not_not_intro hl), readEntries_ok hw]
  exact if_neg (not_not_intro ((residualsFit_iff pl _ s.mem hp).mp fits))

theorem runFpResiduals_range {p : Nat} {pl : Plane} {s : State} (hl : legalSamples (sampleCount s) = true)
    (hw : Written pl 0 (sampleCount s) s.mem) (hp : p ≤ 4)
    (beyond : ¬ ResidualsFit p (sampleCount s) (sampleAt pl s.mem)) :
    runFpResiduals pl p s = .error .residualRange s := by
  unfold runFpResiduals
  rw [if_neg (not_not_intro hl), readEntries_ok hw]
  exact if_pos (mt (residualsFit_iff pl _ s.mem hp).mpr beyond)

/-- Settles O47, from how the pseudocode ends and what RESP then reads. -/
theorem residualsIntoResp : Obligations.ResidualsIntoResp := by
  intro s pl ord hp
  rw [← sampleCount_eq s]
  intro n x
  refine ⟨fun least greatest written => ?legal, fun illegal => ?count⟩
  case legal =>
    have legal : legalSamples n = true := legalSamples_iff.mpr ⟨least, greatest⟩
    refine ⟨fun fits => ⟨_, exec_completed (runFpResiduals_fits legal written hp fits), fun i hi => ?entry,
      fun a ha => ?frame⟩, fun beyond => exec_failed (runFpResiduals_range legal written hp beyond) (by decide)⟩
    case entry => exact readEntry_writeEntries_residualSet pl s.mem hp fits hi
    case frame => exact readByte_writeEntries_outside s.mem (by simpa using ha)
  case count =>
    refine exec_failed (runFpResiduals_count pl fun legal => ?_) (by decide)
    obtain ⟨least, greatest⟩ := legalSamples_iff.mp legal
    omega

end Sys2Proof.Machine
end

section
/-! The stereo chooser's bit estimate and how RC_ESTIMATE ends (spec/45_rice.md R292, R294). -/

namespace Sys2Proof.Machine

/-! ### The two cases of R292 -/

theorem estimate_zero (L : Nat) : estimate 0 L = (31, 5) := if_pos rfl

theorem estimate_of_ne_zero {sum : DWord} (L : Nat) (h : sum ≠ 0) :
    estimate sum L = (sum.toNat.log2 - L.log2, cost sum L (sum.toNat.log2 - L.log2)) := if_neg h

theorem estimate_snd (sum : DWord) (L : Nat) : (estimate sum L).2 = estimateBits sum L := by
  by_cases h : sum = 0
  · rw [h, estimate_zero, estimateBits, if_pos rfl]
  · rw [estimate_of_ne_zero L h, estimateBits, if_neg h]

theorem ofNat_estimate_fst (sum : DWord) (L : Nat) :
    BitVec.ofNat 32 (estimate sum L).1 = if sum = 0 then 31 else BitVec.ofNat 32 (sum.toNat.log2 - L.log2) := by
  by_cases h : sum = 0
  · rw [h, estimate_zero, if_pos rfl]
    rfl
  · rw [estimate_of_ne_zero L h, if_neg h]

/-! ### A 64-bit result in RES64(0) and a word in RES2 -/

theorem read_res64_res2 (d : DWord) (w : Word) (s : State) :
    let r := (setRes 2 w (setRes64 0 d s)).res
    r[1] ++ r[0] = d ∧ r[2] = w := by
  simp [dword_of_words]

/-- The result registers from RES3 on stay. -/
theorem res_setRes_setRes64_of_three_le (d : DWord) (w : Word) (s : State) (j : Fin 16) (hj : 3 ≤ j.val) :
    (setRes 2 w (setRes64 0 d s)).res[j] = s.res[j] := by
  rw [← getRes_eq, ← getRes_eq, getRes_setRes _ _ j.isLt, if_neg (by omega), getRes_setRes64 _ _ j.isLt,
    if_neg (by omega), if_neg (by omega)]

/-! ### How RC_ESTIMATE ends -/

theorem arg64_zero_eq (s : State) : arg64 0 s = s.args[1] ++ s.args[0] := by
  rw [arg64, show arg (0 + 1) s = s.args[1] from arg_eq s 1, show arg 0 s = s.args[0] from arg_eq s 0]

theorem runRcEstimate_legal {s : State} (h : legalSamples s.args[2].toNat = true) :
    runRcEstimate s =
      let e := estimate (s.args[1] ++ s.args[0]) s.args[2].toNat
      .ok (setRes 2 (BitVec.ofNat 32 e.1) (setRes64 0 e.2 s)) := by
  rw [← operandL_eq] at h ⊢
  rw [← arg64_zero_eq]
  exact if_neg (not_not_intro h)

theorem runRcEstimate_illegal {s : State} (h : ¬ legalSamples s.args[2].toNat = true) :
    runRcEstimate s = .error .invalidOperand s := if_pos (by rwa [operandL_eq])

/-- Settles O52, from how the pseudocode ends and what its result registers then read. -/
theorem estimateResult : Obligations.EstimateResult := by
  intro s sum L
  refine ⟨fun least greatest => ?legal, fun outside => ?illegal⟩
  case legal =>
    have legal : legalSamples L = true := legalSamples_iff.mpr ⟨least, greatest⟩
    obtain ⟨bits, param⟩ := read_res64_res2 (estimate sum L).2 (BitVec.ofNat 32 (estimate sum L).1) s
    exact ⟨_, exec_completed (runRcEstimate_legal legal), bits.trans (estimate_snd sum L),
      param.trans (ofNat_estimate_fst sum L), res_setRes_setRes64_of_three_le _ _ s⟩
  case illegal =>
    refine exec_failed (runRcEstimate_illegal fun legal => ?_) (by decide)
    obtain ⟨least, greatest⟩ := legalSamples_iff.mp legal
    omega

end Sys2Proof.Machine
end

section
/-! The stereo estimate over two written channels, and how ST_CHOOSE ends (spec/46_stereo.md R321-R325). -/

namespace Sys2Proof.Machine

/-! ### The four sums of R321 -/

/-- The sums sL, sR, sM, sS over `n` samples of a left channel `x` and a right channel `y`. -/
def estimateSums (n : Nat) (x y : Nat → Int) : StereoSums where
  left := estimateSum n (secondDifference x)
  right := estimateSum n (secondDifference y)
  mid := estimateSum n fun i => (secondDifference x i + secondDifference y i) / 2
  side := estimateSum n fun i => secondDifference x i - secondDifference y i

theorem secondDifferences_range' (x : Nat → Int) (i n : Nat) :
    secondDifferences ((List.range' i (n + 2)).map x) = (List.range' (i + 2) n).map (secondDifference x) := by
  induction n generalizing i with
  | zero => rfl
  | succ n ih =>
    have next := ih (i + 1)
    simp only [List.range'_succ, List.map_cons] at next ⊢
    rw [secondDifferences, next]
    rfl

/-- The estimator's second differences; it reads no entry where its loop is empty (log 16). -/
theorem secondDifferences_entries (pl : Plane) (n : Nat) (m : Memory) :
    secondDifferences (entries pl 0 (stereoCount n) m) =
      (List.range' 2 (n - 2)).map (secondDifference (sampleAt pl m)) := by
  rw [entries_eq_range', stereoCount]
  split
  · next short =>
    rw [show n - 2 = 0 by omega]
    rfl
  · next long =>
    obtain ⟨k, rfl⟩ := Nat.exists_eq_add_of_le' (show 2 ≤ n by omega)
    exact secondDifferences_range' _ 0 k

theorem absSum_map_range' (n : Nat) (f : Nat → Int) : absSum ((List.range' 2 (n - 2)).map f) = estimateSum n f := by
  rw [absSum, List.map_map]
  rfl

theorem stereoSums_entries (n : Nat) (m : Memory) :
    stereoSums (entries (.ch 0) 0 (stereoCount n) m) (entries (.ch 1) 0 (stereoCount n) m) =
      estimateSums n (sampleAt (.ch 0) m) (sampleAt (.ch 1) m) := by
  simp only [stereoSums, secondDifferences_entries, List.zipWith_map, List.zipWith_self, absSum_map_range',
    Int.shiftRight_eq_div_pow]
  rfl

/-! ### Costs and scores -/

/-- R322's cost is R292's estimate of twice the sum. -/
theorem stereoCost_eq (sum n : Nat) : stereoCost sum n = estimateBits (BitVec.ofNat 64 (2 * sum)) n := estimate_snd ..

/-- The rows of R323's table. -/
theorem stereoScore_eq (bL bR bM bS : DWord) :
    stereoScore bL bR bM bS =
      fun m => if m = 0 then bL + bR else if m = 1 then bL + bS else if m = 2 then bS + bR else bM + bS := by
  funext m
  match m with
  | 0 | 1 | 2 | _ + 3 => rfl

/-! ### How ST_CHOOSE ends -/

theorem stereoCount_le (n : Nat) : stereoCount n ≤ n := by
  unfold stereoCount
  split <;> omega

theorem runStChoose_legal {s : State} (legal : legalSamples (sampleCount s) = true)
    (left : Written (.ch 0) 0 (sampleCount s) s.mem) (right : Written (.ch 1) 0 (sampleCount s) s.mem) :
    runStChoose s =
      .ok (stereoResults (estimateSums (sampleCount s) (sampleAt (.ch 0) s.mem) (sampleAt (.ch 1) s.mem))
        (sampleCount s) s) := by
  have read_within : 0 + stereoCount (sampleCount s) ≤ 0 + sampleCount s := Nat.add_le_add_left (stereoCount_le _) 0
  unfold runStChoose
  rw [if_neg (not_not_intro legal), readEntries_ok (left.mono le_rfl read_within),
    readEntries_ok (right.mono le_rfl read_within), ← stereoSums_entries]
  rfl

theorem runStChoose_illegal {s : State} (illegal : ¬ legalSamples (sampleCount s) = true) :
    runStChoose s = .error .invalidOperand s := if_pos illegal

/-- A command whose pseudocode only wrote result registers completes with those. -/
theorem exec_completed_of_resOnly {i : Instr} {s t : State} (h : runInstr i s = .ok t) (only : ResOnly s t) :
    exec i s = .next { s with res := t.res }.completed := by
  rw [exec_eq, h]
  exact only.completes

/-- Settles O53, from how the pseudocode ends, what its result registers then read, and R324's search. -/
theorem stereoChoiceIsFirstLeast : Obligations.StereoChoiceIsFirstLeast := by
  intro s
  rw [← sampleCount_eq s]
  intro n dl dr bL bR bM bS score
  refine ⟨fun least greatest left right => ?legal, fun outside => ?illegal⟩
  case legal =>
    have legal : legalSamples n = true := legalSamples_iff.mpr ⟨least, greatest⟩
    have registers := stereoResults_res (estimateSums n (sampleAt (.ch 0) s.mem) (sampleAt (.ch 1) s.mem)) n s
    simp only [stereoCost_eq, stereoScore_eq] at registers
    obtain ⟨mode_le, mode_least, mode_first⟩ := firstLeast_spec score 3
    exact ⟨firstLeast score 3, _, mode_le, mode_least, mode_first,
      exec_completed_of_resOnly (runStChoose_legal legal left right) (stereoResults_resOnly ..), registers⟩
  case illegal =>
    refine exec_failed (runStChoose_illegal fun legal => ?_) (by decide)
    obtain ⟨least, greatest⟩ := legalSamples_iff.mp legal
    omega

end Sys2Proof.Machine
end

section
/-! The planes ST_TRANSFORM writes, entry by entry, and how it ends (spec/46_stereo.md R330, R331). -/

namespace Sys2Proof.Machine

/-! ### Samples and their transforms fit the planes -/

/-- Whatever an entry holds fits its plane, and so does the 0 that stands for no value. -/
theorem holds_sampleAt (pl : Plane) (m : Memory) (i : Nat) : Holds pl (sampleAt pl m i) := by
  unfold sampleAt
  cases read : readEntry pl i m with
  | none => cases pl <;> simp [Holds, entryBytes]
  | some v => exact readEntry_holds read

/-- The mid transform's arithmetic shift halves toward minus infinity. -/
theorem midOf_eq (l r : Int) : midOf l r = (l + r) / 2 := Int.shiftRight_eq_div_pow (l + r) 1

theorem holds_sideOf {c d : Fin 8} {l r : Int} (hl : Holds (.ch c) l) (hr : Holds (.ch d) r) :
    Holds .side (sideOf l r) := by
  simp only [Holds, entryBytes, sideOf] at *
  omega

theorem holds_midOf {c d : Fin 8} {l r : Int} (hl : Holds (.ch c) l) (hr : Holds (.ch d) r) :
    Holds .mid (midOf l r) := by
  simp only [Holds, entryBytes, midOf_eq] at *
  omega

/-! ### Writing one plane -/

/-- A run of entries computed from two channels reads back entry by entry. -/
theorem readEntry_writeEntries_zipWith {pl : Plane} {c d : Fin 8} {f : Int → Int → Int} {n i : Nat} (m m' : Memory)
    (fits : ∀ {l r}, Holds (.ch c) l → Holds (.ch d) r → Holds pl (f l r)) (hi : i < n) :
    readEntry pl i (writeEntries pl 0 (List.zipWith f (entries (.ch c) 0 n m) (entries (.ch d) 0 n m)) m') =
      some (f (sampleAt (.ch c) m i) (sampleAt (.ch d) m i)) := by
  have computed : List.zipWith f (entries (.ch c) 0 n m) (entries (.ch d) 0 n m) =
      (List.range' 0 n).map fun j => f (sampleAt (.ch c) m j) (sampleAt (.ch d) m j) := by
    rw [entries_eq_range', entries_eq_range', List.zipWith_map, List.zipWith_self]
  have holds : ∀ v ∈ List.zipWith f (entries (.ch c) 0 n m) (entries (.ch d) 0 n m), Holds pl v := by
    rw [computed]
    exact List.forall_mem_map.mpr fun j _ => fits (holds_sampleAt ..) (holds_sampleAt ..)
  have read := readEntry_writeEntries (i := 0) (j := i) m' holds (by simpa using hi)
  simpa [computed] using read

/-- Writing the first entries of a plane leaves every entry of another (spec/20_memory.md R81). -/
theorem readEntry_writeEntries_of_ne {pl pl' : Plane} {vs : List Int} {i : Nat} (m : Memory) (apart : pl' ≠ pl)
    (hlen : vs.length < 65536) (hi : i < 65536) : readEntry pl' i (writeEntries pl 0 vs m) = readEntry pl' i m := by
  refine readEntry_congr fun a low high => readByte_writeEntries_outside m ?_
  have first := entryOffset_bounds (pl := pl) (i := 0) (by omega)
  have last := entryOffset_bounds (pl := pl) hlen
  have entry := entryOffset_bounds (pl := pl') hi
  have disjoint := planes_disjoint apart
  omega

/-! ### The planes of a mode -/

/-- The planes ST_TRANSFORM leaves over `n` samples of the two channels. -/
def transformed (mode : StereoMode) (n : Nat) (m : Memory) : Memory :=
  transformPlanes mode (entries (.ch 0) 0 n m) (entries (.ch 1) 0 n m) m

/-- Modes 1-3 write SIDE; what mode 3 then writes is MID. -/
theorem readEntry_side_transformed {mode : StereoMode} {n i : Nat} (m : Memory) (h : mode ≠ .leftRight)
    (hn : n ≤ 65535) (hi : i < n) :
    readEntry .side i (transformed mode n m) = some (sampleAt (.ch 0) m i - sampleAt (.ch 1) m i) := by
  cases mode with
  | leftRight => exact absurd rfl h
  | leftSide => exact readEntry_writeEntries_zipWith m m holds_sideOf hi
  | sideRight => exact readEntry_writeEntries_zipWith m m holds_sideOf hi
  | midSide =>
    have mid_length : (List.zipWith midOf (entries (.ch 0) 0 n m) (entries (.ch 1) 0 n m)).length < 65536 := by
      rw [List.length_zipWith, entries_length, entries_length]
      omega
    exact (readEntry_writeEntries_of_ne _ (by decide) mid_length (by omega)).trans
      (readEntry_writeEntries_zipWith m m holds_sideOf hi)

theorem readEntry_mid_transformed {n i : Nat} (m : Memory) (hi : i < n) :
    readEntry .mid i (transformed .midSide n m) = some ((sampleAt (.ch 0) m i + sampleAt (.ch 1) m i) / 2) := by
  rw [← midOf_eq]
  exact readEntry_writeEntries_zipWith m _ holds_midOf hi

/-- Outside the planes its mode writes ST_TRANSFORM leaves every byte. -/
theorem readByte_transformed {mode : StereoMode} {n a : Nat} (m : Memory)
    (side : mode = .leftRight ∨ a < entryOffset .side 0 ∨ entryOffset .side n ≤ a)
    (mid : mode ≠ .midSide ∨ a < entryOffset .mid 0 ∨ entryOffset .mid n ≤ a) :
    (transformed mode n m).readByte a = m.readByte a := by
  have side_kept (outside : a < entryOffset .side 0 ∨ entryOffset .side n ≤ a) :
      (transformed .leftSide n m).readByte a = m.readByte a :=
    readByte_writeEntries_outside m (by simpa using outside)
  cases mode with
  | leftRight => rfl
  | leftSide => exact side_kept (side.resolve_left (by decide))
  | sideRight => exact side_kept (side.resolve_left (by decide))
  | midSide =>
    have mid_outside := mid.resolve_left (not_not_intro rfl)
    exact (readByte_writeEntries_outside _ (by simpa using mid_outside)).trans
      (side_kept (side.resolve_left (by decide)))

/-! ### How ST_TRANSFORM ends -/

theorem runStTransform_legal (mode : StereoMode) {s : State} (legal : legalSamples (sampleCount s) = true)
    (left : Written (.ch 0) 0 (sampleCount s) s.mem) (right : Written (.ch 1) 0 (sampleCount s) s.mem) :
    runStTransform mode s = .ok { s with mem := transformed mode (sampleCount s) s.mem } := by
  unfold runStTransform
  rw [if_neg (not_not_intro legal)]
  by_cases h : mode = .leftRight
  · subst h
    rfl
  · rw [transformCount_of_ne h, readEntries_ok left, readEntries_ok right]
    rfl

theorem runStTransform_illegal (mode : StereoMode) {s : State} (illegal : ¬ legalSamples (sampleCount s) = true) :
    runStTransform mode s = .error .invalidOperand s := if_pos illegal

/-- Settles O54, from how the pseudocode ends and what the planes then read. -/
theorem stereoTransformPlanes : Obligations.StereoTransformPlanes := by
  intro s mode
  rw [← sampleCount_eq s]
  intro n l r
  refine ⟨fun least greatest left right => ?legal, fun outside => ?illegal⟩
  case legal =>
    have legal : legalSamples n = true := legalSamples_iff.mpr ⟨least, greatest⟩
    refine ⟨transformed mode n s.mem, exec_completed (runStTransform_legal mode legal left right),
      fun writes i hi => ?side, fun both i hi => ?mid, fun a side mid => ?frame⟩
    case side => exact readEntry_side_transformed s.mem writes greatest hi
    case mid =>
      subst both
      exact readEntry_mid_transformed s.mem hi
    case frame => exact readByte_transformed s.mem side mid
  case illegal =>
    refine exec_failed (runStTransform_illegal mode fun legal => ?_) (by decide)
    obtain ⟨least, greatest⟩ := legalSamples_iff.mp legal
    omega

end Sys2Proof.Machine
end

section
/-! What every step keeps: the invariant of memory, pending bits and STATUS, the CRC span, the output, the error state. -/

namespace Sys2Proof.Machine

/-! ### Memory within the planes -/

/-- Bytes written within the planes leave a memory within the planes (spec/20_memory.md R81). -/
theorem WritesOnly.planes {p : Nat → Prop} {m m' : Memory} (h : WritesOnly p m m')
    (hp : ∀ a, p a → 0x100000 ≤ a ∧ a < 0x400000) (hm : ∀ c ∈ m, 0x100000 ≤ c.1 ∧ c.1 < 0x400000) :
    ∀ c ∈ m', 0x100000 ≤ c.1 ∧ c.1 < 0x400000 := fun c hc => (h.cells c hc).elim (hm c) (hp c.1)

/-- A command's footprint lies within the planes. -/
theorem planes_of_bounds {a : Nat} (h : 0x300000 ≤ a ∧ a < 0x400000) : 0x100000 ≤ a ∧ a < 0x400000 :=
  ⟨le_trans (by decide) h.1, h.2⟩

/-! ### The error state -/

/-- The codes `ERR_CODE` shows while `ERR` = 1: all but 0 and the two reserved ones (spec/60_exceptions.md R362). -/
def ErrorCode.Named (c : ErrorCode) : Prop := c ≠ .none ∧ c ≠ .outOfMemory ∧ c ≠ .incompleteStream

theorem ErrorCode.Raised.named {c : ErrorCode} (h : c.Raised) : c.Named := by
  rcases h with rfl | rfl | rfl | rfl | rfl | rfl <;> exact ⟨by decide, by decide, by decide⟩

/-- Error entry keeps the first code (spec/60_exceptions.md R367). -/
theorem State.Inv.named_firstCode {s : State} (h : s.Inv) {c : ErrorCode} (hc : c.Named) :
    (if s.err then s.errCode else c).Named := by
  split
  · next raised =>
    exact ⟨fun none => by simp [h.codeNone.mp none] at raised, h.codeRaised⟩
  · exact hc

/-- The invariant of an idle engine, whose `DONE` and `ERR` are free. -/
theorem State.Inv.of_idle {t : State} (idle : t.engine = .idle) (wf : t.mem.wf = true)
    (planes : ∀ c ∈ t.mem, 0x100000 ≤ c.1 ∧ c.1 < 0x400000) (pending : t.acc.toNat < 2 ^ t.nb.toNat)
    (code : t.err = true ∧ t.errCode.Named ∨
      (t.errCode = .none ↔ t.err = false) ∧ t.errCode ≠ .outOfMemory ∧ t.errCode ≠ .incompleteStream) : t.Inv := by
  have not_busy : busy t = true → t.done = false ∧ t.err = false := fun h => by
    rw [busy_eq_false.mpr idle] at h
    cases h
  rcases code with ⟨err, not_none, named⟩ | ⟨none_iff, named⟩
  · exact ⟨wf, planes, pending, by simp [err, not_none], named, not_busy⟩
  · exact ⟨wf, planes, pending, none_iff, named, not_busy⟩

/-! ### The invariant after each kind of move -/

theorem Interrupted.mem_inv {s t : State} (h : Interrupted (inProgress s) s t) (hi : s.Inv) :
    t.mem.wf = true ∧ ∀ c ∈ t.mem, 0x100000 ≤ c.1 ∧ c.1 < 0x400000 :=
  ⟨h.mem.wf hi.memWf, h.mem.planes (fun _ ha => planes_of_bounds (inProgress_bounds ha)) hi.memPlanes⟩

/-- A host access error leaves the invariant (spec/60_exceptions.md R368, R369 (c)). -/
theorem inv_hostAccess {s t : State} (h : interrupt s = .ok t) (hi : s.Inv) :
    (errorEntry .hostAccess (if busy s then scrambleRegisters t else t)).Inv := by
  have ended := interrupt_ok h
  obtain ⟨wf, planes⟩ := ended.mem_inv hi
  have err : t.err = s.err := by rw [ended.rest]
  have errCode : t.errCode = s.errCode := by rw [ended.rest]
  have pending : t.acc.toNat < 2 ^ t.nb.toNat := by
    rw [ended.rest]
    exact hi.pending
  have code := hi.named_firstCode (c := .hostAccess) ⟨by decide, by decide, by decide⟩
  split
  · exact .of_idle rfl wf planes (scrambleRegisters_pending t) (.inl ⟨rfl, by simpa [err, errCode] using code⟩)
  · exact .of_idle rfl wf planes pending (.inl ⟨rfl, by simpa [err, errCode] using code⟩)

theorem inv_resetRegisters {s : State} (wf : s.mem.wf = true)
    (planes : ∀ c ∈ s.mem, 0x100000 ≤ c.1 ∧ c.1 < 0x400000) : (resetRegisters s).Inv :=
  .of_idle rfl wf planes (show State.reset.acc.toNat < 2 ^ State.reset.nb.toNat by decide)
    (.inr (show (State.reset.errCode = .none ↔ State.reset.err = false) ∧ State.reset.errCode ≠ .outOfMemory ∧
      State.reset.errCode ≠ .incompleteStream by decide))

theorem HostMoved.inv {s t : State} (h : HostMoved s t) (hi : s.Inv) : t.Inv := by
  cases h with
  | read v d => exact ⟨hi.memWf, hi.memPlanes, hi.pending, hi.codeNone, hi.codeRaised, hi.busyClear⟩
  | refused u v hu hv =>
    have inv : u.Inv := by
      rcases hu with rfl | rfl
      · exact hi
      · exact ⟨hi.memWf, hi.memPlanes, hi.pending, hi.codeNone, hi.codeRaised, hi.busyClear⟩
    exact inv_hostAccess hv inv
  | register t ht hd =>
    have busy_eq : busy t = busy s := by
      rw [ht]
      rfl
    have err : t.err = s.err := by rw [ht]
    refine ⟨by rw [ht]; exact hi.memWf, by rw [ht]; exact hi.memPlanes, by rw [ht]; exact hi.pending,
      by rw [ht]; exact hi.codeNone, by rw [ht]; exact hi.codeRaised, fun h => ?_⟩
    obtain ⟨done, no_err⟩ := hi.busyClear (busy_eq ▸ h)
    exact ⟨hd done, err.trans no_err⟩
  | issued w idle no_err => exact ⟨hi.memWf, hi.memPlanes, hi.pending, hi.codeNone, hi.codeRaised, fun _ => ⟨rfl, no_err⟩⟩
  | plane a v idle ha =>
    have written := writeWord_within s.mem a v
    exact ⟨written.wf hi.memWf, written.planes (fun b hb => by omega) hi.memPlanes, hi.pending, hi.codeNone,
      hi.codeRaised, hi.busyClear⟩
  | softReset v u hu =>
    obtain ⟨wf, planes⟩ := (interrupt_ok hu).mem_inv hi
    exact inv_resetRegisters wf planes
  | hardReset u hu =>
    exact inv_resetRegisters (s := forgetPlanes u) rfl (fun _ hc => nomatch hc)

theorem Ended.inv {i : Instr} {s t : State} (h : Ended (footprintOf i s) s t) (hi : s.Inv) : t.Inv := by
  have idle : t.engine = .idle := by rw [h.rest]
  refine .of_idle idle (h.mem.wf hi.memWf)
    (h.mem.planes (fun _ ha => planes_of_bounds (footprintOf_bounds ha)) hi.memPlanes) (h.pending hi.pending) ?_
  rcases h.status with ⟨-, err, code⟩ | ⟨c, raised, -, err, code⟩
  · exact .inr (by rw [err, code]; exact ⟨hi.codeNone, hi.codeRaised⟩)
  · exact .inl ⟨err, code ▸ hi.named_firstCode raised.named⟩

theorem inv_illegalCommand {s : State} (hi : s.Inv) : (errorEntry .illegalCommand s).Inv :=
  .of_idle rfl hi.memWf hi.memPlanes hi.pending
    (.inl ⟨rfl, hi.named_firstCode ⟨by decide, by decide, by decide⟩⟩)

/-- The agents' lists are no part of the invariant. -/
theorem State.Inv.agents {s : State} (hi : s.Inv) (es : List HostEvent) (ts : List Turn) :
    State.Inv { s with host := es, turns := ts } :=
  ⟨hi.memWf, hi.memPlanes, hi.pending, hi.codeNone, hi.codeRaised, hi.busyClear⟩

/-- Settles O26, over the three things a step can do: an agent's turn passes, a host event, the engine's end. -/
theorem stepKeepsInvariant : Obligations.StepKeepsInvariant := by
  intro s t h hi
  rcases step_cases h with ⟨ts, rfl⟩ | ⟨e, es, ts, -, moved⟩ | ⟨w, st, ts, -, ran⟩
  · exact hi.agents s.host ts
  · exact (hostEvent_moved moved).inv (hi.agents es ts)
  · rcases engineStep_ended ran with ⟨-, rfl⟩ | ⟨i, -, ended⟩
    · exact inv_illegalCommand (hi.agents s.host ts)
    · exact (exec_ended ended).inv (hi.agents s.host ts)

/-! ### The CRC span and the output -/

/-- The span is a matter of the output, the CRC registers and the counter. -/
theorem State.SpanCovered.congr {s t : State} (h : s.SpanCovered) (out : t.out = s.out) (crc8 : t.crc8 = s.crc8)
    (crc16 : t.crc16 = s.crc16) (count : t.bytesWritten = s.bytesWritten) : t.SpanCovered := by
  obtain ⟨before, span, h1, h2, h3, h4⟩ := h
  exact ⟨before, span, out.trans h1, crc8.trans h2, crc16.trans h3, count.trans h4⟩

/-- Right after a reset nothing has been written since the CRC registers were cleared. -/
theorem spanCovered_resetRegisters (s : State) : (resetRegisters s).SpanCovered := ⟨s.out, [], by simp, rfl, rfl, rfl⟩

theorem HostMoved.spanCovered {s t : State} (h : HostMoved s t) (hs : s.SpanCovered) : t.SpanCovered := by
  cases h with
  | read v d => exact hs.congr rfl rfl rfl rfl
  | refused u v hu hv =>
    have covered : v.SpanCovered := (interrupt_ok hv).span <| by
      rcases hu with rfl | rfl
      · exact hs
      · exact hs.congr rfl rfl rfl rfl
    split <;> exact covered.congr rfl rfl rfl rfl
  | register t ht hd => rw [ht]; exact hs.congr rfl rfl rfl rfl
  | issued w idle no_err => exact hs.congr rfl rfl rfl rfl
  | plane a v idle ha => exact hs.congr rfl rfl rfl rfl
  | softReset v u hu => exact spanCovered_resetRegisters u
  | hardReset u hu => exact (spanCovered_resetRegisters u).congr rfl rfl rfl rfl

/-- Settles O27, over the same three things. -/
theorem stepKeepsSpanCovered : Obligations.StepKeepsSpanCovered := by
  intro s t h hs
  have agents (es : List HostEvent) (ts : List Turn) : State.SpanCovered { s with host := es, turns := ts } :=
    hs.congr rfl rfl rfl rfl
  rcases step_cases h with ⟨ts, rfl⟩ | ⟨e, es, ts, -, moved⟩ | ⟨w, st, ts, -, ran⟩
  · exact agents s.host ts
  · exact (hostEvent_moved moved).spanCovered (agents es ts)
  · rcases engineStep_ended ran with ⟨-, rfl⟩ | ⟨i, -, ended⟩
    · exact (agents s.host ts).congr rfl rfl rfl rfl
    · exact (exec_ended ended).span (agents s.host ts)

theorem HostMoved.out {s t : State} (h : HostMoved s t) : ∃ bs, t.out = s.out ++ bs := by
  cases h with
  | refused u v hu hv =>
    have same : u.out = s.out := by rcases hu with rfl | rfl <;> rfl
    obtain ⟨bs, grown⟩ := (interrupt_ok hv).out
    refine ⟨bs, ?_⟩
    rw [← same, ← grown]
    split <;> rfl
  | register t ht hd =>
    refine ⟨[], ?_⟩
    rw [ht]
    simp
  | softReset v u hu => exact (interrupt_ok hu).out
  | hardReset u hu => exact (interrupt_ok hu).out
  | _ => exact ⟨[], by simp⟩

/-- Settles O28, over the same three things. -/
theorem outputOnlyGrows : Obligations.OutputOnlyGrows := by
  intro s t h
  rcases step_cases h with ⟨ts, rfl⟩ | ⟨e, es, ts, -, moved⟩ | ⟨w, st, ts, -, ran⟩
  · exact ⟨[], by simp⟩
  · exact (hostEvent_moved moved).out
  · rcases engineStep_ended ran with ⟨-, rfl⟩ | ⟨i, -, ended⟩
    · exact ⟨[], by simp⟩
    · exact (exec_ended ended).out

/-! ### The error state is left by a reset only -/

/-- Settles O11: a host event by its cases, and every end of a command keeps the first code. -/
theorem onlyAResetLeavesTheErrorState : Obligations.OnlyAResetLeavesTheErrorState := by
  intro s t h raised
  rcases step_cases h with ⟨ts, rfl⟩ | ⟨e, es, ts, head, moved⟩ | ⟨w, st, ts, -, ran⟩
  · exact .inl ⟨raised, rfl⟩
  · rcases hostEvent_keeps_error moved raised with kept | rfl | ⟨v, soft, rfl⟩
    · exact .inl kept
    · exact .inr (.inl ⟨es, head⟩)
    · exact .inr (.inr ⟨v, es, head, soft⟩)
  · left
    rcases engineStep_ended ran with ⟨-, rfl⟩ | ⟨i, -, ended⟩
    · exact ⟨rfl, by simp [raised]⟩
    · rcases (exec_ended ended).status with ⟨-, err, code⟩ | ⟨c, -, -, err, code⟩
      · exact ⟨err.trans raised, code⟩
      · exact ⟨err, code.trans (if_pos raised)⟩

/-! ### Right after reset -/

/-- Settles O25: the reset state is a reset of itself. -/
theorem resetMeetsTheInvariants : Obligations.ResetMeetsTheInvariants :=
  ⟨inv_resetRegisters (s := .reset) rfl (fun _ hc => nomatch hc), spanCovered_resetRegisters .reset⟩

end Sys2Proof.Machine
end

section
/-! Command words: the decoder and the encoder are inverse, and the words that decode are R130's legal ones
(spec/30_encoding.md R110-R112, R120, R130). -/

namespace Sys2Proof.Machine

/-! ### What the decoder reads of an encoded command -/

theorem planeOfCode_code {pl : Plane} (h : legalPlane pl = true) : planeOfCode pl.code = some pl := by
  cases pl with
  | ch c => revert c; decide
  | mid => rfl
  | side => rfl
  | resp => cases h

/-- Every encoded command lies in its row of the opcode table. -/
theorem encode_row (i : Instr) : encode i &&& i.row.mask = i.row.pattern := by
  cases i with
  | nop => exact Laws.TableRow.nop
  | bwCrcReset => exact Laws.TableRow.bwCrcReset
  | bwWriteBits n7 => exact Laws.TableRow.bwWriteBits n7
  | bwWriteBitsWrapped n7 => exact Laws.TableRow.bwWriteBitsWrapped n7
  | bwWriteUnary => exact Laws.TableRow.bwWriteUnary
  | bwFlush => exact Laws.TableRow.bwFlush
  | bwWriteCrc8 => exact Laws.TableRow.bwWriteCrc8
  | bwWriteCrc16 => exact Laws.TableRow.bwWriteCrc16
  | bwWriteConstant ss => exact Laws.TableRow.bwWriteConstant ss
  | bwWriteVerbatim pl ss => exact Laws.TableRow.bwWriteVerbatim pl ss
  | bwWriteFixed ord ss => exact Laws.TableRow.bwWriteFixed ord ss
  | bwWriteFrameHeader var ca => exact Laws.TableRow.bwWriteFrameHeader var ca
  | fpBestOrder pl cr => exact Laws.TableRow.fpBestOrder pl cr
  | fpResiduals pl ord => exact Laws.TableRow.fpResiduals pl ord
  | rcZigzag => exact Laws.TableRow.rcZigzag
  | rcWriteRice k => exact Laws.TableRow.rcWriteRice k
  | rcOptimise ord umax maxk => exact Laws.TableRow.rcOptimise ord umax maxk
  | rcEstimate => exact Laws.TableRow.rcEstimate
  | rcWriteResiduals ord => exact Laws.TableRow.rcWriteResiduals ord
  | stChoose => exact Laws.TableRow.stChoose
  | stTransform mode => exact Laws.TableRow.stTransform mode
  | sfChoose pl ss => exact Laws.TableRow.sfChoose pl ss
  | sfEncode pl ss => exact Laws.TableRow.sfEncode pl ss
  | frameEncode var => exact Laws.TableRow.frameEncode var

/-- The middle one of three fields in a row. -/
theorem extractLsb'_middle {m n k : Nat} (a : BitVec m) (b : BitVec n) (c : BitVec k) :
    (a ++ b ++ c).extractLsb' k n = b := by
  rw [BitVec.extractLsb'_append_eq_of_le le_rfl, Nat.sub_self, BitVec.extractLsb'_append_eq_right]

/-- A flag between two fields. -/
theorem getLsbD_middle {m k : Nat} (a : BitVec m) (b : Bool) (c : BitVec k) :
    (a ++ BitVec.ofBool b ++ c).getLsbD k = b := by
  rw [BitVec.getLsbD_append, if_neg (lt_irrefl k), Nat.sub_self, BitVec.getLsbD_append, if_pos Nat.one_pos]
  cases b <;> rfl

theorem getLsbD_append_high {m k i : Nat} (a : BitVec m) (c : BitVec k) (h : k ≤ i) :
    (a ++ c).getLsbD i = a.getLsbD (i - k) := by
  rw [BitVec.getLsbD_append, if_neg (not_lt.mpr h)]

/-- Below its opcode a command word is its fields (R110). -/
theorem extractLsb'_encode (i : Instr) {start len : Nat} (h : start + len ≤ 24) :
    (encode i).extractLsb' start len = i.fieldBits.extractLsb' start len := BitVec.extractLsb'_append_eq_of_add_le h

theorem getLsbD_encode (i : Instr) {b : Nat} (h : b < 24) : (encode i).getLsbD b = i.fieldBits.getLsbD b := by
  rw [encode, BitVec.getLsbD_append, if_pos h]

theorem opc_encode (i : Instr) : Field.opc (encode i) = i.opcode := by
  rw [Field.opc, encode, BitVec.extractLsb'_append_eq_of_le (by decide)]
  exact BitVec.extractLsb'_eq_self

/-- A command's field bits are those its row leaves open (R112). -/
theorem fieldMask_opcode (i : Instr) : fieldMask i.opcode = some (~~~i.row.mask) := by
  cases i <;> simp only [Instr.opcode, Instr.row] <;> decide

/-- A row fixes the bits of 23:0 it does not leave open, to 0. -/
theorem row_reserved (i : Instr) : i.row.mask &&& reservedOf (~~~i.row.mask) = reservedOf (~~~i.row.mask) ∧
    i.row.pattern &&& reservedOf (~~~i.row.mask) = 0#32 := by
  cases i <;> simp only [Instr.row] <;> decide

theorem reservedClear_encode (i : Instr) : reservedClear (encode i) = true := by
  simp only [reservedClear, opc_encode, fieldMask_opcode, beq_iff_eq]
  obtain ⟨fixed, zero⟩ := row_reserved i
  rw [← fixed, ← BitVec.and_assoc, encode_row, zero]

/-- The word's fields, where the command's format has them, hold the command's operands (R111, R112). -/
def HasFields (w : Word) (i : Instr) : Prop :=
  match i with
  | .bwWriteBits n7 | .bwWriteBitsWrapped n7 => Field.n7 w = n7
  | .bwWriteConstant ss => Field.ss w = ss
  | .bwWriteVerbatim pl ss | .sfChoose pl ss | .sfEncode pl ss => planeOfCode (Field.pl w) = some pl ∧ Field.ss w = ss
  | .bwWriteFixed ord ss => Field.ord w = ord ∧ Field.ss w = ss
  | .bwWriteFrameHeader var ca => Field.var w = var ∧ Field.ca w = ca
  | .fpBestOrder pl cr => planeOfCode (Field.pl w) = some pl ∧ Field.cr w = cr
  | .fpResiduals pl ord => planeOfCode (Field.pl w) = some pl ∧ Field.ord w = ord
  | .rcWriteRice k => Field.k w = k
  | .rcOptimise ord umax maxk => Field.ord w = ord ∧ Field.umax w = umax ∧ Field.maxk w = maxk
  | .rcWriteResiduals ord => Field.ord w = ord
  | .stTransform mode => modeOfCode (Field.mode w) = mode
  | .frameEncode var => Field.var w = var
  | _ => True

theorem hasFields_of_fieldsOf {w : Word} {i : Instr} (h : fieldsOf w = some i) : HasFields w i := by
  unfold fieldsOf at h
  split at h
  case h_25 => cases h
  case h_10 | h_13 | h_14 | h_22 | h_23 =>
    obtain ⟨pl, plane, rfl⟩ := Option.map_eq_some_iff.mp h
    exact ⟨plane, rfl⟩
  all_goals
    cases h
    simp [HasFields]

theorem fieldsOf_of_hasFields {w : Word} {i : Instr} (opc : Field.opc w = i.opcode) (h : HasFields w i) :
    fieldsOf w = some i := by
  unfold fieldsOf
  rw [opc]
  cases i <;> simp only [HasFields] at h <;> simp [Instr.opcode, h]

/-- The fields of an encoded command are its own. -/
theorem hasFields_encode {i : Instr} (h : i.wellFormed = true) : HasFields (encode i) i := by
  have whole {start len : Nat} (inside : start + len ≤ 24) := extractLsb'_encode i inside
  have bit {b : Nat} (inside : b < 24) := getLsbD_encode i inside
  have planeAt {pl : Plane} {k : Nat} {c : BitVec k} {w : BitVec (4 + k)} (field : Field.pl (encode i) = w.extractLsb' k 4)
      (value : w = pl.code ++ c) (hp : legalPlane pl = true) : planeOfCode (Field.pl (encode i)) = some pl := by
    rw [field, value, BitVec.extractLsb'_append_eq_left]
    exact planeOfCode_code hp
  cases i with
  | bwWriteBits n7 => exact (whole (by decide)).trans BitVec.extractLsb'_append_eq_right
  | bwWriteBitsWrapped n7 => exact (whole (by decide)).trans BitVec.extractLsb'_append_eq_right
  | bwWriteConstant ss => exact (whole (by decide)).trans BitVec.extractLsb'_append_eq_right
  | bwWriteVerbatim pl ss =>
    exact ⟨planeAt ((whole (by decide)).trans (BitVec.extractLsb'_append_eq_of_le (by decide))) rfl
      (Bool.and_eq_true_iff.mp h).1, (whole (by decide)).trans BitVec.extractLsb'_append_eq_right⟩
  | bwWriteFixed ord ss =>
    exact ⟨(whole (by decide)).trans ((BitVec.extractLsb'_append_eq_of_le (by decide)).trans (extractLsb'_middle ..)),
      (whole (by decide)).trans BitVec.extractLsb'_append_eq_right⟩
  | bwWriteFrameHeader var ca =>
    exact ⟨(bit (by decide)).trans ((getLsbD_append_high _ _ (by decide)).trans (getLsbD_middle ..)),
      (whole (by decide)).trans BitVec.extractLsb'_append_eq_right⟩
  | fpBestOrder pl cr =>
    exact ⟨planeAt ((whole (by decide)).trans ((BitVec.extractLsb'_append_eq_of_le (by decide)).trans
      (BitVec.extractLsb'_append_eq_of_le (by decide)))) rfl h, (bit (by decide)).trans (getLsbD_middle ..)⟩
  | fpResiduals pl ord =>
    exact ⟨planeAt ((whole (by decide)).trans ((BitVec.extractLsb'_append_eq_of_le (by decide)).trans
      (BitVec.extractLsb'_append_eq_of_le (by decide)))) rfl (Bool.and_eq_true_iff.mp h).1,
      (whole (by decide)).trans (extractLsb'_middle ..)⟩
  | rcWriteRice k => exact (whole (by decide)).trans BitVec.extractLsb'_append_eq_right
  | rcOptimise ord umax maxk =>
    exact ⟨(whole (by decide)).trans ((BitVec.extractLsb'_append_eq_of_le (by decide)).trans
      ((BitVec.extractLsb'_append_eq_of_le (by decide)).trans ((BitVec.extractLsb'_append_eq_of_le (by decide)).trans
      (extractLsb'_middle ..)))),
      (whole (by decide)).trans ((BitVec.extractLsb'_append_eq_of_le (by decide)).trans (extractLsb'_middle ..)),
      (whole (by decide)).trans BitVec.extractLsb'_append_eq_right⟩
  | rcWriteResiduals ord => exact (whole (by decide)).trans (extractLsb'_middle ..)
  | stTransform mode => cases mode <;> rfl
  | sfChoose pl ss =>
    exact ⟨planeAt ((whole (by decide)).trans (BitVec.extractLsb'_append_eq_of_le (by decide))) rfl
      (Bool.and_eq_true_iff.mp h).1, (whole (by decide)).trans BitVec.extractLsb'_append_eq_right⟩
  | sfEncode pl ss =>
    exact ⟨planeAt ((whole (by decide)).trans (BitVec.extractLsb'_append_eq_of_le (by decide))) rfl
      (Bool.and_eq_true_iff.mp h).1, (whole (by decide)).trans BitVec.extractLsb'_append_eq_right⟩
  | frameEncode var => exact (bit (by decide)).trans (getLsbD_middle ..)
  | _ => trivial

theorem decode_of_fields {w : Word} {i : Instr} (clear : reservedClear w = true) (fields : fieldsOf w = some i)
    (h : i.wellFormed = true) : decode w = some i := by
  simp [decode, clear, fields, h]

/-- Settles O1: the reserved bits are clear and the fields are the command's own. -/
theorem decodeOfEncode : Obligations.DecodeOfEncode := fun i h =>
  decode_of_fields (reservedClear_encode i) (fieldsOf_of_hasFields (opc_encode i) (hasFields_encode h)) h

/-! ### A word has no bits but its fields -/

/-- A command's fields in the table of R112. -/
def tableFields (i : Instr) : List WordField :=
  match i with
  | .bwWriteBits _ | .bwWriteBitsWrapped _ => [.n7]
  | .bwWriteConstant _ => [.ss]
  | .bwWriteVerbatim _ _ | .sfChoose _ _ | .sfEncode _ _ => [.pl, .ss]
  | .bwWriteFixed _ _ => [.ord, .ss]
  | .bwWriteFrameHeader _ _ => [.var, .ca]
  | .fpBestOrder _ _ => [.pl, .cr]
  | .fpResiduals _ _ => [.pl, .ord]
  | .rcWriteRice _ => [.k]
  | .rcOptimise _ _ _ => [.ord, .umax, .maxk]
  | .rcWriteResiduals _ => [.ord]
  | .stTransform _ => [.mode]
  | .frameEncode _ => [.var]
  | _ => []

/-- The field's bits of a word. -/
def WordField.of (f : WordField) (w : Word) : BitVec (f.hi - f.lo + 1) := w.extractLsb' f.lo (f.hi - f.lo + 1)

theorem fieldMask_bit (i : Instr) : ∀ j < 24, (~~~i.row.mask).getLsbD j = true →
    ∃ f ∈ tableFields i, f.lo ≤ j ∧ j < f.lo + (f.hi - f.lo + 1) := by
  cases i <;> simp only [Instr.row, tableFields] <;> decide

theorem WordField.of_flag (w : Word) : WordField.of .var w = BitVec.ofBool (w.getLsbD 12) := by
  refine BitVec.eq_of_getLsbD_eq fun j hj => ?_
  obtain rfl : j = 0 := by simpa [WordField.var] using hj
  simp [WordField.of, WordField.var]

/-- Words whose fields hold the same operands have the same bits there. -/
theorem HasFields.bits_eq {w w' : Word} {i : Instr} (h : HasFields w i) (h' : HasFields w' i) :
    ∀ f ∈ tableFields i, f.of w = f.of w' := by
  have flag (e : w.getLsbD 12 = w'.getLsbD 12) : WordField.of .var w = WordField.of .var w' := by
    rw [WordField.of_flag, WordField.of_flag, e]
  have pair {f g : WordField} (hf : f.of w = f.of w') (hg : g.of w = g.of w') : ∀ k ∈ [f, g], k.of w = k.of w' :=
    List.forall_mem_cons.mpr ⟨hf, List.forall_mem_singleton.mpr hg⟩
  cases i with
  | bwWriteVerbatim pl ss | sfChoose pl ss | sfEncode pl ss | fpResiduals pl ord =>
    obtain ⟨plane, other⟩ := h
    obtain ⟨plane', other'⟩ := h'
    exact pair (planeOfCode_inj plane plane') (other.trans other'.symm)
  | fpBestOrder pl cr =>
    obtain ⟨plane, other⟩ := h
    obtain ⟨plane', other'⟩ := h'
    exact pair (planeOfCode_inj plane plane') (flag (other.trans other'.symm))
  | stTransform mode =>
    exact List.forall_mem_singleton.mpr (modeOfCode_inj (Eq.trans h h'.symm))
  | frameEncode var => exact List.forall_mem_singleton.mpr (flag (Eq.trans h h'.symm))
  | bwWriteFrameHeader var ca =>
    obtain ⟨bit, other⟩ := h
    obtain ⟨bit', other'⟩ := h'
    exact pair (flag (bit.trans bit'.symm)) (other.trans other'.symm)
  | bwWriteFixed ord ss =>
    obtain ⟨first, second⟩ := h
    obtain ⟨first', second'⟩ := h'
    exact pair (first.trans first'.symm) (second.trans second'.symm)
  | rcOptimise ord umax maxk =>
    obtain ⟨first, second, third⟩ := h
    obtain ⟨first', second', third'⟩ := h'
    exact List.forall_mem_cons.mpr
      ⟨first.trans first'.symm, pair (second.trans second'.symm) (third.trans third'.symm)⟩
  | bwWriteBits _ | bwWriteBitsWrapped _ | bwWriteConstant _ | rcWriteRice _ | rcWriteResiduals _ =>
    exact List.forall_mem_singleton.mpr (Eq.trans h h'.symm)
  | _ => exact List.forall_mem_nil _

/-- Settles O2: a word has no bits but its opcode and its fields, and these are the command's. -/
theorem encodeOfDecode : Obligations.EncodeOfDecode := by
  intro w i h
  obtain ⟨clear, fields, legal⟩ := decode_spec h
  refine ⟨legal, ?_⟩
  have opc : Field.opc (encode i) = Field.opc w := (opc_encode i).trans (fields_opc fields).symm
  have mask : fieldMask (Field.opc (encode i)) = some (~~~i.row.mask) := by rw [opc_encode, fieldMask_opcode]
  refine word_eq opc mask (reservedClear_encode i) clear fun j hj open_bit => ?_
  obtain ⟨f, hf, low, high⟩ := fieldMask_bit i j hj open_bit
  exact extract_bits ((hasFields_encode legal).bits_eq (hasFields_of_fieldsOf fields) f hf) low high

/-! ### The legal words -/

/-- The field holds a legal value (R111). -/
def WordField.legal (f : WordField) (w : Word) : Bool :=
  let v := w.toNat / 2 ^ f.lo % 2 ^ (f.hi - f.lo + 1)
  decide (f.least ≤ v ∧ v ≤ f.greatest)

theorem legalWord_eq (w : Word) : legalWord w = match commandTable.lookup (w.toNat / 2 ^ 24) with
    | none => false
    | some fs => ((List.range 24).all fun b => !w.getLsbD b || fs.any fun f => decide (f.lo ≤ b ∧ b ≤ f.hi)) &&
        fs.all fun f => f.legal w := rfl

theorem toNat_extract (w : Word) (start len : Nat) : (w.extractLsb' start len).toNat = w.toNat / 2 ^ start % 2 ^ len := by
  rw [BitVec.extractLsb'_toNat, Nat.shiftRight_eq_div_pow]

theorem legal_n7 (w : Word) : legalCount (Field.n7 w) = WordField.legal .n7 w := by
  rw [legalCount, Field.n7, toNat_extract]
  rfl

theorem legal_ss (w : Word) : legalSampleSize (Field.ss w) = WordField.legal .ss w := by
  rw [legalSampleSize, Field.ss, toNat_extract]
  rfl

theorem legal_ca (w : Word) : legalAssignment (Field.ca w) = WordField.legal .ca w := by
  rw [legalAssignment, Field.ca, toNat_extract]
  simp [WordField.legal, WordField.ca]

theorem legal_ord (w : Word) : legalOrder (Field.ord w) = WordField.legal .ord w := by
  rw [legalOrder, Field.ord, toNat_extract]
  simp [WordField.legal, WordField.ord]

theorem legal_umax (w : Word) : legalUserMax (Field.umax w) = WordField.legal .umax w := by
  rw [legalUserMax, Field.umax, toNat_extract]
  simp [WordField.legal, WordField.umax]

theorem legal_maxk (w : Word) : legalMaxParam (Field.maxk w) = WordField.legal .maxk w := by
  rw [legalMaxParam, Field.maxk, toNat_extract]
  simp [WordField.legal, WordField.maxk]

/-- A field whose greatest value fills its bits is always legal. -/
theorem WordField.legal_of_full {f : WordField} (w : Word) (least : f.least = 0)
    (full : f.greatest + 1 = 2 ^ (f.hi - f.lo + 1)) : f.legal w = true := by
  have lt : w.toNat / 2 ^ f.lo % 2 ^ (f.hi - f.lo + 1) < 2 ^ (f.hi - f.lo + 1) := Nat.mod_lt _ (Nat.two_pow_pos _)
  exact decide_eq_true ⟨by omega, by omega⟩

theorem planeOfCode_legal (c : BitVec 4) :
    (planeOfCode c).isSome = decide (c.toNat ≤ 9) ∧ ∀ pl, planeOfCode c = some pl → legalPlane pl = true := by
  revert c
  decide

/-- A command with a plane is legal exactly where the plane's code and the rest are. -/
theorem filter_plane {w : Word} {f : Plane → Instr} {rest : Bool}
    (h : ∀ pl, (f pl).wellFormed = (legalPlane pl && rest)) :
    (((planeOfCode (Field.pl w)).map f).filter Instr.wellFormed).isSome = (WordField.legal .pl w && rest) := by
  have code : WordField.legal .pl w = (planeOfCode (Field.pl w)).isSome := by
    rw [(planeOfCode_legal _).1, Field.pl, toNat_extract]
    simp [WordField.legal, WordField.pl]
  rw [code]
  cases hp : planeOfCode (Field.pl w) with
  | none => rfl
  | some pl => cases rest <;> simp [h, (planeOfCode_legal _).2 pl hp]

/-- The opcodes of the table (R120). -/
def listedOpcodes : List (BitVec 8) := commandTable.map fun row => BitVec.ofNat 8 row.1

theorem listed_of_lookup {op : BitVec 8} (h : (commandTable.lookup op.toNat).isSome = true) : op ∈ listedOpcodes := by
  obtain ⟨row, member, key⟩ := List.lookup_isSome_iff.mp h
  exact List.mem_map.mpr ⟨row, member, by rw [← beq_iff_eq.mp key, BitVec.ofNat_toNat, BitVec.setWidth_eq]⟩

theorem listed_of_fieldMask {op : BitVec 8} (h : (fieldMask op).isSome = true) : op ∈ listedOpcodes := by
  unfold fieldMask at h
  split at h
  case h_25 => cases h
  all_goals decide

/-- The decoder's range checks are those of the opcode's fields in the table. -/
theorem fieldsOf_legal {w : Word} {fs : List WordField} (h : commandTable.lookup (Field.opc w).toNat = some fs) :
    ((fieldsOf w).filter Instr.wellFormed).isSome = fs.all fun f => f.legal w := by
  have mode : WordField.legal .mode w = true := WordField.legal_of_full w rfl rfl
  have var : WordField.legal .var w = true := WordField.legal_of_full w rfl rfl
  have cr : WordField.legal .cr w = true := WordField.legal_of_full w rfl rfl
  have k : WordField.legal .k w = true := WordField.legal_of_full w rfl rfl
  unfold fieldsOf
  split
  case h_25 =>
    have listed := listed_of_lookup (op := Field.opc w) (by rw [h]; rfl)
    simp only [listedOpcodes, commandTable, List.map_cons, List.map_nil, List.mem_cons, List.not_mem_nil, or_false] at listed
    simp_all
  case h_13 =>
    rename_i opc
    rw [opc] at h
    obtain rfl := Option.some.inj h
    rw [filter_plane (f := fun pl => .fpBestOrder pl (Field.cr w)) (rest := true) fun pl =>
      (Bool.and_true (legalPlane pl)).symm]
    simp [cr]
  case h_10 | h_14 | h_22 | h_23 =>
    rename_i opc
    rw [opc] at h
    obtain rfl := Option.some.inj h
    rw [filter_plane fun _ => rfl]
    simp [legal_ss, legal_ord]
  all_goals
    rename_i opc
    rw [opc] at h
    obtain rfl := Option.some.inj h
    simp [Instr.wellFormed, legal_n7, legal_ss, legal_ca, legal_ord, legal_umax, legal_maxk, mode, var, k, Bool.and_assoc]

/-- The bits of an opcode's format are those of its fields in the table (R112). -/
theorem fieldMask_lookup (op : BitVec 8) : (fieldMask op).map (fun m => (List.range 24).map m.getLsbD) =
    (commandTable.lookup op.toNat).map fun fs =>
      (List.range 24).map fun b => fs.any fun f => decide (f.lo ≤ b ∧ b ≤ f.hi) := by
  by_cases listed : op ∈ listedOpcodes
  · simp only [listedOpcodes, commandTable, List.map_cons, List.map_nil, List.mem_cons, List.not_mem_nil, or_false] at listed
    rcases listed with rfl | rfl | rfl | rfl | rfl | rfl | rfl | rfl | rfl | rfl | rfl | rfl | rfl | rfl | rfl | rfl |
      rfl | rfl | rfl | rfl | rfl | rfl | rfl | rfl <;> rfl
  · have noMask : fieldMask op = none := Option.not_isSome_iff_eq_none.mp (mt listed_of_fieldMask listed)
    have noRow : commandTable.lookup op.toNat = none := Option.not_isSome_iff_eq_none.mp (mt listed_of_lookup listed)
    rw [noMask, noRow]
    rfl

theorem reservedClear_lookup (w : Word) : reservedClear w = match commandTable.lookup (Field.opc w).toNat with
    | none => false
    | some fs => (List.range 24).all fun b => !w.getLsbD b || fs.any fun f => decide (f.lo ≤ b ∧ b ≤ f.hi) := by
  have format := fieldMask_lookup (Field.opc w)
  unfold reservedClear
  cases hm : fieldMask (Field.opc w) with
  | none =>
    cases hl : commandTable.lookup (Field.opc w).toNat with
    | none => rfl
    | some fs => simp [hm, hl] at format
  | some m =>
    cases hl : commandTable.lookup (Field.opc w).toNat with
    | none => simp [hm, hl] at format
    | some fs =>
      simp only [hm, hl, Option.map_some, Option.some.injEq, List.map_inj_left, List.mem_range] at format
      simp only [reserved_all]
      rw [Bool.eq_iff_iff, List.all_eq_true, List.all_eq_true]
      exact forall₂_congr fun b hb => by rw [format b (List.mem_range.mp hb)]

/-- Settles O3: the opcode's row gives the reserved bits and the ranges that the decoder checks. -/
theorem legalWordsDecode : Obligations.LegalWordsDecode := by
  intro w
  rw [legalWord_eq, ← opc_nat, decode, reservedClear_lookup]
  cases hl : commandTable.lookup (Field.opc w).toNat with
  | none => rfl
  | some fs =>
    simp only [← fieldsOf_legal hl]
    split
    · next clear => rw [clear, Bool.true_and]
    · next set => rw [Bool.eq_false_iff.mpr set]; rfl

/-! ### The engine and a command word -/

theorem step_engine {s : State} {w : Word} {stereo : Bool} (busy : s.engine = .busy w stereo) (turn : s.turns = []) :
    step s = engineStep w s := by simp [step, busy, busyStep, turn]

theorem step_engine_turn {s : State} {w : Word} {stereo : Bool} {ts : List Turn} (busy : s.engine = .busy w stereo)
    (turn : s.turns = .engine :: ts) : step s = engineStep w { s with turns := ts } := by
  simp [step, busy, busyStep, turn]

theorem engineStep_decoded {w : Word} {i : Instr} (s : State) (h : decode w = some i) : engineStep w s = exec i s := by
  simp [engineStep, h]

theorem engineStep_illegal {w : Word} (s : State) (h : decode w = none) :
    engineStep w s = .next (s.failed .illegalCommand) := by
  unfold engineStep
  rw [h]
  rfl

/-- Settles O4: the decoder refuses exactly the illegal words. -/
theorem illegalWordOnlyRaises : Obligations.IllegalWordOnlyRaises := by
  intro s w stereo busy turn illegal
  have refused : decode w = none := by
    rw [← legalWordsDecode w] at illegal
    simpa using illegal
  rw [step_engine busy turn, engineStep_illegal s refused]

/-- Settles O5, word by word. -/
theorem specWordsDecode : Obligations.SpecWordsDecode := by
  unfold Obligations.SpecWordsDecode
  decide

/-- Settles O6, from the engine's move. -/
theorem stepRunsDecodedCommand : Obligations.StepRunsDecodedCommand := by
  intro s w stereo i busy decoded
  refine ⟨fun turn => ?last, fun ts turn => ?turn⟩
  case last => rw [step_engine busy turn, engineStep_decoded s decoded]
  case turn => rw [step_engine_turn busy turn, engineStep_decoded _ decoded]

/-- Settles O7, from whose move it is. -/
theorem stepTakesTheHostsEvent : Obligations.StepTakesTheHostsEvent := by
  intro s e es head
  refine ⟨fun idle => ?idle, fun w stereo ts busy turn => ?busy⟩
  case idle => simp [step, idle, hostStep, head]
  case busy => simp [step, busy, busyStep, turn, hostStep, head]

end Sys2Proof.Machine
end

section
/-! The host port: where each access goes, what reads return, what writes leave, what a reset leaves
(spec/10_state.md R31-R43, spec/20_memory.md R82-R88, spec/60_exceptions.md R366, R368, spec/70_reset_and_hazards.md R400-R403). -/

namespace Sys2Proof.Machine

/-! ### Accesses to registers -/

theorem hostEvent_read_register (r : Reg) (s : State) :
    hostEvent (.read (BitVec.ofNat 22 r.offset) 4) s = .next (readReg r s) := by
  simp only [hostEvent, hostRead, locate_offset]

theorem hostEvent_write_idle {s : State} (idle : s.engine = .idle) (r : Reg) (v : Word) :
    hostEvent (.write (BitVec.ofNat 22 r.offset) 4 v) s = writeReg r v s := by
  simp [hostEvent, hostWrite, locate_offset, busy_eq_false.mpr idle]

theorem hostEvent_write_busy {s : State} (h : busy s = true) (r : Reg) (v : Word) :
    hostEvent (.write (BitVec.ofNat 22 r.offset) 4 v) s = writeRegBusy r v s := by
  simp [hostEvent, hostWrite, locate_offset, h]

/-- CTRL is written alike busy or idle (spec/20_memory.md R88). -/
theorem hostEvent_write_ctrl (s : State) (v : Word) : hostEvent (.write 0x008 4 v) s = writeCtrl v s := by
  cases h : busy s with
  | false => exact hostEvent_write_idle (busy_eq_false.mp h) .ctrl v
  | true => exact hostEvent_write_busy h .ctrl v

/-- A refused read has returned 0; a refused write leaves the state as it was. -/
theorem hostEvent_refused {offset : BitVec 22} {width : Nat} (illegal : ¬ LegalAccess offset width) (s : State) :
    hostEvent (.read offset width) s = hostAccessError (returns 0 s) ∧
      ∀ v, hostEvent (.write offset width v) s = hostAccessError s := by
  simp [hostEvent, hostRead, hostWrite, locate_illegal illegal]

theorem readReg_idle {s : State} (idle : s.engine = .idle) (r : Reg) : readReg r s = returns (regWord r s) s := by
  simp [readReg, busy_eq_false.mpr idle, bitsInProgress_idle idle]

theorem readReg_steady {r : Reg} (steady : steadyWhileBusy r = true) (h : r ≠ .status) (s : State) :
    readReg r s = returns (regWord r s) s := by
  simp [readReg, steady, h]

/-- No read changes anything of the block (R87). -/
theorem readReg_frame (r : Reg) (s : State) : ∃ v d, readReg r s = { s with readData := v, draws := d } := by
  unfold readReg
  split
  · exact ⟨_, _, rfl⟩
  · split <;> exact ⟨_, _, rfl⟩

theorem readPlane_frame (a : Nat) (s : State) : ∃ v d, readPlane a s = { s with readData := v, draws := d } := by
  unfold readPlane
  split <;> exact ⟨_, _, rfl⟩

/-! ### Accesses to planes -/

theorem hostEvent_read_plane {offset : BitVec 22} {s : State} (idle : s.engine = .idle) (aligned : offset.toNat % 4 = 0)
    (plane : 0x100000 ≤ offset.toNat) : hostEvent (.read offset 4) s = .next (readPlane offset.toNat s) := by
  simp [hostEvent, hostRead, locate_plane_eq aligned plane, busy_eq_false.mpr idle]

theorem hostEvent_write_plane {offset : BitVec 22} {s : State} (idle : s.engine = .idle) (aligned : offset.toNat % 4 = 0)
    (plane : 0x100000 ≤ offset.toNat) (v : Word) :
    hostEvent (.write offset 4 v) s = .next { s with mem := s.mem.writeWord offset.toNat v } := by
  simp [hostEvent, hostWrite, locate_plane_eq aligned plane, busy_eq_false.mpr idle]

/-! ### Issue -/

/-- Settles O8, from the two cases of an issue. -/
theorem commandIssue : Obligations.CommandIssue := by
  intro s w idle
  have issued : hostEvent (.write 0x010 4 w) s = .next (issue w s) := hostEvent_write_idle idle .cmd w
  exact ⟨fun clear => by rw [issued, issue, if_neg (by simp [clear])], fun raised => by rw [issued, issue, if_pos raised]⟩

/-! ### Reset -/

/-- Settles O13: an idle engine has no command to end. -/
theorem resetWhileIdle : Obligations.ResetWhileIdle := by
  intro s idle
  refine ⟨?hard, fun v soft => ?soft⟩
  case hard =>
    show hardReset s = _
    rw [hardReset, interrupt_idle idle]
    rfl
  case soft =>
    rw [hostEvent_write_ctrl, writeCtrl, if_pos soft, softReset, interrupt_idle idle]
    rfl

/-- Settles O12, from the state right after reset. -/
theorem resetStateValues : Obligations.ResetStateValues := ⟨rfl, fun _ => rfl⟩

/-- Settles O14, from what the end of an interrupted command may have changed. -/
theorem resetAtAnyMoment : Obligations.ResetAtAnyMoment := by
  intro s t
  refine ⟨fun reset => ?hard, fun v soft reset => ?soft⟩
  case hard =>
    obtain ⟨u, ended, rfl⟩ := hardReset_next reset
    have ended := interrupt_ok ended
    refine ⟨ended.out, fun a => rfl, ?_⟩
    rw [ended.rest]
    rfl
  case soft =>
    rw [hostEvent_write_ctrl, writeCtrl, if_pos soft] at reset
    obtain ⟨u, ended, rfl⟩ := softReset_next reset
    have ended := interrupt_ok ended
    refine ⟨ended.out, ended.mem.outside, ?_⟩
    rw [ended.rest]
    rfl

/-! ### What registers read as -/

theorem riceCfgWord_eq (s : State) :
    riceCfgWord s = s.porder.setWidth 32 <<< 4 ||| (if s.method = .five then 1 else 0) := by
  unfold riceCfgWord
  generalize s.porder = porder
  cases s.method <;> revert porder <;> decide

theorem ctrlWord_eq (s : State) :
    ctrlWord s = (if s.irqEn = true then 2 else 0) ||| (if s.stereoEn = true then 4 else 0) := by
  unfold ctrlWord
  cases s.irqEn <;> cases s.stereoEn <;> decide

theorem fmtWord_eq (s : State) :
    fmtWord s = s.rate.setWidth 32 <<< 12 ||| s.bits.setWidth 32 <<< 4 ||| s.channels.setWidth 32 := by
  unfold fmtWord
  refine BitVec.eq_of_getLsbD_eq fun j hj => ?_
  rw [BitVec.getLsbD_append, BitVec.getLsbD_append, BitVec.getLsbD_append]
  interval_cases j <;> simp

/-- Settles O18: these registers read steadily. -/
theorem steadyReadsWhileBusy : Obligations.SteadyReadsWhileBusy := by
  intro s
  have steady (r : Reg) (h : steadyWhileBusy r = true) (hr : r ≠ .status) :
      hostEvent (.read (BitVec.ofNat 22 r.offset) 4) s = .next { s with readData := regWord r s } := by
    rw [hostEvent_read_register, readReg_steady h hr]
    rfl
  refine ⟨steady .id rfl (by decide), steady .version rfl (by decide), ?ctrl, steady .cmd rfl (by decide), ?fmt,
    fun i => steady (.arg i) rfl (by simp)⟩
  case ctrl =>
    rw [← ctrlWord_eq]
    exact steady .ctrl rfl (by decide)
  case fmt =>
    rw [← fmtWord_eq]
    exact steady .fmt rfl (by decide)

/-- Settles O15: a read changes only what it returned, and while idle it returns the register's word. -/
theorem readsHaveNoSideEffect : Obligations.ReadsHaveNoSideEffect := by
  intro s
  refine ⟨fun offset legal reached => ?frame, fun idle => ?values⟩
  case frame =>
    by_cases register : offset.toNat < 0x800
    · obtain ⟨r, located, -⟩ := locate_register legal register
      obtain ⟨v, d, frame⟩ := readReg_frame r s
      exact ⟨v, d, by simp only [hostEvent, hostRead, located, frame]⟩
    · obtain ⟨-, aligned, mapped⟩ := legal
      have plane : 0x100000 ≤ offset.toNat := by
        simp only [Machine.mapped] at mapped
        omega
      obtain ⟨v, d, frame⟩ := readPlane_frame offset.toNat s
      exact ⟨v, d, by rw [hostEvent_read_plane (reached.resolve_left register) aligned plane, frame]⟩
  case values =>
    have reads (r : Reg) : hostEvent (.read (BitVec.ofNat 22 r.offset) 4) s = .next { s with readData := regWord r s } := by
      rw [hostEvent_read_register, readReg_idle idle]
      rfl
    refine ⟨reads .id, reads .version, ?_, reads .bwAcc, reads .crc8, reads .crc16, reads .bytesWritten,
      fun i => reads (.res i), fun j => reads (.param j)⟩
    rw [← riceCfgWord_eq]
    exact reads .riceCfg

/-- Settles O16: a refused access raises HOST_ACCESS. -/
theorem illegalAccessIsRefused : Obligations.IllegalAccessIsRefused := by
  intro s offset width v idle illegal
  obtain ⟨read, write⟩ := hostEvent_refused illegal s
  exact ⟨read.trans (hostAccessError_idle (s := returns 0 s) idle), (write v).trans (hostAccessError_idle idle)⟩

/-! ### Accesses while busy -/

/-- A host access error while a command is in progress (spec/60_exceptions.md R368, R369 (c)). -/
theorem hostAccessError_busy {s t : State} (h : busy s = true) (next : hostAccessError s = .next t) :
    t.engine = .idle ∧ t.done = s.done ∧ t.err = true ∧ t.errCode = (if s.err = true then s.errCode else .hostAccess) ∧
    (∃ bs, t.out = s.out ++ bs) ∧ (s.SpanCovered → t.SpanCovered) ∧
    (∀ a, ¬ (inProgress s).Covers a → t.mem.readByte a = s.mem.readByte a) ∧
    t.args = s.args ∧ fmtWord t = fmtWord s ∧ ctrlWord t = ctrlWord s ∧ t.host = s.host ∧ t.turns = s.turns ∧
    t.readData = s.readData := by
  obtain ⟨u, ended, rfl⟩ := hostAccessError_next next
  have ended := interrupt_ok ended
  rw [if_pos h]
  refine ⟨rfl, ?_, rfl, ?_, ended.out, fun covered => (ended.span covered).congr rfl rfl rfl rfl, ended.mem.outside,
    ?_, ?_, ?_, ?_, ?_, ?_⟩ <;> rw [ended.rest] <;> rfl

theorem inProgress_returns (v : Word) (s : State) : inProgress (returns v s) = inProgress s := by
  unfold inProgress wordFootprint
  rfl

/-- The accesses R88 does not permit are refused. -/
theorem writeRegBusy_refused {r : Reg} (ctrl : r ≠ .ctrl) (status : r ≠ .status) (v : Word) (s : State) :
    writeRegBusy r v s = hostAccessError s := by
  cases r with
  | ctrl => exact absurd rfl ctrl
  | status => exact absurd rfl status
  | _ => rfl

/-- Settles O17, from what a host access error leaves. -/
theorem busyAccessEndsTheCommand : Obligations.BusyAccessEndsTheCommand := by
  intro s t offset width e h access next
  rcases access with ⟨rfl, refused⟩ | ⟨⟨v, rfl⟩, refused⟩
  · have error : hostEvent (.read offset width) s = hostAccessError (returns 0 s) := by
      by_cases legal : LegalAccess offset width
      · obtain ⟨rfl, aligned, -⟩ := id legal
        simp [hostEvent, hostRead, locate_plane_eq aligned (refused.resolve_left (not_not_intro legal)), h]
      · exact (hostEvent_refused legal s).1
    obtain ⟨h1, h2, h3, h4, h5, h6, h7, h8, h9, h10, h11, h12, read⟩ :=
      hostAccessError_busy (s := returns 0 s) h (error ▸ next)
    exact ⟨h1, h2, h3, h4, h5, fun covered => h6 (covered.congr rfl rfl rfl rfl), inProgress_returns 0 s ▸ h7, h8, h9, h10,
      h11, h12, fun _ => read⟩
  · have error : hostEvent (.write offset width v) s = hostAccessError s := by
      by_cases legal : LegalAccess offset width
      · obtain ⟨rfl, aligned, -⟩ := id legal
        rcases refused.resolve_left (not_not_intro legal) with plane | register
        · simp [hostEvent, hostWrite, locate_plane_eq aligned plane, h]
        · have value : offset.toNat = 0x010 ∨ offset.toNat = 0x014 ∨ offset.toNat = 0x018 ∨
              0x030 ≤ offset.toNat ∧ offset.toNat < 0x040 ∨ 0x400 ≤ offset.toNat ∧ offset.toNat < 0x800 := by
            simpa [← BitVec.toNat_inj] using register
          obtain ⟨r, located, at_offset⟩ := locate_register legal (by omega)
          have ctrl : r ≠ .ctrl := by rintro rfl; simp only [Reg.offset] at at_offset; omega
          have status : r ≠ .status := by rintro rfl; simp only [Reg.offset] at at_offset; omega
          simp [hostEvent, hostWrite, located, h, writeRegBusy_refused ctrl status]
      · exact (hostEvent_refused legal s).2 v
    obtain ⟨h1, h2, h3, h4, h5, h6, h7, h8, h9, h10, h11, h12, -⟩ := hostAccessError_busy h (error ▸ next)
    exact ⟨h1, h2, h3, h4, h5, h6, h7, h8, h9, h10, h11, h12, fun e => nomatch e⟩

/-! ### Registers read back -/

theorem ctrlWord_setCtrl (v : Word) (s : State) : ctrlWord (setCtrl v s) = v &&& 0x00000006#32 := by
  refine BitVec.eq_of_getLsbD_eq fun j hj => ?_
  rw [ctrlWord, BitVec.getLsbD_append, BitVec.getLsbD_append, BitVec.getLsbD_append]
  interval_cases j <;> simp

theorem fmtWord_setFmt (v : Word) (s : State) : fmtWord (setFmt v s) = v &&& 0xFFFFF3FF#32 := by
  refine BitVec.eq_of_getLsbD_eq fun j hj => ?_
  rw [fmtWord, BitVec.getLsbD_append, BitVec.getLsbD_append, BitVec.getLsbD_append]
  interval_cases j <;> simp

theorem riceCfgWord_setRiceCfg (v : Word) (s : State) : riceCfgWord (setRiceCfg v s) = v &&& 0x000000F1#32 := by
  have code : ∀ b : Bool, (Method.ofBit b).code = BitVec.ofBool b := by decide
  refine BitVec.eq_of_getLsbD_eq fun j hj => ?_
  rw [riceCfgWord, BitVec.getLsbD_append, BitVec.getLsbD_append, BitVec.getLsbD_append]
  interval_cases j <;> simp [code]

theorem paramWord_set (v : Word) : (v.setWidth 5).setWidth 32 = v &&& 0x0000001F#32 := by
  refine BitVec.eq_of_getLsbD_eq fun j hj => ?_
  interval_cases j <;> simp

/-- What O19 says of the state `u` a write of `v` to `r` leaves. -/
structure ReadsBack (r : Reg) (v : Word) (s u : State) : Prop where
  idle : u.engine = .idle
  word : regWord r u = v
  others : ∀ r', r' ≠ r → r' ≠ .status → regWord r' u = regWord r' s
  status : r ≠ .ctrl → regWord .status u = regWord .status s
  kept : u.done = s.done ∧ u.err = s.err ∧ u.errCode = s.errCode ∧ u.nb = s.nb ∧ u.mem = s.mem ∧ u.out = s.out

theorem setCtrl_readsBack {s : State} (idle : s.engine = .idle) (v : Word) :
    ReadsBack .ctrl (v &&& 0x00000006#32) s (setCtrl v s) where
  idle := idle
  word := ctrlWord_setCtrl v s
  others r' h h' := by
    cases r' with
    | ctrl => exact absurd rfl h
    | status => exact absurd rfl h'
    | _ => rfl
  status h := absurd rfl h
  kept := ⟨rfl, rfl, rfl, rfl, rfl, rfl⟩

/-- While idle, STATUS shows only its own fields and IRQ_EN. -/
theorem status_word_congr {s u : State} (idle : s.engine = .idle) (engine : u.engine = s.engine) (nb : u.nb = s.nb)
    (irqEn : u.irqEn = s.irqEn) (done : u.done = s.done) (err : u.err = s.err) (code : u.errCode = s.errCode) :
    regWord .status u = regWord .status s := by
  simp only [regWord, nbitsSeen_idle idle, nbitsSeen_idle (engine.trans idle), statusWord, irqLine, busy, engine, nb,
    irqEn, done, err, code]

theorem setFmt_readsBack {s : State} (idle : s.engine = .idle) (v : Word) :
    ReadsBack .fmt (v &&& 0xFFFFF3FF#32) s (setFmt v s) where
  idle := idle
  word := fmtWord_setFmt v s
  others r' h h' := by
    cases r' with
    | fmt => exact absurd rfl h
    | status => exact absurd rfl h'
    | _ => rfl
  status _ := status_word_congr idle rfl rfl rfl rfl rfl rfl
  kept := ⟨rfl, rfl, rfl, rfl, rfl, rfl⟩

theorem setRiceCfg_readsBack {s : State} (idle : s.engine = .idle) (v : Word) :
    ReadsBack .riceCfg (v &&& 0x000000F1#32) s (setRiceCfg v s) where
  idle := idle
  word := riceCfgWord_setRiceCfg v s
  others r' h h' := by
    cases r' with
    | riceCfg => exact absurd rfl h
    | status => exact absurd rfl h'
    | _ => rfl
  status _ := status_word_congr idle rfl rfl rfl rfl rfl rfl
  kept := ⟨rfl, rfl, rfl, rfl, rfl, rfl⟩

theorem setArg_readsBack {s : State} (idle : s.engine = .idle) (i : Fin 4) (v : Word) :
    ReadsBack (.arg i) (v &&& 0xFFFFFFFF#32) s { s with args := s.args.set i v } where
  idle := idle
  word := by
    have all : v &&& 0xFFFFFFFF#32 = v := BitVec.and_allOnes
    rw [all]
    exact Vector.getElem_set_self i.isLt
  others r' h h' := by
    cases r' with
    | arg j => exact Vector.getElem_set_ne i.isLt j.isLt fun e => h (by rw [Fin.ext e])
    | status => contradiction
    | _ => rfl
  status _ := status_word_congr idle rfl rfl rfl rfl rfl rfl
  kept := ⟨rfl, rfl, rfl, rfl, rfl, rfl⟩

theorem setParam_readsBack {s : State} (idle : s.engine = .idle) (i : Fin 256) (v : Word) :
    ReadsBack (.param i) (v &&& 0x0000001F#32) s { s with param := s.param.set i (v.setWidth 5) } where
  idle := idle
  word := (congrArg (BitVec.setWidth 32) (Vector.getElem_set_self i.isLt)).trans (paramWord_set v)
  others r' h h' := by
    cases r' with
    | param j =>
      exact congrArg (BitVec.setWidth 32) (Vector.getElem_set_ne i.isLt j.isLt fun e => h (by rw [Fin.ext e]))
    | status => contradiction
    | _ => rfl
  status _ := status_word_congr idle rfl rfl rfl rfl rfl rfl
  kept := ⟨rfl, rfl, rfl, rfl, rfl, rfl⟩

/-- Settles O19, register by register. -/
theorem registerReadBack : Obligations.RegisterReadBack := by
  intro s r mask v idle writable soft
  have settled {u : State} (write : writeReg r v s = .next u) (back : ReadsBack r (v &&& mask) s u) :
      ∃ u, hostEvent (.write (BitVec.ofNat 22 r.offset) 4 v) s = .next u ∧
        hostEvent (.read (BitVec.ofNat 22 r.offset) 4) u = .next { u with readData := v &&& mask } ∧
        (∀ r', r' ≠ r → r' ≠ .status → regWord r' u = regWord r' s) ∧
        (r ≠ .ctrl → regWord .status u = regWord .status s) ∧ u.done = s.done ∧ u.err = s.err ∧
        u.errCode = s.errCode ∧ u.nb = s.nb ∧ u.mem = s.mem ∧ u.out = s.out ∧ u.engine = .idle := by
    obtain ⟨h1, h2, h3, h4, h5, h6⟩ := back.kept
    refine ⟨u, (hostEvent_write_idle idle r v).trans write, ?_, back.others, back.status, h1, h2, h3, h4, h5, h6, back.idle⟩
    rw [hostEvent_read_register, readReg_idle back.idle, back.word]
    rfl
  cases r with
  | ctrl =>
    obtain rfl := Option.some.inj writable
    exact settled (if_neg (Bool.eq_false_iff.mp (soft rfl))) (setCtrl_readsBack idle v)
  | fmt =>
    obtain rfl := Option.some.inj writable
    exact settled rfl (setFmt_readsBack idle v)
  | riceCfg =>
    obtain rfl := Option.some.inj writable
    exact settled rfl (setRiceCfg_readsBack idle v)
  | arg i =>
    obtain rfl := Option.some.inj writable
    exact settled rfl (setArg_readsBack idle i v)
  | param i =>
    obtain rfl := Option.some.inj writable
    exact settled rfl (setParam_readsBack idle i v)
  | _ => cases writable

/-- Settles O20, register by register. -/
theorem readOnlyRegistersIgnoreWrites : Obligations.ReadOnlyRegistersIgnoreWrites := by
  intro s r v idle readOnly
  rw [hostEvent_write_idle idle]
  rcases readOnly with rfl | rfl | rfl | rfl | rfl | rfl | ⟨i, rfl⟩ <;> rfl

/-- Settles O24: STATUS is written alike busy or idle. -/
theorem doneIsWriteOneToClear : Obligations.DoneIsWriteOneToClear := by
  intro s v
  cases h : busy s with
  | false => exact hostEvent_write_idle (busy_eq_false.mp h) .status v
  | true => exact hostEvent_write_busy h .status v

/-! ### Plane words and entries -/

/-- Settles O21, from a word's write and read. -/
theorem planeWordReadBack : Obligations.PlaneWordReadBack := by
  intro s offset v idle aligned plane
  refine ⟨_, hostEvent_write_plane idle aligned plane v, ?read, fun a apart => ?frame⟩
  case read =>
    refine (hostEvent_read_plane (by exact idle) aligned plane).trans ?_
    rw [readPlane, readWord_writeWord_self]
    rfl
  case frame => exact (writeWord_within s.mem offset.toNat v).outside a (by omega)

/-- A word of an entry is a word of the window. -/
theorem hostEvent_write_entry {pl : Plane} {i k : Nat} {s : State} (idle : s.engine = .idle) (hi : i < 65536)
    (aligned : k % 4 = 0) (inside : k < entryBytes pl) (v : Word) :
    hostEvent (.write (BitVec.ofNat 22 (entryOffset pl i + k)) 4 v) s =
      .next { s with mem := s.mem.writeWord (entryOffset pl i + k) v } := by
  have bounds := entryOffset_bounds (pl := pl) hi
  have window := planeBase_bounds pl
  have offset : (BitVec.ofNat 22 (entryOffset pl i + k)).toNat = entryOffset pl i + k :=
    (BitVec.toNat_ofNat ..).trans (Nat.mod_eq_of_lt (by omega))
  have aligned : (entryOffset pl i + k) % 4 = 0 := by
    cases pl <;> simp only [entryOffset, planeBase, entryBytes] <;> omega
  have write := hostEvent_write_plane (offset := BitVec.ofNat 22 (entryOffset pl i + k)) idle (by rwa [offset])
    (by omega) v
  rwa [offset] at write

/-- Two entries have no byte in common. -/
theorem entries_apart {pl pl' : Plane} {i j : Nat} (h : (pl', j) ≠ (pl, i)) (hi : i < 65536) (hj : j < 65536) :
    entryOffset pl' j + entryBytes pl' ≤ entryOffset pl i ∨ entryOffset pl i + entryBytes pl ≤ entryOffset pl' j := by
  by_cases same : pl' = pl
  · subst same
    have order : j ≠ i := fun e => h (by rw [e])
    exact (Nat.lt_or_gt_of_ne order).imp (entryOffset_mono pl') (entryOffset_mono pl')
  · have bounds := entryOffset_bounds (pl := pl) hi
    have bounds' := entryOffset_bounds (pl := pl') hj
    have disjoint := planes_disjoint same
    omega

theorem readEntry_writeWord {pl : Plane} (i : Nat) (v : Word) (m : Memory) (h : pl ≠ .side) :
    readEntry pl i (m.writeWord (entryOffset pl i) v) = some v.toInt := by
  cases pl with
  | side => exact absurd rfl h
  | _ => simp [readEntry]

theorem readEntry_side_writeWords (i : Nat) (v : DWord) (m : Memory) :
    readEntry .side i ((m.writeWord (entryOffset .side i) (v.extractLsb' 0 32)).writeWord (entryOffset .side i + 4)
      (v.extractLsb' 32 32)) = some v.toInt := by
  simp only [readEntry, readWord_writeWord_self]
  rw [readWord_outside (writeWord_within ..) (by omega), readWord_writeWord_self]
  simp only [dword_of_words]

/-- Settles O22, from the words of an entry. -/
theorem hostWrittenEntries : Obligations.HostWrittenEntries := by
  intro s i idle hi
  have positive (pl : Plane) : 0 < entryBytes pl := by cases pl <;> simp [entryBytes]
  have side : 0x380000 + 8 * i = entryOffset .side i := rfl
  refine ⟨fun pl v word => ⟨_, hostEvent_write_entry (k := 0) idle hi rfl (positive pl) v,
    readEntry_writeWord i v s.mem word, fun pl' j other hj => ?_⟩, fun v => ?_⟩
  · have apart := entries_apart other hi hj
    have one_word : entryBytes pl = 4 := by
      cases pl with
      | side => exact absurd rfl word
      | _ => rfl
    exact (writeWord_within s.mem (entryOffset pl i) v).readEntry_eq fun a low high => by omega
  · rw [side]
    have low := hostEvent_write_entry (pl := .side) (k := 0) idle hi rfl (positive .side) (v.extractLsb' 0 32)
    have high := hostEvent_write_entry (pl := .side) (k := 4)
      (s := { s with mem := s.mem.writeWord (entryOffset .side i) (v.extractLsb' 0 32) }) idle hi rfl (by decide)
      (v.extractLsb' 32 32)
    exact ⟨_, _, low, high, readEntry_side_writeWords i v s.mem⟩

/-! ### STATUS -/

/-- The four flags that end STATUS (spec/10_state.md R34). -/
theorem flags_bits {k : Nat} (x : BitVec k) (irq err done running : Bool) :
    let w := x ++ BitVec.ofBool irq ++ BitVec.ofBool err ++ BitVec.ofBool done ++ BitVec.ofBool running
    w.getLsbD 0 = running ∧ w.getLsbD 1 = done ∧ w.getLsbD 2 = err ∧ w.getLsbD 3 = irq := by
  have flag {m : Nat} (y : BitVec m) (b : Bool) : (y ++ BitVec.ofBool b).getLsbD 0 = b := by
    rw [BitVec.getLsbD_append, if_pos Nat.one_pos]
    cases b <;> rfl
  refine ⟨flag .., ?_, ?_, ?_⟩
  · rw [getLsbD_append_high _ _ (by decide), flag]
  · rw [getLsbD_append_high _ _ (by decide), getLsbD_append_high _ _ (by decide), flag]
  · rw [getLsbD_append_high _ _ (by decide), getLsbD_append_high _ _ (by decide), getLsbD_append_high _ _ (by decide), flag]

theorem flags_above {k start len : Nat} (x : BitVec k) (irq err done running : Bool) (h : 4 ≤ start) :
    (x ++ BitVec.ofBool irq ++ BitVec.ofBool err ++ BitVec.ofBool done ++ BitVec.ofBool running).extractLsb' start len =
      x.extractLsb' (start - 4) len := by
  rw [BitVec.extractLsb'_append_eq_of_le (by omega), BitVec.extractLsb'_append_eq_of_le (by omega),
    BitVec.extractLsb'_append_eq_of_le (by omega), BitVec.extractLsb'_append_eq_of_le (by omega),
    show start - 1 - 1 - 1 - 1 = start - 4 by omega]

theorem statusWord_fields (n : BitVec 3) (s : State) :
    (statusWord n s).getLsbD 0 = busy s ∧ (statusWord n s).getLsbD 1 = s.done ∧ (statusWord n s).getLsbD 2 = s.err ∧
    (statusWord n s).getLsbD 3 = (s.irqEn && (s.done || s.err)) ∧ (statusWord n s).extractLsb' 4 4 = 0 ∧
    (statusWord n s).extractLsb' 8 4 = s.errCode.code ∧ (statusWord n s).extractLsb' 12 4 = 0 ∧
    (statusWord n s).extractLsb' 19 13 = 0 ∧ (statusWord n s).extractLsb' 16 3 = n := by
  obtain ⟨running, done, err, irq⟩ :=
    flags_bits (0#13 ++ n ++ 0#4 ++ s.errCode.code ++ 0#4) (irqLine s) s.err s.done (busy s)
  have above {start len : Nat} (h : 4 ≤ start) : (statusWord n s).extractLsb' start len =
      (0#13 ++ n ++ 0#4 ++ s.errCode.code ++ 0#4).extractLsb' (start - 4) len := flags_above _ _ _ _ _ h
  have higher {start len : Nat} (h : 8 ≤ start) : (statusWord n s).extractLsb' start len =
      (0#13 ++ n ++ 0#4 ++ s.errCode.code).extractLsb' (start - 4 - 4) len :=
    (above (by omega)).trans (BitVec.extractLsb'_append_eq_of_le (by omega))
  have top {start len : Nat} (h : 12 ≤ start) : (statusWord n s).extractLsb' start len =
      (0#13 ++ n ++ 0#4).extractLsb' (start - 4 - 4 - 4) len :=
    (higher (by omega)).trans (BitVec.extractLsb'_append_eq_of_le (by omega))
  refine ⟨running, done, err, irq, ?_, ?_, ?_, ?_, ?_⟩
  · exact (above le_rfl).trans BitVec.extractLsb'_append_eq_right
  · exact (higher le_rfl).trans BitVec.extractLsb'_append_eq_right
  · exact (top le_rfl).trans BitVec.extractLsb'_append_eq_right
  · exact (top (by decide)).trans ((BitVec.extractLsb'_append_eq_of_le (by decide)).trans BitVec.extractLsb'_append_eq_left)
  · exact (top (by decide)).trans (extractLsb'_middle ..)

theorem nbitsSeen_of_zero {s : State} (h : bitsInProgress s = 0) : nbitsSeen s = s.nb := if_pos h

/-- A command that writes no bit of its own leaves `nb` as it is until it ends. -/
theorem bitsAhead_of_ok {i : Instr} {s : State} (h : bitwisePart i s = .ok s) : bitsAhead i s = 0 := by
  rw [bitsAhead, h, bitsWritten_emitted (Emitted.refl s)]
  rfl

theorem emitFlush_aligned {s : State} (h : s.nb = 0) : emitFlush s = .ok s := if_pos h

/-- Settles O23, from the word STATUS reads as. -/
theorem statusFields : Obligations.StatusFields := by
  intro s
  obtain ⟨h0, h1, h2, h3, h4, h5, h6, h7, bits⟩ := statusWord_fields (nbitsSeen s) s
  have running : busy s = decide (s.engine ≠ .idle) := by
    cases h : busy s with
    | false => simp [busy_eq_false.mp h]
    | true =>
      obtain ⟨w, st, engine⟩ := busy_eq_true.mp h
      simp [engine]
  have read : ∃ d, hostEvent (.read 0x00C 4) s =
      .next { s with readData := statusWord (nbitsSeen s) s, draws := d } ∧ (s.engine = .idle → d = s.draws) := by
    have reads : hostEvent (.read 0x00C 4) s = .next (readReg .status s) := hostEvent_read_register .status s
    by_cases none : bitsInProgress s = 0
    · exact ⟨s.draws, by rw [reads, readReg, if_neg (by simp [steadyWhileBusy]), if_neg (by simp [none])]; rfl, fun _ => rfl⟩
    · exact ⟨s.draws + 1, by rw [reads, readReg, if_neg (by simp [steadyWhileBusy]), if_pos ⟨rfl, none⟩]; rfl,
        fun idle => absurd (bitsInProgress_idle idle) none⟩
  obtain ⟨d, read, draws⟩ := read
  refine ⟨_, d, read, h0.trans running, h1, h2, h3, h4, h5, h6, h7,
    fun idle => ⟨draws idle, bits.trans (nbitsSeen_idle idle)⟩, fun w st engine => ⟨fun illegal => ?illegal, fun i decoded =>
      ⟨?some, fun silent => ?silent⟩⟩⟩
  case illegal => exact bits.trans (nbitsSeen_of_zero (by simp [bitsInProgress, engine, illegal]))
  case some =>
    obtain ⟨b, le, seen⟩ := nbitsSeen_spec s
    exact ⟨b, bitsInProgress_busy engine decoded ▸ le, bits.trans seen⟩
  case silent =>
    refine bits.trans (nbitsSeen_of_zero ((bitsInProgress_busy engine decoded).trans (bitsAhead_of_ok ?_)))
    rcases silent with rfl | ⟨aligned, rfl | rfl⟩
    · rfl
    · exact emitFlush_aligned aligned
    · exact emitFlush_aligned aligned

end Sys2Proof.Machine
end

section
/-! What every command does when it ends: how it ends, what it leaves alone, what stops it, what its errors and a failing
sink leave (spec/10_state.md R47, spec/60_exceptions.md R365-R369, spec/70_reset_and_hazards.md R415, R421). -/

namespace Sys2Proof.Machine

/-! ### Ends and frames -/

/-- Settles O9, from the two ends of an issued command. -/
theorem everyCommandEndsDoneOrInError : Obligations.EveryCommandEndsDoneOrInError := by
  intro i s t h
  have ended := exec_ended h
  refine ⟨by rw [ended.rest], ended.status.imp_right ?_⟩
  rintro ⟨c, raised, done, err, code⟩
  refine ⟨done, err, fun set => code.trans (if_pos set), fun clear => ?_⟩
  have first : t.errCode = c := code.trans (if_neg (by simp [clear]))
  rwa [first]

/-- A footprint lies within the planes the command's rule writes, below entry N. -/
theorem footprintOf_planes {i : Instr} {s : State} {a : Nat} (h : (footprintOf i s).Covers a) :
    ∃ pl ∈ planesWritten i, entryOffset pl 0 ≤ a ∧ a < entryOffset pl (sampleCount s) := by
  have inside {pl : Plane} (h : (entriesFootprint pl (sampleCount s)).Covers a) :
      entryOffset pl 0 ≤ a ∧ a < entryOffset pl (sampleCount s) := by
    by_cases legal : legalSamples (sampleCount s) = true
    · obtain ⟨low, high⟩ := (covers_entries legal a).mp h
      exact ⟨low, by simp only [entryOffset] at high ⊢; omega⟩
    · rw [entriesFootprint, if_neg legal] at h
      exact (covers_nil a h).elim
  cases i with
  | fpResiduals _ _ => exact ⟨.resp, by simp [planesWritten], inside h⟩
  | sfChoose _ _ => exact ⟨.resp, by simp [planesWritten], inside h⟩
  | sfEncode _ _ => exact ⟨.resp, by simp [planesWritten], inside h⟩
  | stTransform mode =>
    cases mode with
    | leftRight => exact (covers_nil a h).elim
    | leftSide => exact ⟨.side, by simp [planesWritten], inside h⟩
    | sideRight => exact ⟨.side, by simp [planesWritten], inside h⟩
    | midSide =>
      rcases covers_append.mp h with h | h
      · exact ⟨.side, by simp [planesWritten], inside h⟩
      · exact ⟨.mid, by simp [planesWritten], inside h⟩
  | frameEncode _ =>
    have resp (h : (entriesFootprint .resp (sampleCount s)).Covers a) :
        ∃ pl ∈ planesWritten (.frameEncode ‹_›), entryOffset pl 0 ≤ a ∧ a < entryOffset pl (sampleCount s) :=
      ⟨.resp, by simp [planesWritten], inside h⟩
    simp only [footprintOf, footFrame] at h
    split at h
    · rcases covers_append.mp h with h | h
      · rcases covers_append.mp h with h | h
        · exact ⟨.side, by simp [planesWritten], inside h⟩
        · exact ⟨.mid, by simp [planesWritten], inside h⟩
      · exact resp h
    · exact resp h
  | _ => exact (covers_nil a h).elim

/-- Settles O29, from the frame of an issued command's end. -/
theorem commandsKeepTheirInputs : Obligations.CommandsKeepTheirInputs := by
  intro i s t h
  have ended := exec_ended h
  refine ⟨fun a outside => ended.mem.outside a fun covered => ?planes, fun c j hj => ended.mem.readEntry_eq ?channels,
    ?_, ?_, ?_, ?_, ?_, ?_, ?_, ?_, ?_, ?_, ended.out⟩
  case planes =>
    obtain ⟨pl, written, low, high⟩ := footprintOf_planes covered
    have := outside pl written
    omega
  case channels =>
    intro a low high covered
    have bounds := entryOffset_bounds (pl := .ch c) hj
    have beyond := footprintOf_bounds covered
    simp only [planeBase, entryBytes] at bounds high
    omega
  all_goals rw [ended.rest]

/-! ### A command stops only at an unwritten entry -/

/-- Pseudocode that ends, in an error or not, without a fault of the model. -/
def Run.Ends (r : Run) : Prop := ∀ f, r ≠ .fault f

theorem ends_ok (s : State) : (Run.ok s).Ends := fun _ h => nomatch h

theorem ends_error (c : ErrorCode) (s : State) : (Run.error c s).Ends := fun _ h => nomatch h

theorem Run.Emits.ends {bits : List Bool} {s : State} {r : Run} (h : r.Emits bits s) : r.Ends := by
  rintro f rfl
  exact h

theorem Run.Ends.andThen {r : Run} {g : State → Run} (h : r.Ends) (h' : ∀ t, r = .ok t → (g t).Ends) :
    (r.andThen g).Ends := by
  cases r with
  | ok t => exact h' t rfl
  | error c t => exact ends_error c t
  | fault f => exact absurd rfl (h f)

/-- A check before pseudocode that ends. -/
theorem Run.Ends.check {P : Prop} [Decidable P] {c : ErrorCode} {s : State} {r : Run} (h : ¬ P → r.Ends) :
    (if P then .error c s else r).Ends := by
  split
  · exact ends_error c s
  · next passed => exact h passed

theorem emitByte_ends (b : Byte) (s : State) : (emitByte b s).Ends := by
  unfold emitByte
  split
  · exact ends_error _ _
  · exact ends_ok _

/-- Every plane holds values below N. -/
def Ready (s : State) : Prop := ∀ pl, Written pl 0 (sampleCount s) s.mem

theorem Progress.ready {f : Footprint} {s t : State} (h : Progress f s t) (ready : Ready s) : Ready t := fun pl => by
  rw [h.sampleCount]
  exact h.mem.written (ready pl)

/-- Pseudocode in sequence keeps the planes ready. -/
theorem Run.Ends.andThen_ready {f : Footprint} {s : State} {r : Run} {g : State → Run} (h : r.Ends) (keeps : r.Keeps f s)
    (ready : Ready s) (h' : ∀ t, Ready t → (g t).Ends) : (r.andThen g).Ends :=
  h.andThen fun t ok => h' t <| by
    rw [ok] at keeps
    exact Progress.ready keeps ready

theorem withEntries_ends {pl : Plane} {m : Memory} {i n : Nat} {g : List Int → Run} (written : Written pl i n m)
    (h : (g (entries pl i n m)).Ends) : (withEntries (readEntries pl m i n) g).Ends := by
  rwa [readEntries_ok written]

theorem runStChoose_ends {s : State} (ready : Ready s) : (runStChoose s).Ends := .check fun _ =>
  withEntries_ends ((ready _).mono le_rfl (by have := stereoCount_le (sampleCount s); omega)) <|
    withEntries_ends ((ready _).mono le_rfl (by have := stereoCount_le (sampleCount s); omega)) (ends_ok _)

theorem transformCount_le (mode : StereoMode) (n : Nat) : transformCount mode n ≤ n := by
  unfold transformCount
  split <;> omega

theorem runStTransform_ends {mode : StereoMode} {s : State} (ready : Ready s) : (runStTransform mode s).Ends :=
  .check fun _ =>
    withEntries_ends ((ready _).mono le_rfl (by have := transformCount_le mode (sampleCount s); omega)) <|
      withEntries_ends ((ready _).mono le_rfl (by have := transformCount_le mode (sampleCount s); omega)) (ends_ok _)

theorem runSfChoose_ends {pl : Plane} {ss : Nat} {s : State} (ready : Ready s) : (runSfChoose pl ss s).Ends :=
  .check fun _ => withEntries_ends (ready pl) <| by
    rcases chooseOver_cases ss (clearResults s) (entries_length pl 0 (sampleCount s) s.mem) with
      ⟨u, ok, -⟩ | ⟨error, -⟩
    · rw [ok]
      exact ends_ok u
    · rw [error]
      exact ends_error _ _

theorem emitChosen_ends {pl : Plane} {ss n : Nat} {xs : List Int} {u : State} (hn : 1 ≤ n) (written : Written pl 0 n u.mem)
    (chosen : Chosen n xs u) : (emitChosen pl ss n u).Ends := by
  unfold emitChosen
  rcases chosen with ⟨kind, -⟩ | kind | ⟨kind, p, order, h4, legal, -, resp⟩
  · obtain ⟨v, read⟩ := Option.isSome_iff_exists.mp (written 0 (le_refl 0) (by omega))
    rw [if_pos kind, read]
    exact (emitConstant_emits ss v u).ends
  · rw [if_neg (by rw [kind]; decide), if_pos kind]
    exact (emitVerbatim_emits ss written).ends
  · rw [if_neg (by rw [kind]; decide), if_neg (by rw [kind]; decide), order, residualSectionError_none.mpr legal]
    exact (emitFixed_emits ss h4 legal.first legal.some.le resp).ends

theorem runSfEncode_ends {pl : Plane} {ss : Nat} {s : State} (ready : Ready s) : (runSfEncode pl ss s).Ends := by
  refine (runSfChoose_ends ready).andThen fun u ok => ?_
  have keeps := runSfChoose_keeps pl ss s (f := footSubframe s) fun _ h => h
  rw [ok] at keeps
  rcases runSfChoose_cases pl ss s with ⟨f, e⟩ | ⟨e, -⟩ | e | ⟨u', xs, e, -, -, chosen⟩
  · rw [ok] at e; cases e
  · rw [ok] at e; cases e
  · rw [ok] at e; cases e
  · obtain rfl : u = u' := by rw [ok] at e; simpa using e
    have count : 1 ≤ sampleCount s := by
      by_contra none
      have illegal : ¬ legalSamples (sampleCount s) = true := fun legal => none (legalSamples_iff.mp legal).1
      rw [runSfChoose, if_pos (by simpa using illegal)] at ok
      cases ok
    exact emitChosen_ends count (Progress.mem keeps |>.written (ready pl)) chosen

theorem runBwWriteFrameHeader_ends (var : Bool) (ca : Nat) (s : State) : (runBwWriteFrameHeader var ca s).Ends :=
  .check fun _ => .check fun _ => .check fun _ => .check fun _ => .check fun _ =>
    ((emitFields_emits ..).ends.andThen fun t _ => (emitFlush_emits t).ends).andThen fun t _ => emitByte_ends _ t

theorem runBwWriteCrc16_ends (s : State) : (runBwWriteCrc16 s).Ends :=
  (emitFlush_emits s).ends.andThen fun t _ => (emitByte_ends _ t).andThen fun u _ => emitByte_ends _ u

theorem encodeSubframes_ends (fs : List (Plane × Nat)) {s : State} (ready : Ready s) : (encodeSubframes fs s).Ends := by
  induction fs generalizing s with
  | nil => exact ends_ok s
  | cons f fs ih =>
    exact (runSfEncode_ends ready).andThen_ready (runSfEncode_keeps f.1 f.2 s fun _ h => h) ready fun t => ih

theorem runFrameEncode_ends (var : Bool) {s : State} (ready : Ready s) : (runFrameEncode var s).Ends :=
  .check fun _ => .check fun _ => .check fun _ => .check fun _ => by
    have stereo : (frameStereo s).Ends := by
      unfold frameStereo
      split
      · exact runStChoose_ends ready
      · exact ends_ok s
    refine stereo.andThen_ready (frameStereo_keeps (f := []) s) ready fun t ready => ?_
    have transform : (frameTransform (frameMode t) t).Ends ∧
        (frameTransform (frameMode t) t).Keeps (footStTransform (frameMode t) t) t := by
      unfold frameTransform
      split
      · exact ⟨ends_ok t, keeps_ok t⟩
      · exact ⟨runStTransform_ends ready, runStTransform_keeps _ t⟩
    refine (((Run.Ends.andThen ?_ fun u _ => (emitFlush_emits u).ends).andThen
      fun u _ => runBwWriteCrc16_ends u).andThen fun u _ => ends_ok _)
    refine Run.Ends.andThen_ready (f := footStTransform (frameMode t) t)
      (transform.1.andThen fun u _ => runBwWriteFrameHeader_ends var _ u)
      (transform.2.andThen fun u _ => runBwWriteFrameHeader_keeps ..) ready fun u ready => encodeSubframes_ends _ ready

theorem sectionCheck_ends {p n : Nat} {s : State} {r : Run} (h : SectionLegal p n s → r.Ends) :
    (match residualSectionError p n s with
      | some c => .error c s
      | none => r : Run).Ends := by
  cases check : residualSectionError p n s with
  | some c => exact ends_error c s
  | none => exact h (residualSectionError_none.mp check)

theorem runInstr_ends {i : Instr} {s : State} (legal : i.wellFormed = true) (ready : Ready s) : (runInstr i s).Ends := by
  cases i with
  | nop => exact ends_ok s
  | bwCrcReset => exact .check fun _ => ends_ok _
  | bwWriteBits n7 => exact .check fun _ => (emitBits_emits ..).ends
  | bwWriteBitsWrapped n7 => exact (emitBits_emits ..).ends
  | bwWriteUnary => exact .check fun _ => (emitUnary_emits ..).ends
  | bwFlush => exact (emitFlush_emits s).ends
  | bwWriteCrc8 => exact .check fun _ => emitByte_ends _ s
  | bwWriteCrc16 => exact runBwWriteCrc16_ends s
  | bwWriteConstant ss => exact (emitConstant_emits ..).ends
  | bwWriteVerbatim pl ss => exact .check fun _ => (emitVerbatim_emits _ (ready pl)).ends
  | bwWriteFixed ord ss =>
    have h4 : ord.toNat ≤ 4 := of_decide_eq_true (Bool.and_eq_true_iff.mp legal).1
    exact .check fun _ => sectionCheck_ends fun section_ =>
      (emitFixed_emits _ h4 section_.first section_.some.le (ready .resp)).ends
  | bwWriteFrameHeader var ca => exact runBwWriteFrameHeader_ends _ _ s
  | fpBestOrder pl cr => exact .check fun _ => withEntries_ends (ready pl) (ends_ok _)
  | fpResiduals pl ord => exact .check fun _ => withEntries_ends (ready pl) (.check fun _ => ends_ok _)
  | rcZigzag => exact ends_ok _
  | rcWriteRice k => exact .check fun _ => (emitRice_emits ..).ends
  | rcOptimise ord umax maxk =>
    exact .check fun _ => .check fun _ => withEntries_ends ((ready .resp).mono (by omega) (by omega)) (ends_ok _)
  | rcEstimate => exact .check fun _ => ends_ok _
  | rcWriteResiduals ord =>
    exact .check fun _ => sectionCheck_ends fun section_ => (emitResidualSection_emits ⟨rfl, rfl, rfl, rfl⟩ section_.first
      ((ready .resp).mono (Nat.zero_le _) (by have := section_.some; omega))).ends
  | stChoose => exact runStChoose_ends ready
  | stTransform mode => exact runStTransform_ends ready
  | sfChoose pl ss => exact runSfChoose_ends ready
  | sfEncode pl ss => exact runSfEncode_ends ready
  | frameEncode var => exact runFrameEncode_ends var ready

/-- Settles O10: pseudocode that reads only entries that hold values ends. -/
theorem onlyUnwrittenEntriesStopACommand : Obligations.OnlyUnwrittenEntriesStopACommand := by
  intro i s legal written
  have ends := runInstr_ends legal (s := s) fun pl j _ hj => written pl j (by omega)
  rw [exec_eq]
  cases run : runInstr i s with
  | ok t => exact ⟨_, rfl⟩
  | error c t => cases c <;> exact ⟨_, rfl⟩
  | fault f => exact absurd run (ends f)

/-! ### A failing sink -/

theorem drop_failing {k n : Nat} (rest : List SinkAnswer) (h : n ≤ k) : (failing k rest).drop n = failing (k - n) rest := by
  rw [failing, List.drop_append_of_le_length (by simpa using h), List.drop_replicate, failing]

theorem footprintOf_sink (i : Instr) (l : List SinkAnswer) (s : State) : footprintOf i (withSink l s) = footprintOf i s := by
  cases i <;> rfl

/-- WRITE_FAILED keeps the output, the sink and the status of the byte that failed (spec/60_exceptions.md R369 (c)). -/
theorem Cut.finish {k : Nat} {rest : List SinkAnswer} {s t : State} {r : Run} (f : Footprint) (h : Cut k rest s t r) :
    ∃ u, Machine.finish f r = .next u ∧ u.engine = .idle ∧ u.done = s.done ∧ u.err = true ∧
      (s.err = false → u.errCode = .writeFailed) ∧ u.out = t.out.take (s.out.length + k) ∧ u.sink = rest := by
  obtain ⟨u, rfl, out, sink, done, err, -⟩ := h
  exact ⟨_, rfl, rfl, done, rfl, fun clear => by simp [err, clear], out, sink⟩

/-- Settles O31: a command follows itself up to the byte the sink fails. -/
theorem sinkFailureCutsTheOutput : Obligations.SinkFailureCutsTheOutput := by
  intro i s t k rest h sink
  have follows := runInstr_follows i (withSink [] s) k rest rfl
  have run : exec i { s with sink := sink } = finish (footprintOf i s) (runInstr i (withSink sink (withSink [] s))) := by
    rw [exec_eq]
    exact congrArg (finish · _) (footprintOf_sink i sink s)
  change exec i (withSink [] s) = _ at h
  rw [exec_eq, footprintOf_sink] at h
  rw [run]
  have settled {t0 : State} {bs : List Byte} {r : Run} (later : Later (withSink [] s) t0 bs) (out : t.out = t0.out)
      (ends : Host.Outcome State Fault Refusal) (sinks : bs.length ≤ k →
        ends = .next { t with sink := sink.drop bs.length })
      (cases : bs.length ≤ k ∧ finish (footprintOf i s) r = ends ∨ k < bs.length ∧ Cut k rest (withSink [] s) t0 r) :
      (t.out.length ≤ s.out.length + k →
        finish (footprintOf i s) r = .next { t with sink := sink.drop (t.out.length - s.out.length) }) ∧
      (s.out.length + k < t.out.length → ∃ u, finish (footprintOf i s) r = .next u ∧ u.engine = .idle ∧ u.done = s.done ∧
        u.err = true ∧ (s.err = false → u.errCode = .writeFailed) ∧ u.out = t.out.take (s.out.length + k) ∧
        u.sink = rest) := by
    have length : t.out.length = s.out.length + bs.length := by
      rw [out, later.1, List.length_append]
      rfl
    rcases cases with ⟨le, same⟩ | ⟨lt, cut⟩
    · refine ⟨fun _ => ?_, fun beyond => absurd beyond (by omega)⟩
      rw [same, sinks le, length, Nat.add_sub_cancel_left]
    · exact ⟨fun within => absurd within (by omega), fun _ => out ▸ cut.finish (footprintOf i s)⟩
  cases run0 : runInstr i (withSink [] s) with
  | fault f =>
    rw [run0] at h
    cases h
  | ok t0 =>
    rw [run0] at h follows
    obtain rfl : complete t0 = t := by simpa [finish_ok] using h
    obtain ⟨bs, later, cases⟩ := follows
    refine settled later rfl (.next (complete (withSink (failing (k - bs.length) rest) t0)))
      (fun le => by rw [← drop_failing rest le]; rfl) (cases.imp_left fun ⟨le, same⟩ => ⟨le, ?_⟩)
    exact congrArg (finish _) same
  | error c t0 =>
    rw [run0] at h follows
    obtain ⟨other, bs, later, cases⟩ := follows
    rw [finish_error _ other] at h
    obtain rfl : errorEntry c t0 = t := by simpa using h
    refine settled later rfl (.next (errorEntry c (withSink (failing (k - bs.length) rest) t0)))
      (fun le => by rw [← drop_failing rest le]; rfl) (cases.imp_left fun ⟨le, same⟩ => ⟨le, ?_⟩)
    exact (congrArg (finish _) same).trans (finish_error _ other)

end Sys2Proof.Machine
end

section
/-! The codes a reader gets back: zigzag and the Rice code (spec/45_rice.md R280-R282), the header's codes
(spec/42_frame_header.md R202-R206), mid and side (spec/46_stereo.md R330); the CRCs (spec/41_bitwriter.md R150, R151). -/

namespace Sys2Proof.Machine

/-! ### Zigzag and the Rice code -/

theorem zigzag_int (v : Int) : (zigzag v : Int) = if v < 0 then -v * 2 - 1 else v * 2 := by
  unfold zigzag
  split <;> omega

theorem unzigzag_zigzag (v : Int) : unzigzag (zigzag v) = v := by
  have e := zigzag_int v
  unfold unzigzag
  split at e
  · rw [if_neg (by omega)]
    omega
  · rw [if_pos (by omega)]
    omega

theorem zigzag_unzigzag (u : Nat) : zigzag (unzigzag u) = u := by
  by_cases even : u % 2 = 0
  · have value : unzigzag u = (u / 2 : Nat) := if_pos even
    have e := zigzag_int (unzigzag u)
    rw [value, if_neg (by omega)] at e
    rw [value]
    omega
  · have value : unzigzag u = -((u + 1) / 2 : Nat) := if_neg even
    have e := zigzag_int (unzigzag u)
    rw [value, if_pos (by omega)] at e
    rw [value]
    omega

/-- Settles O49, by cases on the sign. -/
theorem zigzagIsABijection : Obligations.ZigzagIsABijection := by
  refine ⟨zigzag_int, unzigzag_zigzag, zigzag_unzigzag, fun a b smaller => ?_, fun v low high => ?_, fun s => ?_⟩
  · have ea := zigzag_int a
    have eb := zigzag_int b
    split at ea <;> split at eb <;> omega
  · have e := zigzag_int v
    split at e <;> omega
  · refine ⟨_, (setRes64_resOnly 0 (BitVec.ofNat 64 (zigzag (operandV32 s))) s).completes (f := []), ?_, fun j high => ?_⟩
    · rw [operandV32_eq, ← zigzag_int, Int.toNat_natCast]
      simp [dword_of_words]
    · have below : ¬ 0 = j.val ∧ ¬ 0 + 1 = j.val := by omega
      simp [below]

/-- A reader of Rice codes recovers every value. -/
theorem readsRice : ReadsRice := by
  intro k v rest
  have small : zigzag v % 2 ^ k % 2 ^ k = zigzag v % 2 ^ k := Nat.mod_mod _ _
  rw [riceBits, List.append_assoc, readRice, readUnary_unaryBits]
  dsimp only
  rw [readField_fieldBits, small, Option.map_some, Nat.div_add_mod', unzigzag_zigzag]

/-- Settles O50. -/
theorem riceCodeCanBeRead : Obligations.RiceCodeCanBeRead := by
  refine fun k v rest => ⟨readsRice k v rest, ?_⟩
  simp [riceBits, unaryBits, Nat.add_assoc, Nat.add_comm 1]

/-! ### Mid and side -/

/-- Settles O55: `mid` is the floor of the half sum, and `side` has the parity of the sum. -/
theorem midSideRecovers : Obligations.MidSideRecovers := by
  intro l r
  rw [midOf_eq, sideOf]
  refine ⟨by omega, by omega, fun _ _ _ _ => ⟨⟨by omega, by omega⟩, by omega, by omega⟩⟩

/-! ### The CRCs -/

/-- The CRC-8 register after each of the nine bytes. -/
theorem crc8Update_digits :
    crc8Update 0x00 0x31 = 0x97 ∧ crc8Update 0x97 0x32 = 0x72 ∧ crc8Update 0x72 0x33 = 0xC0 ∧
    crc8Update 0xC0 0x34 = 0xC2 ∧ crc8Update 0xC2 0x35 = 0xCB ∧ crc8Update 0xCB 0x36 = 0xFD ∧
    crc8Update 0xFD 0x37 = 0x78 ∧ crc8Update 0x78 0x38 = 0xC7 ∧ crc8Update 0xC7 0x39 = 0xF4 := by
  decide

/-- The CRC-16 register after each of the nine bytes. -/
theorem crc16Update_digits :
    crc16Update 0x0000 0x31 = 0x80A5 ∧ crc16Update 0x80A5 0x32 = 0xA6AC ∧ crc16Update 0xA6AC 0x33 = 0xAF7E ∧
    crc16Update 0xAF7E 0x34 = 0xFD59 ∧ crc16Update 0xFD59 0x35 = 0xDBB3 ∧ crc16Update 0xDBB3 0x36 = 0xB16E ∧
    crc16Update 0xB16E 0x37 = 0xED17 ∧ crc16Update 0xED17 0x38 = 0x95FD ∧ crc16Update 0x95FD 0x39 = 0xFEE8 := by
  decide

/-- Settles O37, byte by byte. -/
theorem crcCheckValues : Obligations.CrcCheckValues := by
  have crc8 := crc8Update_digits
  have crc16 := crc16Update_digits
  constructor
  · simp only [List.foldl_cons, List.foldl_nil, crc8]
  · simp only [List.foldl_cons, List.foldl_nil, crc16]

theorem crc8Update_self (c : Byte) : crc8Update c c = 0 := by
  rw [crc8Update, BitVec.xor_self]
  rfl

/-- Up to eight steps move a byte with no bits above it up, none of its bits leaving the register. -/
theorem crc16Shift_repeat (b : Byte) {n : Nat} (h : n ≤ 8) :
    Nat.repeat crc16Shift n (b.setWidth 16) = b.setWidth 16 <<< n := by
  induction n with
  | zero => simp [Nat.repeat]
  | succ n ih =>
    have clear : (b.setWidth 16 <<< n).msb = false := by
      have above : 8 ≤ 15 - n := by omega
      simp [BitVec.msb_eq_getLsbD_last, BitVec.getLsbD_of_ge b (15 - n) above]
    rw [Nat.repeat, ih (by omega), crc16Shift, if_neg (by simp [clear]), BitVec.shiftLeft_add]

theorem crc16Update_self (c : Half) : crc16Update (crc16Update c (c.extractLsb' 8 8)) (c.extractLsb' 0 8) = 0 := by
  have low : c ^^^ (c.extractLsb' 8 8 ++ 0#8) = (c.extractLsb' 0 8).setWidth 16 := by
    refine BitVec.eq_of_getLsbD_eq fun i hi => ?_
    rw [BitVec.getLsbD_xor, BitVec.getLsbD_append, BitVec.getLsbD_setWidth]
    by_cases h : i < 8
    · simp [h, hi]
    · simp [h, show i - 8 < 8 by omega, show 8 + (i - 8) = i by omega]
  have first : crc16Update c (c.extractLsb' 8 8) = c.extractLsb' 0 8 ++ 0#8 := by
    rw [crc16Update, low, crc16Shift_repeat _ le_rfl]
    refine BitVec.eq_of_getLsbD_eq fun i hi => ?_
    rw [BitVec.getLsbD_append]
    simp [hi]
  rw [first, crc16Update, BitVec.xor_self]
  rfl

/-- Settles O38. -/
theorem crcOfItsOwnCrcIsZero : Obligations.CrcOfItsOwnCrcIsZero := by
  intro message c8 c16
  rw [List.foldl_append, List.foldl_append]
  exact ⟨crc8Update_self _, crc16Update_self _⟩

/-! ### Block size and sample rate -/

/-- The block-size code where no code of its own stands for the size (spec/42_frame_header.md R202). -/
theorem bsCode_other {bs : Nat} (h192 : bs ≠ 192) (h144 : ∀ k, 2 ≤ k → k ≤ 5 → bs ≠ 144 * 2 ^ k)
    (hpow : ∀ k, 8 ≤ k → k ≤ 15 → bs ≠ 2 ^ k) :
    bsCode bs = if bs ≤ 256 then ⟨6, some (8, bs - 1)⟩ else ⟨7, some (16, bs - 1)⟩ := by
  have none144 : [2, 3, 4, 5].find? (fun k => bs == 144 * 2 ^ k) = none :=
    List.find?_eq_none.mpr fun k member => by
      have := h144 k (by simp at member; omega) (by simp at member; omega)
      simpa using this
  have nonePow : [8, 9, 10, 11, 12, 13, 14, 15].find? (fun k => bs == 2 ^ k) = none :=
    List.find?_eq_none.mpr fun k member => by
      have := hpow k (by simp at member; omega) (by simp at member; omega)
      simpa using this
  rw [bsCode, if_neg h192, none144, nonePow]

theorem bsCode_144 {k : Nat} (least : 2 ≤ k) (high : k ≤ 5) : bsCode (144 * 2 ^ k) = ⟨k, none⟩ := by
  interval_cases k <;> rfl

theorem bsCode_pow {k : Nat} (least : 8 ≤ k) (high : k ≤ 15) : bsCode (2 ^ k) = ⟨k, none⟩ := by
  interval_cases k <;> rfl

theorem blockSizeOf_bsCode {bs : Nat} (low : 1 ≤ bs) : blockSizeOf (bsCode bs) = some bs := by
  by_cases h192 : bs = 192
  · subst h192
    rfl
  by_cases h144 : ∃ k, (2 ≤ k ∧ k ≤ 5) ∧ bs = 144 * 2 ^ k
  · obtain ⟨k, ⟨least, high⟩, rfl⟩ := h144
    rw [bsCode_144 least high]
    simp [blockSizeOf, least, high, show k ≠ 1 by omega]
  by_cases hpow : ∃ k, (8 ≤ k ∧ k ≤ 15) ∧ bs = 2 ^ k
  · obtain ⟨k, ⟨least, high⟩, rfl⟩ := hpow
    rw [bsCode_pow least high]
    simp [blockSizeOf, least, high, show k ≠ 1 by omega, show ¬ k ≤ 5 by omega]
  rw [bsCode_other h192 (fun k l h e => h144 ⟨k, ⟨l, h⟩, e⟩) fun k l h e => hpow ⟨k, ⟨l, h⟩, e⟩]
  split <;> simp [blockSizeOf] <;> omega

theorem srCode_table {j r : Nat} (h : rateTable[j]? = some r) : srCode r = ⟨j + 1, none⟩ := by
  have bound : j < 11 := (List.getElem?_eq_some_iff.mp h).1
  interval_cases j <;> (obtain rfl := Option.some.inj h; rfl)

/-- The sample-rate code of a rate outside the table (spec/42_frame_header.md R203). -/
theorem srCode_other {r : Nat} (h : r ∉ rateTable) :
    srCode r = if r = 0 then ⟨0, none⟩
      else if r % 1000 = 0 ∧ r / 1000 ≤ 255 then ⟨12, some (8, r / 1000)⟩
      else if r ≤ 65535 then ⟨13, some (16, r)⟩
      else if r % 10 = 0 ∧ r / 10 ≤ 65535 then ⟨14, some (16, r / 10)⟩
      else ⟨0, none⟩ := by
  have absent : rateTable.findIdx? (fun x => x == r) = none :=
    List.findIdx?_eq_none_iff.mpr fun x member => by
      have : x ≠ r := fun e => h (e ▸ member)
      simpa using this
  rw [srCode, absent]

/-- Settles O44, by the cases of the two tables. -/
theorem headerCodesCanBeRead : Obligations.HeaderCodesCanBeRead := by
  refine ⟨fun bs low _ => ⟨?_, ?_, ?_, bsCode_other, blockSizeOf_bsCode low⟩,
    fun r _ => ⟨fun j _ h => srCode_table h, fun absent nonzero => ?_, ?_⟩⟩
  · rintro rfl
    rfl
  · rintro k least high rfl
    exact bsCode_144 least high
  · rintro k least high rfl
    exact bsCode_pow least high
  · rw [srCode_other absent, if_neg nonzero]
    refine ⟨fun kilo => if_pos kilo, fun notKilo low => ?_, fun notKilo high ten => ?_⟩
    · rw [if_neg notKilo, if_pos low]
    · rw [if_neg notKilo, if_neg (by omega), if_pos ten]
  · by_cases member : r ∈ rateTable
    · obtain ⟨j, index⟩ := List.mem_iff_getElem?.mp member
      have nonzero : r ≠ 0 := by
        rintro rfl
        exact absurd member (by decide)
      rw [srCode_table index]
      refine ⟨⟨fun h => absurd h (Nat.succ_ne_zero j), fun h => ?_⟩, fun _ => rfl, fun _ => index⟩
      rcases h with h | ⟨absent, -⟩
      · exact absurd h nonzero
      · exact absurd member absent
    · have absent : r ∉ [88200, 176400, 192000, 8000, 16000, 22050, 24000, 32000, 44100, 48000, 96000] := member
      rw [srCode_other member]
      simp only [absent, not_false_eq_true, true_and]
      split
      · next zero => simp [zero]
      split
      · next kilo =>
        simp [sampleRateOf, kilo]
        omega
      split
      · simp [sampleRateOf]
        omega
      split
      · simp [sampleRateOf]
        omega
      · simp
        omega

/-! ### The frame number -/

theorem utf8Tail_byte (y : Nat) : 0x80 ||| (y &&& 0x3F) = 0x80 + y % 64 := by
  have low : y &&& 0x3F = y % 64 := Nat.and_two_pow_sub_one_eq_mod y 6
  rw [low]
  exact (Nat.two_pow_add_eq_or_of_lt (i := 7) (by omega) 1).symm

theorem length_utf8Tail (x j : Nat) : (utf8Tail x j).length = j := by
  induction j with
  | zero => rfl
  | succ j ih => simp [utf8Tail, ih]

theorem utf8Tail_range {x j c : Nat} (h : c ∈ utf8Tail x j) : 0x80 ≤ c ∧ c < 0xC0 := by
  induction j with
  | zero => cases h
  | succ j ih =>
    rw [utf8Tail, List.mem_cons, utf8Tail_byte] at h
    rcases h with rfl | h
    · omega
    · exact ih h

/-- Continuation bytes carry the low bits of the number. -/
theorem utf8Tail_value (x j v : Nat) :
    (utf8Tail x j).foldl (fun v c => 64 * v + c % 64) v = v * 64 ^ j + x % 64 ^ j := by
  induction j generalizing v with
  | zero => simp [utf8Tail, Nat.mod_one]
  | succ j ih =>
    have digit : (0x80 + x / 64 ^ j % 64) % 64 = x / 64 ^ j % 64 := by omega
    rw [utf8Tail, List.foldl_cons, ih, utf8Tail_byte, Nat.shiftRight_eq_div_pow, Nat.pow_mul, digit, Nat.pow_succ,
      Nat.mod_mul]
    ring

/-- What every number of `n` bytes below needs of its bytes. -/
def ReadsAs (x n : Nat) (bytes : List Nat) : Prop :=
  utf8Value bytes = some x ∧ bytes.length = n ∧ ∀ b ∈ bytes, b < 256

/-- `n` bytes say their number where the lead byte has `n` leading ones and holds the number's high bits. -/
theorem utf8Bytes_readsAs {lead n x : Nat} (hn : 1 ≤ n)
    (leads : ∀ high < 2 ^ (7 - n), 0x80 ≤ (lead ||| high) ∧ (lead ||| high) < 256 ∧ leadingOnes (lead ||| high) = n ∧
      (lead ||| high) % 2 ^ (7 - n) = high)
    (bound : x < 64 ^ (n - 1) * 2 ^ (7 - n)) : ReadsAs x n (utf8Bytes lead n x) := by
  obtain ⟨low, byte, ones, bits⟩ := leads (x >>> (6 * (n - 1))) <| by
    rw [Nat.shiftRight_eq_div_pow, Nat.pow_mul]
    exact Nat.div_lt_of_lt_mul bound
  refine ⟨?_, by simp [utf8Bytes, length_utf8Tail]; omega, fun b member => ?_⟩
  · have tail : (utf8Tail x (n - 1)).length + 1 = n ∧
        (utf8Tail x (n - 1)).all (fun c => decide (0x80 ≤ c ∧ c < 0xC0)) = true :=
      ⟨by rw [length_utf8Tail]; omega, List.all_eq_true.mpr fun c member => decide_eq_true (utf8Tail_range member)⟩
    rw [utf8Bytes, utf8Value, if_neg (by omega), ones, if_pos tail, utf8Tail_value, bits, Nat.shiftRight_eq_div_pow,
      Nat.pow_mul, Nat.div_add_mod']
  · rw [utf8Bytes, List.mem_cons] at member
    rcases member with rfl | member
    · exact byte
    · have := utf8Tail_range member
      omega

theorem utf8_readsAs {x : Nat} (h : x < 2 ^ 36) : ∃ n, 1 ≤ n ∧ n ≤ 7 ∧ ReadsAs x n (utf8 x) := by
  unfold utf8
  split
  · exact ⟨1, by omega, by omega, by simp only [utf8Value]; rw [if_pos (by omega)]; rfl, rfl, by simp; omega⟩
  split
  · exact ⟨2, by omega, by omega, utf8Bytes_readsAs (by omega) (by decide) (by omega)⟩
  split
  · exact ⟨3, by omega, by omega, utf8Bytes_readsAs (by omega) (by decide) (by omega)⟩
  split
  · exact ⟨4, by omega, by omega, utf8Bytes_readsAs (by omega) (by decide) (by omega)⟩
  split
  · exact ⟨5, by omega, by omega, utf8Bytes_readsAs (by omega) (by decide) (by omega)⟩
  split
  · exact ⟨6, by omega, by omega, utf8Bytes_readsAs (by omega) (by decide) (by omega)⟩
  · exact ⟨7, by omega, by omega, utf8Bytes_readsAs (by omega) (by decide) (by omega)⟩

/-- Settles O45. -/
theorem frameNumberCanBeRead : Obligations.FrameNumberCanBeRead := by
  intro x bound
  obtain ⟨n, low, high, value, length, bytes⟩ := utf8_readsAs bound
  exact ⟨value, by omega, by omega, bytes⟩

end Sys2Proof.Machine
end

section
/-! One subframe, written and read back (spec/44_subframe.md R263, spec/47_frame.md R342). -/

namespace Sys2Proof.Machine

theorem legalPlane_ne_resp {pl : Plane} (h : legalPlane pl = true) : pl ≠ .resp := by
  rintro rfl
  cases h

theorem legalSampleSize_pos {ss : BitVec 6} (h : legalSampleSize ss = true) : 1 ≤ ss.toNat := by
  simp only [legalSampleSize, decide_eq_true_eq] at h
  exact h.1

/-- Completion is no part of what was written. -/
theorem Emitted.completed {bits : List Bool} {s t : State} (h : Emitted bits s t) :
    Emitted bits s.completed t.completed := by
  refine ⟨h.stream, h.bytes, ?_⟩
  conv_lhs => rw [h.rest]
  rfl

/-- Settles O58: the choice, then the subframe it names, which its reader recovers. -/
theorem subframesAreLossless : Obligations.SubframesAreLossless := by
  intro s pl ss n planeLegal sizeLegal low high written fit accepts
  have count : sampleCount s = n := sampleCount_eq s
  rw [← count] at low high written fit ⊢
  have notResp := legalPlane_ne_resp planeLegal
  obtain ⟨u, choice, only, progress, chosen, emits, read⟩ := runSfEncode_parts readsRice notResp
    (legalSampleSize_pos sizeLegal) (legalSamples_iff.mpr ⟨low, high⟩) written fit
  obtain ⟨t, emit, emitted⟩ := emits.completes (only.wrote.accepts accepts)
  have whole : runSfEncode pl ss.toNat s = .ok t := by
    rw [runSfEncode, choice]
    exact emit
  have same {j : Nat} (hj : j < sampleCount s) : readEntry pl j u.mem = readEntry pl j s.mem :=
    resp_apart notResp high progress hj
  have first : sampleAt pl u.mem 0 = sampleAt pl s.mem 0 := congrArg (·.getD 0) (same low)
  have all : entries pl 0 (sampleCount s) u.mem = entries pl 0 (sampleCount s) s.mem :=
    entries_congr fun j _ hj => same (by omega)
  refine ⟨u.completed, t.completed, chosenBits pl ss.toNat (sampleCount s) u, ?_, rfl, ?_, ?_, emitted.completed, ?_, ?_⟩
  · exact (exec_eq _ s).trans (congrArg (finish _) choice)
  · show u.err = s.err
    rw [only]
  · exact (exec_eq _ s).trans (congrArg (finish _) whole)
  · have kinds := chosen.bits pl ss.toNat
    rw [first, all] at kinds
    have kind : getRes 2 u = u.res[2] := getRes_eq u 2
    have order : getRes 3 u = u.res[3] := getRes_eq u 3
    rwa [kind, order] at kinds
  · simpa using read []

end Sys2Proof.Machine
end

section
/-! What the bit writer's commands emit and refuse (spec/41_bitwriter.md R161-R172, spec/45_rice.md R291, R300-R302,
spec/42_frame_header.md R200-R210). -/

namespace Sys2Proof.Machine

/-- A command made of output primitives alone, on a sink that accepts. -/
theorem Run.Emits.executes {i : Instr} {bits : List Bool} {s : State} (h : (runInstr i s).Emits bits s)
    (accepts : SinkAccepts s) : ∃ t, exec i s = .next t.completed ∧ Emitted bits s t := by
  obtain ⟨t, run, emitted⟩ := h.completes accepts
  exact ⟨t, exec_completed run, emitted⟩

/-! ### Fields and bytes -/

theorem lowBits_natCast (n v : Nat) : lowBits n v = v % 2 ^ n := by
  unfold lowBits
  norm_cast

/-- A field is its high bits, then its low bits. -/
theorem fieldBits_add (m n v : Nat) : fieldBits (m + n) v = fieldBits m (v / 2 ^ n) ++ fieldBits n v := by
  induction m with
  | zero => simp [fieldBits]
  | succ m ih => rw [Nat.add_right_comm, fieldBits_succ, ih, fieldBits_succ, Nat.testBit_div_two_pow, List.cons_append]

theorem fieldBits_half (c : Half) :
    fieldBits 16 c.toNat = fieldBits 8 (c.extractLsb' 8 8).toNat ++ fieldBits 8 (c.extractLsb' 0 8).toNat := by
  refine (fieldBits_add 8 8 c.toNat).trans ?_
  rw [BitVec.extractLsb'_toNat, BitVec.extractLsb'_toNat, Nat.shiftRight_eq_div_pow, Nat.shiftRight_eq_div_pow,
    fieldBits_mod _ le_rfl, fieldBits_mod _ le_rfl, Nat.pow_zero, Nat.div_one]

/-- A byte from an aligned writer to a sink that accepts. -/
theorem emitByte_accepts (b : Byte) {s : State} (aligned : s.nb = 0) (accepts : SinkAccepts s) :
    emitByte b s = .ok (acceptByte b s) ∧ Emitted (fieldBits 8 b.toNat) s (acceptByte b s) := by
  obtain ⟨t, run, emitted⟩ := (emitByte_emits b aligned).completes accepts
  have accepted : t = acceptByte b s := by
    unfold emitByte at run
    split at run
    · cases run
    · exact (Run.ok.inj run).symm
  exact ⟨accepted ▸ run, accepted ▸ emitted⟩

/-! ### Fields, unary and Rice codes, the padding -/

/-- Settles O33. -/
theorem writeBitsEmits : Obligations.WriteBitsEmits := by
  intro s n7 _ _ accepts
  rw [← operandU_eq s]
  intro u
  refine ⟨fun fits => ?_, fun large => ?_, ?_⟩
  · have run : runInstr (.bwWriteBits n7) s = emitBits n7.toNat u s := if_neg (not_not_intro fits)
    exact Run.Emits.executes (run ▸ emitBits_emits ..) accepts
  · exact exec_failed (if_pos (not_lt.mpr large)) (by decide)
  · rw [← lowBits_natCast]
    exact Run.Emits.executes (emitBits_emits ..) accepts

/-- Settles O34. -/
theorem unaryAndRiceEmit : Obligations.UnaryAndRiceEmit := by
  intro s k accepts
  have high : arg 1 s = s.args[1] := arg_eq s 1
  refine ⟨fun zero => ?_, fun nonzero => ?_, fun legal => ?_, fun escape => ?_⟩
  · have run : runInstr .bwWriteUnary s = emitUnary (arg 0 s).toNat s := if_neg (not_not_intro (high.trans zero))
    rw [show arg 0 s = s.args[0] from arg_eq s 0] at run
    exact Run.Emits.executes (run ▸ emitUnary_emits ..) accepts
  · exact exec_failed (if_pos (high ▸ nonzero)) (by decide)
  · have run : runInstr (.rcWriteRice k) s = emitRice k.toNat (operandV32 s) s :=
      if_neg fun e => legal (BitVec.eq_of_toNat_eq e)
    rw [operandV32_eq] at run
    exact Run.Emits.executes (run ▸ emitRice_emits ..) accepts
  · exact exec_failed (if_pos (congrArg BitVec.toNat escape)) (by decide)

/-- Settles O35. -/
theorem flushAligns : Obligations.FlushAligns := by
  intro s accepts
  obtain ⟨t, run, emitted⟩ := Run.Emits.executes (i := .bwFlush) (emitFlush_emits s) accepts
  exact ⟨t, run, flush_aligned emitted, emitted⟩

/-! ### The CRC footers -/

/-- The two bytes of the CRC-16 on an aligned writer, after which the register is 0 (spec/41_bitwriter.md R166). -/
theorem emitFooter_accepts {s : State} (aligned : s.nb = 0) (accepts : SinkAccepts s) :
    ∃ t, emitFooter s = .ok t ∧ Emitted (fieldBits 16 s.crc16.toNat) s t ∧ t.crc16 = 0 ∧
      t = acceptByte (s.crc16.extractLsb' 0 8) (acceptByte (s.crc16.extractLsb' 8 8) s) := by
  obtain ⟨high, highEmitted⟩ := emitByte_accepts (s.crc16.extractLsb' 8 8) aligned accepts
  obtain ⟨low, lowEmitted⟩ := emitByte_accepts (s := acceptByte (s.crc16.extractLsb' 8 8) s) (s.crc16.extractLsb' 0 8)
    aligned (highEmitted.sinkAccepts accepts)
  refine ⟨_, ?_, ?_, crc16Update_self s.crc16, rfl⟩
  · rw [emitFooter, high]
    exact low
  · rw [fieldBits_half]
    exact highEmitted.trans lowEmitted

theorem runBwWriteCrc16_accepts {s : State} (accepts : SinkAccepts s) :
    ∃ u t, emitFlush s = .ok u ∧ Emitted (List.replicate ((8 - s.nb.toNat) % 8) false) s u ∧ u.nb = 0 ∧
      runBwWriteCrc16 s = .ok t ∧ Emitted (fieldBits 16 u.crc16.toNat) u t ∧ t.crc16 = 0 ∧
      t = acceptByte (u.crc16.extractLsb' 0 8) (acceptByte (u.crc16.extractLsb' 8 8) u) := by
  obtain ⟨u, flush, padded⟩ := (emitFlush_emits s).completes accepts
  obtain ⟨t, footer, emitted, clear, bytes⟩ := emitFooter_accepts (flush_aligned padded) (padded.sinkAccepts accepts)
  exact ⟨u, t, flush, padded, flush_aligned padded, by rw [runBwWriteCrc16, flush]; exact footer, emitted, clear, bytes⟩

/-- Settles O36: a register that absorbs its own value is 0. -/
theorem crcFooters : Obligations.CrcFooters := by
  intro s accepts
  refine ⟨fun aligned => ?_, fun unaligned => exec_failed (if_pos unaligned) (by decide), ?_⟩
  · obtain ⟨run, emitted⟩ := emitByte_accepts s.crc8 aligned accepts
    exact ⟨_, exec_completed (i := .bwWriteCrc8) ((if_neg (not_not_intro aligned)).trans run), emitted,
      crc8Update_self s.crc8⟩
  · obtain ⟨u, t, -, padded, aligned, run, emitted, clear, -⟩ := runBwWriteCrc16_accepts accepts
    exact ⟨u, t, padded, aligned, emitted, clear, exec_completed (i := .bwWriteCrc16) run⟩

/-! ### Subframe bodies -/

theorem illegalSamples {n : Nat} (h : n = 0 ∨ 65535 < n) : ¬ legalSamples n = true := by
  rw [legalSamples_iff]
  omega

/-- Settles O39. -/
theorem constantAndVerbatimEmit : Obligations.ConstantAndVerbatimEmit := by
  intro s pl ss accepts
  rw [← operandSv_eq s, ← sampleCount_eq s]
  refine ⟨Run.Emits.executes (i := .bwWriteConstant ss) (emitConstant_emits ..) accepts, fun low high written => ?_,
    fun outside => exec_failed (if_pos (illegalSamples outside)) (by decide)⟩
  have run : runInstr (.bwWriteVerbatim pl ss) s = emitVerbatim pl ss.toNat (sampleCount s) s :=
    if_neg (not_not_intro (legalSamples_iff.mpr ⟨low, high⟩))
  have bits : verbatimBits ss.toNat (entries pl 0 (sampleCount s) s.mem) =
      fieldBits 8 0x02 ++ (List.range (sampleCount s)).flatMap fun i =>
        fieldBits ss.toNat (sampleAt pl s.mem i % 2 ^ ss.toNat).toNat := by
    rw [verbatimBits, entries_eq_range', List.flatMap_map, List.range_eq_range']
    rfl
  exact Run.Emits.executes (bits ▸ run ▸ emitVerbatim_emits _ written) accepts

/-! ### The residual section -/

/-- A section's writer on a legal count: its first failing check, else what it emits (spec/45_rice.md R301). -/
theorem sectionWriter_eq {p : Nat} {s : State} {r : Run} (legal : legalSamples (sampleCount s) = true) :
    (if ¬ legalSamples (sampleCount s) = true then .error .invalidOperand s
      else match residualSectionError p (sampleCount s) s with
        | some c => .error c s
        | none => r : Run) = (residualSectionError p (sampleCount s) s).elim r (.error · s) := by
  rw [if_neg (not_not_intro legal)]
  cases residualSectionError p (sampleCount s) s <;> rfl

/-- Settles O40. -/
theorem residualSectionEmits : Obligations.ResidualSectionEmits := by
  intro s ord ss order low high legal written accepts
  rw [← sampleCount_eq s] at low high legal written ⊢
  have count := legalSamples_iff.mpr ⟨low, high⟩
  have checks := residualSectionError_none.mpr legal
  have residuals : runInstr (.rcWriteResiduals ord) s = emitResidualSection ord.toNat (sampleCount s) s :=
    (sectionWriter_eq count).trans (by rw [checks]; rfl)
  have fixed : runInstr (.bwWriteFixed ord ss) s = emitFixed ss.toNat ord.toNat (sampleCount s) s :=
    (sectionWriter_eq count).trans (by rw [checks]; rfl)
  exact ⟨Run.Emits.executes (residuals ▸ emitResidualSection_emits ⟨rfl, rfl, rfl, rfl⟩ legal.first
      (written.mono (Nat.zero_le _) (by have := legal.some; omega))) accepts,
    Run.Emits.executes (fixed ▸ emitFixed_emits _ order legal.first legal.some.le written) accepts⟩

/-- The shape checks of R301 come before those of the parameters. -/
theorem residualSectionError_shape {p n : Nat} {s : State}
    (h : ¬ (s.porder.toNat ≤ 8 ∧ n % 2 ^ s.porder.toNat = 0 ∧ p ≤ n >>> s.porder.toNat ∧ p < n)) :
    residualSectionError p n s = some .invalidOperand := by
  unfold residualSectionError
  by_cases order : s.porder.toNat ≤ 8
  · by_cases divides : n % 2 ^ s.porder.toNat = 0
    · by_cases first : p ≤ n >>> s.porder.toNat
      · by_cases warm : p < n
        · exact absurd ⟨order, divides, first, warm⟩ h
        · simp [Config.maxPartitionOrder, order, divides, not_lt.mpr first, warm]
      · simp [Config.maxPartitionOrder, order, divides, not_le.mp first]
    · simp [Config.maxPartitionOrder, order, divides]
  · simp [Config.maxPartitionOrder, order]

/-- The first parameter with an error decides. -/
theorem residualSectionError_param {p n j : Nat} {s : State} {c : ErrorCode}
    (order : s.porder.toNat ≤ 8) (divides : n % 2 ^ s.porder.toNat = 0) (first : p ≤ n >>> s.porder.toNat) (warm : p < n)
    (hj : j < 2 ^ s.porder.toNat) (before : ∀ i < j, paramError s.method (getParam i s) = none)
    (error : paramError s.method (getParam j s) = some c) : residualSectionError p n s = some c := by
  have split : List.range (2 ^ s.porder.toNat) = List.range j ++ j :: List.range' (j + 1) (2 ^ s.porder.toNat - j - 1) := by
    have join := List.range'_append_1 (s := 0) (m := j) (n := 2 ^ s.porder.toNat - j - 1 + 1)
    rw [List.range'_succ, Nat.zero_add] at join
    rw [List.range_eq_range', List.range_eq_range', join]
    congr 1
    omega
  have found : (List.range (2 ^ s.porder.toNat)).findSome? (fun j => paramError s.method (getParam j s)) = some c :=
    List.findSome?_eq_some_iff.mpr ⟨_, j, _, split, error, fun i member => before i (List.mem_range.mp member)⟩
  unfold residualSectionError
  simp [Config.maxPartitionOrder, order, divides, not_lt.mpr first, warm, found]

/-- Settles O41. -/
theorem residualSectionChecks : Obligations.ResidualSectionChecks := by
  intro s ord ss c
  rw [← sampleCount_eq s]
  intro n o shape fails
  have raised (checked : legalSamples n = true → residualSectionError ord.toNat n s = some c)
      (count : ¬ legalSamples n = true → c = .invalidOperand) (other : c ≠ .writeFailed) :
      exec (.rcWriteResiduals ord) s = .next (s.failed c) ∧ exec (.bwWriteFixed ord ss) s = .next (s.failed c) := by
    by_cases legal : legalSamples n = true
    · exact ⟨exec_failed ((sectionWriter_eq legal).trans (by rw [checked legal]; rfl)) other,
        exec_failed ((sectionWriter_eq legal).trans (by rw [checked legal]; rfl)) other⟩
    · rw [count legal]
      exact ⟨exec_failed (if_pos legal) (by decide), exec_failed (if_pos legal) (by decide)⟩
  rcases fails with ⟨misshapen, rfl⟩ | ⟨⟨low, high, order, divides, first, warm⟩, j, hj, before, error⟩
  · refine raised (fun legal => residualSectionError_shape fun ⟨order, divides, first, warm⟩ => ?_) (fun _ => rfl) (by decide)
    obtain ⟨low, high⟩ := legalSamples_iff.mp legal
    exact misshapen ⟨low, high, order, divides, first, warm⟩
  · have raises : paramError s.method (getParam j s) = some c ∧ c ≠ .writeFailed := by
      rcases error with ⟨four, escape, rfl⟩ | ⟨four, above, below, rfl⟩ | ⟨five, escape, rfl⟩
      · rw [four]
        exact ⟨if_pos escape, by decide⟩
      · rw [four]
        exact ⟨(if_neg (by omega)).trans (if_pos (by omega)), by decide⟩
      · rw [five]
        exact ⟨if_pos escape, by decide⟩
    exact raised (fun _ => residualSectionError_param order divides first warm hj
      (fun i hi => (paramError_none (getParam_le i s)).mpr (before i hi)) raises.1)
      (fun illegal => absurd (legalSamples_iff.mpr ⟨low, high⟩) illegal) raises.2

/-! ### The frame header -/

theorem formatSupported_iff {s : State} : formatSupported s = true ↔
    (1 ≤ s.channels.toNat ∧ s.channels.toNat ≤ 8) ∧
      (s.bits.toNat = 8 ∨ s.bits.toNat = 16 ∨ s.bits.toNat = 24 ∨ s.bits.toNat = 32) := by
  rw [formatSupported, Bool.and_eq_true, decide_eq_true_eq]
  simp [channelCount, bitDepth]

theorem assignmentAgrees_iff {ca c : Nat} :
    assignmentAgrees ca c = true ↔ 8 ≤ ca ∧ c = 2 ∨ ca < 8 ∧ ca + 1 = c := by
  unfold assignmentAgrees
  split <;> simp <;> omega

/-- The header's fields on an aligned writer end aligned, and its CRC-8 follows (spec/42_frame_header.md R208, R209). -/
theorem runBwWriteFrameHeader_accepts {var : Bool} {ca : Nat} {s : State} (format : formatSupported s = true)
    (aligned : s.nb = 0) (count : legalSamples (sampleCount s) = true) (number : operandNum s < Config.numberBound)
    (agrees : assignmentAgrees ca (channelCount s) = true) (accepts : SinkAccepts s) :
    ∃ u, Emitted (fieldsBits (headerFields var ca (sampleCount s) (operandNum s) (bitDepth s) (sampleRate s))) s.cleared u ∧
      u.nb = 0 ∧ Emitted (fieldBits 8 u.crc8.toNat) u (acceptByte u.crc8 u) ∧
      runBwWriteFrameHeader var ca s = .ok (acceptByte u.crc8 u) := by
  obtain ⟨u, fields, emitted⟩ :=
    (emitFields_emits (headerFields var ca (sampleCount s) (operandNum s) (bitDepth s) (sampleRate s)) s.cleared).completes accepts
  have whole : u.nb = 0 := BitVec.eq_of_toNat_eq <| by
    have bytes := headerFields_aligned var ca (sampleCount s) (operandNum s) (bitDepth s) (sampleRate s)
    have start : s.cleared.nb.toNat = 0 := congrArg BitVec.toNat aligned
    have pending := emitted.nb
    rw [start, Nat.zero_add] at pending
    exact pending.trans bytes
  obtain ⟨crc, crcEmitted⟩ := emitByte_accepts u.crc8 whole (emitted.sinkAccepts accepts)
  refine ⟨u, emitted, whole, crcEmitted, ?_⟩
  rw [runBwWriteFrameHeader, if_neg (not_not_intro format), if_neg (not_not_intro aligned), if_neg (not_not_intro count),
    if_neg (not_not_intro number), if_neg (not_not_intro agrees), show clearSpan s = s.cleared from rfl, fields]
  show ((emitFlush u).andThen fun t => emitByte t.crc8 t) = _
  rw [emitFlush, if_pos whole]
  exact crc

/-- The fields of R200 in order, with the depth's code of R205. -/
theorem headerFields_bits (var : Bool) (ca bs num r : Nat) {bd : Nat} (depth : bd = 8 ∨ bd = 16 ∨ bd = 24 ∨ bd = 32) :
    fieldsBits (headerFields var ca bs num bd r) =
      fieldBits 16 (if var = true then 0xFFF9 else 0xFFF8) ++ fieldBits 4 (bsCode bs).code ++
        fieldBits 4 (srCode r).code ++ fieldBits 4 ca ++
        fieldBits 4 (if bd = 8 then 2 else if bd = 16 then 8 else if bd = 24 then 12 else 14) ++
        (utf8 num).flatMap (fieldBits 8) ++ fieldsBits (bsCode bs).trailer.toList ++ fieldsBits (srCode r).trailer.toList := by
  have sync : 0xFFF8 ||| var.toNat = if var = true then 0xFFF9 else 0xFFF8 := by cases var <;> rfl
  have code : bdCode bd = if bd = 8 then 2 else if bd = 16 then 8 else if bd = 24 then 12 else 14 := by
    rcases depth with rfl | rfl | rfl | rfl <;> rfl
  rw [headerFields, sync, code, fieldsBits_append, fieldsBits_append, fieldsBits_append]
  simp [fieldsBits, List.flatMap_map]

/-- Settles O42. -/
theorem frameHeaderEmits : Obligations.FrameHeaderEmits := by
  intro s var ca
  rw [← sampleCount_eq s, ← operandNum_eq s]
  intro bs num c bd low high depth aligned least greatest number agrees accepts
  obtain ⟨u, fields, whole, crc, run⟩ := runBwWriteFrameHeader_accepts (var := var) (ca := ca.toNat) (s := s)
    (formatSupported_iff.mpr ⟨⟨low, high⟩, depth⟩) aligned (legalSamples_iff.mpr ⟨least, greatest⟩) number
    (assignmentAgrees_iff.mpr agrees) accepts
  exact ⟨u, _, headerFields_bits var ca.toNat bs num s.rate.toNat depth ▸ fields, whole, crc, crc8Update_self u.crc8,
    exec_completed (i := .bwWriteFrameHeader var ca) run⟩

/-- Settles O43: both commands make the same checks first. -/
theorem frameChecks : Obligations.FrameChecks := by
  intro s var ca e
  rw [← sampleCount_eq s, ← operandNum_eq s]
  intro n c bd format operands agrees
  have both {code : ErrorCode} (other : code ≠ .writeFailed)
      (header : runBwWriteFrameHeader var ca.toNat s = .error code s) (frame : runFrameEncode var s = .error code s) :
      exec (.bwWriteFrameHeader var ca) s = .next (s.failed code) ∧ exec (.frameEncode var) s = .next (s.failed code) :=
    ⟨exec_failed header other, exec_failed frame other⟩
  refine ⟨?_, fun supported aligned ⟨⟨low, high⟩, number⟩ disagrees => ?_⟩
  · rintro (⟨unsupported, rfl⟩ | ⟨supported, unaligned, rfl⟩ | ⟨supported, aligned, illegal, rfl⟩)
    · have refused : ¬ formatSupported s = true := fun h => unsupported (formatSupported_iff.mp h)
      exact both (by decide) (if_pos refused) (if_pos refused)
    · have passed := not_not_intro (formatSupported_iff.mpr supported)
      exact both (by decide) ((if_neg passed).trans (if_pos unaligned)) ((if_neg passed).trans (if_pos unaligned))
    · have passed := not_not_intro (formatSupported_iff.mpr supported)
      have onByte := not_not_intro aligned
      by_cases legal : legalSamples (sampleCount s) = true
      · have refused : ¬ operandNum s < Config.numberBound := fun number => illegal ⟨legalSamples_iff.mp legal, number⟩
        have count := not_not_intro legal
        exact both (by decide)
          ((if_neg passed).trans ((if_neg onByte).trans ((if_neg count).trans (if_pos refused))))
          ((if_neg passed).trans ((if_neg onByte).trans ((if_neg count).trans (if_pos refused))))
      · exact both (by decide) ((if_neg passed).trans ((if_neg onByte).trans (if_pos legal)))
          ((if_neg passed).trans ((if_neg onByte).trans (if_pos legal)))
  · have refused : ¬ assignmentAgrees ca.toNat (channelCount s) = true := fun h => disagrees (assignmentAgrees_iff.mp h)
    exact exec_failed ((if_neg (not_not_intro (formatSupported_iff.mpr supported))).trans
      ((if_neg (not_not_intro aligned)).trans ((if_neg (not_not_intro (legalSamples_iff.mpr ⟨low, high⟩))).trans
      ((if_neg (not_not_intro number)).trans (if_pos refused))))) (by decide)

end Sys2Proof.Machine
end

section
/-! The samples a frame carries: the planes a stereo mode leaves, that they fit their subframes, and that R330 recovers the
channels from them (spec/46_stereo.md R330, R331, spec/47_frame.md R341). -/

namespace Sys2Proof.Machine

/-! ### Lists of samples -/

theorem leftOf_transformed (l r : Int) : leftOf (midOf l r) (sideOf l r) = l := by
  rw [leftOf, Int.shiftRight_eq_div_pow]
  exact (midSideRecovers l r).1

theorem zipWith_sub_sideOf {ls rs : List Int} (h : ls.length = rs.length) :
    List.zipWith (· - ·) ls (List.zipWith sideOf ls rs) = rs :=
  List.ext_getElem (by simp [h]) fun i _ _ => by simp [sideOf]

theorem zipWith_add_sideOf {ls rs : List Int} (h : ls.length = rs.length) :
    List.zipWith (· + ·) (List.zipWith sideOf ls rs) rs = ls :=
  List.ext_getElem (by simp [h]) fun i _ _ => by simp [sideOf]

theorem zipWith_leftOf {ls rs : List Int} (h : ls.length = rs.length) :
    List.zipWith leftOf (List.zipWith midOf ls rs) (List.zipWith sideOf ls rs) = ls :=
  List.ext_getElem (by simp [h]) fun i _ _ => by simp [leftOf_transformed]

/-- R330's recovery is exact. -/
theorem recoverChannels_stereoPlanes (mode : StereoMode) {ls rs : List Int} (h : ls.length = rs.length) :
    recoverChannels mode (stereoPlanes mode [ls, rs]) = [ls, rs] := by
  cases mode with
  | leftRight => rfl
  | leftSide => simp [stereoPlanes, recoverChannels, zipWith_sub_sideOf h]
  | sideRight => simp [stereoPlanes, recoverChannels, zipWith_add_sideOf h]
  | midSide => simp [stereoPlanes, recoverChannels, zipWith_leftOf h, zipWith_sub_sideOf h]

theorem SamplesFit.zipWith {ss tt : Nat} {f : Int → Int → Int} {ls rs : List Int} (left : SamplesFit ss ls)
    (right : SamplesFit ss rs)
    (h : ∀ l r : Int, -(2 ^ (ss - 1)) ≤ l ∧ l < 2 ^ (ss - 1) → -(2 ^ (ss - 1)) ≤ r ∧ r < 2 ^ (ss - 1) →
      -(2 ^ (tt - 1)) ≤ f l r ∧ f l r < 2 ^ (tt - 1)) : SamplesFit tt (List.zipWith f ls rs) := by
  intro x member
  obtain ⟨i, hi, rfl⟩ := List.mem_iff_getElem.mp member
  rw [List.getElem_zipWith]
  exact h _ _ (left _ (List.getElem_mem _)) (right _ (List.getElem_mem _))

/-- Side samples need one bit more. -/
theorem SamplesFit.side {ss : Nat} {ls rs : List Int} (hs : 1 ≤ ss) (left : SamplesFit ss ls) (right : SamplesFit ss rs) :
    SamplesFit (ss + 1) (List.zipWith sideOf ls rs) := by
  refine left.zipWith right fun l r hl hr => ?_
  have double : (2 : Int) ^ (ss + 1 - 1) = 2 * 2 ^ (ss - 1) := by
    rw [← pow_succ', Nat.sub_add_cancel hs, Nat.add_sub_cancel]
  rw [double, sideOf]
  omega

theorem SamplesFit.mid {ss : Nat} {ls rs : List Int} (left : SamplesFit ss ls) (right : SamplesFit ss rs) :
    SamplesFit ss (List.zipWith midOf ls rs) := by
  refine left.zipWith right fun l r hl hr => ?_
  rw [midOf_eq]
  omega

/-! ### The planes ST_TRANSFORM leaves -/

theorem readEntry_channel_transformed (mode : StereoMode) {n i : Nat} (c : Fin 8) (m : Memory) (hn : n ≤ 65535)
    (hi : i < n) : readEntry (.ch c) i (transformed mode n m) = readEntry (.ch c) i m := by
  have short (f : Int → Int → Int) :
      (List.zipWith f (entries (.ch 0) 0 n m) (entries (.ch 1) 0 n m)).length < 65536 := by
    rw [List.length_zipWith, entries_length, entries_length]
    omega
  have side : readEntry (.ch c) i (transformed .leftSide n m) = readEntry (.ch c) i m :=
    readEntry_writeEntries_of_ne m (by simp) (short sideOf) (by omega)
  cases mode with
  | leftRight => rfl
  | leftSide => exact side
  | sideRight => exact side
  | midSide => exact (readEntry_writeEntries_of_ne _ (by simp) (short midOf) (by omega)).trans side

/-- A plane whose entries are computed from two channels. -/
theorem computed_plane {pl : Plane} {f : Int → Int → Int} {n : Nat} {m m' : Memory}
    (h : ∀ i < n, readEntry pl i m' = some (f (sampleAt (.ch 0) m i) (sampleAt (.ch 1) m i))) :
    Written pl 0 n m' ∧ entries pl 0 n m' = List.zipWith f (entries (.ch 0) 0 n m) (entries (.ch 1) 0 n m) := by
  refine ⟨fun j _ hj => by rw [h j (by omega)]; rfl, ?_⟩
  refine List.ext_getElem (by simp) fun i hi _ => ?_
  rw [entries_length] at hi
  simp [entries, h i hi, sampleAt]

/-- What a subframe of a frame needs of its plane, and the samples it is to hold. -/
structure Carries (n : Nat) (m : Memory) (f : Plane × Nat) (xs : List Int) : Prop where
  apart : f.1 ≠ .resp
  size : 1 ≤ f.2
  written : Written f.1 0 n m
  samples : entries f.1 0 n m = xs
  fit : SamplesFit f.2 xs

/-- The subframes of a mode carry what R330's recovery is given. -/
theorem frameSubframes_carry {mode : StereoMode} {n c bd : Nat} {m : Memory} (hn : n ≤ 65535) (hbd : 1 ≤ bd) (hc : c ≤ 8)
    (stereo : mode ≠ .leftRight → c = 2) (written : ∀ i : Fin 8, i.val < c → Written (.ch i) 0 n m)
    (fit : ∀ i : Fin 8, i.val < c → SamplesFit bd (entries (.ch i) 0 n m)) :
    List.Forall₂ (Carries n (transformed mode n m)) (frameSubframes mode c bd)
      (stereoPlanes mode ((List.range c).map fun i => entries (channelPlane i) 0 n m)) := by
  have channel (i : Fin 8) (hi : i.val < c) :
      Carries n (transformed mode n m) (.ch i, bd) (entries (.ch i) 0 n m) :=
    ⟨by simp, hbd, fun j low high => by
      rw [readEntry_channel_transformed mode i m hn (by omega)]
      exact written i hi j low high,
      entries_congr fun j _ hj => readEntry_channel_transformed mode i m hn (by omega), fit i hi⟩
  have side (nonzero : mode ≠ .leftRight) : Carries n (transformed mode n m) (.side, bd + 1)
      (List.zipWith sideOf (entries (.ch 0) 0 n m) (entries (.ch 1) 0 n m)) := by
    have two := stereo nonzero
    obtain ⟨holds, samples⟩ := computed_plane (f := sideOf) fun i hi => readEntry_side_transformed m nonzero hn hi
    exact ⟨by simp, by simp, holds, samples,
      (fit 0 (by simp; omega)).side hbd (fit 1 (by simp; omega))⟩
  cases mode with
  | leftRight =>
    show List.Forall₂ _ ((List.range c).map _) ((List.range c).map _)
    rw [List.forall₂_map_left_iff, List.forall₂_map_right_iff, List.forall₂_same]
    intro i member
    have hi := List.mem_range.mp member
    exact channel (Fin.ofNat 8 i) (by simp; omega)
  | leftSide =>
    obtain rfl := stereo (by decide)
    exact .cons (channel 0 (by simp)) (.cons (side (by decide)) .nil)
  | sideRight =>
    obtain rfl := stereo (by decide)
    exact .cons (side (by decide)) (.cons (channel 1 (by simp)) .nil)
  | midSide =>
    obtain rfl := stereo (by decide)
    obtain ⟨holds, samples⟩ := computed_plane (f := midOf) (m' := transformed .midSide n m) fun i hi =>
      (readEntry_mid_transformed m hi).trans (by rw [midOf_eq])
    exact .cons ⟨by simp, hbd, holds, samples, (fit 0 (by simp)).mid (fit 1 (by simp))⟩ (.cons (side (by decide)) .nil)

end Sys2Proof.Machine
end

section
/-! A frame written and read back (spec/47_frame.md R340-R342). -/

namespace Sys2Proof.Machine

/-! ### The stereo choice -/

theorem runStChoose_ok {s c : State} (h : runStChoose s = .ok c) :
    ∃ sums, c = stereoResults sums (sampleCount s) s := by
  unfold runStChoose withEntries at h
  split at h
  · cases h
  · split at h
    · split at h
      · exact ⟨_, (Run.ok.inj h).symm⟩
      · cases h
    · cases h

theorem modeOfResult_code {m : Nat} (h : m ≤ 3) :
    (modeOfResult (BitVec.ofNat 32 m)).code.setWidth 32 = BitVec.ofNat 32 m := by
  interval_cases m <;> rfl

theorem ResOnly.stereo {s c : State} (h : ResOnly s c) :
    channelCount c = channelCount s ∧ stereoOperand c = stereoOperand s := by
  rw [h]
  exact ⟨rfl, rfl⟩

/-- From `s` to `c` the frame's stereo choice has been made, and `mode` is its answer (spec/47_frame.md R341). -/
structure FrameChoice (s c : State) (mode : StereoMode) : Prop where
  only : ResOnly s c
  chosen : channelCount s = 2 ∧ stereoOperand s = true →
    runStChoose s = .ok c ∧ c.res[2] = mode.code.setWidth 32
  plain : ¬ (channelCount s = 2 ∧ stereoOperand s = true) → c = s ∧ mode = .leftRight

theorem frameStereo_choice {s c : State} (h : frameStereo s = .ok c) : FrameChoice s c (frameMode c) := by
  by_cases stereo : channelCount s = 2 ∧ stereoOperand s = true
  · rw [frameStereo, if_pos stereo] at h
    obtain ⟨sums, chosen⟩ := runStChoose_ok h
    have only : ResOnly s c := chosen ▸ stereoResults_resOnly ..
    obtain ⟨m, hm, answer⟩ : ∃ m ≤ 3, c.res[2] = BitVec.ofNat 32 m :=
      ⟨_, (firstLeast_spec _ 3).1, chosen ▸ (stereoResults_res sums (sampleCount s) s).2.1⟩
    have mode : frameMode c = modeOfResult c.res[2] := by
      rw [frameMode, only.stereo.1, only.stereo.2, if_pos stereo, show getRes 2 c = c.res[2] from getRes_eq c 2]
    refine ⟨only, fun _ => ⟨h, ?_⟩, fun plain => absurd stereo plain⟩
    rw [mode, answer, modeOfResult_code hm]
  · rw [frameStereo, if_neg stereo] at h
    obtain rfl := Run.ok.inj h
    exact ⟨.refl s, fun chosen => absurd chosen stereo, fun _ => ⟨rfl, frameMode_leftRight stereo⟩⟩

theorem channelCount_eq_two {s : State} : channelCount s = 2 ↔ s.channels = 2 :=
  ⟨fun h => BitVec.eq_of_toNat_eq h, fun h => congrArg BitVec.toNat h⟩

/-- A choice in the terms of what has been performed. -/
theorem FrameChoice.performed {s c : State} {mode : StereoMode} (h : FrameChoice s c mode) :
    (s.channels = 2 ∧ stereoOperand s = true → Performs [.stChoose] s c ∧ c.res[2] = mode.code.setWidth 32) ∧
      (¬ (s.channels = 2 ∧ stereoOperand s = true) → c = s ∧ mode = .leftRight) := by
  rw [← channelCount_eq_two]
  exact ⟨fun stereo => (h.chosen stereo).imp_left fun run => performs_one (i := .stChoose) run, h.plain⟩

theorem FrameChoice.two_channels {s c : State} {mode : StereoMode} (h : FrameChoice s c mode) (nonzero : mode ≠ .leftRight) :
    channelCount s = 2 := by
  by_contra other
  exact nonzero (h.plain fun stereo => other stereo.1).2

/-! ### What the contract gives -/

theorem FrameReady.sampleCount {s : State} {n : Nat} (h : FrameReady s n) : Machine.sampleCount s = n :=
  (sampleCount_eq s).trans h.count

theorem FrameReady.legal {s : State} {n : Nat} (h : FrameReady s n) : legalSamples (Machine.sampleCount s) = true :=
  legalSamples_iff.mpr (h.sampleCount ▸ h.samples)

theorem FrameReady.format {s : State} {n : Nat} (h : FrameReady s n) : formatSupported s = true :=
  formatSupported_iff.mpr ⟨h.channels, h.bits⟩

theorem FrameReady.operandNum {s : State} {n : Nat} (h : FrameReady s n) : Machine.operandNum s < Config.numberBound := by
  rw [operandNum_eq]
  exact h.number

theorem FrameReady.resOnly {s c : State} {n : Nat} (h : FrameReady s n) (only : ResOnly s c) : FrameReady c n := by
  rw [only]
  exact ⟨h.count, h.channels, h.bits, h.aligned, h.samples, h.number, h.written, h.fit⟩

/-- The two channels of a stereo mode hold values. -/
theorem FrameReady.left_right {s : State} {n : Nat} (h : FrameReady s n) (two : channelCount s = 2) :
    Written (.ch 0) 0 n s.mem ∧ Written (.ch 1) 0 n s.mem := by
  have count : s.channels.toNat = 2 := two
  exact ⟨h.written 0 (by simp; omega), h.written 1 (by simp; omega)⟩

theorem frameStereo_ready {s : State} {n : Nat} (h : FrameReady s n) : ∃ c, frameStereo s = .ok c := by
  by_cases stereo : channelCount s = 2 ∧ stereoOperand s = true
  · obtain ⟨left, right⟩ := h.left_right stereo.1
    rw [← h.sampleCount] at left right
    exact ⟨_, (if_pos stereo).trans (runStChoose_legal h.legal left right)⟩
  · exact ⟨s, if_neg stereo⟩

theorem frameTransform_ready {mode : StereoMode} {s : State} {n : Nat} (h : FrameReady s n)
    (two : mode ≠ .leftRight → channelCount s = 2) :
    frameTransform mode s = .ok { s with mem := transformed mode n s.mem } := by
  by_cases zero : mode = .leftRight
  · subst zero
    rfl
  · obtain ⟨left, right⟩ := h.left_right (two zero)
    rw [← h.sampleCount] at left right ⊢
    exact (if_neg zero).trans (runStTransform_legal mode h.legal left right)

theorem frameAssignment_agrees {mode : StereoMode} {c : Nat} (channels : 1 ≤ c) (high : c ≤ 8)
    (two : mode ≠ .leftRight → c = 2) : assignmentAgrees (frameAssignment mode c) c = true := by
  rw [assignmentAgrees_iff]
  by_cases zero : mode = .leftRight
  · rw [frameAssignment, if_pos zero]
    omega
  · rw [frameAssignment, if_neg zero]
    have code : 1 ≤ mode.code.toNat := by cases mode <;> simp_all [StereoMode.code]
    exact .inl ⟨by omega, two zero⟩

/-! ### The bytes of a frame -/

/-- The header's bytes: its fields, then the CRC-8 of exactly those bytes (spec/42_frame_header.md R209). -/
theorem frameHeader_written {var : Bool} {ca : Nat} {s : State} (format : formatSupported s = true) (aligned : s.nb = 0)
    (count : legalSamples (sampleCount s) = true) (number : operandNum s < Config.numberBound)
    (agrees : assignmentAgrees ca (channelCount s) = true) (accepts : SinkAccepts s) :
    ∃ (t : State) (header : List Byte), runBwWriteFrameHeader var ca s = .ok t ∧ t.out = s.out ++ header ∧
      bytesBits header =
        fieldsBits (headerFields var ca (sampleCount s) (operandNum s) (bitDepth s) (sampleRate s)) ++
          fieldBits 8 (header.dropLast.foldl crc8Update 0).toNat ∧
      t.nb = 0 ∧ t.crc16 = header.foldl crc16Update 0 ∧ t.bytesWritten = BitVec.ofNat 32 header.length ∧
      t.mem = s.mem ∧ SinkAccepts t := by
  obtain ⟨u, fields, whole, crc, run⟩ :=
    runBwWriteFrameHeader_accepts (var := var) format aligned count number agrees accepts
  obtain ⟨bs, out, crc8, crc16, bytesWritten, -⟩ := fields.bytes
  have outBits : bytesBits bs =
      fieldsBits (headerFields var ca (sampleCount s) (operandNum s) (bitDepth s) (sampleRate s)) := by
    have start : stream s.cleared = bytesBits s.out := stream_aligned aligned
    have grown := fields.stream
    rw [stream_aligned whole, start, out] at grown
    exact bytesBits_of_append grown
  refine ⟨acceptByte u.crc8 u, bs ++ [u.crc8], run, ?_, ?_, whole, ?_, ?_, ?_,
    crc.sinkAccepts (fields.sinkAccepts accepts)⟩
  · rw [acceptByte_out, out, List.append_assoc]
    rfl
  · rw [bytesBits_append, outBits, bytesBits_singleton, List.dropLast_concat, crc8]
    rfl
  · rw [acceptByte_crc16, crc16, List.foldl_append]
    rfl
  · rw [acceptByte_bytesWritten, bytesWritten, List.length_append, BitVec.ofNat_add]
    exact congrArg (· + 1) (BitVec.zero_add _)
  · exact fields.mem

/-- What follows the header: the subframes, the padding, the CRC-16 (spec/47_frame.md R341). -/
theorem frameFooter_written {body : List Bool} {h b : State} (wrote : Wrote body h b) (aligned : h.nb = 0)
    (accepts : SinkAccepts b) :
    ∃ (u : State) (bytes : List Byte) (pad : Nat), ((emitFlush b).andThen runBwWriteCrc16) = .ok u ∧
      u.out = h.out ++ bytes ∧
      bytesBits bytes = body ++ List.replicate pad false ++
        fieldBits 16 ((bytes.take (bytes.length - 2)).foldl crc16Update h.crc16).toNat ∧
      pad < 8 ∧ u.nb = 0 ∧ u.crc16 = 0 ∧ u.bytesWritten = h.bytesWritten + BitVec.ofNat 32 bytes.length := by
  obtain ⟨f, flush, padded⟩ := (emitFlush_emits b).completes accepts
  have whole := flush_aligned padded
  obtain ⟨f', u, again, -, -, run, emitted, clear, footer⟩ := runBwWriteCrc16_accepts (padded.sinkAccepts accepts)
  obtain rfl : f' = f := by
    rw [emitFlush, if_pos whole] at again
    exact (Run.ok.inj again).symm
  have both := wrote.trans padded.wrote
  obtain ⟨bs, out, -, crc16, bytesWritten⟩ := both.bytes
  have bits : bytesBits bs = body ++ List.replicate ((8 - b.nb.toNat) % 8) false := by
    have grown := both.stream
    rw [stream_aligned whole, stream_aligned aligned, out] at grown
    exact bytesBits_of_append grown
  refine ⟨u, bs ++ [f'.crc16.extractLsb' 8 8, f'.crc16.extractLsb' 0 8], (8 - b.nb.toNat) % 8, ?_, ?_, ?_, by omega, ?_, clear, ?_⟩
  · rw [flush]
    exact run
  · rw [footer, acceptByte_out, acceptByte_out, out]
    simp
  · have most : (bs ++ [f'.crc16.extractLsb' 8 8, f'.crc16.extractLsb' 0 8]).take (bs.length + 2 - 2) = bs := by simp
    rw [List.length_append, show [f'.crc16.extractLsb' 8 8, f'.crc16.extractLsb' 0 8].length = 2 from rfl, most, ← crc16,
      bytesBits_append, bits, fieldBits_half]
    simp [bytesBits]
  · rw [footer]
    exact whole
  · rw [footer, acceptByte_bytesWritten, acceptByte_bytesWritten, bytesWritten, List.length_append, BitVec.ofNat_add,
      BitVec.add_assoc, BitVec.add_assoc]
    rfl

theorem carries_all {n : Nat} {m : Memory} {fs : List (Plane × Nat)} {planes : List (List Int)}
    (h : List.Forall₂ (Carries n m) fs planes) :
    (∀ f ∈ fs, f.1 ≠ .resp ∧ 1 ≤ f.2 ∧ Written f.1 0 n m ∧ SamplesFit f.2 (entries f.1 0 n m)) ∧
      fs.map (fun f => entries f.1 0 n m) = planes := by
  induction h with
  | nil => exact ⟨fun f member => (List.not_mem_nil member).elim, rfl⟩
  | @cons f xs fs planes carries rest ih =>
    refine ⟨fun g member => ?_, by rw [List.map_cons, carries.samples, ih.2]⟩
    rcases List.mem_cons.mp member with rfl | member
    · exact ⟨carries.apart, carries.size, carries.written, carries.samples ▸ carries.fit⟩
    · exact ih.1 g member

/-- The samples a frame of `s` carries, in subframe order. -/
def carriedPlanes (mode : StereoMode) (n : Nat) (s : State) : List (List Int) :=
  stereoPlanes mode ((List.range s.channels.toNat).map fun i => entries (channelPlane i) 0 n s.mem)

/-- What a frame's commands have written from `s` to `u`, and how it is read. -/
structure FrameWritten (var : Bool) (mode : StereoMode) (n : Nat) (s u : State) (header bytes : List Byte)
    (body : List Bool) (pad : Nat) : Prop where
  out : u.out = s.out ++ header ++ bytes
  headerBits : bytesBits header = fieldsBits (headerFields var (frameAssignment mode s.channels.toNat) n
    (s.args[2] ++ s.args[1]).toNat s.bits.toNat s.rate.toNat) ++ fieldBits 8 (header.dropLast.foldl crc8Update 0).toNat
  bodyBits : bytesBits bytes = body ++ List.replicate pad false ++
    fieldBits 16 ((header ++ bytes.take (bytes.length - 2)).foldl crc16Update 0).toNat
  pad : pad < 8
  read : readSubframes n (frameSubframes mode s.channels.toNat s.bits.toNat) body = some (carriedPlanes mode n s, [])
  aligned : u.nb = 0
  crc16 : u.crc16 = 0
  counted : u.bytesWritten = BitVec.ofNat 32 (header ++ bytes).length

theorem frameBody_writes (var : Bool) {mode : StereoMode} {s : State} {n : Nat} (ready : FrameReady s n)
    (accepts : SinkAccepts s) (two : mode ≠ .leftRight → channelCount s = 2) :
    ∃ u header bytes body pad, frameBody var mode s = .ok (frameResults mode u) ∧
      FrameWritten var mode n s u header bytes body pad := by
  obtain ⟨h, header, headerRun, headerOut, headerBits, aligned, crc16, counted, mem, headerAccepts⟩ :=
    frameHeader_written (var := var) (ca := frameAssignment mode (channelCount s))
      (s := { s with mem := transformed mode n s.mem }) ready.format ready.aligned ready.legal ready.operandNum
      (frameAssignment_agrees ready.channels.1 ready.channels.2 two) accepts
  have progress : Progress [] { s with mem := transformed mode n s.mem } h := by
    have keeps := runBwWriteFrameHeader_keeps (f := []) var (frameAssignment mode (channelCount s))
      { s with mem := transformed mode n s.mem }
    rwa [headerRun] at keeps
  have depth : 1 ≤ s.bits.toNat := by have := ready.bits; omega
  obtain ⟨carried, planes⟩ := carries_all (frameSubframes_carry (mode := mode) (m := s.mem) ready.samples.2 depth ready.channels.2 two
    ready.written ready.fit)
  rw [← show h.mem = transformed mode n s.mem from mem] at carried planes
  obtain ⟨b, body, subframesRun, wrote, read⟩ := encodeSubframes_wrote readsRice ready.samples
    (frameSubframes mode s.channels.toNat s.bits.toNat) h (progress.sampleCount.trans ready.sampleCount) headerAccepts carried
  obtain ⟨u, bytes, pad, footerRun, out, bits, short, whole, clear, total⟩ :=
    frameFooter_written wrote aligned (wrote.accepts headerAccepts)
  refine ⟨u, header, bytes, body, pad, ?_, ⟨?_, ?_, ?_, short, ?_, whole, clear, ?_⟩⟩
  · have commands : ((frameTransform mode s).andThen
        fun t => runBwWriteFrameHeader var (frameAssignment mode (channelCount t)) t) = .ok h := by
      rw [frameTransform_ready ready two]
      exact headerRun
    have subframes : encodeSubframes (frameSubframes mode (channelCount h) (bitDepth h)) h = .ok b := by
      rw [progress.channelCount, progress.bitDepth]
      exact subframesRun
    rw [frameBody, commands]
    show (((encodeSubframes (frameSubframes mode (channelCount h) (bitDepth h)) h).andThen emitFlush).andThen
      runBwWriteCrc16).andThen _ = _
    rw [subframes]
    show ((emitFlush b).andThen runBwWriteCrc16).andThen _ = _
    rw [footerRun]
    rfl
  · rw [out, headerOut]
  · rw [headerBits]
    have count : sampleCount { s with mem := transformed mode n s.mem } = n := ready.sampleCount
    have number : operandNum { s with mem := transformed mode n s.mem } = (s.args[2] ++ s.args[1]).toNat := operandNum_eq s
    rw [count, number]
    rfl
  · rw [bits, crc16, List.foldl_append]
  · have all := read []
    rw [List.append_nil, planes] at all
    exact all
  · rw [total, counted, List.length_append, BitVec.ofNat_add]

end Sys2Proof.Machine
end

section
/-! FRAME_ENCODE on a frame the contract covers, and the errors of the checks (spec/47_frame.md R340-R342,
spec/60_exceptions.md R365, R369). -/

namespace Sys2Proof.Machine

/-! ### A frame the contract covers -/

theorem frameResults_resOnly (mode : StereoMode) (s : State) : ResOnly s (frameResults mode s) :=
  ((setRes_resOnly ..).trans (setRes_resOnly ..)).trans (setRes_resOnly ..) |>.trans (setRes_resOnly ..)

/-- The result registers of R341. -/
theorem frameResults_res (mode : StereoMode) (s : State) :
    let r := (frameResults mode s).res
    r[0] = s.bytesWritten ∧ r[1] = 0 ∧ r[2] = mode.code.setWidth 32 ∧
      r[3] = BitVec.ofNat 32 (frameAssignment mode (channelCount s)) ∧ ∀ j : Fin 16, 4 ≤ j.val → r[j] = s.res[j] := by
  refine ⟨by simp [frameResults], by simp [frameResults], by simp [frameResults], by simp [frameResults], fun j hj => ?_⟩
  have apart : ¬ 0 = j.val ∧ ¬ 1 = j.val ∧ ¬ 2 = j.val ∧ ¬ 3 = j.val := by omega
  simp [frameResults, apart]

/-- The results are no part of what was written. -/
theorem FrameWritten.results {var : Bool} {mode : StereoMode} {n : Nat} {s u r : State} {header bytes : List Byte}
    {body : List Bool} {pad : Nat} (h : FrameWritten var mode n s u header bytes body pad) (only : ResOnly u r) :
    FrameWritten var mode n s r header bytes body pad := by
  rw [only]
  exact ⟨h.out, h.headerBits, h.bodyBits, h.pad, h.read, h.aligned, h.crc16, h.counted⟩

/-- The assignment's word (spec/42_frame_header.md R204). -/
theorem frameAssignment_word (mode : StereoMode) {c : BitVec 4} (h : 1 ≤ c.toNat) :
    BitVec.ofNat 32 (frameAssignment mode c.toNat) =
      if mode = .leftRight then c.setWidth 32 - 1 else 7 + mode.code.setWidth 32 := by
  unfold frameAssignment
  split
  · bv_omega
  · cases mode <;> rfl

/-- How FRAME_ENCODE ends on a frame the contract covers: in `r`, with its results and what it wrote. -/
structure FrameEncoded (var : Bool) (n : Nat) (s c : State) (mode : StereoMode) (r : State) (header bytes : List Byte)
    (body : List Bool) (pad : Nat) : Prop where
  choice : FrameChoice s c mode
  run : runFrameEncode var s = .ok r
  performed : ∃ v, Performs (frameCommands var mode s.channels.toNat s.bits.toNat ++ [.bwFlush, .bwWriteCrc16]) c v ∧
    ResOnly v r ∧ ∀ j : Fin 16, 4 ≤ j.val → r.res[j] = v.res[j]
  written : FrameWritten var mode n c r header bytes body pad
  results : r.res[0] = BitVec.ofNat 32 (header ++ bytes).length ∧ r.res[1] = 0 ∧ r.res[2] = mode.code.setWidth 32 ∧
    r.res[3] = if mode = .leftRight then s.channels.setWidth 32 - 1 else 7 + mode.code.setWidth 32

/-- A frame the contract covers is encoded: its choice, then its body. -/
theorem runFrameEncode_ready (var : Bool) {s : State} {n : Nat} (ready : FrameReady s n) (accepts : SinkAccepts s) :
    ∃ c mode r header bytes body pad, FrameEncoded var n s c mode r header bytes body pad := by
  obtain ⟨c, stereo⟩ := frameStereo_ready ready
  have choice := frameStereo_choice stereo
  have only := choice.only
  have readyC := ready.resOnly only
  have acceptsC : SinkAccepts c := by
    rw [only]
    exact accepts
  have two (nonzero : frameMode c ≠ .leftRight) : channelCount c = 2 := only.stereo.1.trans (choice.two_channels nonzero)
  obtain ⟨u, header, bytes, body, pad, bodyRun, written⟩ := frameBody_writes var readyC acceptsC two
  have run : runFrameEncode var s = .ok (frameResults (frameMode c) u) := by
    rw [runFrameEncode, if_neg (not_not_intro ready.format), if_neg (not_not_intro ready.aligned),
      if_neg (not_not_intro ready.legal), if_neg (not_not_intro ready.operandNum), stereo]
    exact bodyRun
  have channels : c.channels = s.channels := by rw [only]
  have bits : c.bits = s.bits := by rw [only]
  have depth : bitDepth c ≤ 32 := by
    have := readyC.bits
    simp only [bitDepth]
    omega
  obtain ⟨v, performs, results⟩ := frameBody_performs readyC.channels depth bodyRun
  have count : channelCount u = s.channels.toNat := by
    have keeps := runFrameEncode_keeps var s
    rw [run] at keeps
    exact (frameResults_resOnly (frameMode c) u).stereo.1.symm.trans (Progress.channelCount keeps)
  obtain ⟨res0, res1, res2, res3, -⟩ := frameResults_res (frameMode c) u
  rw [count, frameAssignment_word _ ready.channels.1] at res3
  refine ⟨c, _, _, header, bytes, body, pad, choice, run, ⟨v, ?_, ?_⟩, written.results (frameResults_resOnly ..),
    res0.trans written.counted, res1, res2, res3⟩
  · rw [← channels, ← bits]
    exact performs
  · rw [results]
    exact ⟨frameResults_resOnly .., (frameResults_res (frameMode c) v).2.2.2.2⟩

/-- Settles O59. -/
theorem frameEncodeCompletes : Obligations.FrameEncodeCompletes := by
  intro s var n ready accepts
  obtain ⟨c, mode, r, header, bytes, body, pad, choice, run, ⟨v, performs, only, higher⟩, written, res0, res1, res2, res3⟩ :=
    runFrameEncode_ready var ready accepts
  have keeps := runFrameEncode_keeps var s
  rw [run] at keeps
  have status : r.err = s.err := by
    rw [Progress.rest keeps]
  have out := written.out
  rw [choice.only, List.append_assoc] at out
  exact ⟨r.completed, c, v, mode, header ++ bytes, exec_completed (i := .frameEncode var) run, rfl, status, rfl,
    choice.performed.1, choice.performed.2, performs, congrArg State.completed only, higher, out, written.aligned,
    written.crc16, written.counted, res0, res1, res2, res3⟩

/-- Settles O60. -/
theorem framesAreLossless : Obligations.FramesAreLossless := by
  intro s var n ready accepts
  obtain ⟨c, mode, r, header, bytes, body, pad, choice, run, -, written, -, -, res2, -⟩ :=
    runFrameEncode_ready var ready accepts
  have recovers : recoverChannels mode (carriedPlanes mode n s) =
      (List.range s.channels.toNat).map fun i => entries (channelPlane i) 0 n s.mem := by
    by_cases zero : mode = .leftRight
    · rw [zero]
      rfl
    · have two : s.channels.toNat = 2 := choice.two_channels zero
      rw [carriedPlanes, two]
      exact recoverChannels_stereoPlanes mode (by simp)
  have out := written.out
  have headerBits := written.headerBits
  have read := written.read
  rw [choice.only] at out headerBits read
  exact ⟨r.completed, mode, header, bytes, body, pad, _, exec_completed (i := .frameEncode var) run, rfl, res2, out,
    headerBits, written.bodyBits, written.pad, rfl, read, recovers⟩

end Sys2Proof.Machine
end

section
/-! What the errors of the checks leave (spec/60_exceptions.md R365, R369 (a), (b); spec/47_frame.md R341). -/

namespace Sys2Proof.Machine

/-! ### Pseudocode whose errors are the sink's, or come first -/

/-- Pseudocode that raises nothing but WRITE_FAILED. -/
def Run.OnlySinkFails (r : Run) : Prop := ∀ c u, r = .error c u → c = .writeFailed

/-- Pseudocode whose other errors leave the state it began in. -/
def Run.ChecksFirst (s : State) (r : Run) : Prop := ∀ c u, r = .error c u → c ≠ .writeFailed → u = s

theorem onlySink_ok (s : State) : (Run.ok s).OnlySinkFails := fun _ _ h => nomatch h

theorem onlySink_fault (f : Fault) : (Run.fault f).OnlySinkFails := fun _ _ h => nomatch h

theorem Run.Emits.onlySink {bits : List Bool} {s : State} {r : Run} (h : r.Emits bits s) : r.OnlySinkFails := by
  rintro c u rfl
  exact h.1

theorem Run.andThen_error {r : Run} {f : State → Run} {c : ErrorCode} {v : State} (h : r.andThen f = .error c v) :
    r = .error c v ∨ ∃ u, r = .ok u ∧ f u = .error c v := by
  cases r with
  | ok u => exact .inr ⟨u, rfl, h⟩
  | error c' v' => exact .inl h
  | fault g => cases h

theorem Run.OnlySinkFails.andThen {r : Run} {f : State → Run} (h : r.OnlySinkFails) (h' : ∀ t, (f t).OnlySinkFails) :
    (r.andThen f).OnlySinkFails := fun c u error => by
  rcases Run.andThen_error error with error | ⟨t, -, error⟩
  · exact h c u error
  · exact h' t c u error

/-- An error that is not WRITE_FAILED came before what only the sink can fail. -/
theorem Run.OnlySinkFails.before {r : Run} {f : State → Run} {c : ErrorCode} {v : State} (h : ∀ t, (f t).OnlySinkFails)
    (error : r.andThen f = .error c v) (other : c ≠ .writeFailed) : r = .error c v :=
  (Run.andThen_error error).resolve_right fun ⟨t, _, later⟩ => other (h t c v later)

theorem Run.OnlySinkFails.checksFirst {s : State} {r : Run} (h : r.OnlySinkFails) : r.ChecksFirst s :=
  fun c u error other => absurd (h c u error) other

theorem checksFirst_ok (s t : State) : (Run.ok t).ChecksFirst s := (onlySink_ok t).checksFirst

theorem checksFirst_error (c : ErrorCode) (s : State) : (Run.error c s).ChecksFirst s :=
  fun _ _ h _ => (Run.error.inj h).2.symm

theorem Run.ChecksFirst.check {P : Prop} [Decidable P] {c : ErrorCode} {s : State} {r : Run} (h : r.ChecksFirst s) :
    (if P then .error c s else r).ChecksFirst s := by
  split
  · exact checksFirst_error c s
  · exact h

theorem withEntries_checksFirst {e : Except Fault (List Int)} {s : State} {g : List Int → Run}
    (h : ∀ vs, (g vs).ChecksFirst s) : (withEntries e g).ChecksFirst s := by
  cases e with
  | ok vs => exact h vs
  | error f => exact (onlySink_fault f).checksFirst

/-! ### The emitters, whatever the planes hold -/

theorem emitByte_onlySink (b : Byte) (s : State) : (emitByte b s).OnlySinkFails := by
  unfold emitByte
  split
  · exact fun c u h => (Run.error.inj h).1.symm
  · exact onlySink_ok _

theorem emitEntries_onlySink {emit : Int → State → Run} (h : ∀ v s, (emit v s).OnlySinkFails) (pl : Plane) (i n : Nat)
    (s : State) : (emitEntries emit pl i n s).OnlySinkFails := by
  induction n generalizing i s with
  | zero => exact onlySink_ok s
  | succ n ih =>
    unfold emitEntries
    split
    · exact onlySink_fault _
    · exact (h _ s).andThen fun t => ih (i + 1) t

theorem emitVerbatim_onlySink (pl : Plane) (ss n : Nat) (s : State) : (emitVerbatim pl ss n s).OnlySinkFails :=
  (emitBits_emits _ _ s).onlySink.andThen fun t =>
    emitEntries_onlySink (fun v u => (emitSample_emits ss v u).onlySink) pl 0 n t

theorem emitPartitions_onlySink (p n j count : Nat) (s : State) : (emitPartitions p n j count s).OnlySinkFails := by
  induction count generalizing j s with
  | zero => exact onlySink_ok s
  | succ count ih =>
    have partition : (emitPartition p n j s).OnlySinkFails := (emitBits_emits _ _ s).onlySink.andThen fun t =>
      emitEntries_onlySink (fun v u => (emitRice_emits _ v u).onlySink) _ _ _ t
    exact partition.andThen fun t => ih (j + 1) t

theorem emitResidualSection_onlySink (p n : Nat) (s : State) : (emitResidualSection p n s).OnlySinkFails :=
  ((emitBits_emits _ _ s).onlySink.andThen fun t => (emitBits_emits _ _ t).onlySink).andThen fun t =>
    emitPartitions_onlySink p n 0 _ t

theorem emitFixed_onlySink (ss p n : Nat) (s : State) : (emitFixed ss p n s).OnlySinkFails :=
  ((emitBits_emits _ _ s).onlySink.andThen fun t =>
    emitEntries_onlySink (fun v u => (emitSample_emits ss v u).onlySink) _ _ _ t).andThen fun t =>
    emitResidualSection_onlySink p n t

theorem runBwWriteCrc16_onlySink (s : State) : (runBwWriteCrc16 s).OnlySinkFails :=
  (emitFlush_emits s).onlySink.andThen fun t => (emitByte_onlySink _ t).andThen fun u => emitByte_onlySink _ u

/-- The header once its checks have passed. -/
theorem header_onlySink (fs : List (Nat × Nat)) (s : State) :
    (((emitFields fs s).andThen emitFlush).andThen fun t => emitByte t.crc8 t).OnlySinkFails :=
  ((emitFields_emits fs s).onlySink.andThen fun t => (emitFlush_emits t).onlySink).andThen fun t => emitByte_onlySink _ t

theorem sectionCheck_checksFirst {p n : Nat} {s : State} {r : Run} (h : r.OnlySinkFails) :
    (match residualSectionError p n s with
      | some c => .error c s
      | none => r : Run).ChecksFirst s := by
  cases residualSectionError p n s with
  | some c => exact checksFirst_error c s
  | none => exact h.checksFirst

/-! ### Commands that are not composite -/

theorem runStChoose_checksFirst (s : State) : (runStChoose s).ChecksFirst s :=
  .check <| withEntries_checksFirst fun _ => withEntries_checksFirst fun _ => checksFirst_ok s _

theorem runStTransform_checksFirst (mode : StereoMode) (s : State) : (runStTransform mode s).ChecksFirst s :=
  .check <| withEntries_checksFirst fun _ => withEntries_checksFirst fun _ => checksFirst_ok s _

theorem runInstr_checksFirst {i : Instr} (plain : isComposite i = false) (s : State) : (runInstr i s).ChecksFirst s := by
  cases i with
  | nop => exact checksFirst_ok s s
  | bwCrcReset => exact .check (checksFirst_ok s _)
  | bwWriteBits n7 => exact .check (emitBits_emits _ _ s).onlySink.checksFirst
  | bwWriteBitsWrapped n7 => exact (emitBits_emits _ _ s).onlySink.checksFirst
  | bwWriteUnary => exact .check (emitUnary_emits _ s).onlySink.checksFirst
  | bwFlush => exact (emitFlush_emits s).onlySink.checksFirst
  | bwWriteCrc8 => exact .check (emitByte_onlySink _ s).checksFirst
  | bwWriteCrc16 => exact (runBwWriteCrc16_onlySink s).checksFirst
  | bwWriteConstant ss => exact (emitConstant_emits _ _ s).onlySink.checksFirst
  | bwWriteVerbatim pl ss => exact .check (emitVerbatim_onlySink pl _ _ s).checksFirst
  | bwWriteFixed ord ss => exact .check (sectionCheck_checksFirst (emitFixed_onlySink _ _ _ s))
  | bwWriteFrameHeader var ca => exact .check <| .check <| .check <| .check <| .check (header_onlySink _ _).checksFirst
  | fpBestOrder pl cr => exact .check <| withEntries_checksFirst fun _ => checksFirst_ok s _
  | fpResiduals pl ord => exact .check <| withEntries_checksFirst fun _ => .check (checksFirst_ok s _)
  | rcZigzag => exact checksFirst_ok s _
  | rcWriteRice k => exact .check (emitRice_emits _ _ s).onlySink.checksFirst
  | rcOptimise ord umax maxk => exact .check <| .check <| withEntries_checksFirst fun _ => checksFirst_ok s _
  | rcEstimate => exact .check (checksFirst_ok s _)
  | rcWriteResiduals ord => exact .check (sectionCheck_checksFirst (emitResidualSection_onlySink _ _ s))
  | stChoose => exact runStChoose_checksFirst s
  | stTransform mode => exact runStTransform_checksFirst mode s
  | sfChoose pl ss => cases plain
  | sfEncode pl ss => cases plain
  | frameEncode var => cases plain

/-! ### FRAME_ENCODE -/

theorem runStChoose_no_error {s u : State} {c : ErrorCode} (legal : legalSamples (sampleCount s) = true) :
    runStChoose s ≠ .error c u := by
  unfold runStChoose withEntries
  rw [if_neg (not_not_intro legal)]
  split
  · split <;> simp
  · simp

/-- ST_TRANSFORM that goes through has changed planes only. -/
theorem runStTransform_ok {mode : StereoMode} {s a : State} (h : runStTransform mode s = .ok a) :
    ∃ m, a = { s with mem := m } := by
  unfold runStTransform withEntries at h
  split at h
  · cases h
  · split at h
    · split at h
      · exact ⟨_, (Run.ok.inj h).symm⟩
      · cases h
    · cases h

theorem runStTransform_no_error {mode : StereoMode} {s u : State} {c : ErrorCode}
    (legal : legalSamples (sampleCount s) = true) : runStTransform mode s ≠ .error c u := by
  unfold runStTransform withEntries
  rw [if_neg (not_not_intro legal)]
  split
  · split <;> simp
  · simp

/-- The commands of a frame: the transform of a stereo mode, the header, the subframes (spec/47_frame.md R341). -/
theorem frameCommands_eq (var : Bool) (mode : StereoMode) (c bd : Nat) :
    frameCommands var mode c bd = (if mode = .leftRight then [] else [.stTransform mode]) ++
      .bwWriteFrameHeader var (BitVec.ofNat 4 (frameAssignment mode c)) ::
        (frameSubframes mode c bd).map fun f => .sfEncode f.1 (BitVec.ofNat 6 f.2) := by
  cases mode with
  | leftRight => simp [frameCommands, frameAssignment, frameSubframes, channelPlane, Function.comp_def]
  | leftSide => rfl
  | sideRight => rfl
  | midSide => rfl

theorem frameAssignment_lt {mode : StereoMode} {c : Nat} (h : c ≤ 8) : frameAssignment mode c < 16 := by
  unfold frameAssignment
  split
  · omega
  · have := mode.code.isLt
    omega

theorem frameTransform_no_error {mode : StereoMode} {s u : State} {c : ErrorCode}
    (legal : legalSamples (sampleCount s) = true) : frameTransform mode s ≠ .error c u := by
  unfold frameTransform
  split
  · simp
  · exact runStTransform_no_error legal

theorem frameTransform_ok {mode : StereoMode} {s a : State} (h : frameTransform mode s = .ok a) :
    (∃ m, a = { s with mem := m }) ∧ Performs (if mode = .leftRight then [] else [.stTransform mode]) s a := by
  unfold frameTransform at h
  split at h
  · next zero =>
    obtain rfl := Run.ok.inj h
    rw [if_pos zero]
    exact ⟨⟨_, rfl⟩, rfl⟩
  · next nonzero =>
    rw [if_neg nonzero]
    exact ⟨runStTransform_ok h, performs_one (i := .stTransform mode) h⟩

/-- The checks FRAME_ENCODE and its header share have passed (spec/47_frame.md R341). -/
structure FrameChecked (s : State) : Prop where
  format : formatSupported s = true
  aligned : s.nb = 0
  count : legalSamples (sampleCount s) = true
  number : operandNum s < Config.numberBound

theorem FrameChecked.channels {s : State} (h : FrameChecked s) :
    (1 ≤ channelCount s ∧ channelCount s ≤ 8) ∧ bitDepth s ≤ 32 := by
  obtain ⟨channels, depth⟩ := formatSupported_iff.mp h.format
  refine ⟨channels, ?_⟩
  simp only [bitDepth]
  omega

theorem FrameChecked.resOnly {s c : State} (h : FrameChecked s) (only : ResOnly s c) : FrameChecked c := by
  rw [only]
  exact ⟨h.format, h.aligned, h.count, h.number⟩

/-- A header whose checks have passed can fail only at the sink. -/
theorem runBwWriteFrameHeader_onlySink {var : Bool} {ca : Nat} {s : State} (checked : FrameChecked s)
    (agrees : assignmentAgrees ca (channelCount s) = true) : (runBwWriteFrameHeader var ca s).OnlySinkFails := by
  rw [runBwWriteFrameHeader, if_neg (not_not_intro checked.format), if_neg (not_not_intro checked.aligned),
    if_neg (not_not_intro checked.count), if_neg (not_not_intro checked.number), if_neg (not_not_intro agrees)]
  exact header_onlySink _ _

/-- An error of a frame's body other than WRITE_FAILED is an SF_CHOOSE's RESIDUAL_RANGE, with the commands before it
performed (spec/60_exceptions.md R369 (b)). -/
theorem frameBody_error {var : Bool} {mode : StereoMode} {s v : State} {c : ErrorCode} (checked : FrameChecked s)
    (two : mode ≠ .leftRight → channelCount s = 2) (error : frameBody var mode s = .error c v) (other : c ≠ .writeFailed) :
    c = .residualRange ∧ ∃ before pl ss after u,
      frameCommands var mode (channelCount s) (bitDepth s) = before ++ .sfEncode pl ss :: after ∧
      Performs before s u ∧ runSfChoose pl ss.toNat u = .error c v := by
  obtain ⟨⟨low, high⟩, depth⟩ := checked.channels
  have error := Run.OnlySinkFails.before (fun t => onlySink_ok _) error other
  have error := Run.OnlySinkFails.before (fun t => runBwWriteCrc16_onlySink t) error other
  have error := Run.OnlySinkFails.before (fun t => (emitFlush_emits t).onlySink) error other
  rcases Run.andThen_error error with error | ⟨h, header, error⟩
  · rcases Run.andThen_error error with error | ⟨a, transform, error⟩
    · exact absurd error (frameTransform_no_error checked.count)
    · obtain ⟨⟨m, rfl⟩, -⟩ := frameTransform_ok transform
      exact absurd (runBwWriteFrameHeader_onlySink (var := var)
        (s := { s with mem := m }) ⟨checked.format, checked.aligned, checked.count, checked.number⟩
        (frameAssignment_agrees low high two) c v error) other
  · obtain ⟨a, transform, header⟩ := Run.andThen_ok header
    obtain ⟨⟨m, rfl⟩, performed⟩ := frameTransform_ok transform
    have word : (BitVec.ofNat 4 (frameAssignment mode (channelCount s))).toNat = frameAssignment mode (channelCount s) := by
      rw [BitVec.toNat_ofNat]
      exact Nat.mod_eq_of_lt (frameAssignment_lt high)
    have instr : runInstr (.bwWriteFrameHeader var (BitVec.ofNat 4 (frameAssignment mode (channelCount s))))
        { s with mem := m } = .ok h := by
      show runBwWriteFrameHeader var (BitVec.ofNat 4 (frameAssignment mode (channelCount s))).toNat _ = _
      rw [word]
      exact header
    obtain ⟨channels, bits, count, -⟩ := runInstr_operands instr
    rw [channels, bits] at error
    have legal : legalSamples (sampleCount h) = true := count ▸ checked.count
    obtain ⟨code, before, pl, ss, after, u, commands, performs, chosen⟩ :=
      encodeSubframes_error legal (frameSubframes_sizes depth) error other
    refine ⟨code, (if mode = .leftRight then [] else [.stTransform mode]) ++
      (.bwWriteFrameHeader var (BitVec.ofNat 4 (frameAssignment mode (channelCount s))) :: before), pl, ss, after, u, ?_,
      performed.append (.append (a := [_]) (performs_one instr) performs), chosen⟩
    rw [frameCommands_eq, List.append_assoc, List.cons_append, ← commands]
    rfl

/-- An error of FRAME_ENCODE other than WRITE_FAILED: a check of its own, or an inner choice's. -/
theorem runFrameEncode_error {var : Bool} {s v : State} {c : ErrorCode} (error : runFrameEncode var s = .error c v)
    (other : c ≠ .writeFailed) : v = s ∨ c = .residualRange ∧ ∃ mode d before pl ss after u, FrameChoice s d mode ∧
      frameCommands var mode (channelCount s) (bitDepth s) = before ++ .sfEncode pl ss :: after ∧
      Performs before d u ∧ runSfChoose pl ss.toNat u = .error c v := by
  unfold runFrameEncode at error
  split at error
  · exact .inl (Run.error.inj error).2.symm
  split at error
  · exact .inl (Run.error.inj error).2.symm
  split at error
  · exact .inl (Run.error.inj error).2.symm
  split at error
  · exact .inl (Run.error.inj error).2.symm
  next format aligned count number =>
  have checked : FrameChecked s :=
    ⟨not_not.mp format, not_not.mp aligned, not_not.mp count, not_not.mp number⟩
  rcases Run.andThen_error error with error | ⟨d, stereo, error⟩
  · unfold frameStereo at error
    split at error
    · exact absurd error (runStChoose_no_error checked.count)
    · cases error
  · have choice := frameStereo_choice stereo
    have channels := choice.only.stereo.1
    have depth : bitDepth d = bitDepth s := by rw [choice.only]; rfl
    obtain ⟨code, before, pl, ss, after, u, commands, performs, chosen⟩ := frameBody_error (checked.resOnly choice.only)
      (fun nonzero => channels.trans (choice.two_channels nonzero)) error other
    rw [channels, depth] at commands
    exact .inr ⟨code, _, d, before, pl, ss, after, u, choice, commands, performs, chosen⟩

/-! ### The errors as the host sees them -/

/-- An error a command ends in, other than WRITE_FAILED, is one its pseudocode raised. -/
theorem exec_error {i : Instr} {s t : State} (h : exec i s = .next t) (clear : s.err = false) (set : t.err = true)
    (other : t.errCode ≠ .writeFailed) :
    ∃ u, runInstr i s = .error t.errCode u ∧ t = u.failed t.errCode := by
  rw [exec_eq] at h
  have keeps := runInstr_keeps i s
  have same {u : State} (progress : Progress (footprintOf i s) s u) : u.err = false := by
    rw [progress.rest]
    exact clear
  rcases finish_next h with ⟨u, run, rfl⟩ | ⟨c, u, run, hc, rfl⟩ | ⟨u, run, rfl⟩
  · rw [run] at keeps
    rw [complete_err, same keeps] at set
    cases set
  · rw [run] at keeps
    have code : (errorEntry c u).errCode = c := by
      rw [errorEntry_errCode, same keeps.2]
      rfl
    rw [code]
    exact ⟨u, run, rfl⟩
  · rw [run] at keeps
    refine absurd ?_ other
    have clear : (scrambleRegisters (scramblePlanes (footprintOf i s) u)).err = false := by
      rw [scrambleRegisters_err, scramblePlanes_err]
      exact same keeps.2
    rw [errorEntry_errCode, clear]
    rfl

/-- Settles O30. -/
theorem checkErrorsChangeOnlyStatus : Obligations.CheckErrorsChangeOnlyStatus := by
  intro i s t h clear set other
  obtain ⟨u, run, ends⟩ := exec_error h clear set other
  refine ⟨fun plain => ?_, ?_, ?_, ?_⟩
  · obtain rfl := runInstr_checksFirst plain s _ _ run other
    exact ends
  · rintro pl ss rfl
    refine ⟨(clearResults s).res, clearResults_res s, ?_⟩
    rcases runSfChoose_cases pl ss.toNat s with ⟨f, e⟩ | ⟨e, -⟩ | e | ⟨v, xs, e, -⟩
    · exact absurd (e.symm.trans run) (by simp)
    · obtain ⟨code, rfl⟩ := Run.error.inj (e.symm.trans run)
      exact .inl (code ▸ ends)
    · obtain ⟨code, rfl⟩ := Run.error.inj (e.symm.trans run)
      rw [← code, clearResults_resOnly s] at ends
      exact .inr ends
    · exact absurd (e.symm.trans run) (by simp)
  · rintro pl ss rfl
    exact (exec_failed (i := .sfChoose pl ss) (runSfEncode_error run other) other).trans (congrArg _ ends.symm)
  · rintro var rfl
    rcases runFrameEncode_error run other with rfl | ⟨code, mode, d, before, pl, ss, after, v, choice, commands, performs, chosen⟩
    · exact .inl ends
    · exact .inr ⟨code, mode, d, v, pl, ss, before, after, choice.performed.1, choice.performed.2, commands, performs,
        (exec_failed (i := .sfChoose pl ss) chosen other).trans (congrArg _ ends.symm)⟩

end Sys2Proof.Machine
end

section
/-! The best fixed order (spec/43_fixed_predictor.md R233-R240) and the Rice optimiser (spec/45_rice.md R285-R293) against the
formulas of the spec. -/

namespace Sys2Proof.Machine

/-! ### The best order -/

theorem poisoned_iff {cr : Bool} {p : Nat} (pl : Plane) (n : Nat) (m : Memory) (hp : p ≤ 4) :
    poisoned cr p (entries pl 0 n m) = true ↔ cr = true ∧ ¬ ResidualsFit p n (sampleAt pl m) := by
  rw [residualsFit_iff pl n m hp, poisoned, Bool.and_eq_true, List.any_eq_true, List.all_eq_true]
  simp

theorem residualSum_entries (mode : SumStart) {p : Nat} (pl : Plane) (n : Nat) (m : Memory) (hp : p ≤ 4) :
    residualSum mode p (entries pl 0 n m) = absResidualSum (sumStartIndex mode p) p n (sampleAt pl m) := by
  rw [residualSum, residualSet_entries pl n m hp, absResidualSum, ← List.map_drop, List.map_map, List.range_eq_range',
    List.drop_range']
  simp [Function.comp_def]

/-- R234's sum: 2^49 - 1 where poisoned, else R233's. -/
theorem orderSum_entries (mode : SumStart) (cr : Bool) {p : Nat} (pl : Plane) (n : Nat) (m : Memory) (hp : p ≤ 4) :
    (cr = true ∧ ¬ ResidualsFit p n (sampleAt pl m) → orderSum mode cr p (entries pl 0 n m) = 2 ^ 49 - 1) ∧
      (¬ (cr = true ∧ ¬ ResidualsFit p n (sampleAt pl m)) →
        orderSum mode cr p (entries pl 0 n m) = absResidualSum (sumStartIndex mode p) p n (sampleAt pl m)) := by
  rw [← poisoned_iff pl n m hp, ← residualSum_entries mode pl n m hp]
  exact ⟨fun h => if_pos h, fun h => if_neg h⟩

theorem runFpBestOrder_legal {pl : Plane} (cr : Bool) {s : State} (low : 5 ≤ sampleCount s) (high : sampleCount s ≤ 65535)
    (written : Written pl 0 (sampleCount s) s.mem) :
    runFpBestOrder pl cr s = .ok (bestOrderResults cr (entries pl 0 (sampleCount s) s.mem) s) := by
  unfold runFpBestOrder
  rw [if_neg (not_not_intro ⟨low, high⟩), readEntries_ok written]
  rfl

/-- Settles O48. -/
theorem bestOrderIsLeast : Obligations.BestOrderIsLeast := by
  intro s pl cr
  rw [← sampleCount_eq s]
  intro n x a poisonedAt
  refine ⟨fun low high written => ?_, fun outside => exec_failed (if_pos fun ⟨low, high⟩ => ?_) (by decide)⟩
  · obtain ⟨best4, least, first⟩ := leastOrder_spec (fun p => orderSum s.sumStart cr p (entries pl 0 n s.mem)) 4
    obtain ⟨sum, result, registers⟩ := bestOrderResults_res cr (entries pl 0 n s.mem) s
    have start (p : Nat) : a p = sumStartIndex s.sumStart p := rfl
    refine ⟨fun p => orderSum s.sumStart cr p (entries pl 0 n s.mem), _, _, fun p hp => ?_, best4, least, first,
      exec_completed_of_resOnly (i := .fpBestOrder pl cr) (runFpBestOrder_legal cr low high written) (bestOrderResults_resOnly ..),
      sum, fun poison => ?_, fun clean => ?_, registers⟩
    · rw [start]
      exact orderSum_entries s.sumStart cr pl n s.mem hp
    · have none : bestOrder s.sumStart cr (entries pl 0 n s.mem) = none :=
        if_pos ((poisoned_iff pl n s.mem best4).mpr poison)
      rw [result, none]
      rfl
    · have some : bestOrder s.sumStart cr (entries pl 0 n s.mem) = some (leastSumOrder s.sumStart cr (entries pl 0 n s.mem)) :=
        if_neg fun poison => clean ((poisoned_iff pl n s.mem best4).mp poison)
      rw [result, some]
      rfl
  · have : Config.maxSamples = 65535 := rfl
    have : n = sampleCount s := rfl
    omega

/-! ### The optimiser -/

/-- The parameter R287 chooses for partition `j` of order `q`. -/
def bestParamOf (p n maxk q j : Nat) (x : Nat → Int) : Nat :=
  (bestParam (partitionSum p n q j x) (partitionLength p n q j) maxk).1

theorem bestParamOf_chosen (p n maxk q j : Nat) (x : Nat → Int) :
    ChosenParam (partitionSum p n q j x) (partitionLength p n q j) maxk (bestParamOf p n maxk q j x) := by
  obtain ⟨cost, within, least, first⟩ := bestParam_spec (partitionSum p n q j x) (partitionLength p n q j) maxk
  rw [cost] at least first
  exact ⟨within, least, first⟩

/-- What the optimiser knows of an order, partition by partition. -/
theorem orderParams_entries {p n q : Nat} (maxk : Nat) (m : Memory) (hp : p ≤ n >>> q) :
    orderParams n p maxk q (entries .resp p (n - p) m) = (List.range (2 ^ q)).map fun j =>
      bestParam (partitionSum p n q j (sampleAt .resp m)) (partitionLength p n q j) maxk := by
  refine List.ext_getElem? fun j => ?_
  rw [orderParams, List.getElem?_map, List.getElem?_map]
  rcases Nat.lt_or_ge j (2 ^ q) with inside | outside
  · obtain ⟨first, last⟩ := partition_end hp inside
    rw [partitions_getElem? _ hp inside, take_drop_entries _ _ _ _ _ _ (by omega), Nat.add_sub_cancel' first,
      List.getElem?_range inside, Option.map_some, Option.map_some, zigzagSum_eq, entries_length, entries_eq_range',
      List.map_map]
    rfl
  · rw [List.getElem?_eq_none (by rwa [length_partitions]), List.getElem?_eq_none (by simpa using outside)]
    rfl

/-- The width of an order's parameter field, as its method. -/
theorem methodOf_range (q : Nat) (b : Nat → Nat × DWord) :
    methodOf ((List.range (2 ^ q)).map b) = if orderParamBits q (fun j => (b j).1) = 5 then .five else .four := by
  have same : ((List.range (2 ^ q)).map b).any (fun c => 14 < c.1) = true ↔ ∃ j < 2 ^ q, 14 < (b j).1 := by simp
  unfold methodOf orderParamBits
  by_cases large : ∃ j < 2 ^ q, 14 < (b j).1
  · rw [if_pos (same.mpr large), if_pos large, if_pos rfl]
  · rw [if_neg (mt same.mp large), if_neg large, if_neg (by decide)]

theorem paramBits_methodOf_range (q : Nat) (b : Nat → Nat × DWord) :
    (methodOf ((List.range (2 ^ q)).map b)).paramBits = orderParamBits q fun j => (b j).1 := by
  rw [methodOf_range]
  unfold orderParamBits
  split <;> rfl

theorem orderTotal_entries {p n q : Nat} (maxk : Nat) (m : Memory) (hp : p ≤ n >>> q) :
    orderTotal q (orderParams n p maxk q (entries .resp p (n - p) m)) =
      orderTotalOf p n q (fun j => bestParamOf p n maxk q j (sampleAt .resp m)) (sampleAt .resp m) := by
  rw [orderParams_entries maxk m hp, orderTotal, paramBits_methodOf_range, List.map_map, orderTotalOf]
  have costs : (Prod.snd ∘ fun j => bestParam (partitionSum p n q j (sampleAt .resp m)) (partitionLength p n q j) maxk) =
      fun j => cost (partitionSum p n q j (sampleAt .resp m)) (partitionLength p n q j)
        (bestParamOf p n maxk q j (sampleAt .resp m)) :=
    funext fun j => (bestParam_spec _ _ _).1
  rw [costs]
  rfl

/-- What RC_OPTIMISE leaves. -/
def optimised (c : RiceChoice) (s : State) : State :=
  setRes 2 (BitVec.ofNat 32 c.maxOrder) (setRes64 0 c.total (setChoice c s))

theorem runRcOptimise_legal {p umax maxk : Nat} {s : State} (legal : legalSamples (sampleCount s) = true)
    (some : p < sampleCount s) (written : Written .resp p (sampleCount s - p) s.mem) :
    runRcOptimise p umax maxk s =
      .ok (optimised (optimise (sampleCount s) p umax maxk (entries .resp p (sampleCount s - p) s.mem)) s) := by
  unfold runRcOptimise
  rw [if_neg (not_not_intro legal), if_neg (not_not_intro some), readResiduals, readEntries_ok written]
  rfl

/-- The optimiser's registers, and that nothing else changes (spec/45_rice.md R293). -/
theorem optimised_eq (c : RiceChoice) (s : State) : optimised c s = { s with
    method := c.method, porder := BitVec.ofNat 4 c.order, param := (setChoice c s).param, res := (optimised c s).res } := by
  have only : ResOnly (setChoice c s) (optimised c s) := (setRes64_resOnly ..).trans (setRes_resOnly ..)
  conv_lhs => rw [only, setChoice_eq]

theorem optimised_res (c : RiceChoice) (s : State) :
    let r := (optimised c s).res
    r[1] ++ r[0] = c.total ∧ r[2] = BitVec.ofNat 32 c.maxOrder ∧ ∀ j : Fin 16, 3 ≤ j.val → r[j] = s.res[j] := by
  obtain ⟨total, maxOrder⟩ := read_res64_res2 c.total (BitVec.ofNat 32 c.maxOrder) (setChoice c s)
  refine ⟨total, maxOrder, fun j hj => ?_⟩
  rw [optimised, res_setRes_setRes64_of_three_le _ _ _ _ hj, setChoice_res]

theorem shiftRight_antitone (n : Nat) {q P : Nat} (h : q ≤ P) : n >>> P ≤ n >>> q := by
  rw [Nat.shiftRight_eq_div_pow, Nat.shiftRight_eq_div_pow]
  exact Nat.div_le_div_left (Nat.pow_le_pow_right (by omega) h) (Nat.two_pow_pos q)

/-- Settles O51. -/
theorem optimiserChoosesTheLeast : Obligations.OptimiserChoosesTheLeast := by
  intro s ord umax maxk maxk30 umax8
  rw [← sampleCount_eq s]
  intro n p x
  refine ⟨fun low high some written => ?_, fun outside => ?_⟩
  · have effective := maxOrder_effective (userMax := umax.toNat) some umax8
    let ks := fun q j => bestParamOf p n maxk.toNat q j x
    let P := maxOrder n p umax.toNat
    let total := fun q => orderTotal q (orderParams n p maxk.toNat q (entries .resp p (n - p) s.mem))
    have fits {q : Nat} (hq : q ≤ P) : p ≤ n >>> q := effective.1.2.2.2.trans (shiftRight_antitone n hq)
    have totals {q : Nat} (hq : q ≤ P) : total q = orderTotalOf p n q (ks q) x :=
      orderTotal_entries maxk.toNat s.mem (fits hq)
    let o := lastLeast total P
    obtain ⟨within, least, last⟩ := lastLeast_spec total P
    have o8 : o ≤ 8 := within.trans (effective.1.1.trans umax8)
    have params := orderParams_entries (n := n) maxk.toNat s.mem (fits within)
    let c := optimise n p umax.toNat maxk.toNat (entries .resp p (n - p) s.mem)
    have method : c.method = if orderParamBits o (ks o) = 5 then .five else .four :=
      (congrArg methodOf params).trans (methodOf_range o _)
    have chosen : c.params = (List.range (2 ^ o)).map (ks o) := by
      refine (congrArg (List.map Prod.fst) params).trans ?_
      rw [List.map_map]
      rfl
    obtain ⟨totalWord, maxOrder, others⟩ := optimised_res c s
    refine ⟨P, o, ks, (setChoice c s).param, (optimised c s).res, effective, fun q _ j _ => bestParamOf_chosen p n _ q j x,
      within, fun q hq => ?_, fun q hq later => ?_, ?_, fun j => ?_, ?_, maxOrder, others⟩
    · rw [← totals within, ← totals hq]
      exact least q hq
    · rw [← totals within, ← totals hq]
      exact last q hq later
    · rw [← method]
      exact (exec_completed (i := .rcOptimise ord umax maxk)
        (runRcOptimise_legal (legalSamples_iff.mpr ⟨low, high⟩) some written)).trans
        (congrArg (fun t => Host.Outcome.next (State.completed t)) (optimised_eq c s))
    · have stored : (setChoice c s).param[j] = _ :=
        (setParams_eq 0 c.params { s with method := c.method, porder := BitVec.ofNat 4 c.order }).2 j
      rw [chosen, List.length_map, List.length_range] at stored
      rw [stored]
      by_cases inside : j.val < 2 ^ o
      · rw [if_pos ⟨Nat.zero_le _, by omega⟩, if_pos inside, Nat.sub_zero,
          List.getD_eq_getElem _ _ (by simpa using inside), List.getElem_map, List.getElem_range]
      · rw [if_neg (by omega), if_neg inside]
    · exact totalWord.trans (totals within)
  · by_cases legal : legalSamples (sampleCount s) = true
    · obtain ⟨low, high⟩ := legalSamples_iff.mp legal
      have none : ¬ ord.toNat < sampleCount s := by omega
      exact exec_failed (i := .rcOptimise ord umax maxk) ((if_neg (not_not_intro legal)).trans (if_pos none)) (by decide)
    · exact exec_failed (i := .rcOptimise ord umax maxk) (if_pos legal) (by decide)

end Sys2Proof.Machine
end

section
/-! SF_CHOOSE against its primitives (spec/44_subframe.md R261, R262). -/

namespace Sys2Proof.Machine

/-! ### The registers a choice leaves -/

theorem res_setRes (i : Nat) (w : Word) (s : State) (j : Fin 16) :
    (setRes i w s).res[j] = if i = j.val then w else s.res[j] := by
  rw [← getRes_eq, getRes_setRes _ _ j.isLt, getRes_eq]

theorem res_setRes64 (i : Nat) (d : DWord) (s : State) (j : Fin 16) :
    (setRes64 i d s).res[j] =
      if i + 1 = j.val then d.extractLsb' 32 32 else if i = j.val then d.extractLsb' 0 32 else s.res[j] := by
  rw [← getRes_eq, getRes_setRes64 _ _ j.isLt, getRes_eq]

/-- A kind alone in the zeroed registers. -/
theorem kind_res (w : Word) (s : State) (j : Fin 16) :
    (setRes 2 w (clearResults s)).res[j] = if j.val = 2 then w else if j.val < 6 then 0 else s.res[j] := by
  rw [res_setRes, clearResults_res]
  simp only [eq_comm]

theorem kind_resOnly (w : Word) (s : State) : ResOnly s (setRes 2 w (clearResults s)) :=
  (clearResults_resOnly s).trans (setRes_resOnly ..)

/-- A choice of the optimiser depends on nothing but PARAM. -/
theorem setChoice_param_congr (c : RiceChoice) {s t : State} (h : s.param = t.param) :
    (setChoice c s).param = (setChoice c t).param := by
  refine Vector.ext fun i hi => ?_
  have left := (setParams_eq 0 c.params { s with method := c.method, porder := BitVec.ofNat 4 c.order }).2 ⟨i, hi⟩
  have right := (setParams_eq 0 c.params { t with method := c.method, porder := BitVec.ofNat 4 c.order }).2 ⟨i, hi⟩
  refine left.trans (Eq.trans ?_ right.symm)
  simp only [h]

/-! ### The branches of R262 -/

theorem chooseOver_equal (ss n : Nat) {xs : List Int} (s : State) (h : ∀ x ∈ xs, x = xs.headD 0) :
    chooseOver ss n xs s = .ok (setRes64 4 (BitVec.ofInt 64 (xs.headD 0)) (setRes 2 kindConstant s)) :=
  if_pos (List.all_eq_true.mpr fun x member => beq_iff_eq.mpr (h x member))

theorem not_all_equal {xs : List Int} (h : ∃ x ∈ xs, x ≠ xs.headD 0) : ¬ (xs.all fun x => x == xs.headD 0) = true := by
  obtain ⟨x, member, other⟩ := h
  exact fun all => other (beq_iff_eq.mp (List.all_eq_true.mp all x member))

theorem chooseOver_short (ss : Nat) {n : Nat} {xs : List Int} (s : State) (h : ∃ x ∈ xs, x ≠ xs.headD 0) (short : n ≤ 4) :
    chooseOver ss n xs s = .ok (setRes 2 kindVerbatim s) :=
  (if_neg (not_all_equal h)).trans (if_pos short)

/-- With predictor work the selector's answer decides. -/
theorem chooseOver_long (ss : Nat) {n : Nat} {xs : List Int} (s : State) (h : ∃ x ∈ xs, x ≠ xs.headD 0) (long : 4 < n) :
    chooseOver ss n xs s = (bestOrder s.sumStart (decide (Config.rangeCheckSize ≤ ss)) xs).elim
      (.ok (setRes 2 kindVerbatim s)) fun p => chooseFixed ss n p xs s := by
  refine ((if_neg (not_all_equal h)).trans (if_neg (not_le.mpr long))).trans ?_
  cases bestOrder s.sumStart (decide (Config.rangeCheckSize ≤ ss)) xs <;> rfl

theorem runSfChoose_legal (pl : Plane) (ss : Nat) {s : State} (legal : legalSamples (sampleCount s) = true)
    (written : Written pl 0 (sampleCount s) s.mem) :
    runSfChoose pl ss s = chooseOver ss (sampleCount s) (entries pl 0 (sampleCount s) s.mem) (clearResults s) := by
  rw [runSfChoose, if_neg (not_not_intro legal), readEntries_ok written]
  rfl

theorem headD_entries (pl : Plane) {n : Nat} (m : Memory) (hn : 1 ≤ n) : (entries pl 0 n m).headD 0 = sampleAt pl m 0 := by
  obtain ⟨k, rfl⟩ := Nat.exists_eq_add_of_le' hn
  rw [entries_succ]
  rfl

theorem mem_entries {pl : Plane} {n : Nat} {m : Memory} {x : Int} :
    x ∈ entries pl 0 n m ↔ ∃ i < n, sampleAt pl m i = x := by
  simp [entries, sampleAt]

/-- Two samples of a plane that differ. -/
theorem exists_entry_ne {pl : Plane} {n : Nat} {m : Memory} (hn : 1 ≤ n)
    (h : ∃ i < n, sampleAt pl m i ≠ sampleAt pl m 0) :
    ∃ x ∈ entries pl 0 n m, x ≠ (entries pl 0 n m).headD 0 := by
  obtain ⟨i, hi, other⟩ := h
  rw [headD_entries pl m hn]
  exact ⟨_, mem_entries.mpr ⟨i, hi, rfl⟩, other⟩

/-- Settles O56. -/
theorem subframeChoiceWithoutPredictor : Obligations.SubframeChoiceWithoutPredictor := by
  intro s pl ss
  rw [← sampleCount_eq s]
  intro n x
  refine ⟨fun low high written => ?_, fun outside => exec_failed (if_pos (illegalSamples outside)) (by decide)⟩
  have run := runSfChoose_legal pl ss.toNat (legalSamples_iff.mpr ⟨low, high⟩) written
  refine ⟨fun equal => ?_, fun differ short => ?_⟩
  · have same : ∀ v ∈ entries pl 0 n s.mem, v = (entries pl 0 n s.mem).headD 0 := by
      rw [headD_entries pl s.mem low]
      rintro v member
      obtain ⟨i, hi, rfl⟩ := mem_entries.mp member
      exact equal i hi
    have constant := run.trans (chooseOver_equal ss.toNat n (clearResults s) same)
    rw [headD_entries pl s.mem low] at constant
    have register := res_setRes64 4 (BitVec.ofInt 64 (x 0)) (setRes 2 kindConstant (clearResults s))
    refine ⟨_, exec_completed_of_resOnly constant ((kind_resOnly ..).trans (setRes64_resOnly ..)), ?_, ?_, ?_, ?_, ?_,
      fun j hj => ?_⟩
    · exact (register 0).trans (kind_res _ _ 0)
    · exact (register 1).trans (kind_res _ _ 1)
    · exact (register 2).trans (kind_res _ _ 2)
    · exact (register 3).trans (kind_res _ _ 3)
    · simp [dword_of_words, x]
    · rw [register, if_neg (by omega), if_neg (by omega), kind_res, if_neg (by omega), if_neg (by omega)]
  · have verbatim := run.trans (chooseOver_short ss.toNat (clearResults s) (exists_entry_ne low differ) short)
    exact ⟨_, exec_completed_of_resOnly verbatim (kind_resOnly ..), kind_res kindVerbatim s⟩

/-! ### The choice with predictor work -/

/-- What a Fixed or Verbatim choice leaves once its residuals are in RESP (spec/44_subframe.md R262, steps 6 and 7). -/
def chosenFixed (ss n p : Nat) (c : RiceChoice) (m : Memory) (s : State) : State :=
  setRes 2 (if c.total.toNat < n * ss then kindFixed else kindVerbatim)
    (setRes64 0 c.total (setChoice c (setRes 3 (BitVec.ofNat 32 p) { clearResults s with mem := m })))

theorem chooseFixed_fits {ss n p : Nat} {xs : List Int} (s : State) (h : (residualSet p xs).all inI32 = true) :
    chooseFixed ss n p xs (clearResults s) = .ok (chosenFixed ss n p
      (optimise n p 8 (chooserMaxParam ss) ((residualSet p xs).drop p)) (writeEntries .resp 0 (residualSet p xs) s.mem) s) := by
  refine (if_neg (not_not_intro h)).trans ?_
  rw [show (clearResults s).mem = s.mem from (clearResults_resOnly s).mem]
  rfl

theorem ResOnly.withMem {s t : State} (h : ResOnly s t) (m : Memory) :
    ResOnly { s with mem := m } { t with mem := m } := by
  unfold ResOnly
  conv_lhs => rw [h]

/-- The optimiser's choice stored in a state whose results and planes differ. -/
theorem storedChoice_eq {c : RiceChoice} {m : Memory} {s t u : State} (prepared : ResOnly { s with mem := m } t)
    (only : ResOnly (setChoice c t) u) : u = { s with
      mem := m, method := c.method, porder := BitVec.ofNat 4 c.order, param := (setChoice c s).param, res := u.res } := by
  have same : t.param = s.param := by rw [prepared]
  have param : (setChoice c t).param = (setChoice c s).param := setChoice_param_congr c same
  conv_lhs => rw [only, setChoice_eq, param, prepared]

theorem chosenFixed_eq (ss n p : Nat) (c : RiceChoice) (m : Memory) (s : State) :
    chosenFixed ss n p c m s = { s with
      mem := m, method := c.method, porder := BitVec.ofNat 4 c.order, param := (setChoice c s).param
      res := (chosenFixed ss n p c m s).res } :=
  storedChoice_eq (((clearResults_resOnly s).withMem m).trans (setRes_resOnly ..))
    ((setRes64_resOnly ..).trans (setRes_resOnly ..))

theorem chosenFixed_res (ss n p : Nat) (c : RiceChoice) (m : Memory) (s : State) (j : Fin 16) :
    (chosenFixed ss n p c m s).res[j] =
      if j.val < 2 then (optimised c { s with mem := m }).res[j]
      else if j.val = 2 then (if c.total.toNat < n * ss then 2 else 1)
      else if j.val = 3 then BitVec.ofNat 32 p
      else if j.val < 6 then 0 else s.res[j] := by
  have cleared : (setChoice c (setRes 3 (BitVec.ofNat 32 p) { clearResults s with mem := m })).res[j] =
      if 3 = j.val then BitVec.ofNat 32 p else if j.val < 6 then 0 else s.res[j] := by
    rw [setChoice_res, res_setRes]
    exact congrArg (ite _ _ ·) (clearResults_res s j)
  rw [chosenFixed, optimised, res_setRes, res_setRes, res_setRes64, res_setRes64, cleared]
  by_cases two : j.val < 2
  · have apart : ¬ 2 = j.val := by omega
    have words : 0 + 1 = j.val ∨ 0 = j.val := by omega
    rw [if_neg apart, if_pos two, if_neg apart]
    rcases words with high | low
    · rw [if_pos high, if_pos high]
    · rw [if_pos low, if_pos low]
  · rw [if_neg two, if_neg (show ¬ 0 + 1 = j.val by omega), if_neg (show ¬ 0 = j.val by omega)]
    simp only [eq_comm]
    rfl

theorem order_word {p : Nat} (h : p ≤ 4) :
    BitVec.ofNat 32 p ≠ 0xFFFFFFFF ∧ (BitVec.ofNat 32 p).toNat = p ∧ ((BitVec.ofNat 32 p).setWidth 3).toNat = p := by
  interval_cases p <;> decide

/-- The residuals the optimiser reads back from RESP are the ones the chooser hands it. -/
theorem entries_residuals {p n : Nat} {xs : List Int} (m : Memory) (length : xs.length = n)
    (fits : (residualSet p xs).all inI32 = true) :
    Written .resp p (n - p) (writeEntries .resp 0 (residualSet p xs) m) ∧
      entries .resp p (n - p) (writeEntries .resp 0 (residualSet p xs) m) = (residualSet p xs).drop p := by
  have holds : ∀ v ∈ residualSet p xs, Holds .resp v := fun v member => inI32_iff.mp (List.all_eq_true.mp fits v member)
  have written := written_writeEntries .resp 0 m holds
  have all := entries_writeEntries (pl := .resp) (i := 0) m holds
  rw [length_residualSet, length] at written all
  rcases Nat.lt_or_ge n p with short | enough
  · refine ⟨fun j _ _ => by omega, ?_⟩
    rw [List.drop_eq_nil_of_le (by rw [length_residualSet]; omega), show n - p = 0 by omega]
    rfl
  · refine ⟨written.mono (by omega) (by omega), ?_⟩
    have run := take_drop_entries .resp 0 n p (n - p) (writeEntries .resp 0 (residualSet p xs) m) (by omega)
    rw [all, Nat.zero_add, List.take_of_length_le (by simp [length])] at run
    exact run.symm

/-- Settles O57: each branch of the choice, with the primitives' ends. -/
theorem subframeChoiceIsItsPrimitives : Obligations.SubframeChoiceIsItsPrimitives := by
  intro s b pl ss
  rw [← sampleCount_eq s]
  intro n maxk low high written differ selected
  have legal : legalSamples n = true := legalSamples_iff.mpr ⟨by omega, high⟩
  have choose := (runSfChoose_legal pl ss.toNat legal written).trans
    (chooseOver_long ss.toNat (clearResults s) (exists_entry_ne (by omega) differ) (by omega))
  rw [show (clearResults s).sumStart = s.sumStart by rw [clearResults_resOnly s]] at choose
  have selector : b.res = (bestOrderResults (decide (28 ≤ ss.toNat)) (entries pl 0 n s.mem) s).res := by
    have run := exec_completed_of_resOnly (i := .fpBestOrder pl (decide (28 ≤ ss.toNat)))
      (runFpBestOrder_legal _ low high written) (bestOrderResults_resOnly ..)
    rw [run] at selected
    exact (congrArg State.res (Host.Outcome.next.inj selected)).symm
  have answer := (bestOrderResults_res (decide (28 ≤ ss.toNat)) (entries pl 0 n s.mem) s).2.1
  rw [← selector] at answer
  change runSfChoose pl ss.toNat s = (bestOrder s.sumStart (decide (28 ≤ ss.toNat)) (entries pl 0 n s.mem)).elim _ _ at choose
  cases order : bestOrder s.sumStart (decide (28 ≤ ss.toNat)) (entries pl 0 n s.mem) with
  | none =>
    rw [order] at choose answer
    exact ⟨fun _ => ⟨_, exec_completed_of_resOnly choose (kind_resOnly ..), kind_res kindVerbatim s⟩,
      fun some => absurd answer some⟩
  | some p =>
    rw [order] at choose answer
    have p4 := bestOrder_le order
    obtain ⟨proper, value, narrow⟩ := order_word p4
    refine ⟨fun none => absurd (answer.symm.trans none) proper, fun _ => ?_⟩
    rw [answer, value]
    refine ⟨p4, fun beyond => ?_, fun fits m o residuals optimise => ?_⟩
    · have raised : runSfChoose pl ss.toNat s = .error .residualRange (clearResults s) :=
        choose.trans (if_pos (mt (residualsFit_iff pl n s.mem p4).mpr beyond))
      refine ⟨(clearResults s).res, (exec_failed (i := .sfChoose pl ss) raised (by decide)).trans ?_, clearResults_res s⟩
      conv_lhs => rw [clearResults_resOnly s]
    · have inRange := (residualsFit_iff pl n s.mem p4).mp fits
      have memory : m = writeEntries .resp 0 (residualSet p (entries pl 0 n s.mem)) s.mem := by
        have run := exec_completed (i := .fpResiduals pl ((BitVec.ofNat 32 p).setWidth 3))
          (runFpResiduals_fits legal written (narrow.trans_le p4) (by rw [narrow]; exact fits))
        rw [run, narrow] at residuals
        exact (congrArg State.mem (Host.Outcome.next.inj residuals)).symm
      obtain ⟨stored, tail⟩ := entries_residuals (n := n) s.mem (entries_length pl 0 n s.mem) inRange
      rw [← memory] at stored tail
      have ceiling : maxk.toNat = chooserMaxParam ss.toNat := by
        simp only [maxk, chooserMaxParam]
        split <;> rfl
      have optimiser : o = (optimised (Machine.optimise n p 8 (chooserMaxParam ss.toNat)
          ((residualSet p (entries pl 0 n s.mem)).drop p)) { s with mem := m }).completed := by
        have run := exec_completed (i := .rcOptimise ((BitVec.ofNat 32 p).setWidth 3) 8 maxk)
          (runRcOptimise_legal (p := ((BitVec.ofNat 32 p).setWidth 3).toNat) (umax := (8 : BitVec 4).toNat)
            (maxk := maxk.toNat) (s := { s with mem := m }) legal (by rw [narrow]; exact p4.trans_lt low)
            (by rw [narrow]; exact stored))
        rw [run, narrow, ceiling] at optimise
        rw [← tail]
        exact (Host.Outcome.next.inj optimise).symm
      have run := choose.trans (chooseFixed_fits s inRange)
      rw [← memory] at run
      generalize Machine.optimise n p 8 (chooserMaxParam ss.toNat) ((residualSet p (entries pl 0 n s.mem)).drop p) = c at *
      obtain ⟨total, -, -⟩ := optimised_res c { s with mem := m }
      have state := chosenFixed_eq ss.toNat n p c m s
      have left := optimised_eq c { s with mem := m }
      rw [setChoice_param_congr c (s := { s with mem := m }) (t := s) rfl] at left
      have method : o.method = c.method := by rw [optimiser, left]; rfl
      have porder : o.porder = BitVec.ofNat 4 c.order := by rw [optimiser, left]; rfl
      have param : o.param = (setChoice c s).param := by rw [optimiser, left]; rfl
      have results : o.res = (optimised c { s with mem := m }).res := by rw [optimiser]; rfl
      rw [method, porder, param, results, total]
      exact ⟨_, (exec_completed (i := .sfChoose pl ss) run).trans (congrArg (fun t => Host.Outcome.next (State.completed t)) state),
        chosenFixed_res ss.toNat n p c m s⟩

end Sys2Proof.Machine
end
